-- ==== Sys2Proof/Word.lean ====
section
/-! DEFINITION. The word types of the part (R6: bit 0 is the least significant, little-endian) and the
plainest arithmetic over them. -/

namespace Sys2Proof

/-- One byte of any store. -/
abbrev Byte := BitVec 8

/-- A 64-bit register or address word. -/
abbrev Word := BitVec 64

/-- One 32-bit lane of the vector unit (R281). -/
abbrev Lane := BitVec 32

/-- An integer register number x0 to x31. -/
abbrev Reg := BitVec 5

/-- A vector of the vector unit: 128 lanes, lane 0 first (R281). -/
abbrev Vec := List Lane

/-- Little-endian value of a list of bytes: the first byte holds bits [7:0] (R6). -/
def leNat : List Byte → Nat
  | [] => 0
  | b :: bs => b.toNat + 256 * leNat bs

/-- The `n` bytes of `v`, little-endian (R6). -/
def leBytes : Nat → Nat → List Byte
  | 0, _ => []
  | n + 1, v => BitVec.ofNat 8 v :: leBytes n (v / 256)

/-- Bits [h:l] of a natural number, both ends included (R6). -/
def bits (v h l : Nat) : Nat := (v >>> l) % 2 ^ (h + 1 - l)

/-- Bit `i` of a natural number. -/
def bit (v i : Nat) : Bool := v.testBit i

/-- `v` with bits [h:l] replaced by the low bits of `x`. -/
def setBits (v h l x : Nat) : Nat :=
  v - bits v h l * 2 ^ l + x % 2 ^ (h + 1 - l) * 2 ^ l

/-- The `w`-bit field `t` read as two's complement (R94 sext). -/
def sext (t w : Nat) : Int :=
  if t % 2 ^ w < 2 ^ (w - 1) then (t % 2 ^ w : Nat) else (t % 2 ^ w : Nat) - (2 ^ w : Nat)

/-- R94 sat. -/
def sat (x lo hi : Int) : Int := if x < lo then lo else if hi < x then hi else x

/-- `x` reduced into `w` bits, two's complement or unsigned alike. -/
def wrapW (w : Nat) (x : Int) : Nat := (x % (2 ^ w : Nat)).toNat

/-- R94 wrap32. -/
def wrap32 (x : Int) : Int := (x + 2 ^ 31) % 2 ^ 32 - 2 ^ 31

/-- 0 or 1. -/
def b2n (b : Bool) : Nat := if b then 1 else 0

/-- ceil(a / b). -/
def ceilDiv (a b : Nat) : Nat := (a + b - 1) / b

/-- `x` rounded up to a multiple of `m`. -/
def roundUp (x m : Nat) : Nat := ceilDiv x m * m

end Sys2Proof
end

