-- ==== Sys2Proof/Syntax/Operands.lean ====
section
/-! DEFINITION. The operand forms of the instruction table: the fields of an engine word that several
operations share, the RV64 base operations of R225, and the data that an event of the part carries. -/

namespace Sys2Proof

/-! ## RV64 (R225) -/

/-- Branch conditions. -/
inductive BrCond where | eq | ne | lt | ge | ltu | geu
  deriving DecidableEq, Repr, Inhabited

/-- Register-immediate operations with a 12-bit immediate. -/
inductive ImmOp where | addi | slti | sltiu | xori | ori | andi | addiw
  deriving DecidableEq, Repr, Inhabited

/-- Shifts by an immediate; the `w` forms take 5 bits. -/
inductive ShOp where | slli | srli | srai | rori | slliUw | slliw | srliw | sraiw | roriw
  deriving DecidableEq, Repr, Inhabited

/-- Operations of one register (Zbb). -/
inductive UnOp where | clz | ctz | cpop | sextB | sextH | zextH | orcB | rev8 | clzw | ctzw | cpopw
  deriving DecidableEq, Repr, Inhabited

/-- Operations of two registers (I, M, Zba, Zbb, Zicond). -/
inductive RegOp where
  | add | sub | sll | slt | sltu | xor | srl | sra | or | and
  | addw | subw | sllw | srlw | sraw
  | mul | mulh | mulhsu | mulhu | div | divu | rem | remu
  | mulw | divw | divuw | remw | remuw
  | addUw | sh1add | sh2add | sh3add | sh1addUw | sh2addUw | sh3addUw
  | andn | orn | xnor | max | maxu | min | minu | rol | ror | rolw | rorw
  | czeroEqz | czeroNez
  deriving DecidableEq, Repr, Inhabited

/-- The integer instructions of R225: I without its memory, fence and system parts, M, Zba, Zbb,
Zicond, and the trap returns of the privileged specification. -/
inductive RvOp where
  | lui (rd : Reg) (imm : BitVec 20)
  | auipc (rd : Reg) (imm : BitVec 20)
  | jal (rd : Reg) (off : BitVec 20)        -- offset bits [20:1]
  | jalr (rd rs1 : Reg) (imm : BitVec 12)
  | branch (c : BrCond) (rs1 rs2 : Reg) (off : BitVec 12)   -- offset bits [12:1]
  | opImm (op : ImmOp) (rd rs1 : Reg) (imm : BitVec 12)
  | shImm (op : ShOp) (rd rs1 : Reg) (sh : BitVec 6)
  | unary (op : UnOp) (rd rs1 : Reg)
  | op (op : RegOp) (rd rs1 rs2 : Reg)
  | ebreak
  | sret
  | mret
  deriving DecidableEq, Repr, Inhabited

/-- Widths of scalar loads. -/
inductive LoadW where | b | h | w | d | bu | hu | wu
  deriving DecidableEq, Repr, Inhabited

/-- Access widths of scalar stores. -/
inductive AccW where | b | h | w | d
  deriving DecidableEq, Repr, Inhabited

/-- Bytes of an access. -/
def AccW.bytes : AccW → Nat | .b => 1 | .h => 2 | .w => 4 | .d => 8

/-- Bytes of a load. -/
def LoadW.bytes : LoadW → Nat | .b => 1 | .h => 2 | .w => 4 | .d => 8 | .bu => 1 | .hu => 2 | .wu => 4

/-- Whether a load sign-extends. -/
def LoadW.signed : LoadW → Bool | .b => true | .h => true | .w => true | .d => true | _ => false

/-- Atomic read-modify-write operations of the A extension. -/
inductive AmoOp where | swap | add | xor | and | or | min | max | minu | maxu
  deriving DecidableEq, Repr, Inhabited

/-- Zicsr operations, register and immediate forms. -/
inductive CsrOp where | rw | rs | rc | rwi | rsi | rci
  deriving DecidableEq, Repr, Inhabited

/-! ## Engine words (R230 to R243) -/

/-- WAIT and SIG of an engine word (R230, R232, R233). -/
structure Hdr where
  wait : BitVec 8
  sig  : BitVec 8
  deriving DecidableEq, Repr, Inhabited

/-- A predicate operand, the pair K and KN (R238). -/
structure Pred where
  k  : BitVec 4
  kn : Bool
  deriving DecidableEq, Repr, Inhabited

/-- The integer vector types, T = 0 to 3 (R241). -/
inductive IntT where | i32 | i16 | i8 | u8
  deriving DecidableEq, Repr, Inhabited

/-- The floating vector types, T = 0 to 2 (R241). -/
inductive FpT where | f32 | bf16 | f16
  deriving DecidableEq, Repr, Inhabited

/-- The two types of the reductions and block forms (R293, R299). -/
inductive FbT where | f32 | bf16
  deriving DecidableEq, Repr, Inhabited

/-- The register element types, type codes 0 to 8 (R240). -/
inductive ElemT where | f32 | f16 | bf16 | e4m3 | e5m2 | i32 | i16 | i8 | u8
  deriving DecidableEq, Repr, Inhabited

/-- The matrix types, m = 0 to 6 (R243). -/
inductive MxT where | i8 | u8 | e4m3 | e5m2 | f16 | bf16 | bs8
  deriving DecidableEq, Repr, Inhabited

/-- The matrix types of tmma.sp, m = 0 to 3 (R243). -/
inductive MspT where | i8 | u8 | e4m3 | e5m2
  deriving DecidableEq, Repr, Inhabited

/-- The element types of scat.add and scat.max, t = 0, 1, 2, 5 (R243). -/
inductive ScT where | f32 | f16 | bf16 | i32
  deriving DecidableEq, Repr, Inhabited

/-- The element types of sig.hash, t = 0, 1, 2, 3, 4, 7 (R243). -/
inductive SigT where | f32 | f16 | bf16 | e4m3 | e5m2 | i8
  deriving DecidableEq, Repr, Inhabited

/-- Condition codes of vcmp (R287). -/
inductive Cond where | eq | ne | lt | le | gt | ge
  deriving DecidableEq, Repr, Inhabited

/-- Condition codes of vfcmp (R290). -/
inductive FCond where | eq | ne | lt | le | gt | ge | unord
  deriving DecidableEq, Repr, Inhabited

/-- Fields of layout VMM (R239). -/
structure Vmm where
  v   : BitVec 6
  cl  : BitVec 4
  x   : BitVec 6
  off : BitVec 8
  p   : Pred
  deriving DecidableEq, Repr, Inhabited

/-- Fields of layout VMD (R239). -/
structure Vmd where
  a    : BitVec 6
  b    : BitVec 6
  path : BitVec 4
  cl   : BitVec 4
  p    : Pred
  deriving DecidableEq, Repr, Inhabited

/-- Fields of layout MXT (R239): NK is stored minus one. -/
structure Mxt where
  ma  : BitVec 4
  ct  : BitVec 8
  cx  : Bool
  nk1 : BitVec 4
  ep  : BitVec 4
  za  : Bool
  deriving DecidableEq, Repr, Inhabited

/-- Fields of layout MXA (R239): N is stored minus one. -/
structure Mxa where
  ct : BitVec 8
  ma : BitVec 4
  n1 : BitVec 8
  deriving DecidableEq, Repr, Inhabited

/-- Fields of layout CPX with handles (R239). -/
structure Cpx where
  hs : BitVec 12
  hd : BitVec 12
  cl : BitVec 4
  ro : Bool
  deriving DecidableEq, Repr, Inhabited

/-- Fields of layout GSX (R239): CNT is stored minus one. -/
structure Gsx where
  h    : BitVec 12
  cnt1 : BitVec 12
  cl   : BitVec 4
  deriving DecidableEq, Repr, Inhabited

/-- Fields of layout SGX (R239): N is stored minus one. -/
structure Sgx where
  ma : BitVec 4
  n1 : BitVec 8
  cl : BitVec 4
  deriving DecidableEq, Repr, Inhabited

/-! ## Data carried by events -/

/-- One prediction of a block at its luma sample (8bx + 4, 8by + 4): whether it references the previous output picture, the picture
order count of its reference, and the two components of its vector, each an affine function c + a·x + b·y of the sample's
coordinates in units of 2^-shift quarter-pels; a translation has a = b = 0 (R156). -/
structure BlockPred where
  prev  : Bool
  poc   : Int
  horiz : Int × Int × Int
  vert  : Int × Int × Int
  shift : Nat
  deriving DecidableEq, Repr, Inhabited

/-- A transform that covers samples of a block: its dequantised luma coefficients, log2 of what normalises the sum of their
squares, and log2 of its area in blocks (R157). -/
structure Residue where
  coef : List Int
  gain : Nat
  area : Nat
  deriving DecidableEq, Repr, Inhabited

/-- One decoded picture (R155 to R159): what the bitstream gives is an input of the event. Of each 8x8 block, in row-major order,
its list-0 and list-1 predictions, none of them in an intra block, and its transforms; and the blocks that were damaged. -/
structure Picture where
  frame   : Nat
  width   : Nat
  height  : Nat
  tenBit  : Bool
  key     : Bool                       -- key frame (R158)
  luma    : List Nat                   -- row-major samples
  chroma  : List Nat                   -- component, x/2, y/2, component fastest
  poc     : Int                        -- picture order count
  pred    : List (Option BlockPred × Option BlockPred)
  resid   : List (List Residue)
  unsupported : Bool                   -- profile outside R4 (R159)
  damaged : List Nat
  deriving DecidableEq, Repr, Inhabited

/-- An agent outside the harts that accesses the register window (R26). -/
inductive RegAgent where
  | host                 -- the host through the physical function
  | hart (h : Nat)       -- a hart in M mode
  deriving DecidableEq, Repr, Inhabited

/-- The units that management firmware can fence (R420). -/
inductive UnitKind where | core | channel | decoder | link | fi
  deriving DecidableEq, Repr, Inhabited

/-- Read-modify-writes that reach the part from outside: the AtomicOps that it completes (R385), and for a peer the AMOs (R144) and the
element updates of scat.add and scat.max, with their captured rounding mode (R359, R360). -/
inductive BusAtomic where
  | fetchAdd | swap | cas
  | amo (o : AmoOp)
  | upd (max : Bool) (t : ScT) (rm : BitVec 2)
  deriving DecidableEq, Repr, Inhabited

/-- What one host or peer access asks for: read `n` bytes, write these bytes, or an AtomicOp on `n` bytes with its operand, and for CAS
the value to compare with and the one to store. -/
inductive BusOp where
  | read (n : Nat)
  | write (bytes : List Byte)
  | atomic (k : BusAtomic) (n : Nat) (x y : Word)
  deriving DecidableEq, Repr, Inhabited

/-- What a cold reset takes from the board: the strap (R426). -/
structure BootInputs where
  liquid   : Bool
  deriving DecidableEq, Repr, Inhabited

/-- The attributes that travel with a peer's request: word 0 of the sender's page-table entry, the level at which it stands, and
which half of a packed pair of pages it maps (R44, R108, R109). -/
structure PeerPage where
  w0    : BitVec 64
  level : Nat
  half  : Bool
  deriving DecidableEq, Repr, Inhabited

/-- The physical address that a peer's request names, in a page of the sender's. -/
structure PeerAddr where
  page : PeerPage
  pa   : Nat
  deriving DecidableEq, Repr, Inhabited

end Sys2Proof
end

