-- ==== Sys2Proof/Syntax.lean ====
section
/-! DEFINITION. Instr: one constructor for every row of spec/opcode_table.json. The first rows are
fetched by a hart; the rows of the engines are the operations that the 64-bit engine words name; the
remaining rows are the steps that the part's other agents take. -/

namespace Sys2Proof

/-- The steps of the part, one constructor per row of the table of operations and events. -/
inductive Instr where
  /-- R258: Loads capture slots sc0 and sc1 from two integer registers for the next engine word pushed. -/
  | cap (rs1 rs2 : Reg)
  /-- R259: Copies a 64-byte record into a stream's record queue with a PKG release and returns an acceptance status. -/
  | qpush (rd rs1 rs2 : Reg)
  /-- R260: Submits a child launch record to the front end after a PKG release and returns its launch number. -/
  | launch (rd rs1 : Reg)
  /-- R260: Submits a child launch that binds no iteration before the parent's timeline of engine e reaches the given value. -/
  | launchWait (e : BitVec 3) (rd rs1 rs2 : Reg)
  /-- R261: Marks and joins every queue, drains all timelines, releases at launch scope and then retires the continuation. -/
  | exit
  /-- R262: Suspends the continuation as READY so that hart 1 chooses again. -/
  | yield
  /-- R265: Sets the arrival count of a hardware barrier, keeping its phase count. -/
  | hbInit (rs1 rs2 : Reg)
  /-- R266: Adds one arrival to a barrier as a CORE-scope release and tests for phase completion. -/
  | hbArrive (rs1 : Reg)
  /-- R267: Waits for the relevant barrier phase to complete, suspending if needed, then acquires at CORE scope. -/
  | hbWait (rs1 : Reg)
  /-- R266: Adds a byte count to a barrier's pending-byte counter and tests for phase completion. -/
  | hbTxadd (rs1 rs2 : Reg)
  /-- R269: Returns the current timeline of an engine context without creating any ordering. -/
  | tlRead (e : BitVec 3) (rd : Reg)
  /-- R269: Waits until an engine timeline reaches a value, raising a faulted command's fault instead, then acquires at the named scope. -/
  | tlWait (scope e : BitVec 3) (rs1 : Reg)
  /-- R270: Waits until any masked tag is set and returns the lowest such tag, or raises a faulted signaller's fault. -/
  | tagWany (rd rs1 : Reg)
  /-- R270: Waits until every masked tag is set, or raises a faulted signaller's fault. -/
  | tagWall (rs1 : Reg)
  /-- R270: Returns the lowest set masked tag or -1 without waiting. -/
  | tagFfr (rd rs1 : Reg)
  /-- R270: Clears the masked tags of the continuation. -/
  | tagClr (rs1 : Reg)
  /-- R271: Places an issue marker in each engine queue named by the mask. -/
  | mfence (mask : BitVec 6)
  /-- R271: Stalls hart 0 until every outstanding marker has reached the head of its queue. -/
  | mjoin
  /-- R274: Opens a store group at the named scope and starts its 4,096-clk limit. -/
  | sgBegin (scope : BitVec 3)
  /-- R274: Closes the store group, committing all its stores at once or none, and writes the status word. -/
  | sgEnd (rd : Reg)
  /-- R274: Aborts the open store group with code EXPLICIT and a program-given detail. -/
  | sgAbort (rs1 : Reg)
  /-- R275: Waits until an aligned 8-byte location differs from a given value, suspending or stalling meanwhile. -/
  | waddr (rs1 rs2 : Reg)
  /-- R276: Returns BUSY, DONE or FAULT for an engine and command number from one snapshot. -/
  | engStat (e : BitVec 3) (rd rs1 : Reg)
  /-- R277: Takes the oldest vector mailbox entry into an integer register, stalling while one is still due. -/
  | vmbPop (rd : Reg)
  /-- R278: Sets the base of the v view for engine words pushed afterwards. -/
  | vwsetV (rs1 : Reg)
  /-- R278: Sets the base of the m view for engine words pushed afterwards. -/
  | vwsetM (rs1 : Reg)
  /-- R278: Sets the base of the c view for engine words pushed afterwards. -/
  | vwsetC (rs1 : Reg)
  /-- R279: Returns from the S-mode handler by checking and restoring the trap frame, restarting or abandoning faulted commands and re-injecting the replay queue. -/
  | tret
  /-- R272: Orders the hart's accesses in the masked classes at the named scope, waiting for earlier ones to be performed. -/
  | fenceC (mask : BitVec 16) (scope : BitVec 3)
  /-- R273: Loads one byte sign-extended and then acquires at the named scope over the class mask. -/
  | ldAcqB (m : BitVec 5) (scope : BitVec 3) (rd rs1 : Reg)
  /-- R273: Loads two bytes sign-extended and then acquires at the named scope over the class mask. -/
  | ldAcqH (m : BitVec 5) (scope : BitVec 3) (rd rs1 : Reg)
  /-- R273: Loads four bytes sign-extended and then acquires at the named scope over the class mask. -/
  | ldAcqW (m : BitVec 5) (scope : BitVec 3) (rd rs1 : Reg)
  /-- R273: Loads eight bytes and then acquires at the named scope over the class mask. -/
  | ldAcqD (m : BitVec 5) (scope : BitVec 3) (rd rs1 : Reg)
  /-- R273: Releases at the named scope over the class mask and then stores one byte. -/
  | stRelB (m : BitVec 5) (scope : BitVec 3) (rs1 rs2 : Reg)
  /-- R273: Releases at the named scope over the class mask and then stores two bytes. -/
  | stRelH (m : BitVec 5) (scope : BitVec 3) (rs1 rs2 : Reg)
  /-- R273: Releases at the named scope over the class mask and then stores four bytes. -/
  | stRelW (m : BitVec 5) (scope : BitVec 3) (rs1 rs2 : Reg)
  /-- R273: Releases at the named scope over the class mask and then stores eight bytes, a valid trigger store when aimed at a trigger register. -/
  | stRelD (m : BitVec 5) (scope : BitVec 3) (rs1 rs2 : Reg)
  /-- R225: Executes a standard RV64 integer, bit-manipulation or conditional instruction of the supported extensions. -/
  | rvIntegerOp (c : Bool) (op : RvOp)
  /-- R226: Performs a scalar load in the class of dclass, moving stored bytes after translation and checks. -/
  | rvLoad (c : Bool) (w : LoadW) (rd rs1 : Reg) (imm : BitVec 12)
  /-- R226: Performs a scalar store in the class of dclass after translation and checks. -/
  | rvStore (c : Bool) (w : AccW) (rs1 rs2 : Reg) (imm : BitVec 12)
  /-- R144: Performs an indivisible atomic read-modify-write, acquiring or releasing at dclass.SCOPE when aq or rl is set. -/
  | rvAmo (op : AmoOp) (dbl aq rl : Bool) (rd rs1 rs2 : Reg)
  /-- R144: Loads a value and reserves its 64-byte line. -/
  | rvLr (dbl aq rl : Bool) (rd rs1 : Reg)
  /-- R144: Stores conditionally, failing if the reserved line was written or a trap or suspension point intervened. -/
  | rvSc (dbl aq rl : Bool) (rd rs1 rs2 : Reg)
  /-- R127: Executes as fence.c with mask 0xFFFF and scope SYS. -/
  | rvFence (fm pred succ : BitVec 4) (rd rs1 : Reg)
  /-- R127: Orders only the hart's own instruction fetch. -/
  | rvFenceI (imm : BitVec 12) (rd rs1 : Reg)
  /-- R127: Executes as a hint that orders nothing. -/
  | rvPause
  /-- R226: Traps from U mode to the S-mode handler, or from S mode to scheduler firmware. -/
  | rvEcall
  /-- R226: Waits for an interrupt in S or M mode and is illegal in U mode. -/
  | rvWfi
  /-- R226: Executes as a no-op in S mode and is illegal in U mode. -/
  | rvSfenceVma (rs1 rs2 : Reg)
  /-- R226: Reads or writes a standard or vendor CSR, raising illegal instruction for writes to read-only Decium CSRs or unknown numbers. -/
  | rvCsrAccess (op : CsrOp) (csr : BitVec 12) (rd src : Reg)
  /-- R47: A free walker takes the oldest miss from its die's queue and starts a walk. -/
  | pageWalkStart (die : Nat)
  /-- R47: A walk ends with a leaf or a fault and serves every coalesced miss with its own permission checks. -/
  | pageWalkComplete (die w : Nat)
  /-- R234: Hart 0 checks a 64-bit engine word and pushes it with its capture slots and next command number into its engine queue. -/
  | engineWordPush (w : BitVec 64)
  /-- R286: Adds integer elements with wrap-around. -/
  | vadd (h : Hdr) (t : IntT) (d a b : BitVec 6) (p : Pred)
  /-- R286: Subtracts integer elements with wrap-around. -/
  | vsub (h : Hdr) (t : IntT) (d a b : BitVec 6) (p : Pred)
  /-- R286: Multiplies integer elements with wrap-around. -/
  | vmul (h : Hdr) (t : IntT) (d a b : BitVec 6) (p : Pred)
  /-- R286: Returns the high half of the signed double-width product. -/
  | vmulh (h : Hdr) (t : IntT) (d a b : BitVec 6) (p : Pred)
  /-- R286: Multiplies and adds integer elements with wrap-around. -/
  | vmac (h : Hdr) (t : IntT) (d a b c : BitVec 6) (p : Pred)
  /-- R286: Takes the smaller of integer elements. -/
  | vmin (h : Hdr) (t : IntT) (d a b : BitVec 6) (p : Pred)
  /-- R286: Takes the larger of integer elements. -/
  | vmax (h : Hdr) (t : IntT) (d a b : BitVec 6) (p : Pred)
  /-- R286: Takes the wrapped absolute value of integer elements. -/
  | vabs (h : Hdr) (t : IntT) (d a : BitVec 6) (p : Pred)
  /-- R286: Negates integer elements with wrap-around. -/
  | vneg (h : Hdr) (t : IntT) (d a : BitVec 6) (p : Pred)
  /-- R286: Adds integer elements with saturation, raising SAT when clipped. -/
  | vadds (h : Hdr) (t : IntT) (d a b : BitVec 6) (p : Pred)
  /-- R286: Subtracts integer elements with saturation, raising SAT when clipped. -/
  | vsubs (h : Hdr) (t : IntT) (d a b : BitVec 6) (p : Pred)
  /-- R286: Clamps integer elements between a low and a high bound. -/
  | vclip (h : Hdr) (t : IntT) (d a b c : BitVec 6) (p : Pred)
  /-- R286: Shifts integer elements left. -/
  | vshl (h : Hdr) (t : IntT) (d a b : BitVec 6) (p : Pred)
  /-- R286: Shifts integer elements right logically. -/
  | vshr (h : Hdr) (t : IntT) (d a b : BitVec 6) (p : Pred)
  /-- R286: Shifts integer elements right arithmetically. -/
  | vsra (h : Hdr) (t : IntT) (d a b : BitVec 6) (p : Pred)
  /-- R286: Counts the one bits of each integer element. -/
  | vpopc (h : Hdr) (t : IntT) (d a : BitVec 6) (p : Pred)
  /-- R286: Counts the leading zero bits of each integer element. -/
  | vclz (h : Hdr) (t : IntT) (d a : BitVec 6) (p : Pred)
  /-- R287: Compares integer elements and writes a predicate register. -/
  | vcmp (h : Hdr) (t : IntT) (cnd : Cond) (kd : BitVec 4) (a b : BitVec 6) (p : Pred)
  /-- R288: Bitwise AND of lanes. -/
  | vand (h : Hdr) (d a b : BitVec 6) (p : Pred)
  /-- R288: Bitwise OR of lanes. -/
  | vor (h : Hdr) (d a b : BitVec 6) (p : Pred)
  /-- R288: Bitwise XOR of lanes. -/
  | vxor (h : Hdr) (d a b : BitVec 6) (p : Pred)
  /-- R288: Bitwise complement of lanes. -/
  | vnot (h : Hdr) (d a : BitVec 6) (p : Pred)
  /-- R288: Copies lane values unchanged. -/
  | vmov (h : Hdr) (d a : BitVec 6) (p : Pred)
  /-- R288: Selects each lane from A or B by the predicate. -/
  | vsel (h : Hdr) (d a b : BitVec 6) (p : Pred)
  /-- R288: Broadcasts one lane of A to every active lane. -/
  | vbcst (h : Hdr) (d a : BitVec 6) (lane : BitVec 7) (p : Pred)
  /-- R288: Writes a sign-extended immediate to every active lane. -/
  | vmovi (h : Hdr) (d : BitVec 6) (imm : BitVec 18) (p : Pred)
  /-- R289: Adds floating-point elements with one rounding. -/
  | vfadd (h : Hdr) (t : FpT) (d a b : BitVec 6) (p : Pred)
  /-- R289: Subtracts floating-point elements with one rounding. -/
  | vfsub (h : Hdr) (t : FpT) (d a b : BitVec 6) (p : Pred)
  /-- R289: Multiplies floating-point elements with one rounding. -/
  | vfmul (h : Hdr) (t : FpT) (d a b : BitVec 6) (p : Pred)
  /-- R289: Computes a times b plus c with one rounding. -/
  | vfma (h : Hdr) (t : FpT) (d a b c : BitVec 6) (p : Pred)
  /-- R289: Computes a times b minus c with one rounding. -/
  | vfms (h : Hdr) (t : FpT) (d a b c : BitVec 6) (p : Pred)
  /-- R289: Computes c minus a times b with one rounding. -/
  | vfnma (h : Hdr) (t : FpT) (d a b c : BitVec 6) (p : Pred)
  /-- R289: Takes fmin of floating-point elements. -/
  | vfmin (h : Hdr) (t : FpT) (d a b : BitVec 6) (p : Pred)
  /-- R289: Takes fmax of floating-point elements. -/
  | vfmax (h : Hdr) (t : FpT) (d a b : BitVec 6) (p : Pred)
  /-- R289: Clears the sign bit of floating-point elements. -/
  | vfabs (h : Hdr) (t : FpT) (d a : BitVec 6) (p : Pred)
  /-- R289: Inverts the sign bit of floating-point elements. -/
  | vfneg (h : Hdr) (t : FpT) (d a : BitVec 6) (p : Pred)
  /-- R289: Computes the correctly rounded reciprocal. -/
  | vfrcp (h : Hdr) (t : FpT) (d a : BitVec 6) (p : Pred)
  /-- R289: Computes the correctly rounded reciprocal square root. -/
  | vfrsq (h : Hdr) (t : FpT) (d a : BitVec 6) (p : Pred)
  /-- R289: Computes the correctly rounded power of two. -/
  | vfexp2 (h : Hdr) (t : FpT) (d a : BitVec 6) (p : Pred)
  /-- R289: Computes the correctly rounded base-2 logarithm. -/
  | vflog2 (h : Hdr) (t : FpT) (d a : BitVec 6) (p : Pred)
  /-- R290: Compares floating-point elements by IEEE rules and writes a predicate register. -/
  | vfcmp (h : Hdr) (t : FpT) (cnd : FCond) (kd : BitVec 4) (a b : BitVec 6) (p : Pred)
  /-- R291: Writes a one-hot class mask for each floating-point element. -/
  | vfclass (h : Hdr) (t : FpT) (d a : BitVec 6) (p : Pred)
  /-- R292: Converts between two floating types or two integer types by the conversion table. -/
  | vcvt (h : Hdr) (dt st : ElemT) (d a : BitVec 6) (p : Pred)
  /-- R292: Converts floating-point elements to an integer type. -/
  | vf2i (h : Hdr) (dt st : ElemT) (d a : BitVec 6) (p : Pred)
  /-- R292: Converts integer elements to a floating-point type. -/
  | vi2f (h : Hdr) (dt st : ElemT) (d a : BitVec 6) (p : Pred)
  /-- R293: Sums active lanes modulo 2^32 into lane 0. -/
  | vrsumI32 (h : Hdr) (d a : BitVec 6) (p : Pred)
  /-- R293: Sums the signed bytes of active lanes exactly into lane 0. -/
  | vrsumI8 (h : Hdr) (d a : BitVec 6) (p : Pred)
  /-- R293: Takes the signed maximum of active lanes into lane 0. -/
  | vrmaxI32 (h : Hdr) (d a : BitVec 6) (p : Pred)
  /-- R293: Takes the unsigned byte maximum of active lanes into lane 0. -/
  | vrmaxU8 (h : Hdr) (d a : BitVec 6) (p : Pred)
  /-- R293: Takes the signed minimum of active lanes into lane 0. -/
  | vrminI32 (h : Hdr) (d a : BitVec 6) (p : Pred)
  /-- R293: Takes the unsigned byte minimum of active lanes into lane 0. -/
  | vrminU8 (h : Hdr) (d a : BitVec 6) (p : Pred)
  /-- R293: Sums active lanes by the fixed pairwise tree into lane 0. -/
  | vfrsum (h : Hdr) (t : FbT) (d a : BitVec 6) (p : Pred)
  /-- R293: Takes fmax of active lanes by the fixed tree into lane 0. -/
  | vfrmax (h : Hdr) (t : FbT) (d a : BitVec 6) (p : Pred)
  /-- R294: Permutes lanes of A by indices in B. -/
  | vperm (h : Hdr) (d a b : BitVec 6) (p : Pred)
  /-- R295: Shifts lanes up by a count, filling from B. -/
  | vslup (h : Hdr) (d a b cnt : BitVec 6) (p : Pred)
  /-- R295: Shifts lanes down by a count, filling from B. -/
  | vsldn (h : Hdr) (d a b cnt : BitVec 6) (p : Pred)
  /-- R296: Interleaves the lower halves of A and B. -/
  | vzip (h : Hdr) (d a b : BitVec 6) (p : Pred)
  /-- R296: Takes the even lanes of A and B into the two halves of D. -/
  | vunzip (h : Hdr) (d a b : BitVec 6) (p : Pred)
  /-- R297: Maps every byte of A through a 256-byte table in B. -/
  | vlut (h : Hdr) (d a b : BitVec 6) (p : Pred)
  /-- R299: Writes the E8 scale code of each 16-element vector block. -/
  | vbmax (h : Hdr) (t : FbT) (d a : BitVec 6) (p : Pred)
  /-- R299: Quantises elements to INT8 codes under given block scales. -/
  | vbqnt (h : Hdr) (t : FbT) (d a b : BitVec 6) (p : Pred)
  /-- R299: Turns INT8 codes and block scales back into values. -/
  | vbdqnt (h : Hdr) (t : FbT) (d a b : BitVec 6) (p : Pred)
  /-- R300: Packs INT8 elements into bit-plane stored blocks. -/
  | vbpack (h : Hdr) (d a b : BitVec 6) (p : Pred)
  /-- R300: Unpacks bit-plane stored blocks into INT8 values of the leading planes. -/
  | vbunpk (h : Hdr) (d a b : BitVec 6) (p : Pred)
  /-- R302: Places one lane of A, sign-extended, into the vector mailbox. -/
  | vtos (h : Hdr) (a : BitVec 6) (lane : BitVec 7)
  /-- R301: ANDs two predicate registers. -/
  | kand (h : Hdr) (kd ka kb : BitVec 4)
  /-- R301: ORs two predicate registers. -/
  | kor (h : Hdr) (kd ka kb : BitVec 4)
  /-- R301: XORs two predicate registers. -/
  | kxor (h : Hdr) (kd ka kb : BitVec 4)
  /-- R301: Complements a predicate register. -/
  | knot (h : Hdr) (kd ka : BitVec 4)
  /-- R301: Copies a predicate register. -/
  | kmov (h : Hdr) (kd ka : BitVec 4)
  /-- R302: Places the set-bit count of a predicate into the vector mailbox. -/
  | kpopc (h : Hdr) (ka : BitVec 4)
  /-- R303: Loads a contiguous vector of elements, decoding from the page format. -/
  | vld (h : Hdr) (t : ElemT) (m : Vmm)
  /-- R303: Loads a vector with a byte stride from sc1. -/
  | vlds (h : Hdr) (t : ElemT) (m : Vmm)
  /-- R303: Loads one element per lane at indexed byte offsets. -/
  | vldx (h : Hdr) (t : ElemT) (m : Vmm)
  /-- R303: Stores a contiguous vector of elements, encoding to the page format. -/
  | vst (h : Hdr) (t : ElemT) (m : Vmm)
  /-- R303: Stores a vector with a byte stride from sc1. -/
  | vsts (h : Hdr) (t : ElemT) (m : Vmm)
  /-- R303: Stores one element per lane at indexed byte offsets. -/
  | vstx (h : Hdr) (t : ElemT) (m : Vmm)
  /-- R304: Loads the leading p planes of bit-plane blocks as INT8 values. -/
  | vldb (h : Hdr) (planes : BitVec 4) (m : Vmm)
  /-- R60: Late load data arrives and releases a frozen vector pipeline. -/
  | vmLoadDataArrive (core : Nat)
  /-- R245: A vector result lands in its resolved destination and latch at its scheduled cycle. -/
  | vectorResultLand (core : Nat)
  /-- R309: Takes the next fetch-queue entry into a vector register. -/
  | vpop (h : Hdr) (t : ElemT) (d : BitVec 6) (q : BitVec 2) (p : Pred)
  /-- R308: Reads a fetch pattern and starts the queue's address generator. -/
  | fqOpen (h : Hdr) (q : BitVec 2) (cl : BitVec 4)
  /-- R308: Stops a fetch queue's generator and discards unconsumed entries. -/
  | fqClose (h : Hdr) (q : BitVec 2)
  /-- R310: The fetch-queue generator reads the next entry ahead of consumption, stopping at a fault. -/
  | fetchQueueRead (core : Nat) (q : Nat)
  /-- R311: Runs the following body words as a hardware loop with rotation and stage predicates. -/
  | vloop (h : Hdr) (nb1 : BitVec 6) (rot : BitVec 2) (st1 : BitVec 3)
  /-- R315: Issues after every earlier V word has landed and clears the latches. -/
  | vsync (h : Hdr)
  /-- R315: Takes n vector issue cycles and writes nothing. -/
  | vnop (h : Hdr) (n1 : BitVec 6)
  /-- R317: Appends the active lanes with their origins to a deferral path's ring. -/
  | vdefer (h : Hdr) (m : Vmd)
  /-- R317: Takes a batch of deferred items into values and origins, freezing until enough are queued. -/
  | vdtake (h : Hdr) (m : Vmd)
  /-- R317: Stores results back to their origin positions. -/
  | vdret (h : Hdr) (m : Vmd)
  /-- R317: Writes a path's COUNT and OUT into latch b3. -/
  | vdcnt (h : Hdr) (path : BitVec 4)
  /-- R318: Adds virtual rows of lanes as wide integers with carry propagation. -/
  | vcfix (h : Hdr) (d a b : BitVec 6) (p : Pred)
  /-- R328: Multiplies A tiles by weight-buffer B operands chunk by chunk into an accumulator tile, with optional epilogue. -/
  | tmma (h : Hdr) (t : MxT) (m : Mxt)
  /-- R325: Performs tmma skipping zero positions of SPARSE12 weight blocks with the same result. -/
  | tmmaSp (h : Hdr) (t : MspT) (m : Mxt)
  /-- R326: Multiplies INT8 rows by weights read from the leading planes of bit-plane blocks. -/
  | tmmaBp (h : Hdr) (planes : BitVec 4) (m : Mxt)
  /-- R334: Runs grouped multiplies for up to 64 groups from a group table as one command. -/
  | tmmaGrp (h : Hdr) (t : MxT) (m : Mxt)
  /-- R335: Zeroes accumulator tiles. -/
  | taccClr (h : Hdr) (ct n1 : BitVec 8)
  /-- R335: Copies accumulator tiles into the register space. -/
  | taccRd (h : Hdr) (m : Mxa)
  /-- R335: Copies register-space bytes into accumulator tiles. -/
  | taccWr (h : Hdr) (m : Mxa)
  /-- R335: Writes accumulator tiles transposed into the register space. -/
  | ttr (h : Hdr) (m : Mxa)
  /-- R335: Writes transposed register-space data into accumulator tiles. -/
  | tmov (h : Hdr) (m : Mxa)
  /-- R330: Loads an epilogue set from the local slice. -/
  | tepiSet (h : Hdr) (ix cl : BitVec 4)
  /-- R333: Loads a 256-byte activation table from the local slice. -/
  | tlutLd (h : Hdr) (ix cl : BitVec 4)
  /-- R336: Empties the context's weight-buffer directory entries in a range and frees their sectors. -/
  | wbInv (h : Hdr)
  /-- R74: A weight block with an uncorrectable error is reloaded from its recorded address, letting the stalled fetch continue or fault. -/
  | weightBlockReload (core entry : Nat)
  /-- R350: Copies logical bytes from one address range to another. -/
  | cpy (h : Hdr) (len1 : BitVec 24) (cl : BitVec 4) (ro : Bool)
  /-- R351: Fills a byte range with an 8-byte repeating pattern. -/
  | cpyFill (h : Hdr) (len1 : BitVec 24) (cl : BitVec 4)
  /-- R353: Copies a tile of elements between two tensor handles by a tile descriptor. -/
  | tcpy (h : Hdr) (m : Cpx)
  /-- R353: Copies a tile reordering dimension 0 through a permutation table. -/
  | cpyPerm (h : Hdr) (m : Cpx)
  /-- R355: Copies a reused tile forward by its displacement into its pending slot and sets its written mark. -/
  | tcpyMc (h : Hdr) (hs : BitVec 12) (cl : BitVec 4)
  /-- R356: Applies a job card's chain of transform stages to a transfer. -/
  | cpyXf (h : Hdr) (cl : BitVec 4)
  /-- R357: Compresses logical weight blocks into weight-buffer entries, stopping on NOSPACE or OCCUPIED. -/
  | cpyWb (h : Hdr) (cl : BitVec 4) (ro : Bool)
  /-- R358: Gathers indexed rows of a tensor into a slice data area. -/
  | gath (h : Hdr) (m : Gsx)
  /-- R358: Scatters data rows to indexed rows of a PLAIN tensor. -/
  | scat (h : Hdr) (m : Gsx)
  /-- R359: Adds data rows into indexed rows in ascending index order, each update indivisible. -/
  | scatAdd (h : Hdr) (t : ScT) (m : Gsx)
  /-- R359: Applies maximum updates to indexed rows in ascending index order. -/
  | scatMax (h : Hdr) (t : ScT) (m : Gsx)
  /-- R363: Gathers a tile-list entry's region with halo from a reuse store into the slice. -/
  | gathTl (h : Hdr) (hnd : BitVec 12) (cl : BitVec 4)
  /-- R363: Writes a recomputed tile from the slice into its pending slot and sets its written mark. -/
  | scatTl (h : Hdr) (hnd : BitVec 12) (cl : BitVec 4)
  /-- R337: Loads the signature unit's configuration. -/
  | sigCfg (h : Hdr) (cl : BitVec 4)
  /-- R339: Computes random-projection signatures of rows into a work area. -/
  | sigHash (h : Hdr) (t : SigT) (m : Sgx)
  /-- R340: Computes signatures of three-coordinate keys into a work area. -/
  | sigKey (h : Hdr) (m : Sgx)
  /-- R341: Forms buckets and representatives, optionally compacting representatives into m tiles. -/
  | sigGroup (h : Hdr) (m : Sgx)
  /-- R342: Writes each row's bucket result to destination rows. -/
  | sigScat (h : Hdr) (m : Sgx)
  /-- R342: Expands bucket results to rows, shared or to representatives only. -/
  | sigBexp (h : Hdr) (m : Sgx)
  /-- R343: Sums gradient rows into bucket sums in ascending row order. -/
  | sigBred (h : Hdr) (t : FbT) (m : Sgx)
  /-- R173: Evaluates a layer's tiles for the current frame and writes the tile list and pending halves. -/
  | cmEval (h : Hdr) (layer : BitVec 6) (stream : BitVec 7) (list : BitVec 12)
  /-- R365: Records the largest output change of a recomputed tile. -/
  | cmMeas (h : Hdr) (layer : BitVec 6) (stream : BitVec 7)
  /-- R180: Commits a fully marked layer as one PKG transaction by flipping its committed half. -/
  | cmCommit (h : Hdr) (layer : BitVec 6) (stream : BitVec 7)
  /-- R365: Requests recomputation of a tile. -/
  | cmForce (h : Hdr) (layer : BitVec 6) (stream : BitVec 7)
  /-- R365: Sets a layer's requested threshold factor and logs a THR record. -/
  | cmThr (h : Hdr) (layer : BitVec 6) (stream : BitVec 7) (nscale : BitVec 16)
  /-- R133: An engine command completes, advancing its timeline and setting its tag or barrier signal. -/
  | commandComplete (cid e num : Nat)
  /-- R137: An engine command in flight ends with a fault: its timeline stays below its number, no tag or barrier signal is raised, and the commands behind it are held. -/
  | commandFault (cid e num : Nat)
  /-- R199: A suspended continuation's wait condition holds and it becomes READY. -/
  | waitSatisfied (cid : Nat)
  /-- R275: The part re-reads a waddr location after a write to its line or every 2 µs. -/
  | waddrRecheck (cid : Nat)
  /-- R219: With hart 0 free, hart 1 starts or resumes the chosen READY continuation. -/
  | continuationChoice (core : Nat)
  /-- R205: After exit's drain, the continuation releases and retires, freeing its storage and counting in DONE. -/
  | continuationRetire (cid : Nat)
  /-- R208: A continuation running 100 µs without a suspension point while another waits is pre-empted. -/
  | preemptRequest (core : Nat)
  /-- R379: The vector unit captures at a drain point or loop exit, and the frame and parked words are written. -/
  | preemptCapture (core : Nat)
  /-- R379: No drain point within 4,096 clk forces the capture with KIND 2. -/
  | preemptForceTimeout (core : Nat)
  /-- R274: A store group still pending after 4,096 clk aborts with TIMEOUT. -/
  | sgTimeout (hart : Nat)
  /-- R28: An 8-byte store to a trigger register is checked and sends one trigger to the front end. -/
  | triggerStore (ctx : Nat) (mMode : Bool) (va arg : Word)
  /-- R28: An 8-byte load of a trigger register is checked for ownership and returns the accepted-trigger count. -/
  | triggerCountLoad (ctx : Nat) (mMode : Bool) (va : Word)
  /-- R212: A trigger enters the stream's trigger queue, adding budget to the stream's credit. -/
  | triggerAccept (st : Nat)
  /-- R214: The executor takes the next trigger after the previous run ended and starts a run at node 0. -/
  | graphRunStart (st : Nat)
  /-- R214: A LAUNCH node relocates, admits and accepts a launch, waiting for it when ASYNC is 0. -/
  | nodeLaunch (st : Nat)
  /-- R223: A planner waiting on credit admits when credit suffices or skips after a later trigger is credited. -/
  | plannerWaitEnd (st : Nat)
  /-- R214: A CMU node performs cm.eval of its layer for the stream. -/
  | nodeCmu (st : Nat)
  /-- R214: A COPY node copies bytes as stored and completes them at PKG. -/
  | nodeCopy (st : Nat)
  /-- R214: A WAIT node waits for async launches or a memory value. -/
  | nodeWait (st : Nat)
  /-- R214: A COND node compares a variable with a value and branches. -/
  | nodeCond (st : Nat)
  /-- R214: A LOOP node counts iterations and branches back until its count. -/
  | nodeLoop (st : Nat)
  /-- R214: A SIGNAL node releases at its scope and writes the run record. -/
  | nodeSignal (st : Nat)
  /-- R214: A run exceeding 65,536 executed nodes gets status FAULT and ends. -/
  | runNodeLimit (st : Nat)
  /-- R213: A write of FE_GLOAD_CMD starts loading a resident graph, refused if an open stream names it. -/
  | graphLoad (cmd : BitVec 32)
  /-- R213: The copied graph is checked and installed or refused with its first failing node. -/
  | graphLoadComplete
  /-- R391: The front end takes the next published ring record into the stream queue or discards it. -/
  | ringRecordTake (f r : Nat)
  /-- R393: A batch covered by TAIL is validated and appended whole or rejected, with its status record. -/
  | batchValidate (f r : Nat)
  /-- R161: Setting OPEN resets the stream's counters, holds its layer table and initialises its layer state records. -/
  | streamOpen (st : Nat) (v : BitVec 32)
  /-- R216: Clearing OPEN discards queued records and triggers and abandons the stream's decoding. -/
  | streamClose (st : Nat)
  /-- R211: The front end passes a head BITS record to the stream's decode engine once it has room. -/
  | queueBitsRecord (st : Nat)
  /-- R211: The front end accepts a head LAUNCH record as a launch. -/
  | queueLaunchRecord (st : Nat)
  /-- R211: A head record of invalid kind or reserved bits is discarded and counted. -/
  | queueBadRecord (st : Nat)
  /-- R217: A core with room and a bindable launch lets Badger select a stream and the walker bind iterations. -/
  | bindingOpportunity (core : Nat)
  /-- R217: A ready stream unselected for 50 ms is aged into effective class 0. -/
  | streamAging (st : Nat)
  /-- R218: A decode engine takes a BITS record of a stream in class order. -/
  | decodeTakeBits (eng : Nat)
  /-- R155: A decode engine writes a picture's four export tensors and triggers the stream. -/
  | decodePictureOutput (st : Nat) (pic : Picture)
  /-- R183: Advancing the frame-log tail lets a waiting command append its record. -/
  | cmuLogTailWrite (st : Nat) (v : BitVec 32)
  /-- R50: Invalidates every cached entry of a context. -/
  | mmuInvContext (ag : RegAgent)
  /-- R50: Invalidates the entry covering one virtual address of a context. -/
  | mmuInvPage (ag : RegAgent)
  /-- R50: Invalidates every entry of every context. -/
  | mmuInvAll (ag : RegAgent)
  /-- R51: An invalidation completes in number order and MMU_INV_DONE advances. -/
  | invalidationComplete
  /-- R49: A lock write locks the interleave map or is refused with MMU_ILV_ERR. -/
  | mmuIlvLockWrite (v : BitVec 32)
  /-- R119: Adds a 64 KiB area of 256 overflow chunks to Squirrel's pool. -/
  | csmPoolAdd (die : Nat) (v : Word)
  /-- R221: Each µs window the ramp limiter bounds matrix issues and fills shortfalls. -/
  | rampWindow (die demand : Nat)
  /-- R222: Every 1 ms the EAU sets the next charge factor from rail measurement. -/
  | eauInterval (rail : Nat)
  /-- R424: Power above the limit or junction at 100 °C throttles matrix issue. -/
  | powerLimitThrottle (power temp : Nat)
  /-- R418: The scrub reads and corrects HBM and slice words, logging weak rows and UEs. -/
  | backgroundScrub (loc : Nat) (weak : Bool)
  /-- R420: Management firmware fences a failed unit, updates capacity, logs and notifies tenants. -/
  | unitFence (kind : UnitKind) (n : Nat) (reason : BitVec 8)
  /-- R423: A write of RAS_SHED sets load shedding and restarts its per-stream count. -/
  | rasShedWrite (v : BitVec 32)
  /-- R426: PERST# or power-on runs the bring-up sequence. -/
  | coldReset (inp : BootInputs)
  /-- R426: FLR of a virtual function abandons, closes and disables only its tenant's work. -/
  | functionLevelReset (f : Nat)
  /-- R413: Loads a tenant key into a key slot after attestation checks, then zeroes its source. -/
  | fwKeyLoad
  /-- R413: Empties a key slot. -/
  | fwKeyClear
  /-- R411: The SPDM responder reports the measurement blocks. -/
  | getMeasurements (tenant : Nat)
  /-- R387: A host access to a function's memory window is translated as an S-mode access of its context. -/
  | hostBar2Access (f off : Nat) (op : BusOp)
  /-- R386: A host CXL.mem access to the exposed HBM range bypasses translation and transforms. -/
  | cxlMemAccess (pa : Nat) (op : BusOp)
  /-- R389: Setting EN checks stream ownership and resets HEAD and TAIL. -/
  | hlRingEnable (f r : Nat) (v : BitVec 32)
  /-- R389: Clearing EN discards untaken records and sets HEAD to TAIL. -/
  | hlRingDisable (f r : Nat) (v : BitVec 32)
  /-- R390: A tail write publishes records, or is stale or an overrun and ignored. -/
  | hlRingTailWrite (f r : Nat) (v : BitVec 32)
  /-- R395: A peer-to-peer request is accepted from the registered requester or answered Unsupported Request. -/
  | peerRequest (requester : BitVec 16) (pa : PeerAddr) (op : BusOp)
  /-- R26: A write to a device register without its own row stores per its access code, or is ignored or faults. -/
  | registerWrite (ag : RegAgent) (off width : Nat) (v : Word)
  /-- R401: A trial boot without a CONFIRMED marker within 2 s makes Jay reset the part. -/
  | bootProbationTimeout (k : Nat) (inp : BootInputs)
  /-- R402: Power is lost, keeping only flash. -/
  | powerLoss
  /-- R424: 110 °C held for 1 ms stops every engine and hart until reset. -/
  | thermalTrip
  /-- R408: A write to HBW_BEAT_k is a heartbeat, the first moving a hand-over to PROBATION. -/
  | hbwBeat (k : Nat)
  /-- R408: A write to HBW_NACK_k in ACTIVATE or PROBATION requests fallback. -/
  | hbwNack (k : Nat)
  /-- R408: A heartbeat period ends, counting a miss and acting at three missed periods. -/
  | heartbeatPeriodEnd (k : Nat) (inp : BootInputs)
  /-- R404: Starts staging and verifying a new image into the inactive slot. -/
  | hoPrepare (k : Nat)
  /-- R404: Moves a verified hand-over into QUIESCE. -/
  | hoStart (k : Nat)
  /-- R404: Aborts or falls back a hand-over as its state allows. -/
  | hoAbort (k : Nat)
  /-- R403: Verification of the staged image ends, enabling START or aborting; it reports whether the slot verifies and its VERSION. -/
  | hoVerifyDone (k : Nat) (ok : Bool) (version : BitVec 32)
  /-- R410: A unit of the kind reaches its hand-over point at the barrier. -/
  | hoBarrierArrive (k unit : Nat)
  /-- R403: QUIESCE exceeding 10 ms aborts the hand-over. -/
  | hoQuiesceTimeout (k : Nat)
  /-- R403: The end record is written, the TRIAL marker programmed and the new image started. -/
  | hoExportDone (k : Nat)
  /-- R403: EXPORT exceeding 10 ms aborts and the old image resumes. -/
  | hoExportTimeout (k : Nat)
  /-- R408: No beat within 50 ms of ACTIVATE triggers fallback. -/
  | hoActivateTimeout (k : Nat)
  /-- R403: 2 s of probation without fallback leads to COMMIT. -/
  | hoProbationEnd (k : Nat)
  /-- R396: A peer leaves the group and unacknowledged requests to it fault PEER_ABSENT. -/
  | peerDepart (k : Nat)
  /-- R424: The power average falls to the limit or below and the junction falls below 100 °C, so the ramp limiters raise their ceilings again and throttling ends. -/
  | throttleConditionClear (power temp : Nat)
  deriving DecidableEq, Repr

end Sys2Proof
end

