-- ==== Sys2Proof/WellFormed.lean ====
section
/-! DEFINITION. The checks on the fields of one operation that do not depend on any state: the reserved
codes of R229, R232, R233, R238 to R243, R327, R347, the shift amounts of RV64, and the ranges of the
numbers that an event names. -/

namespace Sys2Proof

/-- R232: the WAIT codes. -/
def waitOk (w : BitVec 8) : Bool :=
  w == 0 || (8 ≤ w.toNat && w.toNat ≤ 13) || 0x40 ≤ w.toNat

/-- R233: the SIG codes. -/
def sigOk (w : BitVec 8) : Bool := w == 0 || 0x40 ≤ w.toNat

/-- WAIT and SIG hold no reserved code. -/
def Hdr.ok (h : Hdr) : Bool := waitOk h.wait && sigOk h.sig

/-- R238: a vector source field. -/
def srcOk (a : BitVec 6) : Bool := a.toNat ≤ 0x26

/-- R238: a vector destination field; with WS the register bits are zero. -/
def dstOk (d : BitVec 6) : Bool := d.toNat ≤ 0x20

/-- R238: K = 0 with KN = 1 is reserved. -/
def Pred.ok (p : Pred) : Bool := !(p.k == 0 && p.kn)

/-- An unmasked word: K = 0 and KN = 0. -/
def Pred.all (p : Pred) : Bool := p.k == 0 && !p.kn

/-- R241: the types T = 0 to 2 of most integer forms. -/
def IntT.signed : IntT → Bool | .u8 => false | _ => true

/-- R240 type codes 0 to 4 are floating. -/
def ElemT.isFloat : ElemT → Bool
  | .f32 => true | .f16 => true | .bf16 => true | .e4m3 => true | .e5m2 => true | _ => false

/-- A scope operand is 0 to 5 (R229). -/
def scopeOk (s : BitVec 3) : Bool := s.toNat ≤ 5

/-- An engine number is 0 to 5 (R229). -/
def engOk (e : BitVec 3) : Bool := e.toNat ≤ 5

/-- R228: M[4] = 1 requires M[3:0] = 0. -/
def maskOk (m : BitVec 5) : Bool := m.toNat ≤ 16

/-- A plane count of R242 and R243. -/
def planesOk (p : BitVec 4) : Bool := 2 ≤ p.toNat && p.toNat ≤ 8

def va2Ok (h : Hdr) (d a : BitVec 6) (p : Pred) : Bool := h.ok && dstOk d && srcOk a && p.ok
def va3Ok (h : Hdr) (d a b : BitVec 6) (p : Pred) : Bool := va2Ok h d a p && srcOk b
def va4Ok (h : Hdr) (d a b c : BitVec 6) (p : Pred) : Bool := va3Ok h d a b p && srcOk c
def cmpOk (h : Hdr) (a b : BitVec 6) (p : Pred) : Bool := h.ok && srcOk a && srcOk b && p.ok

/-- VMM load: V is a destination, X unused (R242). -/
def vmmLd (h : Hdr) (m : Vmm) : Bool := h.ok && dstOk m.v && m.x == 0 && m.p.ok
/-- VMM store: V is a source, X unused. -/
def vmmSt (h : Hdr) (m : Vmm) : Bool := h.ok && srcOk m.v && m.x == 0 && m.p.ok

/-- R327: the tmma fields that do not depend on the capture slots. -/
def mxtOk (h : Hdr) (m : Mxt) (extra : Nat) : Bool :=
  h.ok && m.ma.toNat + m.nk1.toNat + extra ≤ 15 && (!m.cx || m.ct == 0)

/-- R327: CT + N - 1 is at most 255. -/
def mxaOk (h : Hdr) (ct n1 : BitVec 8) : Bool := h.ok && ct.toNat + n1.toNat ≤ 255

/-- A register operation of RV64 whose fields the standard does not reserve. -/
def RvOp.wf : RvOp → Bool
  | .shImm o _ _ sh =>
    match o with
    | .slliw => sh.toNat < 32 | .srliw => sh.toNat < 32 | .sraiw => sh.toNat < 32 | .roriw => sh.toNat < 32
    | _ => true
  | _ => true

/-- The range of a core, die, stream and so on that an event names; die 2 is the hub die. -/
def coreOk (c : Nat) : Bool := c < 192
def dieOk (d : Nat) : Bool := d < 2
def streamOk (s : Nat) : Bool := s < 128
def imageOk (k : Nat) : Bool := k < 3
def ringOk (f r : Nat) : Bool := f < 17 && r < 8
def hartOk (h : Nat) : Bool := h < 388

/-- An agent that reaches the privileged register window: the host, or an M-mode hart (R26). -/
def RegAgent.ok : RegAgent → Bool
  | .host => true
  | .hart h => hartOk h

/-- An operation of the host: at most 4,096 bytes read and 512 written, and the AtomicOps of 32 and 64 bits (R385). -/
def BusOp.hostOk : BusOp → Bool
  | .read n => 1 ≤ n && n ≤ 4096
  | .write b => 1 ≤ b.length && b.length ≤ 512
  | .atomic (.amo _) _ _ _ => false
  | .atomic (.upd ..) _ _ _ => false
  | .atomic _ n _ _ => n == 4 || n == 8

/-- Bytes of an element that scat.add and scat.max update (R359). -/
def ScT.size : ScT → Nat | .f32 => 4 | .f16 => 2 | .bf16 => 2 | .i32 => 4

/-- An operation of a peer: also the AMOs and the element updates, which the owner performs (R144, R360). -/
def BusOp.peerOk : BusOp → Bool
  | .atomic (.amo _) n _ _ => n == 4 || n == 8
  | .atomic (.upd _ t _) n _ _ => n == t.size
  | op => op.hostOk

/-- CXL.mem moves bytes of one 64-byte line (R151). -/
def BusOp.cxlOk : BusOp → Bool
  | .read n => 1 ≤ n && n ≤ 64
  | .write b => 1 ≤ b.length && b.length ≤ 64
  | .atomic .. => false

/-- The state-independent checks of one operation: every reserved value of its fields is refused. -/
def Instr.wf : Instr → Bool
  | .cap _ _ => true
  | .qpush _ _ _ => true
  | .launch _ _ => true
  | .launchWait e _ _ _ => engOk e
  | .exit => true
  | .yield => true
  | .hbInit _ _ => true
  | .hbArrive _ => true
  | .hbWait _ => true
  | .hbTxadd _ _ => true
  | .tlRead e _ => engOk e
  | .tlWait scope e _ => engOk e && scopeOk scope
  | .tagWany _ _ => true
  | .tagWall _ => true
  | .tagFfr _ _ => true
  | .tagClr _ => true
  | .mfence _ => true
  | .mjoin => true
  | .sgBegin scope => scopeOk scope
  | .sgEnd _ => true
  | .sgAbort _ => true
  | .waddr _ _ => true
  | .engStat e _ _ => engOk e
  | .vmbPop _ => true
  | .vwsetV _ => true
  | .vwsetM _ => true
  | .vwsetC _ => true
  | .tret => true
  | .fenceC _ scope => scopeOk scope
  | .ldAcqB m scope _ _ => maskOk m && scopeOk scope
  | .ldAcqH m scope _ _ => maskOk m && scopeOk scope
  | .ldAcqW m scope _ _ => maskOk m && scopeOk scope
  | .ldAcqD m scope _ _ => maskOk m && scopeOk scope
  | .stRelB m scope _ _ => maskOk m && scopeOk scope
  | .stRelH m scope _ _ => maskOk m && scopeOk scope
  | .stRelW m scope _ _ => maskOk m && scopeOk scope
  | .stRelD m scope _ _ => maskOk m && scopeOk scope
  | .rvIntegerOp _ op => op.wf
  | .rvLoad _ _ _ _ _ => true
  | .rvStore _ _ _ _ _ => true
  | .rvAmo _ _ _ _ _ _ _ => true
  | .rvLr _ _ _ _ _ => true
  | .rvSc _ _ _ _ _ _ => true
  | .rvFence fm pred succ rd rs1 => !(fm == 0 && pred == 1 && succ == 0 && rd == 0 && rs1 == 0)
  | .rvFenceI _ _ _ => true
  | .rvPause => true
  | .rvEcall => true
  | .rvWfi => true
  | .rvSfenceVma _ _ => true
  | .rvCsrAccess _ _ _ _ => true
  | .pageWalkStart die => die < 3
  | .pageWalkComplete die _ => die < 3
  | .engineWordPush w => w.toNat % 128 == 0x3F
  | .vadd h t d a b p => va3Ok h d a b p && t.signed
  | .vsub h t d a b p => va3Ok h d a b p && t.signed
  | .vmul h t d a b p => va3Ok h d a b p && t.signed
  | .vmulh h t d a b p => va3Ok h d a b p && t.signed
  | .vmac h t d a b c p => va4Ok h d a b c p && t.signed
  | .vmin h _ d a b p => va3Ok h d a b p
  | .vmax h _ d a b p => va3Ok h d a b p
  | .vabs h t d a p => va2Ok h d a p && t.signed
  | .vneg h t d a p => va2Ok h d a p && t.signed
  | .vadds h _ d a b p => va3Ok h d a b p
  | .vsubs h _ d a b p => va3Ok h d a b p
  | .vclip h _ d a b c p => va4Ok h d a b c p
  | .vshl h t d a b p => va3Ok h d a b p && t.signed
  | .vshr h _ d a b p => va3Ok h d a b p
  | .vsra h t d a b p => va3Ok h d a b p && t.signed
  | .vpopc h t d a p => va2Ok h d a p && t.signed
  | .vclz h t d a p => va2Ok h d a p && t.signed
  | .vcmp h _ _ _ a b p => cmpOk h a b p
  | .vand h d a b p => va3Ok h d a b p
  | .vor h d a b p => va3Ok h d a b p
  | .vxor h d a b p => va3Ok h d a b p
  | .vnot h d a p => va2Ok h d a p
  | .vmov h d a p => va2Ok h d a p
  | .vsel h d a b p => va3Ok h d a b p
  | .vbcst h d a _ p => va2Ok h d a p
  | .vmovi h d _ p => h.ok && dstOk d && p.ok
  | .vfadd h _ d a b p => va3Ok h d a b p
  | .vfsub h _ d a b p => va3Ok h d a b p
  | .vfmul h _ d a b p => va3Ok h d a b p
  | .vfma h _ d a b c p => va4Ok h d a b c p
  | .vfms h _ d a b c p => va4Ok h d a b c p
  | .vfnma h _ d a b c p => va4Ok h d a b c p
  | .vfmin h _ d a b p => va3Ok h d a b p
  | .vfmax h _ d a b p => va3Ok h d a b p
  | .vfabs h _ d a p => va2Ok h d a p
  | .vfneg h _ d a p => va2Ok h d a p
  | .vfrcp h _ d a p => va2Ok h d a p
  | .vfrsq h _ d a p => va2Ok h d a p
  | .vfexp2 h _ d a p => va2Ok h d a p
  | .vflog2 h _ d a p => va2Ok h d a p
  | .vfcmp h _ _ _ a b p => cmpOk h a b p
  | .vfclass h _ d a p => va2Ok h d a p
  | .vcvt h dt st d a p => va2Ok h d a p && dt != st && dt.isFloat == st.isFloat
  | .vf2i h dt st d a p => va2Ok h d a p && !dt.isFloat && st.isFloat
  | .vi2f h dt st d a p => va2Ok h d a p && dt.isFloat && !st.isFloat
  | .vrsumI32 h d a p => va2Ok h d a p
  | .vrsumI8 h d a p => va2Ok h d a p
  | .vrmaxI32 h d a p => va2Ok h d a p
  | .vrmaxU8 h d a p => va2Ok h d a p
  | .vrminI32 h d a p => va2Ok h d a p
  | .vrminU8 h d a p => va2Ok h d a p
  | .vfrsum h _ d a p => va2Ok h d a p
  | .vfrmax h _ d a p => va2Ok h d a p
  | .vperm h d a b p => va3Ok h d a b p
  | .vslup h d a b _ p => va3Ok h d a b p
  | .vsldn h d a b _ p => va3Ok h d a b p
  | .vzip h d a b p => va3Ok h d a b p
  | .vunzip h d a b p => va3Ok h d a b p
  | .vlut h d a b p => va3Ok h d a b p
  | .vbmax h _ d a p => va2Ok h d a p
  | .vbqnt h _ d a b p => va3Ok h d a b p
  | .vbdqnt h _ d a b p => va3Ok h d a b p
  | .vbpack h d a b p => va3Ok h d a b p
  | .vbunpk h d a b p => va3Ok h d a b p
  | .vtos h a _ => h.ok && srcOk a
  | .kand h _ _ _ => h.ok
  | .kor h _ _ _ => h.ok
  | .kxor h _ _ _ => h.ok
  | .knot h _ _ => h.ok
  | .kmov h _ _ => h.ok
  | .kpopc h _ => h.ok
  | .vld h _ m => vmmLd h m
  | .vlds h _ m => vmmLd h m
  | .vldx h _ m => h.ok && dstOk m.v && srcOk m.x && m.p.ok
  | .vst h _ m => vmmSt h m
  | .vsts h _ m => vmmSt h m
  | .vstx h _ m => h.ok && srcOk m.v && srcOk m.x && m.p.ok
  | .vldb h planes m => planesOk planes && vmmLd h m
  | .vmLoadDataArrive core => coreOk core
  | .vectorResultLand core => coreOk core
  | .vpop h _ d _ p => h.ok && dstOk d && p.ok
  | .fqOpen h _ _ => h.ok
  | .fqClose h _ => h.ok
  | .fetchQueueRead core q => coreOk core && q < 4
  | .vloop h _ rot _ => h.ok && rot != 3
  | .vsync h => h.ok
  | .vnop h _ => h.ok
  | .vdefer h m => h.ok && srcOk m.a && m.b == 0 && m.p.ok
  | .vdtake h m => h.ok && dstOk m.a && dstOk m.b && m.p.ok && (m.a != m.b || m.a == 0x20)
  | .vdret h m => h.ok && srcOk m.a && srcOk m.b && m.p.ok
  | .vdcnt h _ => h.ok
  | .vcfix h d a b p => va3Ok h d a b p
  | .tmma h t m => mxtOk h m (if t = .bs8 then 1 else 0)
  | .tmmaSp h _ m => mxtOk h m 0
  | .tmmaBp h planes m => planesOk planes && mxtOk h m 0
  | .tmmaGrp h _ m => h.ok && m.ma == 0 && (!m.cx || m.ct == 0)
  | .taccClr h ct n1 => mxaOk h ct n1
  | .taccRd h m => mxaOk h m.ct m.n1
  | .taccWr h m => mxaOk h m.ct m.n1
  | .ttr h m => mxaOk h m.ct m.n1
  | .tmov h m => mxaOk h m.ct m.n1
  | .tepiSet h _ _ => h.ok
  | .tlutLd h _ _ => h.ok
  | .wbInv h => h.ok
  | .weightBlockReload core entry => coreOk core && entry < 16384
  | .cpy h _ _ _ => h.ok
  | .cpyFill h _ _ => h.ok
  | .tcpy h m => h.ok && (!m.ro || m.hd == 0)
  | .cpyPerm h m => h.ok && (!m.ro || m.hd == 0)
  | .tcpyMc h _ _ => h.ok
  | .cpyXf h _ => h.ok
  | .cpyWb h _ _ => h.ok
  | .gath h _ => h.ok
  | .scat h _ => h.ok
  | .scatAdd h _ _ => h.ok
  | .scatMax h _ _ => h.ok
  | .gathTl h _ _ => h.ok
  | .scatTl h _ _ => h.ok
  | .sigCfg h _ => h.ok
  | .sigHash h _ m => h.ok && m.ma == 0
  | .sigKey h m => h.ok && m.ma == 0
  | .sigGroup h _ => h.ok
  | .sigScat h _ => h.ok
  | .sigBexp h _ => h.ok
  | .sigBred h _ _ => h.ok
  | .cmEval h _ _ _ => h.ok
  | .cmMeas h _ _ => h.ok
  | .cmCommit h _ _ => h.ok
  | .cmForce h _ _ => h.ok
  | .cmThr h _ _ _ => h.ok
  | .commandComplete _ e _ => e < 6
  | .waitSatisfied _ => true
  | .waddrRecheck _ => true
  | .continuationChoice core => coreOk core
  | .continuationRetire _ => true
  | .preemptRequest core => coreOk core
  | .preemptCapture core => coreOk core
  | .preemptForceTimeout core => coreOk core
  | .sgTimeout hart => hartOk hart
  | .triggerStore ctx _ _ _ => ctx < 256
  | .triggerCountLoad ctx _ _ => ctx < 256
  | .triggerAccept st => streamOk st
  | .graphRunStart st => streamOk st
  | .nodeLaunch st => streamOk st
  | .plannerWaitEnd st => streamOk st
  | .nodeCmu st => streamOk st
  | .nodeCopy st => streamOk st
  | .nodeWait st => streamOk st
  | .nodeCond st => streamOk st
  | .nodeLoop st => streamOk st
  | .nodeSignal st => streamOk st
  | .runNodeLimit st => streamOk st
  | .graphLoad _ => true
  | .graphLoadComplete => true
  | .streamOpen st _ => streamOk st
  | .streamClose st => streamOk st
  | .queueBitsRecord st => streamOk st
  | .queueLaunchRecord st => streamOk st
  | .queueBadRecord st => streamOk st
  | .bindingOpportunity core => coreOk core
  | .streamAging st => streamOk st
  | .decodeTakeBits eng => eng < 8
  | .decodePictureOutput st _ => streamOk st
  | .cmuLogTailWrite st _ => streamOk st
  | .mmuInvContext ag => ag.ok
  | .mmuInvPage ag => ag.ok
  | .mmuInvAll ag => ag.ok
  | .invalidationComplete => true
  | .mmuIlvLockWrite _ => true
  | .csmPoolAdd die _ => dieOk die
  | .rampWindow die _ => dieOk die
  | .eauInterval _ => true
  | .powerLimitThrottle _ _ => true
  | .thermalTrip => true
  | .backgroundScrub _ _ => true
  | .unitFence _ _ _ => true
  | .rasShedWrite _ => true
  | .coldReset _ => true
  | .functionLevelReset f => 1 ≤ f && f < 17
  | .powerLoss => true
  | .bootProbationTimeout k _ => imageOk k
  | .hbwBeat k => imageOk k
  | .hbwNack k => imageOk k
  | .heartbeatPeriodEnd k _ => imageOk k
  | .hoPrepare k => imageOk k
  | .hoStart k => imageOk k
  | .hoAbort k => imageOk k
  | .hoVerifyDone k _ _ => imageOk k
  | .hoBarrierArrive k _ => imageOk k
  | .hoQuiesceTimeout k => imageOk k
  | .hoExportDone k => imageOk k
  | .hoExportTimeout k => imageOk k
  | .hoActivateTimeout k => imageOk k
  | .hoProbationEnd k => imageOk k
  | .fwKeyLoad => true
  | .fwKeyClear => true
  | .getMeasurements tenant => tenant < 16
  | .hostBar2Access f _ op => f < 17 && op.hostOk
  | .cxlMemAccess _ op => op.cxlOk
  | .hlRingEnable f r _ => ringOk f r
  | .hlRingDisable f r _ => ringOk f r
  | .hlRingTailWrite f r _ => ringOk f r
  | .ringRecordTake f r => ringOk f r
  | .batchValidate f r => ringOk f r
  | .peerRequest _ pa op => pa.page.level ≤ 2 && op.peerOk
  | .peerDepart k => k < 16
  | .registerWrite ag _ width _ => ag.ok && (width == 4 || width == 8)
  | .commandFault _ e _ => e < 6
  | .throttleConditionClear _ _ => true

end Sys2Proof
end

