-- ==== Sys2Proof/Decode.lean ====
section
/-! DEFINITION. The decoder: from the bytes a hart fetches to an instruction (R225 to R229), and from a
64-bit engine word to the operation it names (R230 to R243); total, every reserved encoding refused by
name. The encoders stand after it, written from the same tables. -/

namespace Sys2Proof

/-- Why an encoding is illegal. -/
inductive Illegal where
  | truncated            -- fewer bytes than the length encoding asks for
  | longLength           -- 48 bits (R227)
  | wideLength           -- 80 bits and more (R227)
  | compressed           -- a reserved compressed encoding
  | compressedFloat      -- a compressed floating-point load or store (R225)
  | opcode               -- a major opcode of no listed extension (R225)
  | funct                -- an unassigned funct value of RV64
  | controlFunct         -- an unlisted funct3 or funct7 of custom-0 or custom-1 (R229)
  | controlField         -- a field marked 0 that is not zero, or a reserved SCOPE, engine or M (R229)
  | engineMarker         -- not a 64-bit engine word
  | engineClass          -- CLS 7 to 15 (R231)
  | engineWait           -- a reserved WAIT code (R232)
  | engineSig            -- a reserved SIG code (R233)
  | engineOp             -- an OP the class's map does not assign (R241 to R243)
  | engineField          -- an unused BODY field that is not zero (R239)
  | engineOperand        -- a reserved operand value (R238, R327, R347)
  deriving DecidableEq, Repr, Inhabited

/-- Bits [lo+k-1:lo] of a word. -/
def fld {n : Nat} (w : BitVec n) (lo k : Nat) : BitVec k := w.extractLsb' lo k

/-! ## RV64 tables (the RISC-V unprivileged specification, R4, R225) -/

/-- Major opcodes. -/
def opLoad : BitVec 7 := 0x03
def opMiscMem : BitVec 7 := 0x0F
def opImmMajor : BitVec 7 := 0x13
def opAuipc : BitVec 7 := 0x17
def opImm32 : BitVec 7 := 0x1B
def opStore : BitVec 7 := 0x23
def opAmo : BitVec 7 := 0x2F
def opReg : BitVec 7 := 0x33
def opLui : BitVec 7 := 0x37
def opReg32 : BitVec 7 := 0x3B
def opBranch : BitVec 7 := 0x63
def opJalr : BitVec 7 := 0x67
def opJal : BitVec 7 := 0x6F
def opSystem : BitVec 7 := 0x73
def opCustom0 : BitVec 7 := 0x0B
def opCustom1 : BitVec 7 := 0x2B

/-- Major opcode, funct7 and funct3 of an operation of two registers. -/
def RegOp.enc : RegOp → BitVec 7 × BitVec 7 × BitVec 3
  | .add => (opReg, 0x00, 0) | .sub => (opReg, 0x20, 0) | .sll => (opReg, 0x00, 1)
  | .slt => (opReg, 0x00, 2) | .sltu => (opReg, 0x00, 3) | .xor => (opReg, 0x00, 4)
  | .srl => (opReg, 0x00, 5) | .sra => (opReg, 0x20, 5) | .or => (opReg, 0x00, 6)
  | .and => (opReg, 0x00, 7)
  | .addw => (opReg32, 0x00, 0) | .subw => (opReg32, 0x20, 0) | .sllw => (opReg32, 0x00, 1)
  | .srlw => (opReg32, 0x00, 5) | .sraw => (opReg32, 0x20, 5)
  | .mul => (opReg, 0x01, 0) | .mulh => (opReg, 0x01, 1) | .mulhsu => (opReg, 0x01, 2)
  | .mulhu => (opReg, 0x01, 3) | .div => (opReg, 0x01, 4) | .divu => (opReg, 0x01, 5)
  | .rem => (opReg, 0x01, 6) | .remu => (opReg, 0x01, 7)
  | .mulw => (opReg32, 0x01, 0) | .divw => (opReg32, 0x01, 4) | .divuw => (opReg32, 0x01, 5)
  | .remw => (opReg32, 0x01, 6) | .remuw => (opReg32, 0x01, 7)
  | .addUw => (opReg32, 0x04, 0)
  | .sh1add => (opReg, 0x10, 2) | .sh2add => (opReg, 0x10, 4) | .sh3add => (opReg, 0x10, 6)
  | .sh1addUw => (opReg32, 0x10, 2) | .sh2addUw => (opReg32, 0x10, 4) | .sh3addUw => (opReg32, 0x10, 6)
  | .andn => (opReg, 0x20, 7) | .orn => (opReg, 0x20, 6) | .xnor => (opReg, 0x20, 4)
  | .max => (opReg, 0x05, 6) | .maxu => (opReg, 0x05, 7) | .min => (opReg, 0x05, 4)
  | .minu => (opReg, 0x05, 5)
  | .rol => (opReg, 0x30, 1) | .ror => (opReg, 0x30, 5)
  | .rolw => (opReg32, 0x30, 1) | .rorw => (opReg32, 0x30, 5)
  | .czeroEqz => (opReg, 0x07, 5) | .czeroNez => (opReg, 0x07, 7)

/-- Every operation of two registers. -/
def RegOp.all : List RegOp :=
  [.add, .sub, .sll, .slt, .sltu, .xor, .srl, .sra, .or, .and, .addw, .subw, .sllw, .srlw, .sraw,
   .mul, .mulh, .mulhsu, .mulhu, .div, .divu, .rem, .remu, .mulw, .divw, .divuw, .remw, .remuw] ++
  [.addUw, .sh1add, .sh2add, .sh3add, .sh1addUw, .sh2addUw, .sh3addUw,
   .andn, .orn, .xnor, .max, .maxu, .min, .minu, .rol, .ror, .rolw, .rorw, .czeroEqz, .czeroNez]

/-- Major opcode, bits [31:20] and funct3 of an operation of one register. -/
def UnOp.enc : UnOp → BitVec 7 × BitVec 12 × BitVec 3
  | .clz => (opImmMajor, 0x600, 1) | .ctz => (opImmMajor, 0x601, 1) | .cpop => (opImmMajor, 0x602, 1)
  | .sextB => (opImmMajor, 0x604, 1) | .sextH => (opImmMajor, 0x605, 1)
  | .zextH => (opReg32, 0x080, 4)
  | .orcB => (opImmMajor, 0x287, 5) | .rev8 => (opImmMajor, 0x6B8, 5)
  | .clzw => (opImm32, 0x600, 1) | .ctzw => (opImm32, 0x601, 1) | .cpopw => (opImm32, 0x602, 1)

/-- Every operation of one register. -/
def UnOp.all : List UnOp :=
  [.clz, .ctz, .cpop, .sextB, .sextH, .zextH, .orcB, .rev8, .clzw, .ctzw, .cpopw]

/-- Major opcode, bits [31:26] and funct3 of a shift by an immediate. -/
def ShOp.enc : ShOp → BitVec 7 × BitVec 6 × BitVec 3
  | .slli => (opImmMajor, 0x00, 1) | .srli => (opImmMajor, 0x00, 5) | .srai => (opImmMajor, 0x10, 5)
  | .rori => (opImmMajor, 0x18, 5) | .slliUw => (opImm32, 0x02, 1)
  | .slliw => (opImm32, 0x00, 1) | .srliw => (opImm32, 0x00, 5) | .sraiw => (opImm32, 0x10, 5)
  | .roriw => (opImm32, 0x18, 5)

/-- Every shift by an immediate. -/
def ShOp.all : List ShOp := [.slli, .srli, .srai, .rori, .slliUw, .slliw, .srliw, .sraiw, .roriw]

/-- Major opcode and funct3 of an operation with a 12-bit immediate. -/
def ImmOp.enc : ImmOp → BitVec 7 × BitVec 3
  | .addi => (opImmMajor, 0) | .slti => (opImmMajor, 2) | .sltiu => (opImmMajor, 3)
  | .xori => (opImmMajor, 4) | .ori => (opImmMajor, 6) | .andi => (opImmMajor, 7) | .addiw => (opImm32, 0)

/-- Every operation with a 12-bit immediate. -/
def ImmOp.all : List ImmOp := [.addi, .slti, .sltiu, .xori, .ori, .andi, .addiw]

def BrCond.enc : BrCond → BitVec 3
  | .eq => 0 | .ne => 1 | .lt => 4 | .ge => 5 | .ltu => 6 | .geu => 7
def BrCond.all : List BrCond := [.eq, .ne, .lt, .ge, .ltu, .geu]

def LoadW.enc : LoadW → BitVec 3
  | .b => 0 | .h => 1 | .w => 2 | .d => 3 | .bu => 4 | .hu => 5 | .wu => 6
def LoadW.all : List LoadW := [.b, .h, .w, .d, .bu, .hu, .wu]

def AccW.enc : AccW → BitVec 3 | .b => 0 | .h => 1 | .w => 2 | .d => 3
def AccW.all : List AccW := [.b, .h, .w, .d]

def AmoOp.enc : AmoOp → BitVec 5
  | .swap => 0x01 | .add => 0x00 | .xor => 0x04 | .and => 0x0C | .or => 0x08
  | .min => 0x10 | .max => 0x14 | .minu => 0x18 | .maxu => 0x1C
def AmoOp.all : List AmoOp := [.swap, .add, .xor, .and, .or, .min, .max, .minu, .maxu]

def CsrOp.enc : CsrOp → BitVec 3 | .rw => 1 | .rs => 2 | .rc => 3 | .rwi => 5 | .rsi => 6 | .rci => 7
def CsrOp.all : List CsrOp := [.rw, .rs, .rc, .rwi, .rsi, .rci]

/-- OP-IMM and OP-IMM-32: a unary operation, a shift, or an operation with an immediate, by the
tables above; the shifts of the w forms take a 5-bit amount. -/
def decodeOpImm (w : BitVec 32) : Except Illegal Instr :=
  let rd := fld w 7 5; let rs1 := fld w 15 5; let f3 := fld w 12 3; let mj := fld w 0 7
  match UnOp.all.find? (fun o => o.enc == (mj, fld w 20 12, f3)) with
  | some o => .ok (.rvIntegerOp false (.unary o rd rs1))
  | none =>
    match ShOp.all.find? (fun o => o.enc == (mj, fld w 26 6, f3)) with
    | some o =>
      if (RvOp.shImm o rd rs1 (fld w 20 6)).wf then .ok (.rvIntegerOp false (.shImm o rd rs1 (fld w 20 6)))
      else .error .funct
    | none =>
      match ImmOp.all.find? (fun o => o.enc == (mj, f3)) with
      | some o => .ok (.rvIntegerOp false (.opImm o rd rs1 (fld w 20 12)))
      | none => .error .funct

/-- OP and OP-32. -/
def decodeOpReg (w : BitVec 32) : Except Illegal Instr :=
  let rd := fld w 7 5; let rs1 := fld w 15 5; let f3 := fld w 12 3; let mj := fld w 0 7
  match RegOp.all.find? (fun o => o.enc == (mj, fld w 25 7, f3)) with
  | some o => .ok (.rvIntegerOp false (.op o rd rs1 (fld w 20 5)))
  | none =>
    match UnOp.all.find? (fun o => o.enc == (mj, fld w 20 12, f3)) with
    | some o => .ok (.rvIntegerOp false (.unary o rd rs1))
    | none => .error .funct

/-- The A extension. -/
def decodeAmo (w : BitVec 32) : Except Illegal Instr :=
  let rd := fld w 7 5; let rs1 := fld w 15 5; let rs2 := fld w 20 5; let f3 := fld w 12 3
  let aq := w.getLsbD 26; let rl := w.getLsbD 25
  if f3 == 2 || f3 == 3 then
    let dbl := f3 == 3
    if fld w 27 5 == 0x02 then
      if rs2 == 0 then .ok (.rvLr dbl aq rl rd rs1) else .error .funct
    else if fld w 27 5 == 0x03 then .ok (.rvSc dbl aq rl rd rs1 rs2)
    else match AmoOp.all.find? (fun o => o.enc == fld w 27 5) with
      | some o => .ok (.rvAmo o dbl aq rl rd rs1 rs2)
      | none => .error .funct
  else .error .funct

/-- MISC-MEM: fence, fence.i and the pause hint. Reserved fence fields are ignored, as the standard
states for base implementations. -/
def decodeFence (w : BitVec 32) : Except Illegal Instr :=
  let rd := fld w 7 5; let rs1 := fld w 15 5
  match (fld w 12 3).toNat with
  | 0 =>
    if fld w 20 12 == 0x010 && rd == 0 && rs1 == 0 then .ok .rvPause
    else .ok (.rvFence (fld w 28 4) (fld w 24 4) (fld w 20 4) rd rs1)
  | 1 => .ok (.rvFenceI (fld w 20 12) rd rs1)
  | _ => .error .funct

/-- SYSTEM. -/
def decodeSystem (w : BitVec 32) : Except Illegal Instr :=
  let rd := fld w 7 5; let rs1 := fld w 15 5
  if fld w 12 3 == 0 then
    if rd == 0 && fld w 25 7 == 0x09 then .ok (.rvSfenceVma rs1 (fld w 20 5))
    else if rd == 0 && rs1 == 0 then
      match (fld w 20 12).toNat with
      | 0x000 => .ok .rvEcall
      | 0x001 => .ok (.rvIntegerOp false .ebreak)
      | 0x102 => .ok (.rvIntegerOp false .sret)
      | 0x302 => .ok (.rvIntegerOp false .mret)
      | 0x105 => .ok .rvWfi
      | _ => .error .funct
    else .error .funct
  else match CsrOp.all.find? (fun o => o.enc == fld w 12 3) with
    | some o => .ok (.rvCsrAccess o (fld w 20 12) rd rs1)
    | none => .error .funct

/-! ## Control instructions (R228, R229) -/

/-- Accept `i` when its zero fields are zero and its remaining fields hold no reserved value. -/
def control (zeros : Bool) (i : Instr) : Except Illegal Instr :=
  if zeros && i.wf then .ok i else .error .controlField

/-- custom-0. -/
def decodeCustom0 (w : BitVec 32) : Except Illegal Instr :=
  let rd := fld w 7 5; let rs1 := fld w 15 5; let rs2 := fld w 20 5
  let f7 := (fld w 25 7).toNat
  let z := rd == 0; let z1 := rs1 == 0; let z2 := rs2 == 0
  match (fld w 12 3).toNat with
  | 0 => if f7 == 0 then control z (.cap rs1 rs2) else .error .controlFunct
  | 1 =>
    if f7 == 0 then control true (.qpush rd rs1 rs2)
    else if f7 == 1 then control z2 (.launch rd rs1)
    else if f7 == 2 then control (z && z1 && z2) .exit
    else if f7 == 3 then control (z && z1 && z2) .yield
    else if fld w 28 4 == 1 then control true (.launchWait (fld w 25 3) rd rs1 rs2)
    else .error .controlFunct
  | 2 =>
    if f7 == 0 then control z (.hbInit rs1 rs2)
    else if f7 == 1 then control (z && z2) (.hbArrive rs1)
    else if f7 == 2 then control (z && z2) (.hbWait rs1)
    else if f7 == 3 then control z (.hbTxadd rs1 rs2)
    else .error .controlFunct
  | 3 =>
    if w.getLsbD 28 then control (z && z2) (.tlWait (fld w 29 3) (fld w 25 3) rs1)
    else control (fld w 29 3 == 0 && z1 && z2) (.tlRead (fld w 25 3) rd)
  | 4 =>
    if f7 == 0 then control z2 (.tagWany rd rs1)
    else if f7 == 1 then control (z && z2) (.tagWall rs1)
    else if f7 == 2 then control z2 (.tagFfr rd rs1)
    else if f7 == 3 then control (z && z2) (.tagClr rs1)
    else .error .controlFunct
  | 5 =>
    if f7 < 64 then control (z && z1 && z2) (.mfence (fld w 25 6))
    else if f7 == 64 then control (z && z1 && z2) .mjoin
    else .error .controlFunct
  | 6 =>
    if f7 == 0 then control (fld w 23 2 == 0 && z && z1) (.sgBegin (fld w 20 3))
    else if f7 == 1 then control (z1 && z2) (.sgEnd rd)
    else if f7 == 2 then control (z && z2) (.sgAbort rs1)
    else .error .controlFunct
  | _ =>
    if f7 == 0 then control z (.waddr rs1 rs2)
    else if f7 == 1 then control (fld w 23 2 == 0) (.engStat (fld w 20 3) rd rs1)
    else if f7 == 2 then control (z1 && z2) (.vmbPop rd)
    else if f7 == 3 then control (z && z2) (.vwsetV rs1)
    else if f7 == 4 then control (z && z2) (.vwsetM rs1)
    else if f7 == 5 then control (z && z2) (.vwsetC rs1)
    else if f7 == 0x7F then control (z && z1 && z2) .tret
    else .error .controlFunct

/-- custom-1. -/
def decodeCustom1 (w : BitVec 32) : Except Illegal Instr :=
  let m := fld w 27 5; let rs1 := fld w 15 5
  match (fld w 12 3).toNat with
  | 0 => control (!w.getLsbD 15 && fld w 10 2 == 0) (.fenceC (fld w 16 16) (fld w 7 3))
  | 1 =>
    let s := fld w 20 3; let rd := fld w 7 5; let z := fld w 23 2 == 0
    match (fld w 25 2).toNat with
    | 0 => control z (.ldAcqB m s rd rs1)
    | 1 => control z (.ldAcqH m s rd rs1)
    | 2 => control z (.ldAcqW m s rd rs1)
    | _ => control z (.ldAcqD m s rd rs1)
  | 2 =>
    let s := fld w 7 3; let rs2 := fld w 20 5; let z := fld w 10 2 == 0
    match (fld w 25 2).toNat with
    | 0 => control z (.stRelB m s rs1 rs2)
    | 1 => control z (.stRelH m s rs1 rs2)
    | 2 => control z (.stRelW m s rs1 rs2)
    | _ => control z (.stRelD m s rs1 rs2)
  | _ => .error .controlFunct

/-- Any 32-bit encoding. -/
def decode32 (w : BitVec 32) : Except Illegal Instr :=
  let rd := fld w 7 5; let rs1 := fld w 15 5; let rs2 := fld w 20 5; let mj := fld w 0 7
  if mj == opCustom0 then decodeCustom0 w
  else if mj == opCustom1 then decodeCustom1 w
  else if mj == opImmMajor || mj == opImm32 then decodeOpImm w
  else if mj == opReg || mj == opReg32 then decodeOpReg w
  else if mj == opLoad then
    match LoadW.all.find? (fun o => o.enc == fld w 12 3) with
    | some o => .ok (.rvLoad false o rd rs1 (fld w 20 12))
    | none => .error .funct
  else if mj == opStore then
    match AccW.all.find? (fun o => o.enc == fld w 12 3) with
    | some o => .ok (.rvStore false o rs1 rs2 (fld w 25 7 ++ fld w 7 5))
    | none => .error .funct
  else if mj == opBranch then
    match BrCond.all.find? (fun o => o.enc == fld w 12 3) with
    | some o => .ok (.rvIntegerOp false (.branch o rs1 rs2 (fld w 31 1 ++ fld w 7 1 ++ fld w 25 6 ++ fld w 8 4)))
    | none => .error .funct
  else if mj == opJalr then
    if fld w 12 3 == 0 then .ok (.rvIntegerOp false (.jalr rd rs1 (fld w 20 12))) else .error .funct
  else if mj == opJal then
    .ok (.rvIntegerOp false (.jal rd (fld w 31 1 ++ fld w 12 8 ++ fld w 20 1 ++ fld w 21 10)))
  else if mj == opLui then .ok (.rvIntegerOp false (.lui rd (fld w 12 20)))
  else if mj == opAuipc then .ok (.rvIntegerOp false (.auipc rd (fld w 12 20)))
  else if mj == opAmo then decodeAmo w
  else if mj == opMiscMem then decodeFence w
  else if mj == opSystem then decodeSystem w
  else .error .opcode

/-! ## Compressed instructions (the C extension of RV64, R4) -/

/-- A compressed register number: x8 to x15. -/
def creg (r : BitVec 3) : Reg := (1 : BitVec 2) ++ r

/-- Sign-extend a field. -/
def sx {n : Nat} (k : Nat) (x : BitVec n) : BitVec k := x.signExtend k
/-- Zero-extend a field. -/
def zx {n : Nat} (k : Nat) (x : BitVec n) : BitVec k := x.zeroExtend k

def cop (o : RvOp) : Except Illegal Instr := .ok (.rvIntegerOp true o)

/-- Quadrant 0. -/
def decodeC0 (w : BitVec 16) : Except Illegal Instr :=
  let r1 := creg (fld w 7 3); let r2 := creg (fld w 2 3)
  let uw := zx 12 (fld w 5 1 ++ fld w 10 3 ++ fld w 6 1 ++ (0 : BitVec 2))
  let ud := zx 12 (fld w 5 2 ++ fld w 10 3 ++ (0 : BitVec 3))
  match (fld w 13 3).toNat with
  | 0 =>
    let imm := fld w 7 4 ++ fld w 11 2 ++ fld w 5 1 ++ fld w 6 1 ++ (0 : BitVec 2)
    if imm == 0 then .error .compressed else cop (.opImm .addi r2 2 (zx 12 imm))
  | 2 => .ok (.rvLoad true .w r2 r1 uw)
  | 3 => .ok (.rvLoad true .d r2 r1 ud)
  | 6 => .ok (.rvStore true .w r1 r2 uw)
  | 7 => .ok (.rvStore true .d r1 r2 ud)
  | 4 => .error .compressed
  | _ => .error .compressedFloat

/-- Quadrant 1. -/
def decodeC1 (w : BitVec 16) : Except Illegal Instr :=
  let rd := fld w 7 5; let r1 := creg (fld w 7 3); let r2 := creg (fld w 2 3)
  let imm6 := fld w 12 1 ++ fld w 2 5
  let jOff := fld w 12 1 ++ fld w 8 1 ++ fld w 9 2 ++ fld w 6 1 ++ fld w 7 1 ++ fld w 2 1 ++ fld w 11 1 ++ fld w 3 3
  let bOff := fld w 12 1 ++ fld w 5 2 ++ fld w 2 1 ++ fld w 10 2 ++ fld w 3 2
  match (fld w 13 3).toNat with
  | 0 => cop (.opImm .addi rd rd (sx 12 imm6))
  | 1 => if rd == 0 then .error .compressed else cop (.opImm .addiw rd rd (sx 12 imm6))
  | 2 => cop (.opImm .addi rd 0 (sx 12 imm6))
  | 3 =>
    if imm6 == 0 then .error .compressed
    else if rd == 2 then
      cop (.opImm .addi 2 2 (sx 12 (fld w 12 1 ++ fld w 3 2 ++ fld w 5 1 ++ fld w 2 1 ++ fld w 6 1 ++ (0 : BitVec 4))))
    else cop (.lui rd (sx 20 imm6))
  | 4 =>
    match (fld w 10 2).toNat with
    | 0 => cop (.shImm .srli r1 r1 imm6)
    | 1 => cop (.shImm .srai r1 r1 imm6)
    | 2 => cop (.opImm .andi r1 r1 (sx 12 imm6))
    | _ =>
      match (fld w 12 1 ++ fld w 5 2).toNat with
      | 0 => cop (.op .sub r1 r1 r2)
      | 1 => cop (.op .xor r1 r1 r2)
      | 2 => cop (.op .or r1 r1 r2)
      | 3 => cop (.op .and r1 r1 r2)
      | 4 => cop (.op .subw r1 r1 r2)
      | 5 => cop (.op .addw r1 r1 r2)
      | _ => .error .compressed
  | 5 => cop (.jal 0 (sx 20 jOff))
  | 6 => cop (.branch .eq r1 0 (sx 12 bOff))
  | _ => cop (.branch .ne r1 0 (sx 12 bOff))

/-- Quadrant 2. -/
def decodeC2 (w : BitVec 16) : Except Illegal Instr :=
  let rd := fld w 7 5; let rs2 := fld w 2 5
  match (fld w 13 3).toNat with
  | 0 => cop (.shImm .slli rd rd (fld w 12 1 ++ fld w 2 5))
  | 2 =>
    if rd == 0 then .error .compressed
    else .ok (.rvLoad true .w rd 2 (zx 12 (fld w 2 2 ++ fld w 12 1 ++ fld w 4 3 ++ (0 : BitVec 2))))
  | 3 =>
    if rd == 0 then .error .compressed
    else .ok (.rvLoad true .d rd 2 (zx 12 (fld w 2 3 ++ fld w 12 1 ++ fld w 5 2 ++ (0 : BitVec 3))))
  | 4 =>
    if w.getLsbD 12 then
      if rs2 == 0 then
        if rd == 0 then cop .ebreak else cop (.jalr 1 rd 0)
      else cop (.op .add rd rd rs2)
    else if rs2 == 0 then
      if rd == 0 then .error .compressed else cop (.jalr 0 rd 0)
    else cop (.op .add rd 0 rs2)
  | 6 => .ok (.rvStore true .w 2 rs2 (zx 12 (fld w 7 2 ++ fld w 9 4 ++ (0 : BitVec 2))))
  | 7 => .ok (.rvStore true .d 2 rs2 (zx 12 (fld w 7 3 ++ fld w 10 3 ++ (0 : BitVec 3))))
  | _ => .error .compressedFloat

/-- Any 16-bit encoding. -/
def decode16 (w : BitVec 16) : Except Illegal Instr :=
  match (fld w 0 2).toNat with
  | 0 => decodeC0 w
  | 1 => decodeC1 w
  | _ => decodeC2 w

/-! ## Engine words (R230 to R243) -/

def intT? : Nat → IntT | 0 => .i32 | 1 => .i16 | 2 => .i8 | _ => .u8
def IntT.code : IntT → Nat | .i32 => 0 | .i16 => 1 | .i8 => 2 | .u8 => 3

def fpT? : Nat → Option FpT | 0 => some .f32 | 1 => some .bf16 | 2 => some .f16 | _ => none
def FpT.code : FpT → Nat | .f32 => 0 | .bf16 => 1 | .f16 => 2

def elemT? : Nat → Option ElemT
  | 0 => some .f32 | 1 => some .f16 | 2 => some .bf16 | 3 => some .e4m3 | 4 => some .e5m2
  | 5 => some .i32 | 6 => some .i16 | 7 => some .i8 | 8 => some .u8 | _ => none
/-- R240. -/
def ElemT.code : ElemT → Nat
  | .f32 => 0 | .f16 => 1 | .bf16 => 2 | .e4m3 => 3 | .e5m2 => 4 | .i32 => 5 | .i16 => 6 | .i8 => 7 | .u8 => 8

def mxT? : Nat → Option MxT
  | 0 => some .i8 | 1 => some .u8 | 2 => some .e4m3 | 3 => some .e5m2 | 4 => some .f16 | 5 => some .bf16
  | 6 => some .bs8 | _ => none
/-- R243. -/
def MxT.code : MxT → Nat | .i8 => 0 | .u8 => 1 | .e4m3 => 2 | .e5m2 => 3 | .f16 => 4 | .bf16 => 5 | .bs8 => 6

def mspT? : Nat → Option MspT | 0 => some .i8 | 1 => some .u8 | 2 => some .e4m3 | 3 => some .e5m2 | _ => none
def MspT.code : MspT → Nat | .i8 => 0 | .u8 => 1 | .e4m3 => 2 | .e5m2 => 3

def scT? : Nat → Option ScT | 0 => some .f32 | 1 => some .f16 | 2 => some .bf16 | 5 => some .i32 | _ => none
def ScT.code : ScT → Nat | .f32 => 0 | .f16 => 1 | .bf16 => 2 | .i32 => 5

def sigT? : Nat → Option SigT
  | 0 => some .f32 | 1 => some .f16 | 2 => some .bf16 | 3 => some .e4m3 | 4 => some .e5m2 | 7 => some .i8
  | _ => none
def SigT.code : SigT → Nat | .f32 => 0 | .f16 => 1 | .bf16 => 2 | .e4m3 => 3 | .e5m2 => 4 | .i8 => 7

def cond? : Nat → Option Cond
  | 0 => some .eq | 1 => some .ne | 2 => some .lt | 3 => some .le | 4 => some .gt | 5 => some .ge | _ => none
def Cond.code : Cond → Nat | .eq => 0 | .ne => 1 | .lt => 2 | .le => 3 | .gt => 4 | .ge => 5

def fcond? : Nat → Option FCond
  | 0 => some .eq | 1 => some .ne | 2 => some .lt | 3 => some .le | 4 => some .gt | 5 => some .ge
  | 6 => some .unord | _ => none
def FCond.code : FCond → Nat | .eq => 0 | .ne => 1 | .lt => 2 | .le => 3 | .gt => 4 | .ge => 5 | .unord => 6

/-- Accept `i` when the BODY fields it does not use are zero (R239). -/
def need (zeros : Bool) (i : Instr) : Except Illegal Instr :=
  if zeros then .ok i else .error .engineField

/-- `i` of a type code that the map assigns. -/
def typed {α : Type} (t : Option α) (i : α → Except Illegal Instr) : Except Illegal Instr :=
  match t with
  | some x => i x
  | none => .error .engineOp

/-- The predicate of the vector layouts: body bits [4:0], word bits [11:7]. -/
def fPred (b : BitVec 29) : Pred := ⟨fld b 1 4, b.getLsbD 0⟩

/-- VA, OP 0x00 to 0x4F (R241). -/
def decodeVaInt (h : Hdr) (f tc : Nat) (b : BitVec 29) : Except Illegal Instr :=
  let d := fld b 23 6; let a := fld b 17 6; let s := fld b 11 6; let c := fld b 5 6
  let p := fPred b; let t := intT? tc
  let zc := c == 0; let zbc := s == 0 && c == 0
  match f with
  | 0 => need zc (.vadd h t d a s p)
  | 1 => need zc (.vsub h t d a s p)
  | 2 => need zc (.vmul h t d a s p)
  | 3 => need zc (.vmulh h t d a s p)
  | 4 => need true (.vmac h t d a s c p)
  | 5 => need zc (.vmin h t d a s p)
  | 6 => need zc (.vmax h t d a s p)
  | 7 => need zbc (.vabs h t d a p)
  | 8 => need zbc (.vneg h t d a p)
  | 9 => need zc (.vadds h t d a s p)
  | 10 => need zc (.vsubs h t d a s p)
  | 11 => need true (.vclip h t d a s c p)
  | 12 => need zc (.vshl h t d a s p)
  | 13 => need zc (.vshr h t d a s p)
  | 14 => need zc (.vsra h t d a s p)
  | 15 => need zbc (.vpopc h t d a p)
  | 16 => need zbc (.vclz h t d a p)
  | 17 => typed (cond? (fld b 5 3).toNat) fun cnd =>
      need (fld b 27 2 == 0 && fld b 8 3 == 0) (.vcmp h t cnd (fld b 23 4) a s p)
  | 18 =>
    match tc with
    | 0 => need zc (.vand h d a s p)
    | 1 => need zc (.vor h d a s p)
    | 2 => need zc (.vxor h d a s p)
    | _ => need zbc (.vnot h d a p)
  | _ =>
    match tc with
    | 0 => need zbc (.vmov h d a p)
    | 1 => need zc (.vsel h d a s p)
    | 2 => need (fld b 5 5 == 0) (.vbcst h d a (fld b 10 7) p)
    | _ => need true (.vmovi h d (fld b 5 18) p)

/-- VA, OP 0x50 to 0x8F (R241). -/
def decodeVaFp (h : Hdr) (g : Nat) (t : FpT) (b : BitVec 29) : Except Illegal Instr :=
  let d := fld b 23 6; let a := fld b 17 6; let s := fld b 11 6; let c := fld b 5 6
  let p := fPred b
  let zc := c == 0; let zbc := s == 0 && c == 0
  match g with
  | 0 => need zc (.vfadd h t d a s p)
  | 1 => need zc (.vfsub h t d a s p)
  | 2 => need zc (.vfmul h t d a s p)
  | 3 => need true (.vfma h t d a s c p)
  | 4 => need true (.vfms h t d a s c p)
  | 5 => need true (.vfnma h t d a s c p)
  | 6 => need zc (.vfmin h t d a s p)
  | 7 => need zc (.vfmax h t d a s p)
  | 8 => need zbc (.vfabs h t d a p)
  | 9 => need zbc (.vfneg h t d a p)
  | 10 => need zbc (.vfrcp h t d a p)
  | 11 => need zbc (.vfrsq h t d a p)
  | 12 => need zbc (.vfexp2 h t d a p)
  | 13 => need zbc (.vflog2 h t d a p)
  | 14 => typed (fcond? (fld b 5 3).toNat) fun cnd =>
      need (fld b 27 2 == 0 && fld b 8 3 == 0) (.vfcmp h t cnd (fld b 23 4) a s p)
  | _ => need zbc (.vfclass h t d a p)

/-- VA, OP 0x90 to 0xE0 (R241): 0x90 + 9d + s. -/
def decodeVaCvt (h : Hdr) (dt st : ElemT) (b : BitVec 29) : Except Illegal Instr :=
  let d := fld b 23 6; let a := fld b 17 6; let p := fPred b
  let z := fld b 5 12 == 0
  if dt.isFloat == st.isFloat then need z (.vcvt h dt st d a p)
  else if dt.isFloat then need z (.vi2f h dt st d a p)
  else need z (.vf2i h dt st d a p)

/-- VA, OP 0xE1 to 0xFF (R241). -/
def decodeVaRest (h : Hdr) (op : Nat) (b : BitVec 29) : Except Illegal Instr :=
  let d := fld b 23 6; let a := fld b 17 6; let s := fld b 11 6; let c := fld b 5 6
  let p := fPred b
  let zc := c == 0; let zbc := s == 0 && c == 0
  let kd := fld b 25 4; let ka := fld b 21 4; let kb := fld b 17 4; let zk := fld b 0 17 == 0
  match op with
  | 0xE1 => need zbc (.vrsumI32 h d a p)
  | 0xE2 => need zbc (.vrsumI8 h d a p)
  | 0xE3 => need zbc (.vrmaxI32 h d a p)
  | 0xE4 => need zbc (.vrmaxU8 h d a p)
  | 0xE5 => need zbc (.vrminI32 h d a p)
  | 0xE6 => need zbc (.vrminU8 h d a p)
  | 0xE7 => need zbc (.vfrsum h .f32 d a p)
  | 0xE8 => need zbc (.vfrsum h .bf16 d a p)
  | 0xE9 => need zbc (.vfrmax h .f32 d a p)
  | 0xEA => need zbc (.vfrmax h .bf16 d a p)
  | 0xEB => need zc (.vperm h d a s p)
  | 0xEC => need true (.vslup h d a s c p)
  | 0xED => need true (.vsldn h d a s c p)
  | 0xEE => need zc (.vzip h d a s p)
  | 0xEF => need zc (.vunzip h d a s p)
  | 0xF0 => need zc (.vlut h d a s p)
  | 0xF1 => need zbc (.vbmax h .f32 d a p)
  | 0xF2 => need zbc (.vbmax h .bf16 d a p)
  | 0xF3 => need zc (.vbqnt h .f32 d a s p)
  | 0xF4 => need zc (.vbqnt h .bf16 d a s p)
  | 0xF5 => need zc (.vbdqnt h .f32 d a s p)
  | 0xF6 => need zc (.vbdqnt h .bf16 d a s p)
  | 0xF7 => need zc (.vbpack h d a s p)
  | 0xF8 => need zc (.vbunpk h d a s p)
  | 0xF9 => need (d == 0 && fld b 0 10 == 0) (.vtos h a (fld b 10 7))
  | 0xFA => need zk (.kand h kd ka kb)
  | 0xFB => need zk (.kor h kd ka kb)
  | 0xFC => need zk (.kxor h kd ka kb)
  | 0xFD => need (zk && kb == 0) (.knot h kd ka)
  | 0xFE => need (zk && kb == 0) (.kmov h kd ka)
  | _ => need (zk && kd == 0 && kb == 0) (.kpopc h ka)

/-- Class VA. -/
def decodeVa (h : Hdr) (op : Nat) (b : BitVec 29) : Except Illegal Instr :=
  if op < 0x50 then decodeVaInt h (op / 4) (op % 4) b
  else if op < 0x90 then typed (fpT? ((op - 0x50) % 4)) fun t => decodeVaFp h ((op - 0x50) / 4) t b
  else if op < 0xE1 then
    typed (elemT? ((op - 0x90) / 9)) fun dt => typed (elemT? ((op - 0x90) % 9)) fun st => decodeVaCvt h dt st b
  else decodeVaRest h op b

/-- Fields of layout VMM. -/
def fVmm (b : BitVec 29) : Vmm := ⟨fld b 23 6, fld b 19 4, fld b 13 6, fld b 5 8, fPred b⟩
/-- Fields of layout VMD. -/
def fVmd (b : BitVec 29) : Vmd := ⟨fld b 23 6, fld b 17 6, fld b 13 4, fld b 9 4, fPred b⟩

/-- Class VM (R242). -/
def decodeVm (h : Hdr) (op : Nat) (b : BitVec 29) : Except Illegal Instr :=
  let lo := op % 16
  let zd := fld b 5 4 == 0
  match op / 16 with
  | 0 => typed (elemT? lo) fun t => need true (.vld h t (fVmm b))
  | 1 => typed (elemT? lo) fun t => need true (.vlds h t (fVmm b))
  | 2 => typed (elemT? lo) fun t => need true (.vldx h t (fVmm b))
  | 3 => typed (elemT? lo) fun t => need true (.vst h t (fVmm b))
  | 4 => typed (elemT? lo) fun t => need true (.vsts h t (fVmm b))
  | 5 => typed (elemT? lo) fun t => need true (.vstx h t (fVmm b))
  | 6 => typed (elemT? lo) fun t => need (fld b 5 16 == 0) (.vpop h t (fld b 23 6) (fld b 21 2) (fPred b))
  | 7 => if lo ≤ 6 then need true (.vldb h (BitVec.ofNat 4 (lo + 2)) (fVmm b)) else .error .engineOp
  | 8 =>
    match lo with
    | 0 => need (fld b 0 23 == 0) (.fqOpen h (fld b 27 2) (fld b 23 4))
    | 1 => need (fld b 0 27 == 0) (.fqClose h (fld b 27 2))
    | 2 => need (fld b 0 18 == 0) (.vloop h (fld b 23 6) (fld b 21 2) (fld b 18 3))
    | 3 => need (b == 0) (.vsync h)
    | 4 => need (fld b 0 23 == 0) (.vnop h (fld b 23 6))
    | 5 => need zd (.vdefer h (fVmd b))
    | 6 => need zd (.vdtake h (fVmd b))
    | 7 => need zd (.vdret h (fVmd b))
    | 8 => need (fld b 17 12 == 0 && fld b 0 13 == 0) (.vdcnt h (fld b 13 4))
    | 9 => need (fld b 5 6 == 0) (.vcfix h (fld b 23 6) (fld b 17 6) (fld b 11 6) (fPred b))
    | _ => .error .engineOp
  | _ => .error .engineOp

/-- Fields of layout MXT. -/
def fMxt (b : BitVec 29) : Mxt := ⟨fld b 25 4, fld b 17 8, b.getLsbD 16, fld b 12 4, fld b 8 4, b.getLsbD 7⟩
/-- Fields of layout MXA. -/
def fMxa (b : BitVec 29) : Mxa := ⟨fld b 21 8, fld b 17 4, fld b 9 8⟩

/-- Class MX (R243). -/
def decodeMx (h : Hdr) (op : Nat) (b : BitVec 29) : Except Illegal Instr :=
  let lo := op % 16
  let zt := fld b 0 7 == 0; let za := fld b 0 9 == 0; let zl := fld b 0 21 == 0
  match op / 16 with
  | 0 => typed (mxT? lo) fun t => need zt (.tmma h t (fMxt b))
  | 1 => typed (mspT? lo) fun t => need zt (.tmmaSp h t (fMxt b))
  | 2 => if lo ≤ 6 then need zt (.tmmaBp h (BitVec.ofNat 4 (lo + 2)) (fMxt b)) else .error .engineOp
  | 3 => typed (mxT? lo) fun t => need zt (.tmmaGrp h t (fMxt b))
  | 4 =>
    match lo with
    | 0 => need (za && fld b 17 4 == 0) (.taccClr h (fld b 21 8) (fld b 9 8))
    | 1 => need za (.taccRd h (fMxa b))
    | 2 => need za (.taccWr h (fMxa b))
    | 3 => need zl (.tepiSet h (fld b 25 4) (fld b 21 4))
    | 4 => need zl (.tlutLd h (fld b 25 4) (fld b 21 4))
    | 5 => need (b == 0) (.wbInv h)
    | 6 => need za (.ttr h (fMxa b))
    | 7 => need za (.tmov h (fMxa b))
    | _ => .error .engineOp
  | _ => .error .engineOp

/-- Fields of layout CPX with handles. -/
def fCpx (b : BitVec 29) : Cpx := ⟨fld b 17 12, fld b 5 12, fld b 1 4, b.getLsbD 0⟩

/-- Class CP (R243). -/
def decodeCp (h : Hdr) (op : Nat) (b : BitVec 29) : Except Illegal Instr :=
  let cl := fld b 1 4; let ro := b.getLsbD 0
  match op with
  | 0 => need true (.cpy h (fld b 5 24) cl ro)
  | 1 => need true (.tcpy h (fCpx b))
  | 2 => need (!ro && fld b 17 12 == fld b 5 12) (.tcpyMc h (fld b 17 12) cl)
  | 3 => need (!ro) (.cpyFill h (fld b 5 24) cl)
  | 4 => need (!ro && fld b 5 24 == 0) (.cpyXf h cl)
  | 5 => need (fld b 5 24 == 0) (.cpyWb h cl ro)
  | 6 => need true (.cpyPerm h (fCpx b))
  | _ => .error .engineOp

/-- Fields of layout GSX. -/
def fGsx (b : BitVec 29) : Gsx := ⟨fld b 17 12, fld b 5 12, fld b 1 4⟩

/-- Class GS (R243). -/
def decodeGs (h : Hdr) (op : Nat) (b : BitVec 29) : Except Illegal Instr :=
  let z := !b.getLsbD 0; let lo := op % 16
  match op / 16 with
  | 0 =>
    match lo with
    | 0 => need z (.gath h (fGsx b))
    | 1 => need z (.scat h (fGsx b))
    | 2 => need (fld b 0 13 == 0) (.gathTl h (fld b 17 12) (fld b 13 4))
    | 3 => need (fld b 0 13 == 0) (.scatTl h (fld b 17 12) (fld b 13 4))
    | _ => .error .engineOp
  | 1 => typed (scT? lo) fun t => need z (.scatAdd h t (fGsx b))
  | 2 => typed (scT? lo) fun t => need z (.scatMax h t (fGsx b))
  | _ => .error .engineOp

/-- Fields of layout SGX. -/
def fSgx (b : BitVec 29) : Sgx := ⟨fld b 25 4, fld b 17 8, fld b 13 4⟩

/-- Class SG (R243). -/
def decodeSg (h : Hdr) (op : Nat) (b : BitVec 29) : Except Illegal Instr :=
  let z := fld b 0 13 == 0; let lo := op % 16
  match op / 16 with
  | 0 =>
    match lo with
    | 0 => need (z && fld b 17 12 == 0) (.sigCfg h (fld b 13 4))
    | 1 => need z (.sigKey h (fSgx b))
    | 2 => need z (.sigGroup h (fSgx b))
    | 3 => need z (.sigScat h (fSgx b))
    | 4 => need z (.sigBexp h (fSgx b))
    | _ => .error .engineOp
  | 1 => typed (sigT? lo) fun t => need z (.sigHash h t (fSgx b))
  | 2 =>
    match lo with
    | 0 => need z (.sigBred h .f32 (fSgx b))
    | 2 => need z (.sigBred h .bf16 (fSgx b))
    | _ => .error .engineOp
  | _ => .error .engineOp

/-- Class CM (R243). -/
def decodeCm (h : Hdr) (op : Nat) (b : BitVec 29) : Except Illegal Instr :=
  let l := fld b 23 6; let st := fld b 16 7; let z := fld b 0 16 == 0
  match op with
  | 0 => need (fld b 0 4 == 0) (.cmEval h l st (fld b 4 12))
  | 1 => need z (.cmMeas h l st)
  | 2 => need z (.cmCommit h l st)
  | 3 => need z (.cmForce h l st)
  | 4 => need true (.cmThr h l st (fld b 0 16))
  | _ => .error .engineOp

/-- The operation of an engine word (R234), or why the word is illegal whatever the state. -/
def decodeEngine (w : BitVec 64) : Except Illegal Instr :=
  let h : Hdr := ⟨fld w 56 8, fld w 48 8⟩
  let op := (fld w 36 8).toNat
  let b : BitVec 29 := fld w 7 29
  if fld w 0 7 != (0x3F : BitVec 7) then .error .engineMarker
  else if !waitOk h.wait then .error .engineWait
  else if !sigOk h.sig then .error .engineSig
  else
    let r : Except Illegal Instr :=
      match (fld w 44 4).toNat with
      | 0 => decodeVa h op b
      | 1 => decodeVm h op b
      | 2 => decodeMx h op b
      | 3 => decodeCp h op b
      | 4 => decodeGs h op b
      | 5 => decodeSg h op b
      | 6 => decodeCm h op b
      | _ => .error .engineClass
    match r with
    | .ok i => if i.wf then .ok i else .error .engineOperand
    | .error e => .error e

/-! ## The bytes a hart fetches -/

/-- Bytes of the instruction that begins with this halfword, by the RISC-V length encoding (R227). -/
def lengthOf (h : BitVec 16) : Except Illegal Nat :=
  if fld h 0 2 != (3 : BitVec 2) then .ok 2
  else if fld h 2 3 != (7 : BitVec 3) then .ok 4
  else if fld h 0 6 == (0x1F : BitVec 6) then .error .longLength
  else if fld h 0 7 == (0x3F : BitVec 7) then .ok 8
  else .error .wideLength

/-- The instruction at the head of a list of bytes, with its length. -/
def decode (bs : List Byte) : Except Illegal (Instr × Nat) :=
  if bs.length < 2 then .error .truncated
  else
    match lengthOf (BitVec.ofNat 16 (leNat (bs.take 2))) with
    | .error e => .error e
    | .ok n =>
      if bs.length < n then .error .truncated
      else
        let v := leNat (bs.take n)
        let r := match n with
          | 2 => decode16 (BitVec.ofNat 16 v)
          | 4 => decode32 (BitVec.ofNat 32 v)
          | _ => .ok (.engineWordPush (BitVec.ofNat 64 v))
        r.map (fun i => (i, n))

/-- The instruction that the decoder reads from an instruction of `nbits` bits `w`, little-endian,
every bit above `nbits` zero. -/
def decodeTableWord (nbits w : Nat) : Option Instr :=
  match decode (leBytes 8 (w % 2 ^ nbits)) with
  | .ok (i, _) => some i
  | .error _ => none

/-! ## Encoders -/

/-- An R-type word. -/
def rType (f7 : BitVec 7) (rs2 rs1 : BitVec 5) (f3 : BitVec 3) (rd : BitVec 5) (mj : BitVec 7) : BitVec 32 :=
  f7 ++ rs2 ++ rs1 ++ f3 ++ rd ++ mj

/-- An I-type word. -/
def iType (imm : BitVec 12) (rs1 : BitVec 5) (f3 : BitVec 3) (rd : BitVec 5) (mj : BitVec 7) : BitVec 32 :=
  imm ++ rs1 ++ f3 ++ rd ++ mj

/-- A custom-0 word. -/
def c0 (f7 : BitVec 7) (rs2 rs1 : BitVec 5) (f3 : BitVec 3) (rd : BitVec 5) : BitVec 32 :=
  rType f7 rs2 rs1 f3 rd opCustom0

/-- R228 ld.acq. -/
def ldAcqWord (m : BitVec 5) (wd : BitVec 2) (s : BitVec 3) (rs1 rd : BitVec 5) : BitVec 32 :=
  m ++ wd ++ (0 : BitVec 2) ++ s ++ rs1 ++ (1 : BitVec 3) ++ rd ++ opCustom1

/-- R228 st.rel. -/
def stRelWord (m : BitVec 5) (wd : BitVec 2) (rs2 rs1 : BitVec 5) (s : BitVec 3) : BitVec 32 :=
  m ++ wd ++ rs2 ++ rs1 ++ (2 : BitVec 3) ++ (0 : BitVec 2) ++ s ++ opCustom1

/-- The word of an integer operation, uncompressed. -/
def RvOp.word : RvOp → BitVec 32
  | .lui rd imm => imm ++ rd ++ opLui
  | .auipc rd imm => imm ++ rd ++ opAuipc
  | .jal rd o => fld o 19 1 ++ fld o 0 10 ++ fld o 10 1 ++ fld o 11 8 ++ rd ++ opJal
  | .jalr rd rs1 imm => iType imm rs1 0 rd opJalr
  | .branch c rs1 rs2 o => fld o 11 1 ++ fld o 4 6 ++ rs2 ++ rs1 ++ c.enc ++ fld o 0 4 ++ fld o 10 1 ++ opBranch
  | .opImm o rd rs1 imm => iType imm rs1 o.enc.2 rd o.enc.1
  | .shImm o rd rs1 sh => iType (o.enc.2.1 ++ sh) rs1 o.enc.2.2 rd o.enc.1
  | .unary o rd rs1 => iType o.enc.2.1 rs1 o.enc.2.2 rd o.enc.1
  | .op o rd rs1 rs2 => rType o.enc.2.1 rs2 rs1 o.enc.2.2 rd o.enc.1
  | .ebreak => iType 0x001 0 0 0 opSystem
  | .sret => iType 0x102 0 0 0 opSystem
  | .mret => iType 0x302 0 0 0 opSystem

/-- funct3 of an atomic of 4 or 8 bytes. -/
def amoF3 (dbl : Bool) : BitVec 3 := if dbl then 3 else 2

/-- The 32-bit word of a control instruction or of an uncompressed RV64 instruction (R228). -/
def encode32 : Instr → Option (BitVec 32)
  | .cap rs1 rs2 => some (c0 0x00 rs2 rs1 0 0)
  | .qpush rd rs1 rs2 => some (c0 0x00 rs2 rs1 1 rd)
  | .launch rd rs1 => some (c0 0x01 0 rs1 1 rd)
  | .launchWait e rd rs1 rs2 => some (c0 ((1 : BitVec 4) ++ e) rs2 rs1 1 rd)
  | .exit => some (c0 0x02 0 0 1 0)
  | .yield => some (c0 0x03 0 0 1 0)
  | .hbInit rs1 rs2 => some (c0 0x00 rs2 rs1 2 0)
  | .hbArrive rs1 => some (c0 0x01 0 rs1 2 0)
  | .hbWait rs1 => some (c0 0x02 0 rs1 2 0)
  | .hbTxadd rs1 rs2 => some (c0 0x03 rs2 rs1 2 0)
  | .tlRead e rd => some (c0 ((0 : BitVec 4) ++ e) 0 0 3 rd)
  | .tlWait s e rs1 => some (c0 (s ++ (1 : BitVec 1) ++ e) 0 rs1 3 0)
  | .tagWany rd rs1 => some (c0 0x00 0 rs1 4 rd)
  | .tagWall rs1 => some (c0 0x01 0 rs1 4 0)
  | .tagFfr rd rs1 => some (c0 0x02 0 rs1 4 rd)
  | .tagClr rs1 => some (c0 0x03 0 rs1 4 0)
  | .mfence m => some (c0 ((0 : BitVec 1) ++ m) 0 0 5 0)
  | .mjoin => some (c0 0x40 0 0 5 0)
  | .sgBegin s => some (c0 0x00 ((0 : BitVec 2) ++ s) 0 6 0)
  | .sgEnd rd => some (c0 0x01 0 0 6 rd)
  | .sgAbort rs1 => some (c0 0x02 0 rs1 6 0)
  | .waddr rs1 rs2 => some (c0 0x00 rs2 rs1 7 0)
  | .engStat e rd rs1 => some (c0 0x01 ((0 : BitVec 2) ++ e) rs1 7 rd)
  | .vmbPop rd => some (c0 0x02 0 0 7 rd)
  | .vwsetV rs1 => some (c0 0x03 0 rs1 7 0)
  | .vwsetM rs1 => some (c0 0x04 0 rs1 7 0)
  | .vwsetC rs1 => some (c0 0x05 0 rs1 7 0)
  | .tret => some (c0 0x7F 0 0 7 0)
  | .fenceC m s => some (m ++ (0 : BitVec 1) ++ (0 : BitVec 3) ++ (0 : BitVec 2) ++ s ++ opCustom1)
  | .ldAcqB m s rd rs1 => some (ldAcqWord m 0 s rs1 rd)
  | .ldAcqH m s rd rs1 => some (ldAcqWord m 1 s rs1 rd)
  | .ldAcqW m s rd rs1 => some (ldAcqWord m 2 s rs1 rd)
  | .ldAcqD m s rd rs1 => some (ldAcqWord m 3 s rs1 rd)
  | .stRelB m s rs1 rs2 => some (stRelWord m 0 rs2 rs1 s)
  | .stRelH m s rs1 rs2 => some (stRelWord m 1 rs2 rs1 s)
  | .stRelW m s rs1 rs2 => some (stRelWord m 2 rs2 rs1 s)
  | .stRelD m s rs1 rs2 => some (stRelWord m 3 rs2 rs1 s)
  | .rvIntegerOp false o => some o.word
  | .rvLoad false wd rd rs1 imm => some (iType imm rs1 wd.enc rd opLoad)
  | .rvStore false wd rs1 rs2 imm => some (rType (fld imm 5 7) rs2 rs1 wd.enc (fld imm 0 5) opStore)
  | .rvAmo o dbl aq rl rd rs1 rs2 =>
      some (rType (o.enc ++ BitVec.ofBool aq ++ BitVec.ofBool rl) rs2 rs1 (amoF3 dbl) rd opAmo)
  | .rvLr dbl aq rl rd rs1 =>
      some (rType ((2 : BitVec 5) ++ BitVec.ofBool aq ++ BitVec.ofBool rl) 0 rs1 (amoF3 dbl) rd opAmo)
  | .rvSc dbl aq rl rd rs1 rs2 =>
      some (rType ((3 : BitVec 5) ++ BitVec.ofBool aq ++ BitVec.ofBool rl) rs2 rs1 (amoF3 dbl) rd opAmo)
  | .rvFence fm pr su rd rs1 => some (iType (fm ++ pr ++ su) rs1 0 rd opMiscMem)
  | .rvFenceI imm rd rs1 => some (iType imm rs1 1 rd opMiscMem)
  | .rvPause => some (iType 0x010 0 0 0 opMiscMem)
  | .rvEcall => some (iType 0 0 0 0 opSystem)
  | .rvWfi => some (iType 0x105 0 0 0 opSystem)
  | .rvSfenceVma rs1 rs2 => some (rType 0x09 rs2 rs1 0 0 opSystem)
  | .rvCsrAccess o csr rd src => some (iType csr src o.enc rd opSystem)
  | _ => none

/-- The BODY of layout VA3 (R239). -/
def bVa3 (d a b c : BitVec 6) (p : Pred) : BitVec 29 := d ++ a ++ b ++ c ++ p.k ++ BitVec.ofBool p.kn
def bVmm (m : Vmm) : BitVec 29 := m.v ++ m.cl ++ m.x ++ m.off ++ m.p.k ++ BitVec.ofBool m.p.kn
def bVmd (m : Vmd) : BitVec 29 :=
  m.a ++ m.b ++ m.path ++ m.cl ++ (0 : BitVec 4) ++ m.p.k ++ BitVec.ofBool m.p.kn
def bVak (kd ka kb : BitVec 4) : BitVec 29 := kd ++ ka ++ kb ++ (0 : BitVec 17)
def bMxt (m : Mxt) : BitVec 29 :=
  m.ma ++ m.ct ++ BitVec.ofBool m.cx ++ m.nk1 ++ m.ep ++ BitVec.ofBool m.za ++ (0 : BitVec 7)
def bMxa (m : Mxa) : BitVec 29 := m.ct ++ m.ma ++ m.n1 ++ (0 : BitVec 9)
def bMxl (ix cl : BitVec 4) : BitVec 29 := ix ++ cl ++ (0 : BitVec 21)
def bCpx (m : Cpx) : BitVec 29 := m.hs ++ m.hd ++ m.cl ++ BitVec.ofBool m.ro
def bCpl (len1 : BitVec 24) (cl : BitVec 4) (ro : Bool) : BitVec 29 := len1 ++ cl ++ BitVec.ofBool ro
def bGsx (m : Gsx) : BitVec 29 := m.h ++ m.cnt1 ++ m.cl ++ (0 : BitVec 1)
def bGst (h : BitVec 12) (cl : BitVec 4) : BitVec 29 := h ++ cl ++ (0 : BitVec 13)
def bSgx (m : Sgx) : BitVec 29 := m.ma ++ m.n1 ++ m.cl ++ (0 : BitVec 13)
def bCmx (l : BitVec 6) (st : BitVec 7) (x : BitVec 16) : BitVec 29 := l ++ st ++ x

/-- An engine word from its fields (R230). -/
def eWord (h : Hdr) (cls : BitVec 4) (op : Nat) (body : BitVec 29) : BitVec 64 :=
  h.wait ++ h.sig ++ cls ++ BitVec.ofNat 8 op ++ body ++ (0x3F : BitVec 7)

/-- A VA word of layout VA3. -/
def vaW (h : Hdr) (op : Nat) (d a b c : BitVec 6) (p : Pred) : Option (BitVec 64) :=
  some (eWord h 0 op (bVa3 d a b c p))

/-- OP of an integer form. -/
def opVi (f : Nat) (t : IntT) : Nat := 4 * f + t.code
/-- OP of a floating-point form. -/
def opVf (g : Nat) (t : FpT) : Nat := 0x50 + 4 * g + t.code
/-- OP of a conversion. -/
def opCv (dt st : ElemT) : Nat := 0x90 + 9 * dt.code + st.code
/-- OP of the pairs of .f32 and .bf16. -/
def opFb (o : Nat) : FbT → Nat | .f32 => o | .bf16 => o + 1

/-- The engine word of an engine operation (R230 to R243). -/
def encodeEngine : Instr → Option (BitVec 64)
  | .vadd h t d a b p => vaW h (opVi 0 t) d a b 0 p
  | .vsub h t d a b p => vaW h (opVi 1 t) d a b 0 p
  | .vmul h t d a b p => vaW h (opVi 2 t) d a b 0 p
  | .vmulh h t d a b p => vaW h (opVi 3 t) d a b 0 p
  | .vmac h t d a b c p => vaW h (opVi 4 t) d a b c p
  | .vmin h t d a b p => vaW h (opVi 5 t) d a b 0 p
  | .vmax h t d a b p => vaW h (opVi 6 t) d a b 0 p
  | .vabs h t d a p => vaW h (opVi 7 t) d a 0 0 p
  | .vneg h t d a p => vaW h (opVi 8 t) d a 0 0 p
  | .vadds h t d a b p => vaW h (opVi 9 t) d a b 0 p
  | .vsubs h t d a b p => vaW h (opVi 10 t) d a b 0 p
  | .vclip h t d a b c p => vaW h (opVi 11 t) d a b c p
  | .vshl h t d a b p => vaW h (opVi 12 t) d a b 0 p
  | .vshr h t d a b p => vaW h (opVi 13 t) d a b 0 p
  | .vsra h t d a b p => vaW h (opVi 14 t) d a b 0 p
  | .vpopc h t d a p => vaW h (opVi 15 t) d a 0 0 p
  | .vclz h t d a p => vaW h (opVi 16 t) d a 0 0 p
  | .vcmp h t cnd kd a b p => vaW h (opVi 17 t) ((0 : BitVec 2) ++ kd) a b (BitVec.ofNat 6 cnd.code) p
  | .vand h d a b p => vaW h 0x48 d a b 0 p
  | .vor h d a b p => vaW h 0x49 d a b 0 p
  | .vxor h d a b p => vaW h 0x4A d a b 0 p
  | .vnot h d a p => vaW h 0x4B d a 0 0 p
  | .vmov h d a p => vaW h 0x4C d a 0 0 p
  | .vsel h d a b p => vaW h 0x4D d a b 0 p
  | .vbcst h d a l p => some (eWord h 0 0x4E (d ++ a ++ l ++ (0 : BitVec 5) ++ p.k ++ BitVec.ofBool p.kn))
  | .vmovi h d imm p => some (eWord h 0 0x4F (d ++ imm ++ p.k ++ BitVec.ofBool p.kn))
  | .vfadd h t d a b p => vaW h (opVf 0 t) d a b 0 p
  | .vfsub h t d a b p => vaW h (opVf 1 t) d a b 0 p
  | .vfmul h t d a b p => vaW h (opVf 2 t) d a b 0 p
  | .vfma h t d a b c p => vaW h (opVf 3 t) d a b c p
  | .vfms h t d a b c p => vaW h (opVf 4 t) d a b c p
  | .vfnma h t d a b c p => vaW h (opVf 5 t) d a b c p
  | .vfmin h t d a b p => vaW h (opVf 6 t) d a b 0 p
  | .vfmax h t d a b p => vaW h (opVf 7 t) d a b 0 p
  | .vfabs h t d a p => vaW h (opVf 8 t) d a 0 0 p
  | .vfneg h t d a p => vaW h (opVf 9 t) d a 0 0 p
  | .vfrcp h t d a p => vaW h (opVf 10 t) d a 0 0 p
  | .vfrsq h t d a p => vaW h (opVf 11 t) d a 0 0 p
  | .vfexp2 h t d a p => vaW h (opVf 12 t) d a 0 0 p
  | .vflog2 h t d a p => vaW h (opVf 13 t) d a 0 0 p
  | .vfcmp h t cnd kd a b p => vaW h (opVf 14 t) ((0 : BitVec 2) ++ kd) a b (BitVec.ofNat 6 cnd.code) p
  | .vfclass h t d a p => vaW h (opVf 15 t) d a 0 0 p
  | .vcvt h dt st d a p => vaW h (opCv dt st) d a 0 0 p
  | .vf2i h dt st d a p => vaW h (opCv dt st) d a 0 0 p
  | .vi2f h dt st d a p => vaW h (opCv dt st) d a 0 0 p
  | .vrsumI32 h d a p => vaW h 0xE1 d a 0 0 p
  | .vrsumI8 h d a p => vaW h 0xE2 d a 0 0 p
  | .vrmaxI32 h d a p => vaW h 0xE3 d a 0 0 p
  | .vrmaxU8 h d a p => vaW h 0xE4 d a 0 0 p
  | .vrminI32 h d a p => vaW h 0xE5 d a 0 0 p
  | .vrminU8 h d a p => vaW h 0xE6 d a 0 0 p
  | .vfrsum h t d a p => vaW h (opFb 0xE7 t) d a 0 0 p
  | .vfrmax h t d a p => vaW h (opFb 0xE9 t) d a 0 0 p
  | .vperm h d a b p => vaW h 0xEB d a b 0 p
  | .vslup h d a b c p => vaW h 0xEC d a b c p
  | .vsldn h d a b c p => vaW h 0xED d a b c p
  | .vzip h d a b p => vaW h 0xEE d a b 0 p
  | .vunzip h d a b p => vaW h 0xEF d a b 0 p
  | .vlut h d a b p => vaW h 0xF0 d a b 0 p
  | .vbmax h t d a p => vaW h (opFb 0xF1 t) d a 0 0 p
  | .vbqnt h t d a b p => vaW h (opFb 0xF3 t) d a b 0 p
  | .vbdqnt h t d a b p => vaW h (opFb 0xF5 t) d a b 0 p
  | .vbpack h d a b p => vaW h 0xF7 d a b 0 p
  | .vbunpk h d a b p => vaW h 0xF8 d a b 0 p
  | .vtos h a l => some (eWord h 0 0xF9 ((0 : BitVec 6) ++ a ++ l ++ (0 : BitVec 10)))
  | .kand h kd ka kb => some (eWord h 0 0xFA (bVak kd ka kb))
  | .kor h kd ka kb => some (eWord h 0 0xFB (bVak kd ka kb))
  | .kxor h kd ka kb => some (eWord h 0 0xFC (bVak kd ka kb))
  | .knot h kd ka => some (eWord h 0 0xFD (bVak kd ka 0))
  | .kmov h kd ka => some (eWord h 0 0xFE (bVak kd ka 0))
  | .kpopc h ka => some (eWord h 0 0xFF (bVak 0 ka 0))
  | .vld h t m => some (eWord h 1 (0x00 + t.code) (bVmm m))
  | .vlds h t m => some (eWord h 1 (0x10 + t.code) (bVmm m))
  | .vldx h t m => some (eWord h 1 (0x20 + t.code) (bVmm m))
  | .vst h t m => some (eWord h 1 (0x30 + t.code) (bVmm m))
  | .vsts h t m => some (eWord h 1 (0x40 + t.code) (bVmm m))
  | .vstx h t m => some (eWord h 1 (0x50 + t.code) (bVmm m))
  | .vpop h t d q p =>
      some (eWord h 1 (0x60 + t.code) (d ++ q ++ (0 : BitVec 16) ++ p.k ++ BitVec.ofBool p.kn))
  | .vldb h planes m => some (eWord h 1 (0x70 + planes.toNat - 2) (bVmm m))
  | .fqOpen h q cl => some (eWord h 1 0x80 (q ++ cl ++ (0 : BitVec 23)))
  | .fqClose h q => some (eWord h 1 0x81 (q ++ (0 : BitVec 27)))
  | .vloop h nb rot st => some (eWord h 1 0x82 (nb ++ rot ++ st ++ (0 : BitVec 18)))
  | .vsync h => some (eWord h 1 0x83 0)
  | .vnop h n => some (eWord h 1 0x84 (n ++ (0 : BitVec 23)))
  | .vdefer h m => some (eWord h 1 0x85 (bVmd m))
  | .vdtake h m => some (eWord h 1 0x86 (bVmd m))
  | .vdret h m => some (eWord h 1 0x87 (bVmd m))
  | .vdcnt h path => some (eWord h 1 0x88 ((0 : BitVec 12) ++ path ++ (0 : BitVec 13)))
  | .vcfix h d a b p => some (eWord h 1 0x89 (bVa3 d a b 0 p))
  | .tmma h t m => some (eWord h 2 (0x00 + t.code) (bMxt m))
  | .tmmaSp h t m => some (eWord h 2 (0x10 + t.code) (bMxt m))
  | .tmmaBp h planes m => some (eWord h 2 (0x20 + planes.toNat - 2) (bMxt m))
  | .tmmaGrp h t m => some (eWord h 2 (0x30 + t.code) (bMxt m))
  | .taccClr h ct n => some (eWord h 2 0x40 (bMxa ⟨ct, 0, n⟩))
  | .taccRd h m => some (eWord h 2 0x41 (bMxa m))
  | .taccWr h m => some (eWord h 2 0x42 (bMxa m))
  | .tepiSet h ix cl => some (eWord h 2 0x43 (bMxl ix cl))
  | .tlutLd h ix cl => some (eWord h 2 0x44 (bMxl ix cl))
  | .wbInv h => some (eWord h 2 0x45 0)
  | .ttr h m => some (eWord h 2 0x46 (bMxa m))
  | .tmov h m => some (eWord h 2 0x47 (bMxa m))
  | .cpy h len cl ro => some (eWord h 3 0x00 (bCpl len cl ro))
  | .tcpy h m => some (eWord h 3 0x01 (bCpx m))
  | .tcpyMc h hs cl => some (eWord h 3 0x02 (bCpx ⟨hs, hs, cl, false⟩))
  | .cpyFill h len cl => some (eWord h 3 0x03 (bCpl len cl false))
  | .cpyXf h cl => some (eWord h 3 0x04 (bCpl 0 cl false))
  | .cpyWb h cl ro => some (eWord h 3 0x05 (bCpl 0 cl ro))
  | .cpyPerm h m => some (eWord h 3 0x06 (bCpx m))
  | .gath h m => some (eWord h 4 0x00 (bGsx m))
  | .scat h m => some (eWord h 4 0x01 (bGsx m))
  | .gathTl h x cl => some (eWord h 4 0x02 (bGst x cl))
  | .scatTl h x cl => some (eWord h 4 0x03 (bGst x cl))
  | .scatAdd h t m => some (eWord h 4 (0x10 + t.code) (bGsx m))
  | .scatMax h t m => some (eWord h 4 (0x20 + t.code) (bGsx m))
  | .sigCfg h cl => some (eWord h 5 0x00 (bSgx ⟨0, 0, cl⟩))
  | .sigKey h m => some (eWord h 5 0x01 (bSgx m))
  | .sigGroup h m => some (eWord h 5 0x02 (bSgx m))
  | .sigScat h m => some (eWord h 5 0x03 (bSgx m))
  | .sigBexp h m => some (eWord h 5 0x04 (bSgx m))
  | .sigHash h t m => some (eWord h 5 (0x10 + t.code) (bSgx m))
  | .sigBred h t m => some (eWord h 5 (match t with | .f32 => 0x20 | .bf16 => 0x22) (bSgx m))
  | .cmEval h l st x => some (eWord h 6 0x00 (bCmx l st (x ++ (0 : BitVec 4))))
  | .cmMeas h l st => some (eWord h 6 0x01 (bCmx l st 0))
  | .cmCommit h l st => some (eWord h 6 0x02 (bCmx l st 0))
  | .cmForce h l st => some (eWord h 6 0x03 (bCmx l st 0))
  | .cmThr h l st ns => some (eWord h 6 0x04 (bCmx l st ns))
  | _ => none

/-- The bytes of a fetched instruction; the compressed forms are second spellings and have none. -/
def encode (i : Instr) : Option (List Byte) :=
  match i with
  | .engineWordPush w => some (leBytes 8 w.toNat)
  | i => (encode32 i).map fun w => leBytes 4 w.toNat

end Sys2Proof
end

