-- ==== Sys2Proof/Machine/Aes.lean ====
section
/-! DEFINITION. AES-256 and its Galois/Counter mode, as FIPS 197 and SP 800-38D define them (R4, R109;
log 9). -/

namespace Sys2Proof.Machine

/-- The substitution table of AES, byte i at bits [8i+7:8i]. -/
def sboxNat : Nat := 0x16bb54b00f2d99416842e6bf0d89a18cdf2855cee9871e9b948ed9691198f8e19e1dc186b95735610ef6034866b53e708a8bbd4b1f74dde8c6b4a61c2e2578ba08ae7a65eaf4566ca94ed58d6d37c8e779e4959162acd3c25c2406490a3a32e0db0b5ede14b8ee4688902a22dc4f816073195d643d7ea7c41744975fec130ccdd2f3ff1021dab6bcf5389d928f40a351a89f3c507f02f94585334d43fbaaefd0cf584c4a39becb6a5bb1fc20ed00d153842fe329b3d63b52a05a6e1b1a2c830975b227ebe28012079a059618c323c7041531d871f1e5a534ccf73f362693fdb7c072a49cafa2d4adf04759fa7dc982ca76abd7fe2b670130c56f6bf27b777c63

/-- SubBytes of one byte. -/
def sbox (x : Nat) : Nat := (sboxNat >>> (8 * x)) % 256

/-- Multiplication by x in GF(2^8). -/
def xtime (a : Nat) : Nat := if a < 128 then 2 * a else (2 * a % 256) ^^^ 0x1B

/-- XOR of two lists. -/
def xorL (a b : List Nat) : List Nat := List.zipWith (fun x y => x ^^^ y) a b

/-- One column of MixColumns. -/
def mixCol : List Nat → List Nat
  | [a, b, c, d] =>
    [xtime a ^^^ xtime b ^^^ b ^^^ c ^^^ d, a ^^^ xtime b ^^^ xtime c ^^^ c ^^^ d,
     a ^^^ b ^^^ xtime c ^^^ xtime d ^^^ d, xtime a ^^^ a ^^^ b ^^^ c ^^^ xtime d]
  | l => l

/-- The state is 16 bytes, column by column; ShiftRows takes byte (r, c) from (r, c + r). -/
def shiftRows (s : List Nat) : List Nat :=
  (List.range 16).map fun i => s.getD ((i + 4 * (i % 4)) % 16) 0

/-- MixColumns. -/
def mixCols (s : List Nat) : List Nat :=
  mixCol (s.take 4) ++ mixCol ((s.drop 4).take 4) ++ mixCol ((s.drop 8).take 4) ++ mixCol (s.drop 12)

/-- Key expansion of AES-256: the word list so far, newest first, extended by `n` words from index `i`. -/
def expandKey : Nat → Nat → List (List Nat) → Nat → List (List Nat)
  | 0, _, ws, _ => ws
  | n + 1, i, ws, rc =>
    let p := ws.getD 0 []
    let q := ws.getD 7 []
    let t :=
      if i % 8 = 0 then xorL ((p.drop 1 ++ p.take 1).map sbox) [rc, 0, 0, 0]
      else if i % 8 = 4 then p.map sbox
      else p
    expandKey n (i + 1) (xorL q t :: ws) (if i % 8 = 0 then xtime rc else rc)

/-- The 15 round keys of a 32-byte key. -/
def roundKeys (key : List Nat) : List (List Nat) :=
  let w0 := (List.range 8).map fun i => (key.drop (4 * i)).take 4
  let ws := (expandKey 52 8 w0.reverse 1).reverse
  (List.range 15).map fun r => ((ws.drop (4 * r)).take 4).flatten

/-- The rounds between the first AddRoundKey and the last round. -/
def aesRounds : List (List Nat) → List Nat → List Nat
  | [], s => s
  | [k], s => xorL (shiftRows (s.map sbox)) k
  | k :: ks, s => aesRounds ks (xorL (mixCols (shiftRows (s.map sbox))) k)

/-- AES-256 encryption of one block. -/
def aesBlock (key block : List Nat) : List Nat :=
  match roundKeys key with
  | [] => block
  | k :: ks => aesRounds ks (xorL block k)

/-- Bytes as a big-endian number. -/
def beNat (l : List Nat) : Nat := l.foldl (fun a b => a * 256 + b) 0

/-- A number as `n` bytes, big-endian. -/
def beBytes (n v : Nat) : List Nat := ((leBytes n v).map BitVec.toNat).reverse

/-- Multiplication in GF(2^128) with the bit order of GCM: bit 127 is the first. -/
def gfMul (x : Nat) : Nat → Nat → Nat → Nat
  | 0, _, z => z
  | n + 1, v, z =>
    let z := if x.testBit n then z ^^^ v else z
    let v := if v % 2 = 1 then (v >>> 1) ^^^ (0xE1 <<< 120) else v >>> 1
    gfMul x n v z

/-- GHASH over 16-byte blocks. -/
def ghash (h : Nat) : List Nat → Nat → Nat
  | [], y => y
  | b :: bs, y => ghash h bs (gfMul (y ^^^ b) 128 h 0)

/-- Cut bytes into `n` zero-padded 16-byte blocks. -/
def blocks16 (l : List Nat) : Nat → List Nat
  | 0 => []
  | n + 1 => beNat ((l.take 16) ++ List.replicate (16 - (l.take 16).length) 0) :: blocks16 (l.drop 16) n

/-- Counter-mode key stream of `n` blocks from counter block `ctr`. -/
def keyStream (key : List Nat) (iv : Nat) : Nat → Nat → List Nat
  | 0, _ => []
  | n + 1, c => aesBlock key (beBytes 16 (iv * 2 ^ 32 + c % 2 ^ 32)) ++ keyStream key iv n (c + 1)

/-- Encryption and decryption are one XOR with the key stream. -/
def gcmCrypt (key : List Byte) (iv : Nat) (d : List Byte) : List Byte :=
  let ks := keyStream (key.map BitVec.toNat) iv (ceilDiv d.length 16) 2
  (xorL (d.map BitVec.toNat) ks).map (BitVec.ofNat 8)

/-- The tag over additional data and ciphertext, first byte first. -/
def gcmTag (key : List Byte) (iv : Nat) (aad ct : List Byte) : List Byte :=
  let k := key.map BitVec.toNat
  let h := beNat (aesBlock k (List.replicate 16 0))
  let a := aad.map BitVec.toNat
  let c := ct.map BitVec.toNat
  let bs := blocks16 a (ceilDiv a.length 16) ++ blocks16 c (ceilDiv c.length 16) ++
    [a.length * 8 * 2 ^ 64 + c.length * 8]
  let t := ghash h bs 0 ^^^ beNat (aesBlock k (beBytes 16 (iv * 2 ^ 32 + 1)))
  (beBytes 16 t).map (BitVec.ofNat 8)

end Sys2Proof.Machine
end

