-- ==== Sys2Proof/Config.lean ====
section
/-! DEFINITION. Values that the spec leaves open: each is an opaque constant, so that no proof can see
which value it is. -/

namespace Sys2Proof

/-- A value the spec does not fix, one for each draw of the counter `State.fresh` (log 5). -/
opaque Config.freeWord : Nat → BitVec 64

/-- The SHA-384 digest of measured bytes, as an uninterpreted function of the bytes (R411, log 10). -/
opaque Config.digest : List Byte → BitVec 384

/-- What the 512-byte header of a firmware image holds (R400): its kind, version and security version, the length of the body and its
SHA-384 digest. -/
structure ImageHead where
  kind    : Nat
  version : Nat
  svn     : Nat
  len     : Nat
  digest  : BitVec 384
  deriving DecidableEq, Repr, Inhabited

/-- The header that 512 bytes hold: the spec names its fields and not where they stand (R400, log 89). -/
opaque Config.imageHead : List (BitVec 8) → ImageHead

/-- The signature of a header checks against the public key whose hash is fused into the part (R400, log 89). -/
opaque Config.imageSigned : List (BitVec 8) → Bool

/-- The fused rollback counter of a kind (R400, log 89). -/
opaque Config.rollback : Nat → Nat

/-- The boot ROM and the fuse configuration, which block 1 measures, and the key policy, which block 5 measures (R411, log 10). -/
opaque Config.romFuses : List (BitVec 8)
opaque Config.keyPolicy : List (BitVec 8)

/-- Where an image starts, and its fallback entry, by its measurement (R403, R408, log 89). -/
opaque Config.imageEntry : BitVec 384 → BitVec 64 × BitVec 64

/-- The part is a debug build, in which M mode can clear HBW_CTL.EN (R415, log 33). -/
opaque Config.debugBuild : Bool

/-- The signature of an SPDM response over its bytes, uninterpreted (R411, log 10). -/
opaque Config.sign : List Byte → List Byte

/-- Fallback of the correctly rounded 2^x and log2 x, used only where the interval of the computation
does not separate two neighbours within its step bound (log 13). -/
opaque Config.transcendental : Nat → BitVec 32 → Bool

/-- The interleave scheme of granule `j` of peer `k`: the map of another part, which its owner checks (R44, log 15). -/
opaque Config.peerIlv : Nat → Nat → Nat

/-- Where scheduler firmware keeps a continuation's record and its carried block in the context's continuation area, by launch and
ordinal: a number of 64-byte places and one of 128-byte places (R197, log 80). -/
opaque Config.contPlace : Nat → Nat → Nat × Nat

/-- The kind under which the energy table lists an operation, by engine class and word; class 6 is a decoded picture, 7 an evaluation
of Owl's, 8 a dummy operation (R222, log 12). -/
opaque Config.energyKind : Nat → Nat → Nat

/-- A record of the downgrade journal, of what the new image changes in the state that it exports: its type within its kind's range, its
schema version and its payload, by draw (R405, R407, log 83). -/
opaque Config.journalRec : Nat → Nat × Nat × List (BitVec 8)

/-- Whether the host rejects an access of the part at a host physical address (R30, log 15). -/
opaque Config.hostRejects : Nat → Bool

end Sys2Proof
end

