-- ==== Sys2Proof/Machine/Flags.lean ====
section
/-! DEFINITION. The sticky flags and the rounding control of dfcsr (R91, R92, R332). -/

namespace Sys2Proof.Machine

/-- The seven sticky flags, in the order of dfcsr[14:8] and of the status word of R332: bit 0 NV, 1 DZ,
2 OF, 3 UF, 4 NX, 5 OVF, 6 SAT. -/
abbrev Flags := BitVec 7

def fNone : Flags := 0
def fNV : Flags := 1
def fDZ : Flags := 2
def fOF : Flags := 4
def fUF : Flags := 8
def fNX : Flags := 16
def fOVF : Flags := 32
def fSAT : Flags := 64

/-- `f` when `c` holds. -/
def fIf (c : Bool) (f : Flags) : Flags := if c then f else fNone

/-- The union of the flags of a list of results. -/
def orFlags : List Flags → Flags
  | [] => fNone
  | f :: fs => f ||| orFlags fs

/-- Rounding modes (R91). -/
inductive Rm where | rne | rtz | rdn | rup
  deriving DecidableEq, Repr, Inhabited

/-- The mode of a 2-bit code. -/
def Rm.of (n : Nat) : Rm := match n % 4 with | 0 => .rne | 1 => .rtz | 2 => .rdn | _ => .rup

/-- RM, FTZ and DAZ as captured at push (R93). -/
structure FpCtl where
  rm  : Rm
  ftz : Bool
  daz : Bool
  deriving DecidableEq, Repr, Inhabited

/-- The controls that a dfcsr value holds (R92). -/
def fpCtlOf (d : BitVec 64) : FpCtl := ⟨Rm.of (bits d.toNat 1 0), d.getLsbD 2, d.getLsbD 3⟩

/-- Round to nearest even with no flushing: the controls of page conversions (R96). -/
def ctlRne : FpCtl := ⟨.rne, false, false⟩

/-- dfcsr with flags ORed in (R93). -/
def dfcsrOr (d : BitVec 64) (f : Flags) : BitVec 64 := d ||| (f.zeroExtend 64 <<< 8)

/-- What a write stores into dfcsr: the reserved fields keep reading zero (R92). -/
def dfcsrMask (v : BitVec 64) : BitVec 64 := v &&& 0x7F0F

end Sys2Proof.Machine
end

