-- ==== Sys2Proof/Machine/State.lean ====
section
/-! DEFINITION. The state of the part: everything the spec gives the machine, as plain data; the reasons
a step can stop; and the state after reset. -/

namespace Sys2Proof.Machine

/-! ## Faults and refusals -/

/-- Why the machine stops. Every memory, engine and illegal-instruction fault of the spec is state (a
trap, a fault record or a status), so none of them is here. -/
inductive Fault where
  /-- Raised by `step` when the turn names an agent with nothing to do, or an event whose condition does
  not hold (R47, R137, R199, R379 and the like): the step does not exist on the part. Safe. -/
  | notEnabled
  /-- Raised by every step after a thermal trip or loss of power until a cold reset (R424). Safe. -/
  | stopped
  deriving DecidableEq, Repr, Inhabited

/-- Why the model gives an operation no meaning. -/
inductive Refusal where
  /-- Raised by an arm of `exec` whose operation is not modelled. Safe. -/
  | notModelled (mnemonic : String)
  deriving DecidableEq, Repr, Inhabited

/-! ## Tables -/

/-- A sparse table: keys strictly rising; an absent key reads as the table's default. -/
abbrev Tbl (α : Type) := List (Nat × α)

/-- Entry `k` of a table, `d` when absent. -/
def tget {α : Type} (d : α) : Tbl α → Nat → α
  | [], _ => d
  | (i, v) :: t, k => if i = k then v else tget d t k

/-- Whether a table lists `k`. -/
def thas {α : Type} : Tbl α → Nat → Bool
  | [], _ => false
  | (i, _) :: t, k => i == k || thas t k

/-- A table with entry `k` set. -/
def tset {α : Type} : Tbl α → Nat → α → Tbl α
  | [], k, v => [(k, v)]
  | (i, w) :: t, k, v =>
    if k < i then (k, v) :: (i, w) :: t
    else if k = i then (k, v) :: t
    else (i, w) :: tset t k v

/-- A table without entry `k`. -/
def tdel {α : Type} : Tbl α → Nat → Tbl α
  | [], _ => []
  | (i, w) :: t, k => if i = k then t else (i, w) :: tdel t k

/-! ## Memory -/

/-- Bytes by location, strictly rising, no entry equal to 0, which is what an unlisted location reads
as (R63, R69, R72, R105; log 2). -/
abbrev Memory := List Host.Cell

/-! ## Memory faults (R54, R55) -/

/-- The causes of R55. -/
inductive Cause where
  | noncanon | hole | notMapped | pteMalformed | walkUe | paHole | ilvMismatch | tenant | permU | permR
  | permW | permX | attrSplit | priv | regSize | trigOwner | sliceCross | sliceOwner | sliceRo | unitFenced
  | peerRange | peerAbsent | hostAbort | memUe | gcmTag | keyInvalid | compressFull | misalign | fmtType
  deriving DecidableEq, Repr, Inhabited

/-- What kind of access faulted (R54 ACC). -/
inductive Acc where | load | store | fetch | atomic | engRead | engWrite
  deriving DecidableEq, Repr, Inhabited

/-- The memory fault record of R54. -/
structure MemFault where
  faddr    : Nat
  cause    : Cause
  acc      : Acc
  level    : Nat
  inflight : Bool
  agent    : Nat
  unit     : Nat
  ctx      : Nat
  pte      : Nat
  detail   : Nat
  deriving DecidableEq, Repr, Inhabited

/-! ## Who acts -/

/-- Privilege modes (R226). -/
inductive Mode where | u | s | m
  deriving DecidableEq, Repr, Inhabited

/-- The agent that made a request or waits for a walk. -/
inductive Who where
  | hart (h : Nat)
  | engine (core e : Nat)
  | fw (core : Nat)          -- core firmware acting for itself (log 7)
  | fe                       -- the front end
  | owl
  | dec (e : Nat)
  | host (f : Nat)           -- the host through function `f`
  | peer (k : Nat)
  | part                     -- any agent of the hub die: who acts in an event of the part
  deriving DecidableEq, Repr, Inhabited

/-- An agent that acts in the part's events and not by turns of its own. -/
def Who.hub : Who → Bool
  | .hart _ => false
  | .engine _ _ => false
  | _ => true

/-! ## Translation (R46 to R53) -/

/-- A cached leaf: word 0 and word 1 of the entry, and the level it stands at. -/
structure Leaf where
  level : Nat
  w0    : Nat
  w1    : Nat
  deriving DecidableEq, Repr, Inhabited

/-- One entry of a translation cache (R46): the cache that holds it, 0 to 191 a core's, 192 to 199 a quadrant's, 200 to 203 an
FI's, 204 the hub's; its context; va[51:16] of an address of its page; and the leaf. -/
structure TlbEntry where
  cache : Nat
  ctx   : Nat
  vpn   : Nat
  leaf  : Leaf
  deriving DecidableEq, Repr, Inhabited

/-- One entry of a die's page-walk cache (R46): a table pointer read at a level, for the addresses that agree with `idx` above
that level's index and in it. -/
structure WalkEntry where
  die   : Nat
  ctx   : Nat
  level : Nat
  idx   : Nat
  table : Nat
  deriving DecidableEq, Repr, Inhabited

/-- A miss waiting for a walker or a walk in progress (R47): va[51:16] and its requesters. -/
structure Miss where
  die : Nat
  ctx : Nat
  vpn : Nat
  who : List Who
  deriving DecidableEq, Repr, Inhabited

/-- A walk that ended in a fault, kept until its requester takes it (R48, R56). -/
structure WalkFault where
  who    : Who
  ctx    : Nat
  vpn    : Nat
  cause  : Cause
  level  : Nat
  pte    : Nat
  detail : Nat
  deriving DecidableEq, Repr, Inhabited

/-- A pending invalidation (R50): OP, context, va. -/
structure Inval where
  op  : Nat
  ctx : Nat
  va  : Nat
  deriving DecidableEq, Repr, Inhabited

/-! ## Store groups (R139 to R142) -/

/-- A pending store of a group: its ordinal among the group's stores, the location and virtual address
of its first byte, the leaf it was translated with, and its bytes. -/
structure GStore where
  ord   : Nat
  loc   : Nat
  va    : Nat
  leaf  : Option Leaf
  bytes : List Byte
  deriving DecidableEq, Repr, Inhabited

/-- The store group of one hart. -/
structure Group where
  opened : Bool
  scope  : Nat
  code   : Nat            -- 0 while not aborted
  detail : Nat
  idx    : Nat
  ld     : Bool
  stores : List GStore    -- pending stores, by ordinal
  count  : Nat            -- stores counted
  total  : Nat            -- bytes counted
  lines  : List Nat       -- distinct load lines touched (location div 64), in order
  vsts   : List (Nat × Nat × Bool)   -- vst words pushed and not yet performed: command number, ordinal, beyond a limit
  deriving DecidableEq, Repr, Inhabited

/-- No group open. -/
def Group.none : Group := ⟨false, 0, 0, 0, 0, false, [], 0, 0, [], []⟩

/-! ## Harts -/

/-- What a suspended or stalled continuation waits for (R197 WK, with its operands). -/
inductive Wait where
  | none
  | hb (h : Nat) (ph : Nat)
  | tl (e : Nat) (n : Nat) (scope : Nat)
  | tagAny (m : Word) (rd : Reg)
  | tagAll (m : Word)
  | addr (a v : Word)
  | exit
  deriving DecidableEq, Repr, Inhabited

/-- One hart: its registers and what it holds of the running continuation. -/
structure Hart where
  x        : Vector Word 32
  pc       : Word
  mode     : Mode
  ctx      : Nat               -- context of its accesses (R14, log 7)
  csr      : Tbl Word          -- standard CSRs by number (R226)
  instret  : Word
  dfcsr    : Word
  dclass   : Word
  dviewV   : Nat
  dviewM   : Nat
  dviewC   : Nat
  sc0      : Word
  sc1      : Word
  resv     : Option Nat        -- LR reservation: location div 64 (R144)
  group    : Group
  markers  : List (Nat × Nat)  -- mfence markers outstanding: engine, push sequence number (R138)
  loopLeft : Nat               -- body words still to push after a vloop (R311)
  fqOpen   : List Nat          -- fetch queues open at push (R308)
  cont     : Option Nat        -- the continuation it runs (R202)
  serving  : Bool              -- a trap frame is being served in S mode (R279, R371)
  stalled  : Bool              -- the instruction at pc waits (R256)
  again    : Wait              -- the wait at pc that is executed again after a suspension, with its operands (R137, R280)
  deriving DecidableEq, Repr, Inhabited

/-! ## Engine commands -/

/-- An engine fault record (R348, R370). -/
structure EngFault where
  cmd      : Nat
  eng      : Nat
  ecode    : Nat
  detail   : Nat
  progress : Nat
  mfr      : Option MemFault
  deriving DecidableEq, Repr, Inhabited

/-- A word in an engine queue, with all that it took at push (R234 to R237, R93, R41). -/
structure QEntry where
  word  : BitVec 64
  sc0   : Word
  sc1   : Word
  cid   : Nat           -- its continuation
  num   : Nat           -- its command number
  seq   : Nat           -- push order across the queues of the core
  run   : Nat           -- the vector run it belongs to
  dfcsr : Word
  vb    : Nat
  mb    : Nat
  cb    : Nat
  mode  : Mode
  ctx   : Nat
  hbPh  : Nat           -- PH of the awaited barrier at push (R268)
  start : Nat           -- where a restart resumes (R362)
  moved : Nat           -- bytes transferred before that (R349)
  group : Bool          -- a vst inside a store group (R139)
  deriving DecidableEq, Repr, Inhabited

/-- An entry that names nothing. -/
def QEntry.zero : QEntry := ⟨0, 0, 0, 0, 0, 0, 0, 0, 0, 0, 0, .u, 0, 0, 0, 0, false⟩

/-- An item of an engine queue: a word, or a settle of the V queue (R439). -/
inductive QItem where
  | word (e : QEntry)
  | settle (seq : Nat)
  deriving DecidableEq, Repr, Inhabited

/-- A command in flight: it has acted and waits for its completion, or for its fault to be taken. -/
structure Live where
  eng   : Nat
  ent   : QEntry
  tx    : Nat                -- transferred bytes (R264)
  fault : Option EngFault
  issues : Nat               -- vector results not yet landed and loop passes to come
  deriving DecidableEq, Repr, Inhabited

/-! ## The vector unit -/

/-- Where a result in flight lands (R373). -/
inductive Dest where
  | reg (off : Nat)
  | latchOnly
  | pred (k : Nat)
  | mbox
  deriving DecidableEq, Repr, Inhabited

/-- A result in flight (R244, R373): when it lands, its word with the register names as resolved, where it
lands, and for a load the base address, J and X of a reissue. -/
structure Res where
  due     : Nat
  ent     : QEntry
  word    : BitVec 64
  pipe    : Option Nat
  dest    : Dest
  data    : Vec
  value   : Word               -- mailbox entry
  mask    : BitVec 128         -- the active lanes
  full    : Bool               -- every lane is written, active or not (P = S)
  arrived : Bool               -- the data of a load has come (R60)
  addr    : Nat
  jel     : Int
  x       : Vec
  opnd    : List Vec
  pfm     : Option MemFault    -- the data holds an error: the pending-fault mark (R374)
  reissue : Bool
  gone    : Bool               -- dropped by the handler: it keeps its place until the entries are placed back (R376)
  slices  : List (Nat × Nat)   -- slices that a load's data comes from, each with the lowest address read there (R22)
  deriving DecidableEq, Repr, Inhabited

/-- A fetch queue (R307 to R310). -/
structure FetchQ where
  opened  : Bool
  ent     : QEntry                      -- the fq.open
  pattern : List Byte
  next    : Nat                         -- entries consumed
  ahead   : List Vec                    -- entries read and not consumed
  faultAt : Option (Nat × MemFault)     -- the generator stopped here
  deriving DecidableEq, Repr, Inhabited

/-- A closed queue. -/
def FetchQ.closed : FetchQ := ⟨false, QEntry.zero, [], 0, [], none⟩

/-- One Dormouse path (R316). -/
structure Dorm where
  head  : Nat
  count : Nat
  out   : Nat
  deriving DecidableEq, Repr, Inhabited

/-- The loop engine (R249 to R251, R311 to R314). -/
structure Loop where
  nb    : Nat
  st    : Nat
  rot   : Nat                -- rotation size S: 0, 8 or 16
  n     : Nat                -- iterations that this run of the loop starts
  left  : Nat                -- iterations left for a resumption (R380)
  base  : Nat                -- iterations started before this run of the loop (R380)
  rb0   : Nat                -- rotation base at its start
  pass  : Nat
  w     : Nat                -- next word of the pass
  body  : List QEntry        -- words collected so far
  ent   : QEntry             -- the vloop itself
  drain : Bool               -- draining for pre-emption (R380)
  exited : Bool              -- its exit cycle has passed (R312)
  deriving DecidableEq, Repr, Inhabited

/-- The vector state of one run of a continuation (R69, R246, R249). -/
structure VRun where
  cid     : Nat
  rs      : Memory            -- the register space
  latch   : List Vec          -- b0 to b3; an absent latch is zero
  pred    : Tbl (BitVec 128)  -- k0 to k15
  cyc     : Nat               -- vector issue cycles since the start of the run
  fly     : List Res          -- results in flight, in issue order
  mbox    : List Word
  fq      : Tbl FetchQ
  dorm    : Tbl Dorm
  loop    : Option Loop
  idle    : Nat               -- cycles that a vnop has still to take (R315)
  idleEnd : Bool              -- the vnop is a body word: the loop goes on after those cycles
  stopped : Bool              -- stopped by a fault (R285)
  deriving DecidableEq, Repr, Inhabited

/-! ## Continuations -/

/-- STAT of the continuation record (R197). -/
inductive Stat where | ready | running | suspended | retired | faulted
  deriving DecidableEq, Repr, Inhabited

/-- A trap frame: why and how it was taken, the image the part wrote (cells by frame offset), and the
parked words with their engine, in push order (R371 to R374, R379). What the handler may not edit stays
in the run (VRun); the image is what tret compares the frame in memory with (R377). -/
structure Frame where
  cause  : Nat
  kind   : Nat
  core   : Nat
  image  : Memory
  parked : List (Nat × QEntry)
  mfr    : Option MemFault
  marks  : List Nat                  -- settles that stood in the V queue, by their place in push order
  hart   : Hart                      -- hart 0 at a pre-emption
  run    : Nat                       -- the vector run whose state it holds
  deriving DecidableEq, Repr, Inhabited

/-- A command pushed and not completed: engine, number, and push order on its core. -/
structure Cmd where
  eng : Nat
  num : Nat
  seq : Nat
  deriving DecidableEq, Repr, Inhabited

/-- The latest contribution of a member to a barrier (R264). -/
structure Contrib where
  ph   : Nat
  made : Bool
  deriving DecidableEq, Repr, Inhabited

/-- A sig.bred in progress: MAP as read at its start, the updates made, and the flags raised (R145, R343). -/
structure BredRun where
  map   : List Nat
  done  : Nat
  flags : Flags
  deriving DecidableEq, Repr, Inhabited

/-- One continuation: record, carried block, and the engine state it owns (R197, R321, R337). -/
structure Cont where
  stat    : Stat
  wait    : Wait
  pc      : Word
  a       : List Word                -- a0 to a5
  home    : Option Nat               -- home core (R195)
  core    : Option Nat               -- core that holds its slot
  slot    : Nat
  prio    : Nat
  gang    : Nat                      -- GANG of its launch; 0 or 1 when none
  pin     : Bool
  lid     : Nat
  ordinal : Nat
  ctx     : Nat
  dom     : Nat                      -- narrowest bound domain and instance (R193, R199)
  inst    : Nat
  dfcsr   : Word
  dclass  : Word
  pushed  : List Nat                 -- PUSHED_0 to PUSHED_5
  tl      : List Nat                 -- TL_0 to TL_5
  tags    : Word
  outst   : List Cmd                 -- commands pushed and not completed
  live    : List Live
  faulted : List Live                -- faulted commands not restarted, each with its record
  contrib : Tbl Contrib
  epi     : Tbl (List Byte)          -- epilogue sets that are not empty
  lut     : Tbl (List Byte)          -- activation tables that are not empty
  mxProg  : Nat
  mxTab   : List Byte                -- the group table that the partly done tmma.grp read at its start (R334)
  mxFlags : Flags                    -- flags that the partly done multiply has raised (R332)
  sigCfg  : List Byte                -- empty when no configuration is loaded
  bred    : Option BredRun           -- its sig.bred in progress at the head of queue S
  frame   : Option Frame
  seq     : Nat                      -- traps taken
  flagsIn : Flags                    -- flags raised while its frame is served
  slabs   : List Nat
  accs    : List Nat                 -- runs of 32 accumulator tiles
  run     : Nat                      -- its vector run
  restAt  : Nat                      -- order in which it last left a hart, or was bound (R383)
  waited  : Nat                      -- microseconds that it has waited READY (R208, R219)
  saved   : List (Nat × Nat)         -- storage claimed from it: slab, or 1024 + run of tiles, with its SLC_OWN (R68, R383)
  abandon : Option MemFault          -- abandoned, with the fault to report (R207)
  ending  : Bool                     -- abandoned and waiting for its commands to end (R378)
  nj      : Nat                      -- energy charged to it, in 2^-16 pJ (R217, R222)
  group   : Group                    -- an open, aborted store group that it was suspended in (R139, R280)
  unsaved : Option Nat               -- its record is to be written back, by the firmware of this core (R197, R202)
  deriving DecidableEq, Repr, Inhabited

/-! ## Cores -/

/-- A barrier cell (R263). -/
structure Bar where
  arr  : Nat
  cnt  : Nat
  pend : Word
  ph   : Nat
  deriving DecidableEq, Repr, Inhabited

/-- A weight-buffer directory entry (R73, R336). -/
structure WbEntry where
  hdr     : Nat               -- the 8-byte block header
  sectors : List Byte
  va      : Nat
  ctx     : Nat
  fmt     : Nat
  geo     : Nat
  pen     : Bool
  pt      : Nat
  ro      : Bool
  deriving DecidableEq, Repr, Inhabited

/-- Pre-emption of the running continuation (R379). -/
inductive Preempt where
  | none
  | asked          -- requested; hart 0 has stopped or will at its next boundary
  | force          -- the 4,096-clk limit has passed
  deriving DecidableEq, Repr, Inhabited

/-- One core (R201, R220, R263, R72, R73). -/
structure Core where
  queues  : List (List QItem)   -- V, M, C, G, S, X
  seq     : Nat                 -- words pushed on the core
  slots   : Tbl Nat             -- resident slot to continuation
  bars    : Tbl Bar
  accs    : Tbl Nat             -- run of 32 tiles to owning continuation
  wb      : Tbl WbEntry
  wbOut   : List (Nat × WbEntry)   -- weight entries claimed from their contexts, by directory index (R357, R383)
  preempt : Preempt
  deriving DecidableEq, Repr, Inhabited

/-! ## The front end -/

/-- A launch held by the front end (R187, R205, R206). -/
structure Launch where
  bytes   : List Byte          -- its copy of the 256-byte record
  ctx     : Nat
  stream  : Option Nat
  begun   : Bool               -- it has started: the header of its tile list has been read (R190)
  count   : Nat                -- iterations
  listAt  : Nat                -- BASE of its tile list until it has started, then the address of entry 0 of its section (R190)
  index0  : Nat                -- index of that entry in the list
  core    : Nat                -- core of the latest binding
  next    : Nat                -- next ordinal to bind
  stopped : Option MemFault    -- a read stopped the walk (R190)
  bound   : Nat
  retired : Nat                -- by exit
  gone    : Nat                -- abandoned
  first   : Option (Nat × Option MemFault)   -- first abandoned iteration by ordinal
  comp    : Nat                -- completion record address
  parent  : Option (Nat × Nat × Nat)  -- continuation, engine and value of a wait operand (R260)
  depth   : Nat
  held    : Bool               -- a walker holds it
  async   : Bool               -- launched by an ASYNC node
  run     : Option Nat         -- the graph run that made it, by its number
  node    : Nat                -- the node of that run
  nj      : Nat                -- energy charged to it, in 2^-16 pJ (R222)
  finished : Bool              -- completion decided
  orphan  : Bool               -- a child whose parent was abandoned before its wait operand held (R260)
  status  : Nat
  deriving DecidableEq, Repr, Inhabited

/-- A planner wait of a LAUNCH node (R223). -/
structure PlanWait where
  cost    : Nat
  trigs   : Nat                -- triggers credited when the wait began
  layer   : Nat
  count   : Nat
  rcd     : List Byte          -- the launch record, read and relocated
  deriving DecidableEq, Repr, Inhabited

/-- A run of a resident graph (R214). -/
structure GRun where
  id     : Nat                 -- its number among all runs, from 1
  seq    : Nat                 -- runs of the stream since it was opened
  node   : Option Nat          -- next node; none when the run has ended
  nodes  : List (List Byte)    -- the graph's nodes
  arg    : Word
  dec    : Bool                -- triggered by the decode engine
  status : Nat
  snode  : Nat                 -- node that set STATUS
  counts : Tbl Nat             -- LOOP counters
  steps  : Nat                 -- nodes executed
  cmu    : Nat                 -- status of the latest CMU node
  plan   : Option PlanWait
  relax  : Option Nat          -- layer whose factor the planner has still to lower after an admission (R223)
  waitFor : Option Nat         -- launch that a LAUNCH node waits for
  nj0    : Nat                 -- energy of the stream when the run began
  deriving DecidableEq, Repr, Inhabited

/-- A queued trigger: its argument, and whether the decode engine raised it. -/
structure Trig where
  arg : Word
  dec : Bool
  deriving DecidableEq, Repr, Inhabited

/-- A BITS record held for a decode engine (R211). -/
structure BitsRec where
  addr  : Nat
  len   : Nat
  eos   : Bool
  aux   : Word
  deriving DecidableEq, Repr, Inhabited

/-- What the front end's read of a ring's launch record gave: its copy, or the fault of the read (R191, R392). -/
inductive LaunchCopy where
  | read (bytes : List Byte)
  | fault (f : MemFault)
  deriving DecidableEq, Repr, Inhabited

/-- The front end's state of one stream that no register holds (R210 to R217). -/
structure Stream where
  hw       : List (List Byte)  -- records in the hardware entries, oldest first (R210)
  spilled  : Nat               -- records placed in the spill ring and not yet refilled (R437)
  placed   : Nat               -- records placed in the spill ring since open (R437)
  popped   : Nat               -- records that left the queue since open
  copies   : Tbl LaunchCopy    -- launch records read when their ring record was taken, by record number (R392)
  sent     : List Trig         -- triggers sent and not yet accepted (R28)
  trigq    : List Trig
  accepted : Nat               -- triggers accepted since open
  credited : Nat               -- triggers credited since reset (R223)
  shed     : Nat               -- triggers counted since RAS_SHED was written (R423)
  errs     : Nat               -- errors since open (R159)
  run      : Option GRun
  runs     : Nat
  deficit  : Int
  aged     : Bool              -- waited 50 ms (R208, R217)
  ready    : Bool              -- it was ready when that was last looked at (R217)
  bits     : List BitsRec      -- held by its decode engine
  taken    : List BitsRec      -- taken, being decoded
  frames   : Nat               -- pictures output since open
  busyBufs : List (Nat × Nat)  -- pictures output: frame, and the run that its trigger started, 0 before (R155)
  layers   : Tbl (List Byte)   -- layer table entries held since the open (R161)
  sizes    : Tbl (Nat × Nat × Bool)   -- size of the pictures output and whether they have 10-bit samples, by frame (R155, R170)
  prev     : Option Picture    -- the previous output picture (R156, R158, R159)
  deriving DecidableEq, Repr, Inhabited

/-! ## Firmware hand-over (R403 to R410) -/

/-- One thing that the firmware of a kind has to do, one at a time, in a hand-over or at the end of a boot probation (R401 to R403,
R408). -/
inductive HoWork where
  | stage (block : Nat)    -- a 64 KiB block of the staged image goes into the inactive slot, then the next
  | erase                  -- the block of the marker copy to be overwritten is erased
  | program (slot state version attempt : Nat)   -- the 64 bytes of the marker are programmed into it
  | start                  -- the new image starts at its entry
  | replay (off : Nat)     -- the old image replays the journal's record at an offset, then the next
  | commit                 -- the COMMIT transaction
  | confirm                -- the boot probation is over
  | back                   -- the pending measurement is cleared, and the hand-over is over
  deriving DecidableEq, Repr, Inhabited

/-- One firmware image kind's hand-over, beside its registers: verification succeeded and its
MEAS_PENDING sent, a START and an ABORT that are held, the units at the hand-over point, its number, the
heartbeats of the period in progress, the bytes of the downgrade journal written (R407), what its firmware still has to do, the
measurement of the old image while that stays resident beside the new one, and whether no image of the kind boots. -/
structure HandOver where
  verified : Bool
  start    : Bool
  abortReq : Bool
  arrived  : List Nat
  seq      : Nat
  beats    : Nat
  jrnl     : Nat
  todo     : List HoWork
  old      : Option (BitVec 384)
  down     : Bool
  deriving DecidableEq, Repr, Inhabited

/-! ## Owl (R168, R183, R184, R218) -/

/-- What Owl and its readers keep of operations in progress: records of the frame log that a waiting operation has appended
already, by who acts and the operation's number (R183); and, of the step in progress alone, the number of an operation of the hub
die's, how many records it has come to, those that it has appended with their streams, the layers a record of which was rewritten
(R184), and the errors it has reported, each a place and the tile that it was found in. -/
structure OwlOp where
  held  : List ((Who × Nat) × Nat)
  key   : Nat
  seen  : Nat
  recs  : List (Nat × List Byte)
  lost  : List (Nat × Nat)
  found : List (Nat × Nat)
  deriving DecidableEq, Repr, Inhabited

/-! ## Turns -/

/-- Which agent moves next (log 3). -/
inductive Turn where
  | hart (h : Nat)
  | engine (core e : Nat)
  | event (i : Instr)
  | claimWeight (core w : Nat)      -- scheduler firmware claims a weight-buffer entry (R357, R383)
  | record (cid : Nat)              -- scheduler firmware writes a continuation's record back (R197)
  | walker (lid : Nat)              -- a launch walker starts a launch with a tile list (R190)
  | elapse (us : Nat)               -- time passes (R208, R219)
  | train (cxl : Bool) (rate width : Nat)   -- the host link is trained (R385, R426)
  | evict (cache ctx va : Nat)      -- a translation cache drops what covers va (R46)
  | evictWalk (die ctx va : Nat)    -- a page-walk cache drops what covers va
  | upset (loc : Nat) (fatal : Bool)   -- an error arises at a location: uncorrectable, or corrected (R417)
  | parity (cache ctx va : Nat)     -- an entry of a translation cache has a parity error (R417, R419)
  | parityWalk (die ctx va : Nat)   -- an entry of a page-walk cache has one
  | upsetHub (fatal : Bool)         -- an error arises in a queue or table of the hub die or an FI (R417, R419)
  | fences (us : List (UnitKind × Nat))   -- units fail in one clk (R427)
  | firmware (k : Nat)              -- the firmware of kind k does what its hand-over has it do next (R401 to R403, R408)
  | fallbackTimeout (k : Nat) (inp : BootInputs)   -- the old image has made no decision for 60 ms after FALLBACK (R403)
  | bar (f b off : Nat) (op : BusOp)   -- the host accesses BAR `b` of function `f` (R387, R388)
  | hostStore (pa : Nat) (bs : List Byte)   -- the host writes its own memory (R30, R151)
  deriving DecidableEq, Repr, Inhabited

/-- The agent of the step in progress: who acts, the hart and core of the operation, the queue entry an
engine performs, and whether it is a body word of a hardware loop. -/
structure Cursor where
  who  : Who
  hart : Nat
  core : Nat
  ent  : QEntry
  body : Bool
  deriving DecidableEq, Repr, Inhabited

/-- What the latest access from outside the part was answered (host, CXL, peer, SPDM). -/
structure Reply where
  data  : List Byte
  fault : Option MemFault
  deriving DecidableEq, Repr, Inhabited

/-! ## The machine -/

/-- The state of the part. -/
structure State where
  mem       : Memory
  regs      : Tbl Word              -- device registers written since reset (R24)
  harts     : Tbl Hart              -- 0 to 383 core harts, 384 to 387 management harts
  cores     : Tbl Core
  conts     : Tbl Cont
  runs      : Tbl VRun
  launches  : Tbl Launch
  streams   : Tbl Stream
  graphs    : Tbl (List (List Byte))
  gload     : Option (BitVec 32)    -- graph load in progress (R213)
  tlb       : List TlbEntry
  walkCache : List WalkEntry
  missq     : List Miss
  walks     : List Miss
  walkFault : List WalkFault
  invals    : List Inval
  pool      : List (List Nat)       -- free overflow chunks of each die's pool (R117)
  reserve   : List (Nat × List Nat) -- each die's reserve: chunks never taken, chunks released to it
  keys      : Tbl (List Byte × Nat) -- loaded key slots: key and tenant (R413)
  attested  : List Nat              -- tenants attested (R411, R412)
  ue        : List Nat              -- 8-byte words with an uncorrectable error, by their first location
  owlOp     : OwlOp
  owlQ      : List (Nat × Nat)      -- operations that wait for Owl in arrival order (R218): a core with the push order of its CM
                                    -- word, or 1000 + a stream with its graph run
  ho        : Tbl HandOver
  spares    : List Nat        -- HBM locations whose row a spare row replaces since bring-up (R411, R418)
  barsOpen  : Bool            -- bring-up has reached its step 7 (R426)
  measNow   : Tbl (BitVec 384)      -- measurement blocks in force (R411)
  measNext  : Tbl (BitVec 384)      -- measurements that wait for a commit
  badger    : List Nat              -- P_0 to P_3 (R217)
  decPtr    : Tbl Nat               -- stream after which a decode engine looks: 4 e + class (R218)
  nextLid   : Nat
  nextCid   : Nat
  nextRun   : Nat
  clock     : Nat                   -- order of events (R383)
  eauFrac   : Tbl Nat               -- fraction of each energy counter, by its offset, in 2^-16 pJ (R222)
  eauSum    : Nat                   -- table energy of the interval in progress, pJ (R222)
  fresh     : Nat                   -- free values drawn (log 5)
  agenda    : List Turn
  cur       : Cursor
  reply     : Reply
  halted    : Bool                  -- thermal trip or loss of power (R424)
  throttling : Bool                 -- the part throttles (R424)
  ceiling   : List Nat              -- issue ceiling of each die's ramp limiter (R424)
  deriving DecidableEq, Repr, Inhabited

/-! ## Reset -/

/-- A hart of mode `m` after reset (R69, R92, R122, R235; log 1). -/
def Hart.reset (md : Mode) : Hart where
  x := Vector.replicate 32 0
  pc := 0
  mode := md
  ctx := 0
  csr := []
  instret := 0
  dfcsr := 0
  dclass := 0x50
  dviewV := 0
  dviewM := 0
  dviewC := 0
  sc0 := 0
  sc1 := 0
  resv := none
  group := Group.none
  markers := []
  loopLeft := 0
  fqOpen := []
  cont := none
  serving := false
  stalled := false
  again := .none

/-- Hart number `h` after reset: hart 0 of a core runs in U mode, every other hart in M mode (R226). -/
def hartReset (h : Nat) : Hart := Hart.reset (if h < 384 && h % 2 == 0 then .u else .m)

/-- A core after reset. -/
def Core.reset : Core where
  queues := [[], [], [], [], [], []]
  seq := 0
  slots := []
  bars := []
  accs := []
  wb := []
  wbOut := []
  preempt := .none

/-- A barrier cell before any binding (R263, log 1). -/
def Bar.reset : Bar := ⟨1, 0, 0, 0⟩

/-- A stream that was never opened. -/
def Stream.reset : Stream where
  hw := []
  spilled := 0
  placed := 0
  popped := 0
  copies := []
  sent := []
  trigq := []
  accepted := 0
  credited := 0
  shed := 0
  errs := 0
  run := none
  runs := 0
  deficit := 0
  aged := false
  ready := false
  bits := []
  taken := []
  frames := 0
  busyBufs := []
  layers := []
  sizes := []
  prev := none

/-- No operation of Owl's in progress. -/
def OwlOp.none : OwlOp := ⟨[], 0, 0, [], [], []⟩

/-- No hand-over in progress (R403). -/
def HandOver.reset : HandOver := ⟨false, false, false, [], 0, 0, 0, [], none, false⟩

/-- A vector run at its start (R69). -/
def VRun.start (cid : Nat) : VRun where
  cid := cid
  rs := []
  latch := []
  pred := []
  cyc := 0
  fly := []
  mbox := []
  fq := []
  dorm := []
  loop := none
  idle := 0
  idleEnd := false
  stopped := false

/-- The cursor before any step. -/
def Cursor.zero : Cursor := ⟨.part, 0, 0, QEntry.zero, false⟩

/-- A continuation at its first start (R196, R197, R321). -/
def Cont.fresh : Cont where
  stat := .ready
  wait := .none
  pc := 0
  a := [0, 0, 0, 0, 0, 0]
  home := none
  core := none
  slot := 0
  prio := 0
  gang := 0
  pin := false
  lid := 0
  ordinal := 0
  ctx := 0
  dom := 1
  inst := 0
  dfcsr := 0
  dclass := 0x50
  pushed := [0, 0, 0, 0, 0, 0]
  tl := [0, 0, 0, 0, 0, 0]
  tags := 0
  outst := []
  live := []
  faulted := []
  contrib := []
  epi := [(0, List.replicate 128 0)]
  lut := []
  mxProg := 0
  mxTab := []
  mxFlags := 0
  sigCfg := []
  bred := none
  frame := none
  seq := 0
  flagsIn := 0
  slabs := []
  accs := []
  run := 0
  restAt := 0
  waited := 0
  saved := []
  abandon := none
  ending := false
  nj := 0
  group := Group.none
  unsaved := none

/-- The machine right after reset: every register at the reset value of its map (kept by the absence of
an entry), memory with nothing listed, no work on the part. -/
def State.reset : State where
  mem := []
  regs := []
  harts := []
  cores := []
  conts := []
  runs := []
  launches := []
  streams := []
  graphs := []
  gload := none
  tlb := []
  walkCache := []
  missq := []
  walks := []
  walkFault := []
  invals := []
  pool := [[], []]
  reserve := [(262144, []), (262144, [])]
  keys := []
  attested := []
  ue := []
  owlOp := OwlOp.none
  owlQ := []
  ho := []
  spares := []
  barsOpen := false
  measNow := []
  measNext := []
  badger := [0, 0, 0, 0]
  decPtr := []
  nextLid := 1
  nextCid := 0
  nextRun := 0
  clock := 0
  eauFrac := []
  eauSum := 0
  fresh := 0
  agenda := []
  cur := Cursor.zero
  reply := ⟨[], none⟩
  halted := false
  throttling := false
  ceiling := [201600, 201600]

end Sys2Proof.Machine
end

