-- ==== Sys2Proof/Machine/Mem.lean ====
section
/-! DEFINITION. The one memory of the model: bytes by location, in canonical form, and where each store
of the part lies in it. -/

namespace Sys2Proof.Machine

/-- The byte at a location; an unlisted location reads as 0 (log 2). -/
def mget : Memory → Nat → Byte
  | [], _ => 0
  | (i, v) :: m, a => if i = a then v else if a < i then 0 else mget m a

/-- A memory with one byte written; writing 0 removes the entry, so that equal memories are equal data. -/
def mset : Memory → Nat → Byte → Memory
  | [], a, v => if v = 0 then [] else [(a, v)]
  | (i, w) :: m, a, v =>
    if a < i then (if v = 0 then (i, w) :: m else (a, v) :: (i, w) :: m)
    else if a = i then (if v = 0 then m else (a, v) :: m)
    else (i, w) :: mset m a v

/-- `n` bytes from location `a` upward. -/
def mgets (m : Memory) (a : Nat) : Nat → List Byte
  | 0 => []
  | n + 1 => mget m a :: mgets m (a + 1) n

/-- A list of bytes written from location `a` upward. -/
def msets (m : Memory) (a : Nat) : List Byte → Memory
  | [] => m
  | b :: bs => msets (mset m a b) (a + 1) bs

/-- Every byte of locations [lo, hi) set to 0. -/
def mclear (m : Memory) (lo hi : Nat) : Memory := m.filter fun c => c.1 < lo || hi ≤ c.1

/-- The canonical form: strictly rising locations above `lo`, no entry equal to 0. -/
def memWfFrom : Nat → Memory → Bool
  | _, [] => true
  | lo, (i, v) :: m => lo ≤ i && v != 0 && memWfFrom (i + 1) m

/-- The canonical form of a memory. -/
def Memory.wf (m : Memory) : Bool := memWfFrom 0 m

/-- A little-endian number of `n` bytes. -/
def mnum (m : Memory) (a n : Nat) : Nat := leNat (mgets m a n)

/-! ## Locations (R17, R29, R31, R32, R72, R105, R398) -/

/-- End of the HBM range (R29). -/
def hbmEnd : Nat := 2 ^ 38
/-- Start of the host window (R29). -/
def hostBase : Nat := 2 ^ 47
/-- Global scratch aperture (R17); slice bytes are kept at their aperture address. -/
def apBase : Nat := 0x000FC00000000000
def apEnd : Nat := 0x000FC00030000000
/-- Local slice alias (R18). -/
def alBase : Nat := 0x000FD00000000000
/-- Privileged register window (R24). -/
def winBase : Nat := 0x000FE00000000000
/-- Trigger window (R28). -/
def trigBase : Nat := 0x000FE80000000000
/-- Start of the reserved region (R15). -/
def resvBase : Nat := 0x000FF00000000000
/-- Location of offset `o` of the slice of core `n`. -/
def sliceLoc (n o : Nat) : Nat := apBase + n * 0x400000 + o
/-- Location of a physical address of peer `k`. -/
def peerLoc (k pa : Nat) : Nat := 2 ^ 56 + k * 2 ^ 48 + pa
/-- Location that names byte 0 of the logical block whose packed home is at `pa`; it holds no byte (R106). -/
def packLoc (pa : Nat) : Nat := 2 ^ 58 + 2 * pa
/-- Location of byte `b` of accumulator tile `t` of core `n` (R72). -/
def accLoc (n t b : Nat) : Nat := 2 ^ 60 + n * 2 ^ 20 + t * 512 + b
/-- Location of the companion of the 256-byte piece that holds `pa` (R105). -/
def compLoc (pa : Nat) : Nat := 2 ^ 61 + pa / 256 * 32
/-- Location of a flash byte; flash bytes are stored complemented, so that an unlisted byte reads as the
erased value 0xFF (R398). -/
def flashLoc (o : Nat) : Nat := 2 ^ 62 + o

/-- Register-space bytes as 32-bit lanes, lane 0 first. -/
def lanesAt (m : Memory) (a : Nat) : Nat → Vec
  | 0 => []
  | n + 1 => BitVec.ofNat 32 (mnum m a 4) :: lanesAt m (a + 4) n

/-- Lanes as bytes. -/
def lanesBytes : Vec → List Byte
  | [] => []
  | l :: v => leBytes 4 l.toNat ++ lanesBytes v

/-- Bytes as lanes. -/
def bytesLanes (bs : List Byte) : Nat → Vec
  | 0 => []
  | n + 1 => BitVec.ofNat 32 (leNat (bs.take 4)) :: bytesLanes (bs.drop 4) n

/-- A vector of zeros. -/
def vzero : Vec := List.replicate 128 0

end Sys2Proof.Machine
end

