-- ==== Sys2Proof/Machine/Compress.lean ====
section
/-! DEFINITION. The Gelfold block: header, methods, and the choice of a method (R101 to R104). -/

namespace Sys2Proof.Machine

/-- A compressed block: method, plane mask, stride code, SPARSE12 bound code and stored sectors. -/
structure Packed where
  meth  : Nat
  pmask : Nat
  esz   : Nat
  spn   : Nat
  data  : List Byte
  deriving DecidableEq, Repr, Inhabited

/-- Sectors stored. -/
def Packed.nsec (p : Packed) : Nat := p.data.length / 32

/-- The header of a block (R101). -/
def header (p : Packed) (enc ovx : Bool) (wcnt : Nat) : Nat :=
  p.meth + p.nsec * 2 ^ 3 + b2n enc * 2 ^ 7 + p.pmask * 2 ^ 8 + p.esz * 2 ^ 16 + p.spn * 2 ^ 18 +
    b2n ovx * 2 ^ 20 + wcnt * 2 ^ 32

def hMeth (h : Nat) : Nat := bits h 2 0
def hNsec (h : Nat) : Nat := bits h 6 3
def hEnc (h : Nat) : Bool := bit h 7
def hPmask (h : Nat) : Nat := bits h 15 8
def hEsz (h : Nat) : Nat := bits h 17 16
def hSpn (h : Nat) : Nat := bits h 19 18
def hOvx (h : Nat) : Bool := bit h 20
def hWcnt (h : Nat) : Nat := bits h 63 32

/-- Number of set bits among the low `n`. -/
def popN (v : Nat) : Nat → Nat
  | 0 => 0
  | n + 1 => b2n (v.testBit n) + popN v n

/-- Pad to whole sectors. -/
def padSec (bs : List Byte) : List Byte :=
  bs ++ List.replicate (roundUp bs.length 32 - bs.length) 0

/-- Byte `i` of a list, 0 beyond its end. -/
def byteAt (bs : List Byte) (i : Nat) : Byte := bs.getD i 0

/-! ## Compression -/

/-- ZERO. -/
def tryZero (y : List Byte) : Option Packed :=
  if y.all (fun b => b == 0) then some ⟨0, 0, 0, 0, []⟩ else none

/-- Whether every 32-byte piece equals `p`. -/
def allPeriod (p : List Byte) : Nat → List Byte → Bool
  | 0, _ => true
  | n + 1, y => y.take 32 == p && allPeriod p n (y.drop 32)

/-- CONST. -/
def tryConst (y : List Byte) : Option Packed :=
  if allPeriod (y.take 32) 8 y then some ⟨1, 0, 0, 0, y.take 32⟩ else none

/-- The zigzag code of a delta byte. -/
def zigzag (d : Byte) : Nat := if d.toNat < 128 then 2 * d.toNat else 511 - 2 * d.toNat

/-- The codes z_i of a block with stride `s`. -/
def bpdCodes (s : Nat) (y : List Byte) : List Nat :=
  List.zipWith (fun a b => zigzag (a - b)) y (List.replicate s 0 ++ y)

/-- Eight flags as a byte, the first at bit 0. -/
def byteOfBits : List Bool → Nat
  | [] => 0
  | b :: bs => b2n b + 2 * byteOfBits bs

/-- Pack flags into `n` bytes. -/
def packBits : Nat → List Bool → List Byte
  | 0, _ => []
  | n + 1, bs => BitVec.ofNat 8 (byteOfBits (bs.take 8)) :: packBits n (bs.drop 8)

/-- Plane `j` of the codes. -/
def bpdPlane (z : List Nat) (j : Nat) : List Byte := packBits 32 (z.map fun v => v.testBit j)

/-- BPD with stride 1, 2 or 4. -/
def tryBpd (s : Nat) (y : List Byte) : Option Packed :=
  let z := bpdCodes s y
  let o := z.foldl (fun a b => a ||| b) 0
  let n := popN o 8
  if 1 ≤ n && n ≤ 7 then
    some ⟨2, o, s / 2, 0, ((List.range 8).filter (fun j => o.testBit j)).flatMap (bpdPlane z)⟩
  else none

/-- The masks of the 21 groups. -/
def spMasks : Nat → List Byte → List Nat
  | 0, _ => []
  | n + 1, y => byteOfBits ((y.take 12).map fun b => b != 0) :: spMasks n (y.drop 12)

/-- The code of the smallest bound that covers `n` set bits (R103). -/
def spCode (n : Nat) : Option Nat :=
  if n ≤ 3 then some 0 else if n ≤ 4 then some 1 else if n ≤ 6 then some 2 else if n ≤ 8 then some 3 else none

/-- The bound of a code. -/
def spBound (c : Nat) : Nat := match c with | 0 => 3 | 1 => 4 | 2 => 6 | _ => 8

/-- The mask sector. -/
def maskNat : List Nat → Nat
  | [] => 0
  | m :: ms => m + 2 ^ 12 * maskNat ms

/-- SPARSE12. -/
def trySparse (y : List Byte) : Option Packed :=
  let ms := spMasks 21 y
  match spCode (ms.foldl (fun a m => max a (popN m 12)) 0) with
  | none => none
  | some c =>
    let vals := (y.take 252).filter (fun b => b != 0) ++ y.drop 252
    let d := leBytes 32 (maskNat ms) ++ padSec vals
    if d.length ≤ 256 then some ⟨3, 0, 0, c, d⟩ else none

/-- RAW. -/
def packRaw (y : List Byte) : Packed := ⟨4, 0, 0, 0, y⟩

/-- Compress 256 bytes: `cms` bit 0 ZERO, 1 CONST, 2 BPD, 3 SPARSE12; `esz` the stride of BPD, and `sparse` whether the elements have 1 byte (R103). Ties
go to the earlier method, so the list runs from the last method to the first with RAW as its start. -/
def compress (cms esz : Nat) (sparse : Bool) (y : List Byte) : Packed :=
  let c0 := if cms.testBit 0 then tryZero y else none
  let c1 := if cms.testBit 1 then tryConst y else none
  let c2 := if cms.testBit 2 then tryBpd esz y else none
  let c3 := if cms.testBit 3 && sparse then trySparse y else none
  let ge (a b : Packed) : Packed := if b.nsec ≤ a.nsec then b else a
  [c3, c2, c1, c0].foldl (fun a o => match o with | none => a | some p => ge a p) (packRaw y)

/-! ## Expansion -/

/-- Bit `i` of plane data. -/
def planeBit (sec : List Byte) (i : Nat) : Bool := (byteAt sec (i / 8)).getLsbD (i % 8)

/-- The planes present, as (plane, sector) pairs. -/
def planesOf (pm : Nat) : List Nat → List Byte → List (Nat × List Byte)
  | [], _ => []
  | j :: js, d => if pm.testBit j then (j, d.take 32) :: planesOf pm js (d.drop 32) else planesOf pm js d

/-- The delta byte of a code. -/
def unzigzag (z : Nat) : Byte :=
  if z % 2 = 0 then BitVec.ofNat 8 (z / 2) else BitVec.ofNat 8 (255 - z / 2)

/-- Undo the deltas with stride `s`, the last `s` outputs at the head of `past`, oldest first. -/
def undelta : List Byte → List Byte → List Byte
  | [], _ => []
  | d :: ds, past =>
    let y := byteAt past 0 + d
    y :: undelta ds (past.drop 1 ++ [y])

/-- Expand BPD. -/
def expandBpd (pm esz : Nat) (d : List Byte) : List Byte :=
  let ps := planesOf pm (List.range 8) d
  let z := (List.range 256).map fun i => ps.foldl (fun a p => a + b2n (planeBit p.2 i) * 2 ^ p.1) 0
  undelta (z.map unzigzag) (List.replicate (2 ^ esz) 0)

/-- Expand `n` positions of one SPARSE12 mask, taking values from `vs`. -/
def spTake (mask : Nat) : List Nat → List Byte → List Byte × List Byte
  | [], vs => ([], vs)
  | i :: is, vs =>
    if mask.testBit i then
      let (r, vs') := spTake mask is (vs.drop 1)
      (byteAt vs 0 :: r, vs')
    else
      let (r, vs') := spTake mask is vs
      (0 :: r, vs')

/-- Expand every group, then the last four bytes. -/
def spExpand : List Nat → List Byte → List Byte
  | [], vs => vs.take 4
  | m :: ms, vs =>
    let (r, vs') := spTake m (List.range 12) vs
    r ++ spExpand ms vs'

/-- The 21 masks of a mask sector. -/
def masksOf (sec : List Byte) : List Nat :=
  (List.range 21).map fun g => (leNat sec >>> (12 * g)) % 4096

/-- Expand a block from its header and sectors; `none` when the header is corrupt (R104). PMASK of another METH than BPD and bits 255:252
of a mask sector are ignored (DESIGN CHOICE, log 25). -/
def expand (h : Nat) (d : List Byte) : Option (List Byte) :=
  let n := hNsec h
  if bits h 31 21 != 0 || hEsz h == 3 then none
  else
    match hMeth h with
    | 0 => if n = 0 then some (List.replicate 256 0) else none
    | 1 => if n = 1 then some ((List.replicate 8 (d.take 32)).flatten) else none
    | 2 =>
      let k := popN (hPmask h) 8
      if n = k && 1 ≤ k && k ≤ 7 then some (expandBpd (hPmask h) (hEsz h) d) else none
    | 3 =>
      let ms := masksOf (d.take 32)
      let tot := ms.foldl (fun a m => a + popN m 12) 0
      if n = 1 + ceilDiv (tot + 4) 32 && ms.all (fun m => popN m 12 ≤ spBound (hSpn h)) then
        some (spExpand ms (d.drop 32))
      else none
    | 4 => if n = 8 then some (d.take 256) else none
    | _ => none

end Sys2Proof.Machine
end

