-- ==== Sys2Proof/Machine/Regs.lean ====
section
/-! DEFINITION. The device registers: the map of every register of the privileged window (R24, R25), each row with its place, width, access, reset and writable bits; and the
stored values. A register is kept by the offset of its first byte in the window; a ring register of
function f by 2^32 + f * 2^16 + its offset in BAR0. -/

namespace Sys2Proof.Machine

/-- Access codes of the register maps (R7, R8). -/
inductive RegAcc where | rw | ro | wo | w1c | w1s
  deriving DecidableEq, Repr, Inhabited

/-- One row of a register map: base offset, two strides with their counts, width in bits, access, reset
value, and the bits that a write reaches. -/
structure RegRow where
  name  : String
  base  : Nat
  s1    : Nat
  n1    : Nat
  s2    : Nat
  n2    : Nat
  width : Nat
  acc   : RegAcc
  reset : Nat
  mask  : Nat
  deriving DecidableEq, Repr, Inhabited

def m32 : Nat := 2 ^ 32 - 1
def m64 : Nat := 2 ^ 64 - 1
/-- The mask of bits [h:l]. -/
def fm (h l : Nat) : Nat := 2 ^ (h + 1) - 2 ^ l

/-- A row of one register. -/
def r1 (n : String) (b w : Nat) (a : RegAcc) (rs mk : Nat) : RegRow := ⟨n, b, 0, 1, 0, 1, w, a, rs, mk⟩
/-- A row of `k` registers `s` bytes apart. -/
def rn (n : String) (b s k w : Nat) (a : RegAcc) (rs mk : Nat) : RegRow := ⟨n, b, s, k, 0, 1, w, a, rs, mk⟩

/-! Offsets of the blocks (R24, R25). -/
def oFE : Nat := 0x00100000
def oCMU : Nat := 0x00200000
def oDEC : Nat := 0x00300000
def oEAU : Nat := 0x00400000
def oHBW : Nat := 0x00500000
def oHL : Nat := 0x00600000
def oRAS : Nat := 0x00700000
def oDie (d : Nat) : Nat := 0x01000000 + d * 0x01000000
def oMMU : Nat := 0x01810000
def oCore (n : Nat) : Nat := 0x10000000 + n * 0x10000
def oRing (f r : Nat) : Nat := 2 ^ 32 + f * 2 ^ 16 + r * 0x100

/-- R413, R415. -/
def rowsFW : List RegRow :=
  [rn "FW_HO_CTL" 0x1000 0x100 3 32 .wo 0 3, rn "FW_HO_STATE" 0x1004 0x100 3 32 .ro 0 0,
   rn "FW_HO_SRC" 0x1008 0x100 3 64 .rw 0 (fm 47 16), rn "FW_XPORT" 0x1010 0x100 3 64 .rw 0 (fm 47 16),
   rn "FW_JRNL" 0x1018 0x100 3 64 .rw 0 (fm 47 16 + fm 5 0), rn "FW_RUN_VER" 0x1020 0x100 3 32 .ro 0 0,
   rn "FW_PEND_VER" 0x1024 0x100 3 32 .ro 0 0, rn "FW_BOOT" 0x1028 0x100 3 32 .ro 0 0,
   rn "FW_MARK_SEQ" 0x102C 0x100 3 32 .ro 0 0] ++
  [rn "FW_EVR" 0x2000 0x20 16 64 .rw 0 (fm 51 12 + fm 3 0), rn "FW_EVR_HEAD" 0x2008 0x20 16 32 .ro 0 0,
   rn "FW_EVR_TAIL" 0x200C 0x20 16 32 .rw 0 m32, rn "FW_EVR_LOST" 0x2010 0x20 16 32 .ro 0 0,
   r1 "FW_KEY_SRC" 0x3000 64 .rw 0 (fm 47 5), r1 "FW_KEY_SLOT" 0x3008 32 .rw 0 (fm 11 0),
   r1 "FW_KEY_CMD" 0x300C 32 .wo 0 3, r1 "FW_KEY_STAT" 0x3010 32 .ro 0 0]

/-- R216. -/
def rowsFE : List RegRow :=
  [r1 "FE_CTL" (oFE + 0) 32 .rw 0 1, r1 "FE_BADGER_Q" (oFE + 8) 64 .rw 100000 m64,
   r1 "FE_GLOAD_SRC" (oFE + 0x10) 64 .rw 0 (fm 47 6), r1 "FE_GLOAD_CMD" (oFE + 0x18) 32 .wo 0 (fm 16 0),
   r1 "FE_GLOAD_STAT" (oFE + 0x1C) 32 .ro 0 0, r1 "FE_WALK_BUSY" (oFE + 0x20) 32 .ro 0 0,
   rn "FE_CTX_HT" (oFE + 0x1000) 16 256 64 .rw 0 (fm 51 16), rn "FE_CTX_CA" (oFE + 0x1008) 16 256 64 .rw 0 (fm 51 16),
   rn "FE_SLOT" (oFE + 0x3000) 16 64 64 .rw 0 (fm 8 0 + fm 51 12), rn "FE_SLOT_LEN" (oFE + 0x3008) 16 64 32 .rw 0 m32] ++
  [rn "FE_STR" (oFE + 0x4000) 0x40 128 32 .rw 0 (fm 1 0 + fm 17 8), rn "FE_GRAPH" (oFE + 0x4008) 0x40 128 32 .rw 0 (fm 8 0),
   rn "FE_BUDGET" (oFE + 0x4010) 0x40 128 64 .rw 0 m64, rn "FEQ_SPILL" (oFE + 0x4018) 0x40 128 64 .rw 0 (fm 51 12 + fm 3 0),
   rn "FEQ_COUNT" (oFE + 0x4020) 0x40 128 32 .ro 0 0, rn "FEQ_SPILLED" (oFE + 0x4024) 0x40 128 32 .ro 0 0,
   rn "FEQ_BAD" (oFE + 0x4028) 0x40 128 32 .ro 0 0, rn "FEQ_TRIGQ" (oFE + 0x402C) 0x40 128 32 .ro 0 0,
   rn "FE_RLOG" (oFE + 0x4030) 0x40 128 64 .rw 0 (fm 51 12 + fm 3 0), rn "FE_RLOG_POS" (oFE + 0x4038) 0x40 128 32 .rw 0 m32]

/-- R160. -/
def rowsCMU : List RegRow :=
  [r1 "CMU_CTL" (oCMU + 0) 32 .rw 0 1, r1 "CMU_EVAL_COUNT" (oCMU + 8) 64 .ro 0 0, r1 "CMU_TILE_COUNT" (oCMU + 0x10) 64 .ro 0 0,
   rn "CMU_LT" (oCMU + 0x10000) 0x40 128 64 .rw 0 (fm 51 11), rn "CMU_META" (oCMU + 0x10008) 0x40 128 64 .rw 0 (fm 51 28),
   rn "CMU_SRC" (oCMU + 0x10010) 0x40 128 64 .rw 0 (fm 54 0), rn "CMU_LOG" (oCMU + 0x10018) 0x40 128 64 .rw 0 (fm 51 12 + fm 3 0),
   rn "CMU_LOG_HEAD" (oCMU + 0x10020) 0x40 128 32 .ro 0 0, rn "CMU_LOG_TAIL" (oCMU + 0x10024) 0x40 128 32 .rw 0 m32,
   rn "CMU_FRAME" (oCMU + 0x10028) 0x40 128 64 .ro 0 0] ++
  [rn "CMU_ERRREC" (oCMU + 0x10030) 0x40 128 64 .rw 0 (fm 51 6), rn "CMU_STAT" (oCMU + 0x10038) 0x40 128 32 .w1c 0 0x17,
   rn "CMU_CTX" (oCMU + 0x1003C) 0x40 128 32 .rw 0 (fm 7 0),
   rn "DEC_CTL" (oDEC + 0) 0x20000 8 32 .rw 0 1, rn "DEC_STAT" (oDEC + 8) 0x20000 8 32 .ro 0 0,
   rn "DEC_PIXELS" (oDEC + 0x10) 0x20000 8 64 .ro 0 0, rn "DEC_PICS" (oDEC + 0x18) 0x20000 8 64 .ro 0 0,
   rn "DEC_ERRS" (oDEC + 0x20) 0x20000 8 64 .ro 0 0]

/-- R222, the power table of chapter 18. -/
def rowsEAU : List RegRow :=
  [r1 "EAU_CTL" (oEAU + 0) 32 .rw 1 1, r1 "EAU_FACTOR" (oEAU + 8) 32 .ro 0x10000 0, r1 "EAU_RAIL_NJ" (oEAU + 0x10) 64 .ro 0 0,
   r1 "EAU_SYS_NJ" (oEAU + 0x18) 64 .ro 0 0, rn "EAU_ENG_NJ" (oEAU + 0x100) 8 8 64 .ro 0 0,
   rn "EAU_CTX_NJ" (oEAU + 0x1000) 8 256 64 .ro 0 0, rn "EAU_STR_NJ" (oEAU + 0x2000) 16 128 64 .ro 0 0,
   rn "EAU_CREDIT" (oEAU + 0x2008) 16 128 64 .rw 0 m64, rn "EAU_TBL" (oEAU + 0x4000) 4 1024 32 .rw 0 m32] ++
  [r1 "EAU_PLIM" (oEAU + 0x6000) 32 .rw 550 (fm 9 0), r1 "EAU_PWR" (oEAU + 0x6008) 32 .ro 0 0, r1 "EAU_TEMP" (oEAU + 0x6010) 32 .ro 0 0,
   r1 "EAU_STRAP" (oEAU + 0x6018) 32 .ro 0 0, r1 "EAU_THROT" (oEAU + 0x6020) 64 .ro 0 0]

/-- HBW (R415), HL (R387), RAS (R421). -/
def rowsHub : List RegRow :=
  [r1 "HBW_CTL" (oHBW + 0) 32 .rw 1 1, r1 "HBW_PERIOD" (oHBW + 8) 32 .rw 100 m32, rn "HBW_BEAT" (oHBW + 0x10) 8 3 32 .wo 0 m32,
   rn "HBW_NACK" (oHBW + 0x30) 8 3 32 .wo 0 m32, rn "HBW_MISS" (oHBW + 0x50) 8 3 32 .ro 0 0, r1 "HBW_FALLBACKS" (oHBW + 0x70) 64 .ro 0 0] ++
  [rn "HL_FN_CTX" (oHL + 0) 16 17 32 .rw 0 (fm 8 0), rn "HL_WIN_VA" (oHL + 8) 16 17 64 .rw 0 (fm 51 36), r1 "HL_MODE" (oHL + 0x200) 32 .ro 0 0,
   r1 "HL_CXLMEM_BASE" (oHL + 0x210) 64 .rw 0 (fm 37 30), r1 "HL_CXLMEM_LEN" (oHL + 0x218) 64 .rw 0 (fm 38 30),
   rn "HL_PEER" (oHL + 0x400) 8 16 64 .rw 0 (1 + fm 31 16 + fm 63 40), r1 "HL_PEER_SELF" (oHL + 0x480) 32 .rw 0 (fm 4 0)] ++
  [rn "RAS_CORE_OK" (oRAS + 0) 8 3 64 .ro m64 0, rn "RAS_CHAN_OK" (oRAS + 0x20) 8 4 64 .ro m64 0, r1 "RAS_UNIT_OK" (oRAS + 0x40) 32 .ro 0xFFF 0,
   r1 "RAS_LINK" (oRAS + 0x48) 32 .ro 16 0, r1 "RAS_REPLACE" (oRAS + 0x50) 32 .ro 0 0, r1 "RAS_CE_TOTAL" (oRAS + 0x58) 64 .ro 0 0,
   r1 "RAS_UE_TOTAL" (oRAS + 0x60) 64 .ro 0 0, r1 "RAS_LOG_HEAD" (oRAS + 0x68) 32 .ro 0 0, r1 "RAS_SHED" (oRAS + 0x70) 32 .rw 0 (fm 2 0 + fm 15 8),
   r1 "RAS_STAT" (oRAS + 0x78) 32 .w1c 0 0x1F]

/-- Compute-die blocks: CSM (R119), RAMP (R221), MMU (R49). The MMU rows stand at die 0; its three
per-die registers stand at both. -/
def rowsDie : List RegRow :=
  [rn "CSM_POOL_ADD" 0x01300000 0x1000000 2 64 .wo 0 (fm 47 16), rn "CSM_POOL_FREE" 0x01300008 0x1000000 2 64 .ro 0 0,
   rn "CSM_RES_BASE" 0x01300010 0x1000000 2 64 .rw 0 (fm 47 26), rn "CSM_RES_FREE" 0x01300018 0x1000000 2 32 .ro 262144 0,
   rn "CSM_STAT" 0x01300020 0x1000000 2 32 .w1c 0 3, rn "CSM_FULL_COUNT" 0x01300028 0x1000000 2 64 .ro 0 0,
   rn "RAMP_CTL" 0x01800000 0x1000000 2 32 .rw 1 1, rn "RAMP_STEP" 0x01800008 0x1000000 2 32 .rw 12600 (fm 17 0),
   rn "RAMP_RATE" 0x01800010 0x1000000 2 32 .ro 0 0, rn "RAMP_EMPTY" 0x01800018 0x1000000 2 64 .ro 0 0,
   rn "RAMP_DUMMY" 0x01800020 0x1000000 2 64 .ro 0 0] ++
  [rn "MMU_ILV" (oMMU + 0) 8 16 64 .rw 0 0x7777777777777777, r1 "MMU_ILV_LOCK" (oMMU + 0x80) 32 .w1s 0 1,
   r1 "MMU_ILV_ERR" (oMMU + 0x88) 32 .ro 0 0, r1 "MMU_INV_CTX" (oMMU + 0x90) 32 .rw 0 (fm 7 0), r1 "MMU_INV_VA" (oMMU + 0x98) 64 .rw 0 m64,
   r1 "MMU_INV_CMD" (oMMU + 0xA0) 32 .wo 0 3, r1 "MMU_INV_ISSUED" (oMMU + 0xA8) 64 .ro 0 0, r1 "MMU_INV_DONE" (oMMU + 0xB0) 64 .ro 0 0,
   rn "MMU_WALK_BUSY" (oMMU + 0xC0) 0x1000000 2 32 .ro 0 0, rn "MMU_MISSQ_OCC" (oMMU + 0xC8) 0x1000000 2 32 .ro 0 0,
   rn "MMU_WALK_COUNT" (oMMU + 0xD0) 0x1000000 2 64 .ro 0 0, rn "MMU_CTX" (oMMU + 0x1000) 8 256 64 .rw 0 (1 + fm 7 4 + fm 47 16)]

/-- A row of every core block. -/
def rc (n : String) (o s k w : Nat) (a : RegAcc) (rs mk : Nat) : RegRow :=
  ⟨n, oCore 0 + o, 0x10000, 192, s, k, w, a, rs, mk⟩

/-- Core blocks: CORE (R203), ENGQ (R220), SLC (R64), RAS (R419). -/
def rowsCore : List RegRow :=
  [rc "CORE_FW_SHARE" 0x100 0 1 32 .rw 1 0xF, rc "CORE_RES" 0x108 0 1 32 .ro 0 0,
   rc "ENGQ_SPILL" 0x2000 0x10 6 64 .rw 0 (fm 25 12), rc "ENGQ_OCC" 0x2008 0x10 6 32 .ro 0 0, rc "ENGQ_STALL" 0x2080 0 1 64 .ro 0 0,
   rc "SLC_OWN" 0x4000 4 1024 32 .rw 0 (fm 11 0 + fm 29 16), rc "SLC_PROV_BASE" 0x5000 0 1 64 .rw 0 (m64 - fm 16 0),
   rc "SLC_FREE" 0x5008 0 1 32 .ro 960 0, rc "RAS_CE" 0x7000 8 4 32 .ro 0 0, rc "RAS_UE" 0x7020 8 4 32 .ro 0 0]

/-- Every row. -/
def regMap : List RegRow := rowsFW ++ rowsFE ++ rowsCMU ++ rowsEAU ++ rowsHub ++ rowsDie ++ rowsCore

/-- The indexes of the register of a row that covers the 4 bytes at `off`, with the offset of its first
byte. -/
def RegRow.find (r : RegRow) (off : Nat) : Option (Nat × Nat × Nat) :=
  if off < r.base then none
  else
    let d := off - r.base
    let i := if r.s1 = 0 then 0 else min (d / r.s1) (r.n1 - 1)
    let d2 := d - i * r.s1
    let j := if r.s2 = 0 then 0 else min (d2 / r.s2) (r.n2 - 1)
    let d3 := d2 - j * r.s2
    if d3 < r.width / 8 then some (r.base + i * r.s1 + j * r.s2, i, j) else none

/-- The register that covers offset `off`: its row, first byte and indexes. -/
def findReg : List RegRow → Nat → Option (RegRow × Nat × Nat × Nat)
  | [], _ => none
  | r :: rs, off =>
    match r.find off with
    | some (b, i, j) => some (r, b, i, j)
    | none => findReg rs off

/-- Reset value of a register (R7): slabs 960 to 1023 carry SYS = 1 (R64). -/
def RegRow.resetAt (r : RegRow) (j : Nat) : Nat :=
  if r.name = "SLC_OWN" && 960 ≤ j then 0x1000 else r.reset

/-- MMU offsets of die 1 name die 0's state, but for the three per-die registers (R49). -/
def canonOff (off : Nat) : Nat :=
  let d1 := oMMU + 0x1000000
  if d1 ≤ off && off < d1 + 0x10000 && !(d1 + 0xC0 ≤ off && off < d1 + 0xD8) then off - 0x1000000 else off

/-! ## Stored values -/

/-- The stored value of the register at `off`, `d` when it was never written. -/
def State.rget (s : State) (off d : Nat) : Nat :=
  (tget (BitVec.ofNat 64 d) s.regs off).toNat

/-- The state with a register's stored value replaced. -/
def State.rset (s : State) (off v : Nat) : State := { s with regs := tset s.regs off (BitVec.ofNat 64 v) }

/-- Set bits of a register. -/
def State.ror (s : State) (off v : Nat) : State := s.rset off (s.rget off 0 ||| v)

/-- Add to a register that resets to 0. -/
def State.radd (s : State) (off v : Nat) : State := s.rset off (s.rget off 0 + v)

/-- Increment a 32-bit counter, saturating. -/
def State.rinc32 (s : State) (off : Nat) : State :=
  if s.rget off 0 < m32 then s.radd off 1 else s

/-- MMU_CTX_k. -/
def State.ctxDesc (s : State) (k : Nat) : Nat := s.rget (oMMU + 0x1000 + 8 * k) 0
/-- VALID of a context descriptor. -/
def ctxValid (d : Nat) : Bool := bit d 0
/-- TENANT of a context descriptor. -/
def ctxTenantOf (d : Nat) : Nat := bits d 7 4
/-- ROOT of a context descriptor. -/
def ctxRoot (d : Nat) : Nat := bits d 47 16 * 65536
/-- The tenant of context `k`. -/
def State.tenantOf (s : State) (k : Nat) : Nat := ctxTenantOf (s.ctxDesc k)
/-- The scheme of granule `j` (R49). -/
def State.ilv (s : State) (j : Nat) : Nat := bits (s.rget (oMMU + 8 * (j / 16)) 0) (4 * (j % 16) + 2) (4 * (j % 16))
/-- MMU_ILV_LOCK. -/
def State.locked (s : State) : Bool := bit (s.rget (oMMU + 0x80) 0) 0
/-- SLC_OWN_k of core `n`. -/
def State.slcOwn (s : State) (n k : Nat) : Nat := s.rget (oCore n + 0x4000 + 4 * k) (if 960 ≤ k then 0x1000 else 0)
/-- The same, written. -/
def State.setSlcOwn (s : State) (n k v : Nat) : State := s.rset (oCore n + 0x4000 + 4 * k) v
/-- Core `n` is in service (R421). -/
def State.coreOk (s : State) (n : Nat) : Bool := bit (s.rget (oRAS + 8 * (n / 64)) m64) (n % 64)
/-- HBM channel `g` is in service (R421). -/
def State.chanOk (s : State) (g : Nat) : Bool := bit (s.rget (oRAS + 0x20 + 8 * (g / 64)) m64) (g % 64)
/-- FE_CTX_HT_k: the handle table of a context (R77). -/
def State.handleTable (s : State) (k : Nat) : Nat := s.rget (oFE + 0x1000 + 16 * k) 0
/-- FE_CTX_CA_k: the continuation area of a context (R197). -/
def State.contArea (s : State) (k : Nat) : Nat := s.rget (oFE + 0x1008 + 16 * k) 0
/-- FE_STR_s. -/
def oFeStr (st : Nat) : Nat := oFE + 0x4000 + 0x40 * st
def State.feStr (s : State) (st : Nat) : Nat := s.rget (oFeStr st) 0
/-- Stream `st` is open. -/
def State.isOpen (s : State) (st : Nat) : Bool := bit (s.feStr st) 16
/-- CMU register `o` of stream `st`. -/
def oCmuS (st o : Nat) : Nat := oCMU + 0x10000 + 0x40 * st + o
/-- The context of a stream (R216). -/
def State.streamCtx (s : State) (st : Nat) : Nat := bits (s.rget (oCmuS st 0x3C) 0) 7 0

/-! ## Components -/

def State.hart (s : State) (h : Nat) : Hart := tget (hartReset h) s.harts h
def State.setHart (s : State) (h : Nat) (v : Hart) : State := { s with harts := tset s.harts h v }
def State.core (s : State) (n : Nat) : Core := tget Core.reset s.cores n
def State.setCore (s : State) (n : Nat) (v : Core) : State := { s with cores := tset s.cores n v }
def State.cont (s : State) (k : Nat) : Cont := tget Cont.fresh s.conts k
def State.setCont (s : State) (k : Nat) (v : Cont) : State := { s with conts := tset s.conts k v }
def State.vrun (s : State) (k : Nat) : VRun := tget (VRun.start 0) s.runs k
def State.setVrun (s : State) (k : Nat) (v : VRun) : State := { s with runs := tset s.runs k v }
def State.stream (s : State) (k : Nat) : Stream := tget Stream.reset s.streams k
def State.setStream (s : State) (k : Nat) (v : Stream) : State := { s with streams := tset s.streams k v }

/-- Draw a free value (log 5). -/
def State.draw (s : State) : Word × State := (Config.freeWord s.fresh, { s with fresh := s.fresh + 1 })

end Sys2Proof.Machine
end

