-- ==== Sys2Proof/Machine/Xlat.lean ====
section
/-! DEFINITION. Requests, their checks in the order of R56, and translation (R14 to R49): everything that
is decided before a request performs a byte. -/

namespace Sys2Proof.Machine

/-! ## Requests -/

/-- The spaces that an agent can name (R33). -/
structure Reach where
  general  : Bool
  aperture : Bool
  local0   : Bool
  window   : Bool
  trigger  : Bool
  deriving DecidableEq, Repr, Inhabited

/-- An agent as a requester: to whom a miss belongs, its AGENT and UNIT codes (R54), the mode and
context of its checks (R41), the core whose slice the alias names (R18), and its reach. -/
structure Agent where
  who   : Who
  code  : Nat
  unit  : Nat
  mode  : Mode
  ctx   : Nat
  core  : Nat
  reach : Reach
  deriving DecidableEq, Repr, Inhabited

/-- One request (R20, R42). `ord` asks for natural alignment (R55 MISALIGN); `perm` is false for the check
of a handle's BASE, which skips the read and write permissions and the target (R80). -/
structure Req where
  ag   : Agent
  acc  : Acc
  va   : Nat
  n    : Nat
  ord  : Bool
  perm : Bool
  deriving DecidableEq, Repr, Inhabited

/-- Why a request does not go on: a fault, or a miss of the translation caches (R46). -/
inductive Stop where
  | flt (f : MemFault)
  | miss (who : Who) (ctx vpn : Nat)
  deriving DecidableEq, Repr, Inhabited

/-- The fault record of a request (R54). -/
def Req.fault (r : Req) (faddr : Nat) (c : Cause) (level pte detail : Nat) : MemFault :=
  ⟨faddr, c, r.acc, level, false, r.ag.code, r.ag.unit, r.ag.ctx, pte, detail⟩

/-- A fault at the request's own address with no entry involved. -/
def Req.stop (r : Req) (c : Cause) : Stop := .flt (r.fault r.va c 7 0 0)

def Acc.isRead : Acc → Bool | .load => true | .engRead => true | .atomic => true | _ => false
/-- The access takes the data that stands at its address, instruction fetches among them (R419). -/
def Acc.takesData (a : Acc) : Bool := a != .store && a != .engWrite
def Acc.isWrite : Acc → Bool | .store => true | .engWrite => true | .atomic => true | _ => false

/-! ## Entries (R37 to R40) -/

/-- Bytes that a leaf at a level maps (R34). -/
def pageSize : Nat → Nat | 0 => 2 ^ 40 | 1 => 2 ^ 28 | _ => 2 ^ 16

def pteKind (w : Nat) : Nat := bits w 3 2
def pteFmt (w : Nat) : Nat := bits w 11 8
def pteGeo (w : Nat) : Nat := bits w 14 12
def pteIlv (w : Nat) : Nat := bits w 18 16
def ptePacked (w : Nat) : Bool := bit w 19
def pteCms (w : Nat) : Nat := bits w 23 20
def pteKey (w : Nat) : Nat := bits w 31 24
def pteTenant (w : Nat) : Nat := bits w 35 32
def ptePeer (w : Nat) : Nat := bits w 39 36
/-- PPN of a leaf as an address. -/
def ptePa (w1 : Nat) : Nat := bits w1 31 0 * 65536

/-- The largest legal GEO of a format (R38). -/
def geoMax (fmt : Nat) : Nat := if fmt = 10 then 6 else if fmt = 11 then 2 else 0

/-- The entry breaks R40. A level-0 PEER leaf is legal: of level-0 leaves the list names PLAIN ones alone, and the sentence after
it, that a 1 TiB page exists only in the host window, is read as its consequence for them (DEDUCED, log 26). -/
def malformed (w0 w1 lvl : Nat) : Bool :=
  let ppn := bits w1 31 0
  if bit w0 15 || bits w0 63 40 != 0 || bits w1 63 32 != 0 then true
  else if !bit w0 1 then w0 != 1 || lvl == 2 || hbmEnd ≤ ppn * 65536
  else if pteKind w0 == 3 || 11 < pteFmt w0 || geoMax (pteFmt w0) < pteGeo w0 then true
  else if bit w0 5 && !bit w0 4 then true
  else if pteKind w0 == 2 then
    lvl != 2 || bits w0 31 16 != 0 || bits ppn 31 14 != 0 || 192 ≤ bits ppn 13 6
  else if (lvl == 1 && bits ppn 11 0 != 0) || (lvl == 0 && bits ppn 23 0 != 0) then true
  else if pteKind w0 == 1 then bits w0 31 19 != 0
  else if hostBase ≤ ppn * 65536 then bits w0 31 16 != 0
  else lvl == 0

/-! ## Interleave (R44, R45) -/

/-- Channel of a linear HBM offset. -/
def channelOf (s : State) (a : Nat) : Nat :=
  let o := bits a 29 0
  match s.ilv (bits a 37 30) with
  | 0 => bits o 15 8
  | 1 => bits o 19 12
  | 2 => bits o 29 29 * 128 + bits o 14 8
  | 3 => bits o 29 27 * 32 + bits o 12 8
  | 4 => bits o 15 8 ^^^ bits o 23 16
  | 5 => bits o 18 16 * 32 + bits o 12 8
  | 6 => bits o 23 16
  | _ => bits a 35 28

/-- Offset within the channel (R45). -/
def channelOff (s : State) (a : Nat) : Nat :=
  let o := bits a 29 0
  let j := bits a 37 30
  let c (l : Nat) : Nat := j * 2 ^ 22 + l
  match s.ilv j with
  | 0 => c (bits o 29 16 * 256 + bits o 7 0)
  | 1 => c (bits o 29 20 * 4096 + bits o 11 0)
  | 2 => c (bits o 28 15 * 256 + bits o 7 0)
  | 3 => c (bits o 26 13 * 256 + bits o 7 0)
  | 4 => c (bits o 29 16 * 256 + bits o 7 0)
  | 5 => c (bits o 29 19 * 2 ^ 11 + bits o 15 13 * 256 + bits o 7 0)
  | 6 => c (bits o 29 24 * 65536 + bits o 15 0)
  | _ => bits a 37 36 * 2 ^ 28 + bits a 27 0

/-- Stack, bank, row and column of a linear HBM offset (R45). -/
def placeOf (s : State) (a : Nat) : Nat × Nat × Nat × Nat :=
  let c := channelOff s a
  (bits (channelOf s a) 7 5, bits c 14 10 ^^^ bits c 19 15, bits c 29 15, bits c 9 0)

/-- The die whose stacks hold an HBM address. -/
def dieOf (s : State) (a : Nat) : Nat := channelOf s a / 128

/-- The interleave map satisfies R44: each quarter all CHANPAGE or none. -/
def ilvValid (s : State) : Bool :=
  (List.range 4).all fun m =>
    let cs := (List.range 64).map fun i => s.ilv (64 * m + i) == 7
    cs.all id || !cs.any id

/-- The first address in a range of HBM that lies on a fenced channel, piece by piece (R420). -/
def fencedAt (s : State) : Nat → Nat → Nat → Option Nat
  | 0, _, _ => none
  | k + 1, a, stop =>
    if stop ≤ a then none
    else if !s.chanOk (channelOf s a) then some a
    else fencedAt s k ((a / 256 + 1) * 256) stop

/-! ## Walks (R34, R35, R56) -/

/-- The outcome of a walk: its leaf with the table pointers that it followed, or its fault. -/
inductive WalkRes where
  | leaf (l : Leaf) (via : List WalkEntry)
  | fail (c : Cause) (level pte detail : Nat)
  deriving DecidableEq, Repr, Inhabited

/-- The first location of the ECC word that holds a location: 32 bytes in HBM and its companions, 8 elsewhere (R417). -/
def eccBase (loc : Nat) : Nat := if loc < hbmEnd || (compLoc 0 ≤ loc && loc < flashLoc 0) then loc / 32 * 32 else loc / 8 * 8

/-- Whether an uncorrectable error lies in `n` bytes at a location: the 8-byte words with an error are listed by their first byte. -/
def ueIn (ue : List Nat) (a n : Nat) : Bool := ue.any fun u => u < a + n && a < u + 8

/-- The first byte of the range in the lowest word with an uncorrectable error, `a + n` when none. -/
def ueAt (ue : List Nat) (a n : Nat) : Nat :=
  (ue.filter fun u => u < a + n && a < u + 8).foldl (fun x u => min x (max a u)) (a + n)

/-- The words with an error after every byte of [a, b) is written: a word wholly covered is whole again. -/
def ueLeft (ue : List Nat) (a b : Nat) : List Nat := ue.filter fun u => u < a || b < u + 8

/-- The bits of an address that choose the entry of a walk at a level: those of its index and above. -/
def walkIdx (va lvl : Nat) : Nat := bits va 51 (40 - 12 * lvl)

/-- A table pointer that was followed is added to what a walk answers. -/
def WalkRes.via (e : WalkEntry) : WalkRes → WalkRes
  | .leaf l es => .leaf l (e :: es)
  | r => r

/-- The walk from a table, with `n` levels left (R34, R35, R40, R56). DETAIL of a leaf's PA_HOLE is the leaf's first physical
address, which its PPN names (DEDUCED, log 26). -/
def walkFrom (s : State) (die ctx va : Nat) : Nat → Nat → WalkRes
  | 0, _ => .fail .pteMalformed 2 0 0
  | n + 1, table =>
    let lvl := 2 - n
    let ea := table + bits va (51 - 12 * lvl) (40 - 12 * lvl) * 16
    let w0 := mnum s.mem ea 8
    let w1 := mnum s.mem (ea + 8) 8
    if ueIn s.ue ea 16 || !s.chanOk (channelOf s ea) then .fail .walkUe lvl w0 ea
    else if !bit w0 0 then .fail .notMapped lvl w0 0
    else if malformed w0 w1 lvl then .fail .pteMalformed lvl w0 0
    else if !bit w0 1 then (walkFrom s die ctx va n (ptePa w1)).via ⟨die, ctx, lvl, walkIdx va lvl, ptePa w1⟩
    else if pteKind w0 == 0 && hbmEnd ≤ ptePa w1 && ptePa w1 < hostBase then .fail .paHole lvl w0 (ptePa w1)
    else .leaf ⟨lvl, w0, w1⟩ []

/-- The table that a die's page-walk cache gives for an address at a level (R46). -/
def walkCached (s : State) (die ctx va lvl : Nat) : Option Nat :=
  (s.walkCache.find? fun e => e.die == die && e.ctx == ctx && e.level == lvl && e.idx == walkIdx va lvl).map WalkEntry.table

/-- The walk of an address in a context by a walker of a die: from the lowest table that the die's page-walk cache names (R35,
R36, R46). -/
def walk (s : State) (die ctx va : Nat) : WalkRes :=
  let d := s.ctxDesc ctx
  if !ctxValid d then .fail .notMapped 7 0 0
  else if hbmEnd ≤ ctxRoot d then .fail .paHole 7 0 (ctxRoot d)
  else
    match walkCached s die ctx va 1 with
    | some t => walkFrom s die ctx va 1 t
    | none =>
      match walkCached s die ctx va 0 with
      | some t => walkFrom s die ctx va 2 t
      | none => walkFrom s die ctx va 3 (ctxRoot d)

/-! ## Caches (R46 to R48) -/

/-- The quadrant of a core (R11). -/
def quadOf (n : Nat) : Nat := n / 96 * 4 + n % 96 / 48 * 2 + n % 12 / 6

/-- The FI that serves a core's G queue (R346). -/
def fiOf (n : Nat) : Nat := n / 96 * 2 + (if n % 12 < 6 then 0 else 1)

/-- The translation cache that an agent looks in (R46): a core's, an FI's, or the hub's. Hart 1 and the core's firmware share
their core's, the other agents of the hub die its one (DESIGN CHOICE, log 17). -/
def Who.cache : Who → Nat
  | .hart h => if h < 384 then h / 2 else 204
  | .engine c e => if e == 3 then 200 + fiOf c else if e == 5 then 204 else c
  | .fw c => c
  | _ => 204

/-- Entries of a translation cache (R46). -/
def cacheSize (c : Nat) : Nat := if c < 192 then 256 else if c < 200 then 8192 else if c < 204 then 1024 else 4096

/-- Whether a cached entry covers a page number. -/
def covers (e : TlbEntry) (vpn : Nat) : Bool :=
  vpn / (pageSize e.leaf.level / 65536) == e.vpn / (pageSize e.leaf.level / 65536)

/-- The leaf that cache `c` holds for a page of a context. -/
def tlbFind (c : Nat) : List TlbEntry → Nat → Nat → Option Leaf
  | [], _, _ => none
  | e :: es, ctx, vpn => if e.cache == c && e.ctx == ctx && covers e vpn then some e.leaf else tlbFind c es ctx vpn

/-- The fault of a finished walk that still waits for its requester. -/
def walkFaultFor : List WalkFault → Who → Nat → Nat → Option WalkFault
  | [], _, _, _ => none
  | w :: ws, who, ctx, vpn =>
    if w.who == who && w.ctx == ctx && w.vpn == vpn then some w else walkFaultFor ws who ctx vpn

/-! ## Pieces -/

/-- What an address reaches. -/
inductive Tgt where
  | hbm (pa : Nat)
  | host (pa : Nat)
  | slice (core off : Nat)
  | peer (k pa : Nat)
  | reg (off : Nat)
  | trig (st off : Nat)
  deriving DecidableEq, Repr, Inhabited

/-- The bytes of a request on one page, with their target and leaf. -/
structure Piece where
  va   : Nat
  n    : Nat
  tgt  : Tgt
  leaf : Option Leaf
  deriving DecidableEq, Repr, Inhabited

/-- Element format and geometry of a piece; a fixed region is BYTES (R62). -/
def Piece.fmt (p : Piece) : Nat := match p.leaf with | some l => pteFmt l.w0 | none => 0
def Piece.geo (p : Piece) : Nat := match p.leaf with | some l => pteGeo l.w0 | none => 0

/-- A transformed page (R101). -/
def Leaf.xf (l : Leaf) : Bool := bits l.w0 31 19 != 0

/-- Location of a target's first byte. -/
def Tgt.loc : Tgt → Nat
  | .hbm pa => pa
  | .host pa => hostBase + pa
  | .slice c o => sliceLoc c o
  | .peer k pa => peerLoc k pa
  | .reg o => winBase + o
  | .trig st o => trigBase + st * 4096 + o

/-- The part's own peer number, when it is in a group (R395). -/
def State.selfPeer (s : State) : Option Nat :=
  let v := s.rget (oHL + 0x480) 0
  if bit v 4 then some (bits v 3 0) else none

/-- HL_PEER_k.valid. -/
def State.peerValid (s : State) (k : Nat) : Bool := bit (s.rget (oHL + 0x400 + 8 * k) 0) 0

/-- The target of address `va` on a leaf (R16, R30, R31, R39). -/
def leafTgt (s : State) (l : Leaf) (va : Nat) : Tgt :=
  let pa := ptePa l.w1 + va % pageSize l.level
  match pteKind l.w0 with
  | 2 => .slice (bits l.w1 13 6) (bits l.w1 5 0 * 65536 + va % 65536)
  | 1 => if s.selfPeer == some (ptePeer l.w0) && pa < hbmEnd then .hbm pa else .peer (ptePeer l.w0) pa
  | _ => if hostBase ≤ pa then .host (pa - hostBase) else .hbm pa

/-! ## Checks of one page (R41, R44, R56 steps 5 to 7) -/

/-- The leaf of a page, or the walk's fault, or a miss. -/
def pageLeaf (s : State) (r : Req) (a : Nat) : Except Stop Leaf :=
  match tlbFind r.ag.who.cache s.tlb r.ag.ctx (a / 65536) with
  | some l => .ok l
  | none =>
    match walkFaultFor s.walkFault r.ag.who r.ag.ctx (a / 65536) with
    | some w => .error (.flt (r.fault a w.cause w.level w.pte w.detail))
    | none => .error (.miss r.ag.who r.ag.ctx (a / 65536))

/-- ILV_MISMATCH, TENANT, PERM_U, then the access permissions. -/
def permFault (s : State) (r : Req) (l : Leaf) : Option Cause :=
  let w := l.w0
  if pteKind w == 0 && ptePa l.w1 < hbmEnd && pteIlv w != s.ilv (ptePa l.w1 / 2 ^ 30) then some .ilvMismatch
  else if r.ag.mode != .m && pteTenant w != s.tenantOf r.ag.ctx then some .tenant
  else if r.ag.mode == .u && !bit w 7 then some .permU
  else if !r.perm then none
  else if r.acc.isRead && !bit w 4 then some .permR
  else if r.acc.isWrite && !bit w 5 then some .permW
  else if r.acc == .fetch && !bit w 6 then some .permX
  else none

/-- The leaf of a page with its checks made. -/
def pageCheck (s : State) (r : Req) (a : Nat) : Except Stop Leaf :=
  match pageLeaf s r a with
  | .error e => .error e
  | .ok l =>
    match permFault s r l with
    | some c => .error (.flt (r.fault r.va c 7 l.w0 0))
    | none => .ok l

/-- The pages of [a, stop), lower first; `k` bounds their number. -/
def pages (s : State) (r : Req) (stop : Nat) : Nat → Nat → Except Stop (List Piece)
  | 0, _ => .ok []
  | k + 1, a =>
    if stop ≤ a then .ok []
    else
      match pageCheck s r a with
      | .error e => .error e
      | .ok l =>
        let n := min (stop - a) (pageSize l.level - a % pageSize l.level)
        match pages s r stop k (a + n) with
        | .error e => .error e
        | .ok ps => .ok (⟨a, n, leafTgt s l a, some l⟩ :: ps)

/-- The attributes on which the pages of one request must agree (R42). -/
def attrsOf (w : Nat) : Nat × Nat × Nat × Nat :=
  (bits w 14 8, bits w 35 19, pteKind w, if pteKind w == 1 then ptePeer w else 0)

/-- Whether every page agrees with the first. -/
def sameAttrs : List Piece → Bool
  | [] => true
  | p :: ps => ps.all fun q =>
    match p.leaf, q.leaf with
    | some a, some b => attrsOf a.w0 == attrsOf b.w0
    | _, _ => true

/-! ## Checks at the target (R56 step 9) -/

/-- The slabs of [off, off + n). -/
def slabsOf (off n : Nat) : List Nat :=
  (List.range ((off + n - 1) / 4096 + 1 - off / 4096)).map fun i => off / 4096 + i

/-- Ownership of a slab by a context (R21, R64). -/
def slabOwned (o ctx : Nat) : Bool := bit o 8 && !bit o 12 && bits o 7 0 == ctx

/-- The checks at a slice of all the ranges of a request there, each an offset and a length: a cause that comes earlier in R56 is
found first, in whichever range it lies. -/
def sliceFault (s : State) (r : Req) (c : Nat) (rs : List (Nat × Nat)) : Option (Cause × Nat) :=
  let slabs := rs.flatMap fun x => slabsOf x.1 x.2
  if rs.any fun x => 0x400000 < x.1 + x.2 then some (.sliceCross, 0)
  else if !s.coreOk c then some (.unitFenced, 0)
  else if r.ag.mode != .m && slabs.any (fun k => !slabOwned (s.slcOwn c k) r.ag.ctx) then some (.sliceOwner, 0)
  else if r.acc.isWrite && slabs.any (fun k => bit (s.slcOwn c k) 9) then some (.sliceRo, 0)
  else if r.acc.takesData then
    (rs.find? fun x => ueIn s.ue (sliceLoc c x.1) x.2).map fun x => (.memUe, ueAt s.ue (sliceLoc c x.1) x.2)
  else none

/-- The tenant that owns stream `st`: that of its context (R28, R216). -/
def State.streamTenant (s : State) (st : Nat) : Nat := s.tenantOf (s.streamCtx st)

/-- The requester may reach every stream's trigger: M mode, and the host's physical function (R28, R33). -/
def Agent.anyStream (a : Agent) : Bool := a.mode == .m || a.who == .host 0

/-- The checks of a piece at its target, but for those of a transformed page, which the data path makes. ILV_MISMATCH of a PEER
page is found by the owner of the address, so it stands here, not at step 6, whichever part that is (DEDUCED, log 26). -/
def tgtFault (s : State) (r : Req) (p : Piece) : Option (Cause × Nat) :=
  match p.tgt with
  | .slice c off => sliceFault s r c [(off, p.n)]
  | .hbm pa =>
    match p.leaf with
    | some l =>
      if pteKind l.w0 == 1 && pteIlv l.w0 != s.ilv (pa / 2 ^ 30) then some (.ilvMismatch, 0)
      else if l.xf then none
      else
        match fencedAt s (p.n / 256 + 2) pa (pa + p.n) with
        | some a => some (.memUe, a)
        | none => if r.acc.takesData && ueIn s.ue pa p.n then some (.memUe, ueAt s.ue pa p.n) else none
    | none => (fencedAt s (p.n / 256 + 2) pa (pa + p.n)).map fun a => (.memUe, a)
  | .host pa => if Config.hostRejects pa then some (.hostAbort, 0) else none
  | .peer k pa =>
    if s.selfPeer == none || (s.selfPeer != some k && !s.peerValid k) then some (.peerAbsent, k)
    else if hbmEnd < pa + p.n then some (.peerRange, k)
    else
      match p.leaf with
      | some l => if s.selfPeer != some k && pteIlv l.w0 != Config.peerIlv k (pa / 2 ^ 30) then some (.ilvMismatch, 0) else none
      | none => none
  | .trig st off =>
    if off == 0 && !r.ag.anyStream && s.streamTenant st != s.tenantOf r.ag.ctx then some (.trigOwner, 0) else none
  | .reg _ => none

/-- PTE of a fault found at the target: word 0 of the entry when its ILV, PEERID, PPN or KEYID caused it, else 0 (R54). -/
def Piece.ptFor (p : Piece) (c : Cause) : Nat :=
  match p.leaf, c with
  | some l, .ilvMismatch => l.w0
  | some l, .peerAbsent => l.w0
  | some l, .peerRange => l.w0
  | some l, .keyInvalid => l.w0
  | _, _ => 0

/-- The first fault at targets that are no slices, lower piece first. -/
def tgtFaults (s : State) (r : Req) : List Piece → Option Stop
  | [] => none
  | p :: ps =>
    match tgtFault s r p with
    | some (c, d) => some (.flt (r.fault r.va c 7 (p.ptFor c) d))
    | none => tgtFaults s r ps

/-- The ranges of a slice that some pieces name. -/
def sliceRanges (ps : List Piece) : List (Nat × Nat) :=
  ps.filterMap fun p => match p.tgt with | .slice _ o => some (o, p.n) | _ => none

/-- The first fault at the targets of a request: at a slice that of all its pieces together (R56 step 9). -/
def tgtCheck (s : State) (r : Req) (ps : List Piece) : Option Stop :=
  match ps with
  | ⟨_, _, .slice c _, _⟩ :: _ => (sliceFault s r c (sliceRanges ps)).map fun x => .flt (r.fault r.va x.1 7 0 x.2)
  | _ => tgtFaults s r ps

/-- A request must lie within one slice (R20). -/
def oneSlice : List Piece → Bool
  | [] => true
  | p :: ps => ps.all fun q =>
    match p.tgt, q.tgt with
    | .slice a _, .slice b _ => a == b
    | _, _ => true

/-! ## The request (R14 to R28, R42, R56) -/

/-- The fixed region that holds an address: base, populated length, and its number: 0 aperture, 1 alias,
2 window, 3 trigger. -/
def regionOf (va : Nat) : Nat × Nat × Nat :=
  if va < alBase then (apBase, 0x30000000, 0)
  else if va < winBase then (alBase, 0x400000, 1)
  else if va < trigBase then (winBase, 0x20000000, 2)
  else (trigBase, 0x80000, 3)

/-- REG_SIZE in the window and at the triggers (R26, R28). -/
def regSizeBad (r : Req) (rg o : Nat) : Bool :=
  let bad := (r.n != 4 && r.n != 8) || r.va % r.n != 0 || r.acc == .atomic
  if rg == 2 then bad
  else if rg == 3 then
    if o % 4096 < 8 then o % 4096 != 0 || r.n != 8 || (r.acc != .load && r.acc != .store) else bad
  else false

/-- Checks of a request in a fixed region and its one piece. -/
def planFixed (r : Req) : Except Stop (List Piece) :=
  let (base, len, rg) := regionOf r.va
  let o := r.va - base
  let can := match rg with | 0 => r.ag.reach.aperture | 1 => r.ag.reach.local0 | 2 => r.ag.reach.window | _ => r.ag.reach.trigger
  if len < o + r.n then .error (r.stop .hole)
  else if !can then .error (r.stop .priv)
  else if r.acc == .fetch then .error (r.stop .permX)
  else if regSizeBad r rg o then .error (r.stop .regSize)
  else if r.ord && r.va % r.n != 0 then .error (r.stop .misalign)
  else
    let tgt := match rg with
      | 0 => Tgt.slice (o / 0x400000) (o % 0x400000)
      | 1 => .slice r.ag.core o
      | 2 => .reg (canonOff o)
      | _ => .trig (o / 4096) (o % 4096)
    .ok [⟨r.va, r.n, tgt, none⟩]

/-- Checks of a request in the general region up to ATTR_SPLIT and FMT_TYPE, and its pieces. PTE of both faults is word 0 of the entry
of the lowest page: of two pages that differ R54 does not say which caused the fault (DESIGN CHOICE, logs 26 and 71). -/
def planGeneral (s : State) (r : Req) (ty : Nat → Nat → Bool) : Except Stop (List Piece) :=
  if !r.ag.reach.general then .error (r.stop .priv)
  else if r.ord && r.va % r.n != 0 then .error (r.stop .misalign)
  else
    match pages s r (r.va + r.n) (r.n / 65536 + 2) r.va with
    | .error e => .error e
    | .ok ps =>
      let w := match ps with | p :: _ => (match p.leaf with | some l => l.w0 | none => 0) | [] => 0
      if !sameAttrs ps then .error (.flt (r.fault r.va .attrSplit 7 w 0))
      else if ps.any (fun p => !ty p.fmt p.geo) then .error (.flt (r.fault r.va .fmtType 7 w 0))
      else .ok ps

/-- The checks of a request through step 8 of R56, and the pieces of its bytes. `ty` says which formats and geometries the register
type takes (R42 step 8, R96). -/
def planPages (s : State) (r : Req) (ty : Nat → Nat → Bool) : Except Stop (List Piece) :=
  if 2 ^ 52 ≤ r.va then .error (r.stop .noncanon)
  else if resvBase < r.va + r.n then .error (r.stop .hole)
  else if r.va < apBase && apBase < r.va + r.n then
    .error (r.stop (if apEnd < r.va + r.n then .hole else .attrSplit))
  else if r.va < apBase then planGeneral s r ty
  else
    match planFixed r with
    | .error e => .error e
    | .ok ps => if ty 0 0 then .ok ps else .error (r.stop .fmtType)

/-- Every check of a request but those that a transformed page makes on its data, and the pieces of its bytes. -/
def plan (s : State) (r : Req) (ty : Nat → Nat → Bool) : Except Stop (List Piece) :=
  match planPages s r ty with
  | .error e => .error e
  | .ok ps =>
    if !r.perm then .ok ps
    else if !oneSlice ps then .error (r.stop .sliceCross)
    else match tgtCheck s r ps with
      | some e => .error e
      | none => .ok ps

/-- A request that takes any format: bytes move unchanged. -/
def anyFmt (_ _ : Nat) : Bool := true

end Sys2Proof.Machine
end

