-- ==== Sys2Proof/Machine/Access.lean ====
section
/-! DEFINITION. Moving the bytes of a request: plain storage, transformed pages (R101 to R113, R117,
R118), reservations and store groups that a write disturbs (R140, R144). -/

namespace Sys2Proof.Machine

/-! ## Placement of a logical block (R105, R106) -/

/-- Where one logical block stands: its own 256 bytes, or a home; the offset of its header in the
companion; the address in its IV. -/
structure BlockLoc where
  pa     : Nat       -- 256-byte piece, or the 128-byte home
  packed : Bool
  comp   : Nat       -- location of the companion
  slot   : Nat       -- 0 or 1
  deriving DecidableEq, Repr, Inhabited

/-- The block that holds the byte at `va` of a page; `pa` is its physical address. -/
def blockLoc (l : Leaf) (va pa : Nat) : BlockLoc :=
  if ptePacked l.w0 then
    let size := pageSize l.level
    let b := va % size / 256
    let h := if l.level == 1 then b2n (bit va 28) * 2 ^ 27 else b2n (bit va 16) * 2 ^ 15
    let home := ptePa l.w1 + b * 128 + h
    ⟨home, true, compLoc home, home / 128 % 2⟩
  else ⟨pa / 256 * 256, false, compLoc pa, 0⟩

/-- Header of a block. -/
def BlockLoc.hdr (b : BlockLoc) (m : Memory) : Nat := mnum m (b.comp + 8 * b.slot) 8
/-- Overflow link of a packed block. -/
def BlockLoc.link (b : BlockLoc) (m : Memory) : Nat := mnum m (b.comp + 16 + 8 * b.slot) 8
/-- Address of the extent a link names. -/
def linkPa (k : Nat) : Nat := bits k 39 0 * 256
/-- Length of the extent in sectors. -/
def linkLen (k : Nat) : Nat := bits k 42 40

/-- Sectors stored outside the home: those from 4 up, after a tag sector when encrypted. -/
def extLen (enc : Bool) (nsec : Nat) : Nat := (nsec - 4) + b2n enc

/-- The stored sectors of a block. -/
def BlockLoc.sectors (b : BlockLoc) (m : Memory) (h : Nat) : List Byte :=
  let n := hNsec h
  if b.packed then
    mgets m b.pa (32 * min n 4) ++ mgets m (linkPa (b.link m) + 32 * b2n (hEnc h)) (32 * (n - 4))
  else mgets m b.pa (32 * n)

/-- The stored tag. -/
def BlockLoc.tag (b : BlockLoc) (m : Memory) : List Byte :=
  if b.packed then mgets m (linkPa (b.link m)) 16 else mgets m (b.comp + 8) 16

/-- The IV of R110. -/
def ivOf (addr wcnt key tenant : Nat) : Nat :=
  bits addr 47 8 * 2 ^ 56 + wcnt % 2 ^ 32 * 2 ^ 24 + key * 2 ^ 16 + tenant * 2 ^ 12

/-- The key of a slot, when it is loaded for the tenant (R111). -/
def keyOf (s : State) (slot tenant : Nat) : Option (List Byte) :=
  if thas s.keys slot then
    let (k, t) := tget ([], 0) s.keys slot
    if t == tenant then some k else none
  else none

/-- The whole companion of a block is zero: header, and tag or link (R111). Of a packed block it is its own header and link, not
those of the other home that shares the 32 bytes (DEDUCED, log 25). -/
def BlockLoc.blank (b : BlockLoc) (m : Memory) : Bool :=
  if b.packed then b.hdr m == 0 && b.link m == 0 else (mgets m b.comp 32).all (fun x => x == 0)

/-- The places that hold a block with header `h`, each with its length: its sectors, and the extent of a packed block (R105, R106). -/
def BlockLoc.places (b : BlockLoc) (m : Memory) (h : Nat) : List (Nat × Nat) :=
  if b.packed then
    (b.pa, 32 * min (hNsec h) 4) :: (if hOvx h then [(linkPa (b.link m), 32 * linkLen (b.link m))] else [])
  else [(b.pa, 32 * hNsec h)]

/-- The first physical address of some places that a read cannot take: on a fenced channel (R420), or with an uncorrectable
error. -/
def placesHurt (s : State) (ps : List (Nat × Nat)) : Option Nat :=
  ps.findSome? fun p =>
    match fencedAt s (p.2 / 256 + 2) p.1 (p.1 + p.2) with
    | some a => some a
    | none => if ueIn s.ue p.1 p.2 then some (ueAt s.ue p.1 p.2) else none

/-- The 256 bytes of a logical block, or the cause and DETAIL of its fault (R104, R111, R112, R420). ENC in a header on a page of KEYID 0
is ignored (DESIGN CHOICE, log 25). -/
def readBlock (s : State) (l : Leaf) (b : BlockLoc) : Except (Cause × Nat) (List Byte) :=
  let m := s.mem
  let h := b.hdr m
  let key := pteKey l.w0
  let zeros := List.replicate 256 (0 : Byte)
  if ueIn s.ue b.comp 32 || !s.chanOk (channelOf s b.pa) then .error (.memUe, b.pa)
  else if let some a := placesHurt s (b.places m h) then .error (.memUe, a)
  else if key == 0 then
    match expand h (b.sectors m h) with
    | some y => .ok y
    | none => .error (.memUe, b.pa)
  else
    match keyOf s key (pteTenant l.w0) with
    | none => .error (.keyInvalid, 0)
    | some k =>
      if !hEnc h then (if b.blank m then .ok zeros else .error (.gcmTag, 0))
      else
        let ct := b.sectors m h
        let iv := ivOf b.pa (hWcnt h) key (pteTenant l.w0)
        if gcmTag k iv (leBytes 8 h) ct != b.tag m then .error (.gcmTag, 0)
        else
          match expand h (gcmCrypt k iv ct) with
          | some y => .ok y
          | none => .error (.memUe, b.pa)

/-! ## Overflow chunks (R117, R118) -/

/-- Element `d` of a two-element list replaced. -/
def setDie {α : Type} (xs : List α) (d : Nat) (v : α) : List α := xs.set d v

/-- Take an overflow chunk for a die: from the pool, then from the reserve with POOL_LOW. -/
def takeChunk (s : State) (d : Nat) : Option (Nat × State) :=
  match s.pool.getD d [] with
  | c :: cs => some (c, { s with pool := setDie s.pool d cs })
  | [] =>
    let low (s : State) : State := (s.ror (0x01300020 + d * 0x1000000) 1).ror (oRAS + 0x78) (2 ^ d)
    match s.reserve.getD d (0, []) with
    | (n, c :: cs) => some (c, low { s with reserve := setDie s.reserve d (n, cs) })
    | (n + 1, []) =>
      some (s.rget (0x01300010 + d * 0x1000000) 0 + (262143 - n) * 256, low { s with reserve := setDie s.reserve d (n, []) })
    | (0, []) => none

/-- Release a chunk: to the reserve until it is full, then to the pool. -/
def freeChunk (s : State) (d c : Nat) : State :=
  let (n, r) := s.reserve.getD d (0, [])
  if n + r.length < 262144 then { s with reserve := setDie s.reserve d (n, c :: r) }
  else { s with pool := setDie s.pool d (c :: s.pool.getD d []) }

/-! ## Writing a block (R103, R105, R106, R110, R113, R118) -/

/-- ESZ code for the page's format: its element size, 1 for BPN and block-scaled pages (R103). -/
def eszOf (fmt : Nat) : Nat :=
  match fmt with | 1 => 4 | 9 => 4 | 2 => 2 | 3 => 2 | 8 => 2 | _ => 1

/-- Pages with a 1-byte element size, on which alone SPARSE12 is used (R80, R103): BYTES, the FP8 and the 8-bit integer formats. -/
def byteElems (fmt : Nat) : Bool := fmt == 0 || (4 ≤ fmt && fmt ≤ 7)

/-- Store the sectors of a block, its header and tag. -/
def BlockLoc.place (b : BlockLoc) (m : Memory) (h : Nat) (secs tag : List Byte) (chunk len : Nat) : Memory :=
  if b.packed then
    let m := msets m b.pa (secs.take 128)
    let m := if len == 0 then m else msets m chunk ((if tag.isEmpty then [] else tag ++ List.replicate 16 0) ++ secs.drop 128)
    let m := msets m (b.comp + 8 * b.slot) (leBytes 8 h)
    msets m (b.comp + 16 + 8 * b.slot) (leBytes 8 (if len == 0 then 0 else chunk / 256 + len * 2 ^ 40))
  else
    let m := msets m b.pa secs
    let m := msets m b.comp (leBytes 8 h)
    if tag.isEmpty then m else msets m (b.comp + 8) tag

/-- Make the extent of a packed block have `len` sectors: the chunk to use and the state. -/
def extentFor (s : State) (b : BlockLoc) (oldOvx : Bool) (len : Nat) : Option (Nat × State) :=
  let d := dieOf s b.pa
  let old := linkPa (b.link s.mem)
  if len == 0 then some (0, if oldOvx then freeChunk s d old else s)
  else if oldOvx then some (old, s)
  else takeChunk s d

/-- The state in which a block's new form stands: the errors that its bytes replace are gone (R417). -/
def State.placed (s : State) (b : BlockLoc) (m : Memory) (h : Nat) : State :=
  let ue := (b.places m h).foldl (fun u p => ueLeft u p.1 (p.1 + p.2)) s.ue
  { s with mem := m, ue := if b.packed then ue else ueLeft ue b.comp (b.comp + 32) }

/-- Write 256 bytes as the block's content. -/
def storeBlock (s : State) (l : Leaf) (b : BlockLoc) (y : List Byte) : Except (Cause × Nat) State :=
  let h0 := b.hdr s.mem
  let key := pteKey l.w0
  let p := compress (pteCms l.w0) (eszOf (pteFmt l.w0)) (byteElems (pteFmt l.w0)) y
  let enc := key != 0
  let w := if enc then hWcnt h0 + 1 else hWcnt h0
  if enc && 2 ^ 32 ≤ w then .error (.keyInvalid, 0)
  else
    let len := if b.packed then extLen enc p.nsec else 0
    match extentFor s b (b.packed && hOvx h0) len with
    | none => .error (.compressFull, b.pa)
    | some (chunk, s) =>
      let h := header p enc (len != 0) w
      if let some a := fencedAt s 2 (if len == 0 then b.pa else chunk) (if len == 0 then b.pa else chunk + 32 * len) then .error (.memUe, a)
      else if enc then
        match keyOf s key (pteTenant l.w0) with
        | none => .error (.keyInvalid, 0)
        | some k =>
          let iv := ivOf b.pa w key (pteTenant l.w0)
          let ct := gcmCrypt k iv p.data
          .ok (s.placed b (b.place s.mem h ct (gcmTag k iv (leBytes 8 h) ct) chunk len) h)
      else .ok (s.placed b (b.place s.mem h p.data [] chunk len) h)

/-- `y` with `bs` at offset `o`. -/
def splice (y : List Byte) (o : Nat) (bs : List Byte) : List Byte :=
  y.take o ++ bs ++ y.drop (o + bs.length)

/-! ## Pieces -/

/-- Read `n` bytes from a transformed page, block by block. -/
def readXf (s : State) (l : Leaf) : Nat → Nat → Nat → Nat → Except (Cause × Nat) (List Byte)
  | 0, _, _, _ => .ok []
  | k + 1, va, pa, n =>
    if n == 0 then .ok []
    else
      let c := min n (256 - va % 256)
      match readBlock s l (blockLoc l va pa) with
      | .error e => .error e
      | .ok y =>
        match readXf s l k (va + c) (pa + c) (n - c) with
        | .error e => .error e
        | .ok ys => .ok ((y.drop (va % 256)).take c ++ ys)

/-- Write bytes to a transformed page, block by block (R113). -/
def writeXf (l : Leaf) : Nat → State → Nat → Nat → List Byte → Except (Cause × Nat) State
  | 0, s, _, _, _ => .ok s
  | k + 1, s, va, pa, bs =>
    if bs.isEmpty then .ok s
    else
      let c := min bs.length (256 - va % 256)
      let b := blockLoc l va pa
      match readBlock s l b with
      | .error e => .error e
      | .ok y =>
        match storeBlock s l b (splice y (va % 256) (bs.take c)) with
        | .error e => .error e
        | .ok s => writeXf l k s (va + c) (pa + c) (bs.drop c)

/-- The bytes of one piece. Registers and triggers are read elsewhere. -/
def readPiece (s : State) (p : Piece) : Except (Cause × Nat) (List Byte) :=
  match p.tgt, p.leaf with
  | .hbm pa, some l => if l.xf then readXf s l (p.n / 256 + 2) p.va pa p.n else .ok (mgets s.mem pa p.n)
  | t, _ => .ok (mgets s.mem t.loc p.n)

/-- The bytes of a planned request, or its fault. -/
def readPieces (s : State) (r : Req) : List Piece → Except Stop (List Byte)
  | [] => .ok []
  | p :: ps =>
    match readPiece s p with
    | .error (c, d) => .error (.flt (r.fault r.va c 7 (p.ptFor c) d))
    | .ok bs =>
      match readPieces s r ps with
      | .error e => .error e
      | .ok cs => .ok (bs ++ cs)

/-! ## What a write disturbs -/

/-- The 64-byte lines of a range. -/
def linesOf (a n : Nat) : List Nat :=
  (List.range ((a + n - 1) / 64 + 1 - a / 64)).map fun i => a / 64 + i

/-- The lines that a group has read or written. -/
def Group.touched (g : Group) : List Nat := g.lines ++ g.stores.flatMap (fun x => linesOf x.loc x.bytes.length)

/-- Abort a group that has not aborted. -/
def Group.abort (g : Group) (code detail idx : Nat) (ld : Bool) : Group :=
  if g.opened && g.code == 0 then { g with code := code, detail := detail, idx := idx, ld := ld } else g

/-- A trap, an interrupt or a pre-emption strikes: a group that has made an access aborts with TRAPPED (R140, R142). -/
def Group.struck (g : Group) : Group := if g.count != 0 || !g.lines.isEmpty then g.abort 5 0 0 false else g

/-- One hart after another agent's write to some lines: its reservation is lost and its group aborts with
CONFLICT (R140, R144). -/
def Hart.disturb (h : Hart) (ls : List Nat) : Hart :=
  { h with
    resv := match h.resv with | some l => if ls.contains l then none else some l | none => none
    group := if h.group.touched.any (fun l => ls.contains l) then h.group.abort 1 0 0 false else h.group }

/-- Every hart but the writer after a write of `n` bytes at location `a`. -/
def disturbHarts (who : Who) (a n : Nat) : Tbl Hart → Tbl Hart
  | [] => []
  | (k, h) :: t => (k, if who == .hart k then h else h.disturb (linesOf a n)) :: disturbHarts who a n t

/-- The state after `n` bytes at location `a` were written by `who`: reservations, groups, and errors that
the new bytes replace. -/
def State.wrote (s : State) (who : Who) (a n : Nat) : State :=
  { s with harts := disturbHarts who a n s.harts, ue := ueLeft s.ue a (a + n) }

/-- Bytes written at a location. -/
def State.putLoc (s : State) (who : Who) (a : Nat) (bs : List Byte) : State :=
  { s with mem := msets s.mem a bs }.wrote who a bs.length

/-- Where reservations and groups name the byte at `va` of a page (R140, R144): its physical address; for a packed block, whose
256 bytes stand in a home of 128, a location of the logical block's own. -/
def Leaf.key (l : Leaf) (va pa : Nat) : Nat :=
  if l.xf && ptePacked l.w0 then packLoc (blockLoc l va pa).pa + va % 256 else pa

/-- The same for the first byte of a piece. -/
def Piece.key (p : Piece) : Nat :=
  match p.tgt, p.leaf with
  | .hbm pa, some l => l.key p.va pa
  | t, _ => t.loc

/-- Every hart but the writer after a write of `n` bytes of a transformed page, block by block. -/
def State.wroteXf (s : State) (who : Who) (l : Leaf) : Nat → Nat → Nat → Nat → State
  | 0, _, _, _ => s
  | k + 1, va, pa, n =>
    if n == 0 then s
    else
      let c := min n (256 - va % 256)
      { s with harts := disturbHarts who (l.key va pa) c s.harts }.wroteXf who l k (va + c) (pa + c) (n - c)

/-- One piece written. -/
def writePiece (s : State) (who : Who) (p : Piece) (bs : List Byte) : Except (Cause × Nat) State :=
  match p.tgt, p.leaf with
  | .hbm pa, some l =>
    if l.xf then
      match writeXf l (p.n / 256 + 2) s p.va pa bs with
      | .error e => .error e
      | .ok s => .ok (s.wroteXf who l (p.n / 256 + 2) p.va pa bs.length)
    else .ok (s.putLoc who pa bs)
  | t, _ => .ok (s.putLoc who t.loc bs)

/-- A planned request written, or its fault; a fault leaves every byte as it was (R42). -/
def writePieces (r : Req) : State → List Piece → List Byte → Except Stop State
  | s, [], _ => .ok s
  | s, p :: ps, bs =>
    match writePiece s r.ag.who p (bs.take p.n) with
    | .error (c, d) => .error (.flt (r.fault r.va c 7 (p.ptFor c) d))
    | .ok s => writePieces r s ps (bs.drop p.n)

/-- Read a request. -/
def memRead (s : State) (r : Req) (ty : Nat → Nat → Bool) : Except Stop (List Byte) :=
  match plan s r ty with
  | .error e => .error e
  | .ok ps => readPieces s r ps

/-- Write a request. -/
def memWrite (s : State) (r : Req) (ty : Nat → Nat → Bool) (bs : List Byte) : Except Stop State :=
  match plan s r ty with
  | .error e => .error e
  | .ok ps => writePieces r s ps bs

/-- Format and geometry of the page that holds the first byte of a request. -/
def pageFmt (s : State) (r : Req) : Except Stop (Nat × Nat) :=
  match plan s { r with perm := false } anyFmt with
  | .error e => .error e
  | .ok ps => .ok (match ps with | p :: _ => (p.fmt, p.geo) | [] => (0, 0))

/-! ## Requests of several spans (R42, R81, R305) -/

/-- Some bytes of one 256-byte-aligned piece: address and length of each span. -/
abbrev Spans := List (Nat × Nat)

/-- The lowest address of the spans, with its length. -/
def lowSpan : Spans → Nat × Nat
  | [] => (0, 0)
  | [x] => x
  | x :: xs => let y := lowSpan xs; if x.1 ≤ y.1 then x else y

/-- The request of spans that lie in one 256-byte piece: it is checked at its lowest byte. -/
def spanPlan (s : State) (ag : Agent) (acc : Acc) (sp : Spans) (ty : Nat → Nat → Bool) : Except Stop (Req × List Piece) :=
  let (lo, n) := lowSpan sp
  let r : Req := ⟨ag, acc, lo, n, false, true⟩
  match plan s r ty with
  | .error e => .error e
  | .ok ps => .ok (r, ps)

/-- The address and leaf of a piece of a transformed page. -/
def xfOf (p : Piece) : Option (Nat × Leaf) :=
  match p.tgt, p.leaf with
  | .hbm pa, some l => if l.xf then some (pa, l) else none
  | _, _ => none

/-- The bytes of each span, in the order given; the spans lie in one 256-byte piece. -/
def spanRead (s : State) (ag : Agent) (acc : Acc) (sp : Spans) (ty : Nat → Nat → Bool) : Except Stop (List (List Byte)) :=
  match spanPlan s ag acc sp ty with
  | .error e => .error e
  | .ok (_, []) => .ok (sp.map fun _ => [])
  | .ok (r, p :: _) =>
    match xfOf p with
    | some (pa, l) =>
      match readBlock s l (blockLoc l p.va pa) with
      | .error (c, d) => .error (.flt (r.fault r.va c 7 (p.ptFor c) d))
      | .ok y => .ok (sp.map fun x => (y.drop (x.1 % 256)).take x.2)
    | none =>
      let loc (x : Nat × Nat) : Nat := p.tgt.loc + (x.1 - p.va)
      match sp.find? (fun x => ueIn s.ue (loc x) x.2) with
      | some x => .error (.flt (r.fault r.va .memUe 7 0 (ueAt s.ue (loc x) x.2)))
      | none => .ok (sp.map fun x => mgets s.mem (loc x) x.2)

/-- Spans of one 256-byte piece written at once, in the order given: a later span wins. -/
def spanWrite (s : State) (ag : Agent) (acc : Acc) (ws : List (Nat × List Byte)) (ty : Nat → Nat → Bool) : Except Stop State :=
  match spanPlan s ag acc (ws.map fun w => (w.1, w.2.length)) ty with
  | .error e => .error e
  | .ok (_, []) => .ok s
  | .ok (r, p :: _) =>
    match xfOf p with
    | some (pa, l) =>
      let b := blockLoc l p.va pa
      match readBlock s l b with
      | .error (c, d) => .error (.flt (r.fault r.va c 7 (p.ptFor c) d))
      | .ok y =>
        match storeBlock s l b (ws.foldl (fun y w => splice y (w.1 % 256) w.2) y) with
        | .error (c, d) => .error (.flt (r.fault r.va c 7 (p.ptFor c) d))
        | .ok s => .ok (ws.foldl (fun s w => s.wroteXf ag.who l 2 w.1 (pa + (w.1 - p.va)) w.2.length) s)
    | none => .ok (ws.foldl (fun s w => s.putLoc ag.who (p.tgt.loc + (w.1 - p.va)) w.2) s)

/-- Items put into one run for each 256-byte piece, in the order in which the pieces are first touched, order kept within a run
(R81); `key` is an item's address. -/
def pieceRuns {α : Type} (key : α → Nat) : List α → List (List α)
  | [] => []
  | x :: xs =>
    let gs := pieceRuns key xs
    let same (g : List α) : Bool := match g with | y :: _ => key x / 256 == key y / 256 | [] => true
    (x :: (gs.filter same).flatten) :: gs.filter fun g => !same g

/-- The slices that the runs of a row or vector access reach, in order; none when a run has a fault that R56 puts before
SLICE_CROSS. -/
def runSlices (s : State) (ag : Agent) (acc : Acc) (ty : Nat → Nat → Bool) : List Spans → Except Stop (Option (List Nat))
  | [] => .ok (some [])
  | r :: rs =>
    match planPages s ⟨ag, acc, (lowSpan r).1, (lowSpan r).2, false, true⟩ ty with
    | .error (.miss w k v) => .error (.miss w k v)
    | .error (.flt _) => .ok none
    | .ok ps =>
      let here := ps.filterMap fun p => match p.tgt with | .slice n _ => some n | _ => none
      (runSlices s ag acc ty rs).map fun x => x.map fun l => here ++ l

/-- A row or vector access lies within one slice (R20): SLICE_CROSS at its lowest address `lo` when its runs reach two, before any
cause that a slice finds (R56 step 9). -/
def runsCross (s : State) (ag : Agent) (acc : Acc) (ty : Nat → Nat → Bool) (lo : Nat) (rs : List Spans) : Option Stop :=
  match runSlices s ag acc ty rs with
  | .error e => some e
  | .ok (some (n :: l)) => if l.all (· == n) then none else some ((⟨ag, acc, lo, 1, false, true⟩ : Req).stop .sliceCross)
  | .ok _ => none

/-! ## Misses (R46, R47) -/

/-- An agent joined to the miss that waits or is being walked for the same page of the same context. -/
def addMiss (who : Who) (ctx vpn : Nat) : List Miss → Option (List Miss)
  | [] => none
  | m :: ms =>
    if m.ctx == ctx && m.vpn == vpn then
      some ((if m.who.contains who then m else { m with who := m.who ++ [who] }) :: ms)
    else (addMiss who ctx vpn ms).map (m :: ·)

/-- The die whose walkers serve an agent: that of its core; 2 is the hub (R46). -/
def Who.die (w : Who) : Nat := if w.cache < 192 then w.cache / 96 else if w.cache < 204 then (w.cache - 200) / 2 else 2

/-- Entries dropped from a list: the one at place `i` among those of cache `c`. -/
def dropOf (c : Nat) : Nat → List TlbEntry → List TlbEntry
  | _, [] => []
  | i, e :: es =>
    if e.cache == c then (match i with | 0 => es | i + 1 => e :: dropOf c i es) else e :: dropOf c i es

/-- A leaf enters a cache; a full cache loses an entry that a free value names (R46, log 17). -/
def State.fillTlb (s : State) (c ctx vpn : Nat) (l : Leaf) : State :=
  if (tlbFind c s.tlb ctx vpn).isSome then s
  else if (s.tlb.filter fun e => e.cache == c).length < cacheSize c then { s with tlb := ⟨c, ctx, vpn, l⟩ :: s.tlb }
  else
    let (r, s) := s.draw
    { s with tlb := ⟨c, ctx, vpn, l⟩ :: dropOf c (r.toNat % cacheSize c) s.tlb }

/-- A leaf enters the caches of an agent that missed: its own, and its quadrant's behind a core's (R46, R47). -/
def State.fillFor (s : State) (ctx vpn : Nat) (l : Leaf) (who : Who) : State :=
  let s := if who.cache < 192 then s.fillTlb (192 + quadOf who.cache) ctx vpn l else s
  s.fillTlb who.cache ctx vpn l

/-- Misses that wait or are being walked for agents that `p` accepts (R46). -/
def State.missesOf (s : State) (p : Who → Bool) : Nat := ((s.walks ++ s.missq).filter fun m => m.who.any p).length

/-- The limits of R46 leave an agent room for another miss: 16 for each agent of a core's TLB and 64 for the core TLBs of a
quadrant together; 64 for each agent of the FI and hub TLBs (log 17). -/
def State.missRoom (s : State) (who : Who) : Bool :=
  if who.cache < 192 then
    s.missesOf (· == who) < 16 && s.missesOf (fun w => w.cache < 192 && quadOf w.cache == quadOf who.cache) < 64
  else s.missesOf (· == who) < 64

/-- The state after a requester's miss: its core's TLB takes the leaf from the quadrant's; or it waits for a walk, its own or one
for the same page. At a limit, or with its die's queue full, it only waits (R46, R47). -/
def State.missed (s : State) (who : Who) (ctx vpn : Nat) : State :=
  match (if who.cache < 192 then tlbFind (192 + quadOf who.cache) s.tlb ctx vpn else none) with
  | some l => s.fillTlb who.cache ctx vpn l
  | none =>
    if !s.missRoom who then s
    else
      match addMiss who ctx vpn s.walks with
      | some ws => { s with walks := ws }
      | none =>
        match addMiss who ctx vpn s.missq with
        | some q => { s with missq := q }
        | none =>
          if (s.missq.filter fun m => m.die == who.die).length < (if who.die == 2 then 128 else 512) then
            { s with missq := s.missq ++ [⟨who.die, ctx, vpn, [who]⟩] }
          else s

/-- Who acts and the number of its operation: an engine's word by its push order, an operation of the hub die's by its own. -/
def State.opKey (s : State) : Who × Nat :=
  (s.cur.who, match s.cur.who with | .engine _ _ => s.cur.ent.seq | _ => s.owlOp.key)

/-- The state in which operation `k` of the hub die's is made. -/
def State.operation (s : State) (k : Nat) : State := { s with owlOp := { s.owlOp with key := k } }

/-- An operation of an agent has ended: the walk faults that it has taken are forgotten (R48), after an event of the part those of
the hub's agents, and with them what Owl kept of it (R183). -/
def State.tookWalk (s : State) (who : Who) : State :=
  { s with
    walkFault := s.walkFault.filter fun w => w.who != who && !(who == .part && w.who.hub)
    owlOp := { OwlOp.none with held := s.owlOp.held.filter fun p => p.1 != s.opKey } }

/-- What the part counts when it reports a fault: COMPRESS_FULL (R119). -/
def State.noted (s : State) (f : MemFault) : State :=
  if f.cause == .compressFull then
    let d := dieOf s f.detail
    (s.ror (0x01300020 + d * 0x1000000) 2).radd (0x01300028 + d * 0x1000000) 1
  else s

end Sys2Proof.Machine
end

