-- ==== Sys2Proof/Machine/Num.lean ====
section
/-! DEFINITION. The number formats, rounding, conversions and exact arithmetic of chapter 04
(R82 to R100), and the special functions of R289. -/

namespace Sys2Proof.Machine

/-! ## Values -/

/-- A value of a floating-point format: (-1)^neg * m * 2^e. Integers are values too. -/
inductive Fv where
  | nan
  | inf (neg : Bool)
  | fin (neg : Bool) (m : Nat) (e : Int)
  deriving DecidableEq, Repr, Inhabited

/-- A floating-point format of R82. -/
structure Fmt where
  w    : Nat      -- bits
  mb   : Nat      -- bits of M
  bias : Nat
  e4m3 : Bool
  deriving DecidableEq, Repr, Inhabited

def fmtF32 : Fmt := ⟨32, 23, 127, false⟩
def fmtF16 : Fmt := ⟨16, 10, 15, false⟩
def fmtBf16 : Fmt := ⟨16, 7, 127, false⟩
def fmtE4m3 : Fmt := ⟨8, 3, 7, true⟩
def fmtE5m2 : Fmt := ⟨8, 2, 15, false⟩

/-- Width of the exponent field. -/
def Fmt.eb (f : Fmt) : Nat := f.w - 1 - f.mb
/-- The all-ones exponent field. -/
def Fmt.eMax (f : Fmt) : Nat := 2 ^ f.eb - 1
/-- Exponent of the least significant bit of a subnormal. -/
def Fmt.qMin (f : Fmt) : Int := 1 - (f.bias : Int) - f.mb
/-- The canonical NaN (R82). -/
def Fmt.nan (f : Fmt) : Nat := if f.e4m3 then 0x7F else f.eMax * 2 ^ f.mb + 2 ^ (f.mb - 1)
/-- The sign bit. -/
def Fmt.sb (f : Fmt) (neg : Bool) : Nat := if neg then 2 ^ (f.w - 1) else 0
/-- The largest finite value, sign bit clear. -/
def Fmt.maxFin (f : Fmt) : Nat := if f.e4m3 then 0x7E else f.eMax * 2 ^ f.mb - 1
/-- The infinity, or the largest finite value of E4M3, which has none (R91). -/
def Fmt.infBits (f : Fmt) (neg : Bool) : Nat := f.sb neg + if f.e4m3 then 0x7E else f.eMax * 2 ^ f.mb

/-- The value of an element (R82). -/
def Fmt.dec (f : Fmt) (x : Nat) : Fv :=
  let neg := x.testBit (f.w - 1)
  let ex := bits x (f.w - 2) f.mb
  let m := x % 2 ^ f.mb
  if f.e4m3 && ex == f.eMax && m == 7 then .nan
  else if !f.e4m3 && ex == f.eMax then (if m == 0 then .inf neg else .nan)
  else if ex == 0 then .fin neg m f.qMin
  else .fin neg (2 ^ f.mb + m) (ex - f.bias - f.mb)

/-- Number of significant bits of a natural number. -/
def bitLen (n : Nat) : Nat := if n = 0 then 0 else n.log2 + 1

/-- Round m * 2^e, plus a positive part below 2^e when `sticky`, to a multiple of 2^q under `rm`:
the multiple and whether it is inexact. -/
def quantize (rm : Rm) (neg : Bool) (m : Nat) (e q : Int) (sticky : Bool) : Nat × Bool :=
  let d := q - e
  let (n, r, h) := if d ≤ 0 then (m * 2 ^ d.natAbs, 0, 1) else (m >>> d.natAbs, m % 2 ^ d.natAbs, 2 ^ (d.natAbs - 1))
  let inexact := sticky || r != 0
  let up := match rm with
    | .rne => d > 0 && (r > h || (r == h && (sticky || n % 2 == 1)))
    | .rtz => false
    | .rdn => neg && inexact
    | .rup => !neg && inexact
  (if up then n + 1 else n, inexact)

/-- Encode n * 2^q exactly; the value is representable. -/
def Fmt.enc (f : Fmt) (neg : Bool) (n : Nat) (q : Int) : Nat :=
  if n = 0 then f.sb neg
  else
    let e := (bitLen n : Int) - 1 + q
    if e < 1 - (f.bias : Int) then f.sb neg + (quantize .rtz neg n q f.qMin false).1
    else
      let s := (quantize .rtz neg n q (e - f.mb) false).1
      f.sb neg + (e + f.bias).toNat * 2 ^ f.mb + (s - 2 ^ f.mb)

/-- The outcome of an overflow (R91). -/
def Fmt.overflow (f : Fmt) (rm : Rm) (neg : Bool) : Nat :=
  let toInf := match rm with | .rne => true | .rtz => false | .rdn => neg | .rup => !neg
  if toInf then f.infBits neg else f.sb neg + f.maxFin

/-- Whether n * 2^q exceeds the largest finite value. -/
def Fmt.beyond (f : Fmt) (n : Nat) (q : Int) : Bool :=
  match f.dec f.maxFin with
  | .fin _ m e => if q < e then n > m * 2 ^ (e - q).natAbs else n * 2 ^ (q - e).natAbs > m
  | _ => false

/-- round(x, F, rm) of R94 for x = m * 2^e with a positive part below 2^e when `sticky` (R91). A
sticky value must come with more bits than the format keeps. -/
def Fmt.roundMag (f : Fmt) (rm : Rm) (ftz neg : Bool) (m : Nat) (e : Int) (sticky : Bool) : Nat × Flags :=
  if m = 0 then (f.sb neg, fNone)
  else
    let ex := (bitLen m : Int) - 1 + e
    let q := ex - f.mb
    let (n, inx) := quantize rm neg m e q sticky
    let e2 := (bitLen n : Int) - 1 + q
    if f.beyond n q then (f.overflow rm neg, fOF ||| fNX)
    else if e2 < 1 - (f.bias : Int) then
      if ftz then (f.sb neg, fUF ||| fNX)
      else
        let (n2, inx2) := quantize rm neg m e f.qMin sticky
        (f.enc neg n2 f.qMin, fIf inx2 (fUF ||| fNX))
    else (f.enc neg n q, fIf inx fNX)

/-- round(x, F, rm) of R94 for any value. -/
def Fmt.round (f : Fmt) (rm : Rm) (ftz : Bool) : Fv → Nat × Flags
  | .nan => (f.nan, fNone)
  | .inf neg => (f.infBits neg, fIf f.e4m3 (fOF ||| fNX))
  | .fin neg m e => f.roundMag rm ftz neg m e false

/-- round of the quotient num / den * 2^e, den not zero. -/
def Fmt.roundQuot (f : Fmt) (rm : Rm) (ftz neg : Bool) (num den : Nat) (e : Int) : Nat × Flags :=
  let k := bitLen den + 64
  let n := num * 2 ^ k
  f.roundMag rm ftz neg (n / den) (e - k) (n % den != 0)

/-- rint of R94. -/
def rint (rm : Rm) (neg : Bool) (m : Nat) (e : Int) : Int × Bool :=
  let (n, inx) := quantize rm neg m e 0 false
  (if neg then -(n : Int) else n, inx)

/-! ## Exact dyadic numbers -/

/-- The exact number m * 2^e. -/
structure Dy where
  m : Int
  e : Int
  deriving DecidableEq, Repr, Inhabited

def Dy.zero : Dy := ⟨0, 0⟩
def Dy.add (x y : Dy) : Dy :=
  if x.e ≤ y.e then ⟨x.m + y.m * 2 ^ (y.e - x.e).natAbs, x.e⟩
  else ⟨x.m * 2 ^ (x.e - y.e).natAbs + y.m, y.e⟩
def Dy.neg (x : Dy) : Dy := ⟨-x.m, x.e⟩
def Dy.sub (x y : Dy) : Dy := x.add y.neg
def Dy.mul (x y : Dy) : Dy := ⟨x.m * y.m, x.e + y.e⟩
def Dy.abs (x : Dy) : Dy := ⟨x.m.natAbs, x.e⟩
/-- Three-way comparison by the sign of the difference. -/
def Dy.lt (x y : Dy) : Bool := (x.sub y).m < 0
def Dy.le (x y : Dy) : Bool := (x.sub y).m ≤ 0
/-- The exact sum of a list. -/
def dySum : List Dy → Dy
  | [] => Dy.zero
  | x :: xs => x.add (dySum xs)
/-- A finite value as an exact number. -/
def Fv.dy : Fv → Dy
  | .fin neg m e => ⟨if neg then -(m : Int) else m, e⟩
  | _ => Dy.zero
/-- An exact number as a value; zero takes the sign given. -/
def Dy.fv (x : Dy) (zeroNeg : Bool) : Fv :=
  if x.m = 0 then .fin zeroNeg 0 0 else .fin (x.m < 0) x.m.natAbs x.e

def Fv.isNan : Fv → Bool | .nan => true | _ => false
def Fv.isInf : Fv → Bool | .inf _ => true | _ => false
def Fv.isZero : Fv → Bool | .fin _ m _ => m == 0 | _ => false
def Fv.isNeg : Fv → Bool | .nan => false | .inf n => n | .fin n _ _ => n
def Fv.isFin : Fv → Bool | .fin _ _ _ => true | _ => false
def Fv.neg : Fv → Fv | .nan => .nan | .inf n => .inf (!n) | .fin n m e => .fin (!n) m e
def Fv.ofInt (i : Int) : Fv := .fin (i < 0) i.natAbs 0

/-- DAZ: a subnormal operand reads as zero of its sign (R92). -/
def Fmt.daz (f : Fmt) (on : Bool) (v : Fv) : Fv :=
  match v with
  | .fin n m e => if on && e == f.qMin && m < 2 ^ f.mb then .fin n 0 e else v
  | _ => v

/-- Exact addition with the special cases of R91 and R289. -/
def fvAdd (rm : Rm) (a b : Fv) : Fv × Flags :=
  match a, b with
  | .nan, _ => (.nan, fNone)
  | _, .nan => (.nan, fNone)
  | .inf x, .inf y => if x == y then (.inf x, fNone) else (.nan, fNV)
  | .inf x, _ => (.inf x, fNone)
  | _, .inf y => (.inf y, fNone)
  | .fin n1 m1 e1, .fin n2 m2 e2 =>
    let s := (Fv.fin n1 m1 e1).dy.add (Fv.fin n2 m2 e2).dy
    let zneg := if m1 == 0 && m2 == 0 && n1 == n2 then n1 else rm == .rdn
    (s.fv zneg, fNone)

/-- Exact multiplication (R289). -/
def fvMul (a b : Fv) : Fv × Flags :=
  match a, b with
  | .nan, _ => (.nan, fNone)
  | _, .nan => (.nan, fNone)
  | .inf x, .inf y => (.inf (x != y), fNone)
  | .inf x, .fin y m _ => if m == 0 then (.nan, fNV) else (.inf (x != y), fNone)
  | .fin x m _, .inf y => if m == 0 then (.nan, fNV) else (.inf (x != y), fNone)
  | .fin n1 m1 e1, .fin n2 m2 e2 => (.fin (n1 != n2) (m1 * m2) (e1 + e2), fNone)

/-- a * b + c with one rounding to come; a NaN operand raises nothing (R83, R289). -/
def fvFma (rm : Rm) (a b c : Fv) : Fv × Flags :=
  if a.isNan || b.isNan || c.isNan then (.nan, fNone)
  else
    let (p, f1) := fvMul a b
    if p.isNan then (.nan, f1)
    else fvAdd rm p c

/-- IEEE less-than on values without NaN, with -0 equal to +0. -/
def fvLt (a b : Fv) : Bool :=
  match a, b with
  | .nan, _ => false
  | _, .nan => false
  | .inf x, .inf y => x && !y
  | .inf x, _ => x
  | _, .inf y => !y
  | a, b => a.dy.lt b.dy

/-- IEEE equality. -/
def fvEq (a b : Fv) : Bool :=
  match a, b with
  | .nan, _ => false
  | _, .nan => false
  | .inf x, .inf y => x == y
  | .inf _, _ => false
  | _, .inf _ => false
  | a, b => (a.dy.sub b.dy).m == 0

/-- fmax of R94: -0 orders below +0. -/
def fvMax (a b : Fv) : Fv :=
  if a.isNan || b.isNan then .nan
  else if fvLt a b then b
  else if fvLt b a then a
  else if a.isNeg then b else a

/-- fmin of R94. -/
def fvMin (a b : Fv) : Fv :=
  if a.isNan || b.isNan then .nan
  else if fvLt a b then a
  else if fvLt b a then b
  else if a.isNeg then a else b

/-- The larger of two elements of one format: no rounding (R289), but a tiny one is flushed when asked. -/
def Fmt.maxBits (f : Fmt) (daz ftz : Bool) (a b : Nat) : Nat :=
  let x := f.daz daz (f.dec a); let y := f.daz daz (f.dec b)
  (f.round .rne ftz (fvMax x y)).1

/-- The smaller one. -/
def Fmt.minBits (f : Fmt) (daz ftz : Bool) (a b : Nat) : Nat :=
  let x := f.daz daz (f.dec a); let y := f.daz daz (f.dec b)
  (f.round .rne ftz (fvMin x y)).1

/-! ## Formats of the register types -/

end Sys2Proof.Machine

namespace Sys2Proof
open Sys2Proof.Machine

def FpT.fmt : FpT → Fmt | .f32 => fmtF32 | .bf16 => fmtBf16 | .f16 => fmtF16
def FbT.fmt : FbT → Fmt | .f32 => fmtF32 | .bf16 => fmtBf16
def FpT.elem : FpT → ElemT | .f32 => .f32 | .bf16 => .bf16 | .f16 => .f16
def FbT.elem : FbT → ElemT | .f32 => .f32 | .bf16 => .bf16
def IntT.elem : IntT → ElemT | .i32 => .i32 | .i16 => .i16 | .i8 => .i8 | .u8 => .u8
def SigT.elem : SigT → ElemT
  | .f32 => .f32 | .f16 => .f16 | .bf16 => .bf16 | .e4m3 => .e4m3 | .e5m2 => .e5m2 | .i8 => .i8

/-- Bits of one element of a register type (R281). -/
def ElemT.w : ElemT → Nat
  | .f32 => 32 | .f16 => 16 | .bf16 => 16 | .e4m3 => 8 | .e5m2 => 8 | .i32 => 32 | .i16 => 16 | .i8 => 8 | .u8 => 8
/-- Bytes of one element. -/
def ElemT.bytes (t : ElemT) : Nat := t.w / 8
/-- Elements per lane (R240). -/
def ElemT.per (t : ElemT) : Nat := 32 / t.w

/-- The format of a floating type. -/
def ElemT.fmt? : ElemT → Option Fmt
  | .f32 => some fmtF32 | .f16 => some fmtF16 | .bf16 => some fmtBf16 | .e4m3 => some fmtE4m3 | .e5m2 => some fmtE5m2
  | _ => none

/-- The range of an integer type. -/
def ElemT.lo : ElemT → Int | .i32 => -2147483648 | .i16 => -32768 | .i8 => -128 | _ => 0
def ElemT.hi : ElemT → Int | .i32 => 2147483647 | .i16 => 32767 | .i8 => 127 | .u8 => 255 | _ => 0

/-- The integer that an element of an integer type holds. -/
def ElemT.int (t : ElemT) (x : Nat) : Int :=
  match t with
  | .u8 => (x % 256 : Nat)
  | t => sext x t.w

/-- The exact value of an element of any type. -/
def ElemT.val (t : ElemT) (x : Nat) : Fv :=
  match t.fmt? with
  | some f => f.dec x
  | none => Fv.ofInt (t.int x)

end Sys2Proof

namespace Sys2Proof.Machine

/-! ## Conversions (R95) -/

/-- Rule FI: a floating value into an integer range. -/
def toInt (rm : Rm) (lo hi : Int) : Fv → Int × Flags
  | .nan => (0, fNV)
  | .inf neg => (if neg then lo else hi, fNV)
  | .fin neg m e =>
    let (y, inx) := rint rm neg m e
    if y < lo then (lo, fNV) else if hi < y then (hi, fNV) else (y, fIf inx fNX)

/-- Rules FN, FS, IF, IS and X: a value into a floating format; E4M3 saturates from either infinity
and from beyond its range (FS). -/
def toFloat (rm : Rm) (ftz : Bool) (f : Fmt) (v : Fv) : Nat × Flags :=
  if f.e4m3 then
    match v with
    | .fin neg m e =>
      let (x, fl) := f.roundMag rm ftz neg m e false
      if fl &&& fOF != 0 then (f.sb neg + 0x7E, fl) else (x, fl)
    | v => f.round rm ftz v
  else f.round rm ftz v

/-- R95: one element of type `s` into type `d`. -/
def convElem (c : FpCtl) (s d : ElemT) (x : Nat) : Nat × Flags :=
  if s = d then (x % 2 ^ s.w, fNone)
  else
    match s.fmt?, d.fmt? with
    | some fs, some fd => toFloat c.rm c.ftz fd (fs.daz c.daz (fs.dec x))
    | some fs, none =>
      let (y, fl) := toInt c.rm d.lo d.hi (fs.daz c.daz (fs.dec x))
      (wrapW d.w y, fl)
    | none, some fd => toFloat c.rm c.ftz fd (Fv.ofInt (s.int x))
    | none, none =>
      let v := s.int x
      let y := sat v d.lo d.hi
      (wrapW d.w y, fIf (y != v) fSAT)

/-! ## Bit planes and block scales (R84 to R89) -/

/-- bpn_value of R94. -/
def bpnValue (t p : Nat) : Int :=
  if p = 8 then sext t 8 else sext t p * 2 ^ (8 - p) + 2 ^ (7 - p)

/-- e8_of of R94, for a finite magnitude. -/
def e8Of (m : Dy) : Nat :=
  if m.m = 0 then 0
  else
    let fits (e : Int) : Bool := m.le ⟨127, e⟩
    let e0 : Int := bitLen m.m.natAbs + m.e - 7
    let e := if fits (e0 - 1) then e0 - 1 else if fits e0 then e0 else e0 + 1
    (sat (e + 127) 0 254).toNat

/-- One element of R89 under scale code c: the code k and the flags; the NX of an inexact quotient is
reported for vbqnt (R299). -/
def quantElem (rm : Rm) (c : Nat) : Fv → Int × Flags
  | .nan => (-128, fNone)
  | .inf neg => (if neg then -127 else 127, fOVF)
  | .fin neg m e =>
    let (y, inx) := rint rm neg m (e - ((c : Int) - 127))
    (sat y (-127) 127, fIf (y < -127 || 127 < y) fOVF ||| fIf inx fNX)

/-- The larger magnitude of the finite values of a list; zero with none (R89). -/
def maxFinite : List Fv → Dy
  | [] => Dy.zero
  | v :: vs =>
    let r := maxFinite vs
    if v.isFin then (if r.lt v.dy.abs then v.dy.abs else r) else r

/-- R88: the value of element code k under scale code c. -/
def e8Value (c k : Nat) : Fv :=
  if c % 256 = 255 || k % 256 = 128 then .nan
  else
    let i := sext k 8
    .fin (i < 0) i.natAbs ((c % 256 : Nat) - 127)

/-! ## Matrix accumulation (R97 to R99) -/

/-- Whether a pair is a zero and an infinity. -/
def zeroInf (a b : Fv) : Bool := (a.isZero && b.isInf) || (a.isInf && b.isZero)

/-- chunk_sum of R97 over the pairs of one chunk; NV as R332 states for a chunk without a NaN element. -/
def chunkSum (ps : List (Fv × Fv)) : Fv × Flags :=
  if ps.any (fun p => p.1.isNan || p.2.isNan) then (.nan, fNone)
  else if ps.any (fun p => zeroInf p.1 p.2) then (.nan, fNV)
  else
    let pr := ps.map (fun p => (fvMul p.1 p.2).1)
    let pinf := pr.any (fun v => v == .inf false)
    let ninf := pr.any (fun v => v == .inf true)
    if pinf && ninf then (.nan, fNV)
    else if pinf then (.inf false, fNone)
    else if ninf then (.inf true, fNone)
    else if pr.all (fun v => v.isZero && v.isNeg) then (.fin true 0 0, fNone)
    else ((dySum (pr.map Fv.dy)).fv false, fNone)

/-- add_once of R97 into FP32 with the flags of R332: a NaN accumulator raises nothing. -/
def addOnce (acc : Nat) (s : Fv) (sf : Flags) : Nat × Flags :=
  let a := fmtF32.dec acc
  if a.isNan then (fmtF32.nan, fNone)
  else if s.isNan then (fmtF32.nan, sf)
  else
    let (r, f) := fvAdd .rne a s
    let (x, g) := fmtF32.round .rne false r
    (x, f ||| g)

/-- The accumulator update of R98: wrap32, or sat_i32 with SAT. -/
def addInt (satMode : Bool) (acc : Nat) (s : Int) : Nat × Flags :=
  let x := sext acc 32 + s
  if satMode then
    let y := sat x (-2147483648) 2147483647
    (wrapW 32 y, fIf (y != x) fSAT)
  else (wrapW 32 x, fNone)

/-! ## Correctly rounded special functions (R289) -/

/-- floor of the square root, bit by bit from bit `k` down. -/
def isqrtAux (n : Nat) : Nat → Nat → Nat
  | 0, r => if (r + 1) * (r + 1) ≤ n then r + 1 else r
  | k + 1, r =>
    let r2 := r + 2 ^ (k + 1)
    isqrtAux n k (if r2 * r2 ≤ n then r2 else r)

/-- floor of the square root. -/
def isqrt (n : Nat) : Nat := isqrtAux n (bitLen n / 2 + 1) 0

/-- vfrcp. -/
def fvRcp (f : Fmt) (c : FpCtl) (v : Fv) : Nat × Flags :=
  match v with
  | .nan => (f.nan, fNone)
  | .inf n => (f.sb n, fNone)
  | .fin n m e =>
    if m = 0 then (f.infBits n, fDZ) else f.roundQuot c.rm c.ftz n 1 m (-e)

/-- vfrsq. -/
def fvRsq (f : Fmt) (c : FpCtl) (v : Fv) : Nat × Flags :=
  match v with
  | .nan => (f.nan, fNone)
  | .inf n => if n then (f.nan, fNV) else (0, fNone)
  | .fin n m e =>
    if m = 0 then (f.infBits n, fDZ)
    else if n then (f.nan, fNV)
    else
      let (m, e) := if e % 2 = 0 then (m, e) else (2 * m, e - 1)
      let k := bitLen m + 64
      let q := 2 ^ (2 * k) / m
      let r := isqrt q
      f.roundMag c.rm c.ftz false r (-(e / 2) - k) (r * r * m != 2 ^ (2 * k))

/-- Working bits of the fixed-point brackets below. -/
def wBits : Nat := 256
/-- floor(ln 2 * 2^256). -/
def ln2Fix : Nat := 0xb17217f7d1cf79abc9e3b39803f2f6af40f343267298b62d8a0d175b8baafa2b
/-- Bound, in units of 2^-256, of the truncation errors of the two series. -/
def slack : Nat := 4096

/-- Lower sum of exp(t) = sum t^n / n! in fixed point, `n` counting up. -/
def expSeries (t : Nat) : Nat → Nat → Nat → Nat
  | 0, _, _ => 0
  | k + 1, n, term => term + expSeries t k (n + 1) (term * t / 2 ^ wBits / (n + 1))

/-- Lower value of 2^x in fixed point for x = r / 2^k in [0, 1). -/
def exp2Low (r k : Nat) : Nat :=
  expSeries (r * ln2Fix / 2 ^ k) 90 0 (2 ^ wBits)

/-- Lower sum of atanh z = sum z^(2k+1) / (2k+1) in fixed point. -/
def atanhSeries (z2 : Nat) : Nat → Nat → Nat → Nat
  | 0, _, _ => 0
  | k + 1, n, p => p / n + atanhSeries z2 k (n + 2) (p * z2 / 2 ^ wBits)

/-- Lower value of log2 x in fixed point for x = m / 2^k in [1, 2). -/
def log2Low (m k : Nat) : Nat :=
  let z := (m - 2 ^ k) * 2 ^ wBits / (m + 2 ^ k)
  2 * atanhSeries (z * z / 2 ^ wBits) 100 1 z * 2 ^ wBits / (ln2Fix + 1)

/-- Round a value known to lie strictly between lo and hi (units 2^e): both ends round alike, or the
opaque fallback of log 13 picks one. -/
def roundBetween (f : Fmt) (c : FpCtl) (neg : Bool) (lo hi : Nat) (e : Int) (op : Nat) (x : Nat) : Nat × Flags :=
  let a := f.roundMag c.rm c.ftz neg lo e true
  let b := f.roundMag c.rm c.ftz neg hi e true
  if a = b then a else if Config.transcendental op (BitVec.ofNat 32 x) then a else b

/-- vfexp2. -/
def fvExp2 (f : Fmt) (c : FpCtl) (v : Fv) (x : Nat) : Nat × Flags :=
  match v with
  | .nan => (f.nan, fNone)
  | .inf n => if n then (0, fNone) else (f.infBits false, fNone)
  | .fin n m e =>
    if m = 0 then f.roundMag c.rm c.ftz false 1 0 false
    else if (bitLen m : Int) + e > 10 then
      f.roundMag c.rm c.ftz false 1 (if n then -4096 else 4096) false
    else if e ≥ 0 then
      let i := m * 2 ^ e.natAbs
      f.roundMag c.rm c.ftz false 1 (if n then -(i : Int) else i) false
    else
      let k := e.natAbs
      let ip := (if n then -(m : Int) else m) / 2 ^ k
      let r := ((if n then -(m : Int) else m) % 2 ^ k).toNat
      if r = 0 then f.roundMag c.rm c.ftz false 1 ip false
      else
        let lo := exp2Low r k
        roundBetween f c false lo (lo + slack) (ip - wBits) 0 x

/-- vflog2. -/
def fvLog2 (f : Fmt) (c : FpCtl) (v : Fv) (x : Nat) : Nat × Flags :=
  match v with
  | .nan => (f.nan, fNone)
  | .inf n => if n then (f.nan, fNV) else (f.infBits false, fNone)
  | .fin n m e =>
    if m = 0 then (f.infBits true, fDZ)
    else if n then (f.nan, fNV)
    else
      let k := bitLen m - 1
      let ex : Int := k + e
      if m = 2 ^ k then f.roundMag c.rm c.ftz (ex < 0) ex.natAbs 0 false
      else
        let lo := (ex * 2 ^ wBits + log2Low m k : Int)
        let hi := lo + slack
        if lo ≥ 0 then roundBetween f c false lo.natAbs hi.natAbs (-wBits) 1 x
        else roundBetween f c true hi.natAbs lo.natAbs (-wBits) 1 x

end Sys2Proof.Machine
end

