-- ==== Sys2Proof/Machine/Ops.lean ====
section
/-! DEFINITION. The shared operations of harts and continuations: registers, records of faults, flags,
barriers, timelines, taking an exception and returning from one (R193 to R202, R263 to R268, R368 to
R380). -/

namespace Sys2Proof.Machine

/-- What a meaning answers. -/
abbrev Out := Host.Outcome State Fault Refusal

/-! ## Harts -/

/-- X(r): x0 reads as zero (R225). -/
def Hart.rx (h : Hart) (r : Reg) : Word := if r = 0 then 0 else h.x[r.toNat]'(by have := r.isLt; omega)

/-- X(r) := v; a write to x0 is discarded (R225). -/
def Hart.wx (h : Hart) (r : Reg) (v : Word) : Hart :=
  if r = 0 then h else { h with x := h.x.set r.toNat v (by have := r.isLt; omega) }

/-- The number of the acting hart. -/
def State.hn (s : State) : Nat := s.cur.hart
/-- The acting hart. -/
def State.me (s : State) : Hart := s.hart s.hn
/-- A hart of a core that runs continuations (R202). -/
def isHart0 (n : Nat) : Bool := n < 384 && n % 2 == 0
/-- The core of a core hart. -/
def coreOf (n : Nat) : Nat := n / 2

/-- The wait that is executed again, once an instruction has completed: one of S mode leaves it to the trapped run. -/
def Hart.onward (h : Hart) : Wait := if h.mode == .u then .none else h.again

/-- The acting hart completes an instruction of `len` bytes with its registers as in `h`. -/
def State.retire (s : State) (len : Nat) (h : Hart) : State :=
  (s.setHart s.hn { h with pc := h.pc + BitVec.ofNat 64 len, instret := h.instret + 1, stalled := false, again := h.onward }).tookWalk (.hart s.hn)

/-- The acting hart goes to `pc`, completing a control transfer. -/
def State.jump (s : State) (pc : Word) (h : Hart) : State :=
  (s.setHart s.hn { h with pc := pc, instret := h.instret + 1, stalled := false, again := h.onward }).tookWalk (.hart s.hn)

/-- The acting hart waits at its instruction: nothing else changes (R256). -/
def State.stall (s : State) : State := s.setHart s.hn { s.me with stalled := true }

/-- The acting hart waits for a walk. -/
def State.hartMiss (s : State) (who : Who) (ctx vpn : Nat) : State := (s.missed who ctx vpn).stall

/-- The spaces of R33. -/
def reachHart0 : Reach := ⟨true, true, true, false, true⟩
def reachHart1 : Reach := ⟨true, true, true, true, true⟩
def reachMgmt : Reach := ⟨true, true, false, true, true⟩

/-- A hart as a requester (R54, R33). -/
def hartAgent (s : State) (n : Nat) : Agent :=
  let h := s.hart n
  if n < 384 then
    ⟨.hart n, if n % 2 == 0 then 8 else 9, n / 2, h.mode, h.ctx, n / 2, if n % 2 == 0 then reachHart0 else reachHart1⟩
  else ⟨.hart n, 11, n - 384, h.mode, h.ctx, 0, reachMgmt⟩

/-! ## Records (R54, R348) -/

/-- The code of a cause (R55). -/
def Cause.code : Cause → Nat
  | .noncanon => 0x01 | .hole => 0x02 | .notMapped => 0x03 | .pteMalformed => 0x04 | .walkUe => 0x05
  | .paHole => 0x06 | .ilvMismatch => 0x07 | .tenant => 0x08 | .permU => 0x09 | .permR => 0x0A
  | .permW => 0x0B | .permX => 0x0C | .attrSplit => 0x0D | .priv => 0x0E | .regSize => 0x0F
  | .trigOwner => 0x10 | .sliceCross => 0x11 | .sliceOwner => 0x12 | .sliceRo => 0x13 | .unitFenced => 0x14
  | .peerRange => 0x15 | .peerAbsent => 0x16 | .hostAbort => 0x17 | .memUe => 0x18 | .gcmTag => 0x19
  | .keyInvalid => 0x1A | .compressFull => 0x1B | .misalign => 0x1C | .fmtType => 0x1D

/-- ACC (R54). -/
def Acc.code : Acc → Nat | .load => 0 | .store => 1 | .fetch => 2 | .atomic => 3 | .engRead => 4 | .engWrite => 5

/-- The 32-byte memory fault record. -/
def MemFault.bytes (f : MemFault) : List Byte :=
  leBytes 8 f.faddr ++ leBytes 1 f.cause.code ++ leBytes 1 (f.acc.code + f.level * 8 + b2n f.inflight * 64) ++
    leBytes 2 (f.agent + f.unit * 16) ++ leBytes 4 f.ctx ++ leBytes 8 f.pte ++ leBytes 8 f.detail

/-- The record of an optional fault; zeros when there is none. -/
def mfBytes : Option MemFault → List Byte
  | some f => f.bytes
  | none => List.replicate 32 0

/-- The 64-byte engine fault record (R348, R370). -/
def EngFault.bytes (f : EngFault) : List Byte :=
  leBytes 8 f.cmd ++ leBytes 1 f.eng ++ leBytes 1 f.ecode ++ leBytes 2 f.detail ++ leBytes 4 f.progress ++
    List.replicate 16 (0 : Byte) ++ mfBytes f.mfr

/-! ## Continuations -/

/-- Element `i` of a list of naturals, 0 beyond its end. -/
def nth (xs : List Nat) (i : Nat) : Nat := xs.getD i 0

/-- Field of the launch record copy. -/
def Launch.lctl (l : Launch) : Nat := leNat (l.bytes.take 8)
def Launch.lres (l : Launch) : Nat := leNat ((l.bytes.drop 16).take 8)
def Launch.nslab (l : Launch) : Nat := bits l.lres 27 18
def Launch.nacc (l : Launch) : Nat := bits l.lres 33 28
def Launch.gang (l : Launch) : Nat := bits l.lctl 31 27
def Launch.prio (l : Launch) : Nat := bits l.lctl 23 22
def Launch.lev (l : Launch) (k : Nat) : Nat := leNat ((l.bytes.drop (24 + 4 * k)).take 4)
/-- The release scope of exit: SCOPE_0 (R188). -/
def Launch.scope (l : Launch) : Nat := bits (l.lev 0) 5 3

/-- The launch `lid`. -/
def Launch.none : Launch where
  bytes := []
  ctx := 0
  stream := Option.none
  begun := false
  count := 0
  listAt := 0
  index0 := 0
  core := 0
  next := 0
  stopped := Option.none
  bound := 0
  retired := 0
  gone := 0
  first := Option.none
  comp := 0
  parent := Option.none
  depth := 0
  held := false
  async := false
  run := Option.none
  node := 0
  nj := 0
  finished := false
  orphan := false
  status := 0

def State.launch (s : State) (lid : Nat) : Launch := tget Launch.none s.launches lid
def State.setLaunch (s : State) (lid : Nat) (l : Launch) : State := { s with launches := tset s.launches lid l }

/-- A home core is owned by HOME, slice or accumulator storage, or gang membership (R195). -/
def Cont.homed (c : Cont) : Bool := c.home.isSome

/-- A command is in flight, or has faulted and was not restarted: PIN stays at a suspension point (R200). -/
def Cont.pinnedNow (c : Cont) : Bool := !c.outst.isEmpty

/-- TL_e (R132): the largest n such that every command numbered n or below has completed. -/
def Cont.tlOf (c : Cont) (e : Nat) : Nat :=
  match (c.outst.filter fun p => p.eng == e).map Cmd.num with
  | [] => nth c.pushed e
  | n :: ns => ns.foldl min n - 1

/-- The timelines brought up to date. -/
def Cont.upTl (c : Cont) : Cont := { c with tl := (List.range 6).map c.tlOf }

/-- The faulted command of an engine context (R137). -/
def Cont.faultOn (c : Cont) (e : Nat) : Option Live := (c.faulted.filter fun l => l.eng == e).head?

/-- The hart that runs a continuation now. -/
def State.runner (s : State) (cid : Nat) : Option Nat :=
  match (s.cont cid).core with
  | some c => if (s.hart (2 * c)).cont == some cid then some (2 * c) else none
  | none => none

/-- Flags of an operation of the continuation, raised in dfcsr: the hart's while it runs, where the handler that serves its frame
reads them too and tret finds them, and the carried block's while it does not run (R93). -/
def State.raise (s : State) (cid : Nat) (f : Flags) : State :=
  let c := s.cont cid
  match s.runner cid with
  | some h =>
    let ht := s.hart h
    let s := if ht.serving then s.setCont cid { c with flagsIn := c.flagsIn ||| f } else s
    s.setHart h { ht with dfcsr := dfcsrOr ht.dfcsr f }
  | none =>
    if c.frame.isSome then s.setCont cid { c with flagsIn := c.flagsIn ||| f }
    else s.setCont cid { c with dfcsr := dfcsrOr c.dfcsr f }

/-! ## Barriers (R263, R264) -/

/-- Barrier names of a continuation: 8 for each member of its gang; none without a home core. -/
def Cont.barNames (c : Cont) : Nat := if c.homed then 8 * max c.gang 1 else 0

/-- The resident slot of the gang member of ordinal `o` of a launch, `d` when it is not found. -/
def slotOfOrdinal (d lid o : Nat) : Tbl Cont → Nat
  | [] => d
  | (_, c) :: t => if c.lid == lid && c.ordinal == o then c.slot else slotOfOrdinal d lid o t

/-- The core and cell of barrier `h` of a continuation. -/
def State.cellOf (s : State) (cid h : Nat) : Nat × Nat :=
  let c := s.cont cid
  let g := max c.gang 1
  let base := c.ordinal / g * g
  (c.home.getD 0, 8 * slotOfOrdinal c.slot c.lid (base + h / 8) s.conts + h % 8)

def State.bar (s : State) (k : Nat × Nat) : Bar := tget ⟨1, 0, 0, 0⟩ (s.core k.1).bars k.2
def State.setBar (s : State) (k : Nat × Nat) (b : Bar) : State :=
  s.setCore k.1 { s.core k.1 with bars := tset (s.core k.1).bars k.2 b }

/-- The test of R264. -/
def Bar.test (b : Bar) : Bar :=
  if b.arr ≤ b.cnt && b.pend == 0 then { b with cnt := b.cnt - b.arr, ph := b.ph + 1 } else b

/-- An arrival that takes `bytes` off the pending-byte counter. -/
def Bar.arrive (b : Bar) (bytes : Nat) : Bar :=
  Bar.test { b with cnt := (b.cnt + 1) % 2 ^ 32, pend := b.pend - BitVec.ofNat 64 bytes }

/-- A contribution of the member: PH now, and that one was made (R264). -/
def Cont.contribute (c : Cont) (h ph : Nat) : Cont := { c with contrib := tset c.contrib h ⟨ph, true⟩ }

/-! ## Command completion (R133, R137) -/

/-- SIG of an engine word. -/
def sigOf (w : BitVec 64) : Nat := bits w.toNat 55 48
/-- WAIT of an engine word. -/
def waitOf (w : BitVec 64) : Nat := bits w.toNat 63 56

/-- A command of a continuation ends: it leaves the lists. -/
def Cont.drop (c : Cont) (e num : Nat) : Cont :=
  { c with
    outst := c.outst.filter fun p => !(p.eng == e && p.num == num)
    live := c.live.filter fun l => !(l.eng == e && l.ent.num == num) }.upTl

/-- The signal of a completed command (R133, R264, R270). -/
def State.signal (s : State) (cid sig tx : Nat) : State :=
  if 0x80 ≤ sig then
    let k := s.cellOf cid (sig - 0x80)
    s.setBar k ((s.bar k).arrive tx)
  else if 0x40 ≤ sig then
    let c := s.cont cid
    s.setCont cid { c with tags := c.tags ||| (1#64 <<< (sig - 0x40)) }
  else s

/-- The command completes. -/
def State.complete (s : State) (cid : Nat) (l : Live) : State :=
  (s.setCont cid ((s.cont cid).drop l.eng l.ent.num)).signal cid (sigOf l.ent.word) l.tx

/-- The live command `num` of engine `e`. -/
def Cont.liveOf (c : Cont) (e num : Nat) : Option Live :=
  (c.live.filter fun l => l.eng == e && l.ent.num == num).head?

/-- The conditions of WAIT (R232, R268, R133). -/
def State.waitHolds (s : State) (cid : Nat) (e : QEntry) : Bool :=
  let w := waitOf e.word
  let c := s.cont cid
  if 0x80 ≤ w then e.hbPh < (s.bar (s.cellOf cid (w - 0x80))).ph
  else if 0x40 ≤ w then c.tags.getLsbD (w - 0x40)
  else if 0x08 ≤ w then !c.outst.any (fun p => p.eng == w - 8 && p.seq < e.seq)
  else true

/-- A command writes memory when it is whole, so that its arrival takes bytes off PEND (R264, R349). -/
def Live.moves (l : Live) : Bool := l.eng == 0 || l.eng == 2 || l.eng == 3

/-- The faulted commands of a continuation that signal barrier `h`, when their arrivals would complete its phase: with them CNT
reaches ARR, and PEND is zero or holds what one of them had to write (R137; log 87). -/
def State.barFaults (s : State) (cid h : Nat) : List Live :=
  let b := s.bar (s.cellOf cid h)
  let fs := (s.cont cid).faulted.filter fun l => sigOf l.ent.word == 0x80 + h
  if b.arr ≤ b.cnt + fs.length && (b.pend == 0 || fs.any Live.moves) then fs else []

/-! ## Ending a continuation's work (R207, R378) -/

/-- A queue without the words of a continuation that have not started. -/
def dropWords (cid : Nat) (q : List QItem) : List QItem :=
  q.filter fun i => match i with | .word e => e.cid != cid | .settle _ => true

/-- A vector run with nothing left to issue or to land. -/
def VRun.halt (v : VRun) : VRun := { v with fly := [], loop := none, fq := [], idle := 0 }

/-- The vector results of a continuation discarded, in every run of it. -/
def haltRuns (cid : Nat) : Tbl VRun → Tbl VRun
  | [] => []
  | (k, v) :: t => (k, if v.cid == cid then v.halt else v) :: haltRuns cid t

/-- The hart that runs a continuation is freed: it goes back to U mode with no continuation. -/
def State.freeHart (s : State) (cid : Nat) : State :=
  match s.runner cid with
  | some h =>
    let ht := s.hart h
    s.setHart h { ht with cont := none, serving := false, mode := .u, stalled := false, group := Group.none,
                          markers := [], loopLeft := 0, fqOpen := [], resv := none, sc0 := 0, sc1 := 0, again := .none }
  | none => s

/-- A child launch that waits for a timeline of an abandoned parent binds nothing and ends with the parent's
fault (R260). -/
def orphans (cid : Nat) (tl : List Nat) (f : Option MemFault) : Tbl Launch → Tbl Launch
  | [] => []
  | (k, l) :: t =>
    (k, match l.parent with
      | some (p, e, n) =>
        if p == cid && nth tl e < n && !l.finished then { l with orphan := true, begun := true, count := l.next, stopped := f } else l
      | none => l) :: orphans cid tl f t

/-- The engines of core `n` forget the faults of walks that no command has taken: their next accesses walk again (R48). -/
def State.forgetWalks (s : State) (n : Nat) : State :=
  { s with walkFault := s.walkFault.filter fun w => match w.who with | .engine c _ => c != n | _ => true }

/-- The queues of core `n` without the words of a continuation that have not started; a sig.bred in progress goes on, unless the core
is out of service. -/
def State.dropQueues (s : State) (n cid : Nat) : List (List QItem) :=
  let qs := (s.core n).queues
  if (s.cont cid).bred.isSome && s.coreOk n then
    (qs.map (dropWords cid)).set 4 ((qs.getD 4 []).take 1 ++ dropWords cid ((qs.getD 4 []).drop 1))
  else qs.map (dropWords cid)

/-- One continuation abandoned: its unstarted words and vector results are discarded, and it ends once the
commands of C, G, S and X that had started have ended (R378). -/
def State.abandonOne (s : State) (cid : Nat) (f : Option MemFault) : State :=
  let c := s.cont cid
  let s := s.freeHart cid
  let s := match c.core with
    | some n => (s.setCore n { s.core n with queues := s.dropQueues n cid, preempt := .none }).forgetWalks n
    | none => s
  let keep (l : Live) : Bool := l.eng != 0 && l.eng != 1 && l.fault.isNone
  let lv := c.live.filter keep
  let s := { s with runs := haltRuns cid s.runs }
  let s := { s with launches := orphans cid c.tl f s.launches }
  s.setCont cid { c with
    stat := .faulted, wait := .none, ending := true, frame := none
    bred := if c.core.any s.coreOk then c.bred else none
    abandon := match c.abandon with | some g => some g | none => f
    live := lv, faulted := [] }

/-- A continuation that has not ended and was not abandoned. -/
def Cont.alive (c : Cont) : Bool := c.stat != .retired && c.stat != .faulted

/-- The other members of a gang (R207). -/
def gangOf (c : Cont) : Tbl Cont → List Nat
  | [] => []
  | (k, d) :: t =>
    if d.lid == c.lid && 2 ≤ c.gang && d.ordinal / c.gang == c.ordinal / c.gang && d.alive
    then k :: gangOf c t else gangOf c t

/-- The continuation abandoned with the fault that its completion reports, and with it its gang. -/
def State.abandonCont (s : State) (cid : Nat) (f : Option MemFault) : State :=
  let c := s.cont cid
  (gangOf c s.conts).foldl (fun s k => if k == cid then s else s.abandonOne k f) (s.abandonOne cid f)

/-! ## Vector results in flight (R244 to R246, R282, R374) -/

/-- Lane by lane: `d` where the mask is set, else `o`. -/
def mergeLanes (mask : BitVec 128) (d o : Vec) : Vec :=
  (List.range 128).map fun l => if mask.getLsbD l then d.getD l 0 else o.getD l 0

/-- A predicate as a vector of 0 and 1. -/
def predVec (p : BitVec 128) : Vec := (List.range 128).map fun l => if p.getLsbD l then 1 else 0

/-- The predicate that a vector of 0 and 1 holds. -/
def predOf : Vec → BitVec 128 := fun v => BitVec.ofNat 128 (v.zipIdx.foldl (fun a x => a + (x.1.toNat % 2) * 2 ^ x.2) 0)

/-- Latch `i`; zero since the last clearing (R246). -/
def VRun.latchOf (v : VRun) (i : Nat) : Vec := v.latch.getD i vzero

/-- Latch `i` set, when there is one. -/
def VRun.setLatch (v : VRun) (i : Option Nat) (d : Vec) : VRun :=
  match i with
  | some k => { v with latch := ((List.range 4).map v.latchOf).set k d }
  | none => v

/-- The lanes that a result writes. -/
def Res.lanes (r : Res) : BitVec 128 := if r.full then BitVec.allOnes 128 else r.mask

/-- One result lands in its destination and latch (R245, R246, R282). -/
def VRun.land (v : VRun) (r : Res) : VRun :=
  let v := { v with fly := v.fly.erase r }
  match r.dest with
  | .reg o =>
    let d := mergeLanes r.lanes r.data (lanesAt v.rs o 128)
    { v with rs := msets v.rs o (lanesBytes d) }.setLatch r.pipe d
  | .latchOnly => v.setLatch r.pipe (mergeLanes r.lanes r.data vzero)
  | .pred k => { v with pred := tset v.pred k (predOf r.data) }
  | .mbox => { v with mbox := v.mbox ++ [r.value] }

/-- The result that lands next among those due by cycle `c`: the earliest due, the first issued of them. -/
def earliest (c : Nat) : List Res → Option Res
  | [] => none
  | r :: rs =>
    match earliest c rs with
    | none => if r.due ≤ c then some r else none
    | some q => if r.due ≤ q.due then some r else some q

/-- A result of command `num` of the V context has landed: one fewer is to come. -/
def Cont.landed (c : Cont) (num : Nat) : Cont :=
  { c with live := c.live.map fun l => if l.eng == 0 && l.ent.num == num then { l with issues := l.issues - 1 } else l }

/-- One result of a run lands. -/
def State.landOne (s : State) (run : Nat) (r : Res) : State :=
  let v := s.vrun run
  (s.setVrun run (v.land r)).setCont v.cid ((s.cont v.cid).landed r.ent.num)

/-- At most `k` results due by cycle `c` land. -/
def State.landSome (run c : Nat) : Nat → State → State
  | 0, s => s
  | k + 1, s =>
    match earliest c (s.vrun run).fly with
    | none => s
    | some r => State.landSome run c k (s.landOne run r)

/-- Every result due by cycle `c` lands, in the order of R245. -/
def State.landUpTo (s : State) (run c : Nat) : State := State.landSome run c (s.vrun run).fly.length s

/-- A run with something in flight. -/
def VRun.busy (v : VRun) : Bool := !v.fly.isEmpty || v.loop.isSome || v.idle != 0

/-- The run that holds the vector state of a continuation: an earlier one while its loop or its results are
still in the pipeline, or while a fault has stopped it (R285, R374); else that of its present run on hart 0. -/
def State.frameRun (s : State) (cid : Nat) : Nat :=
  match s.runs.find? fun p => p.2.cid == cid && (p.2.stopped || p.2.busy) with
  | some p => p.1
  | none => (s.cont cid).run

/-- The capture of a run at its present cycle (R374): the data of every load arrives, and what was due
before this cycle has landed. -/
def State.captureV (s : State) (run : Nat) : State :=
  let v := s.vrun run
  let s := s.setVrun run { v with fly := v.fly.map fun r => { r with arrived := true } }
  if v.cyc == 0 then s else s.landUpTo run (v.cyc - 1)

/-! ## The trap frame (R371 to R374) -/

/-- The bytes of a region as cells by frame offset; zeros are not listed. -/
def cellsAt (off : Nat) : List Byte → Memory
  | [] => []
  | b :: bs => if b = 0 then cellsAt (off + 1) bs else (off, b) :: cellsAt (off + 1) bs

/-- Cells moved by an offset. -/
def shiftCells (d : Nat) (m : Memory) : Memory := m.map fun c => (c.1 + d, c.2)

/-- x1 to x31 as bytes. -/
def Hart.xBytes (h : Hart) : List Byte := (h.x.toList.drop 1).flatMap fun v => leBytes 8 v.toNat

/-- The 160 bytes at 0x200. -/
def ctlBytes (h : Hart) (c : Cont) : List Byte :=
  ([h.dfcsr.toNat, h.dclass.toNat, h.dviewV, h.dviewM, h.dviewC, h.sc0.toNat, h.sc1.toNat] : List Nat).flatMap (leBytes 8) ++
    c.pushed.flatMap (leBytes 8) ++ c.tl.flatMap (leBytes 8) ++ leBytes 8 c.tags.toNat

/-- Rows of a table as cells, each row `size` bytes apart from `off`. -/
def tblCells {α : Type} (off size : Nat) (f : α → List Byte) : Tbl α → Memory
  | [] => []
  | (k, v) :: t => cellsAt (off + size * k) (f v) ++ tblCells off size f t

/-- Rows of a list as cells. -/
def rowCells {α : Type} (off size : Nat) (f : α → List Byte) : List α → Memory
  | [] => []
  | v :: t => cellsAt off (f v) ++ rowCells (off + size) size f t

/-- The rotation base after `m` iterations from `rb` (R249, R380). -/
def rbAfter (rot rb m : Nat) : Nat := if rot == 0 then 0 else (rb + (rot - 1) * m) % rot

/-- The rotation base of the pass in progress (R249). -/
def Loop.rb (l : Loop) : Nat := rbAfter l.rot l.rb0 l.pass

/-- Iterations that this run of the loop has started. -/
def Loop.begun (l : Loop) : Nat := min (l.pass + b2n (l.w != 0)) l.n

/-- The loop record: RB0 and NREM count from the iterations started (R380). -/
def Loop.bytes (l : Loop) : List Byte :=
  leBytes 1 l.nb ++ leBytes 1 l.st ++ leBytes 1 l.rot ++ leBytes 1 (rbAfter l.rot l.rb0 l.begun) ++ leBytes 4 0 ++
    leBytes 8 (l.n - l.begun + l.left)

/-- A fetch queue's record. -/
def FetchQ.bytes (q : FetchQ) : List Byte :=
  q.pattern ++ List.replicate (64 - q.pattern.length) (0 : Byte) ++ leBytes 8 q.next ++
    leBytes 8 (match q.faultAt with | some (n, _) => n | none => 0) ++ leBytes 8 (b2n q.opened) ++
    mfBytes (q.faultAt.map Prod.snd)

/-- A replay entry (R373), its remaining cycles counted from `cyc`. -/
def Res.bytes (cyc : Nat) (r : Res) : List Byte :=
  let (ws, pr, mb, dst, kd) := match r.dest with
    | .reg o => (0, 0, 0, o, 0) | .latchOnly => (1, 0, 0, 0, 0) | .pred k => (0, 1, 0, 0, k) | .mbox => (0, 0, 1, 0, 0)
  let opnd := match r.opnd with | [] => lanesBytes r.data | vs => vs.flatMap lanesBytes
  leBytes 8 r.word.toNat ++ leBytes 8 r.ent.num ++ leBytes 1 (r.due - cyc) ++ leBytes 1 (r.pipe.getD 4) ++
    leBytes 1 (b2n (!r.gone) + 2 * b2n r.pfm.isSome + 4 * ws + 8 * b2n r.reissue + 16 * pr + 32 * mb) ++ leBytes 1 kd ++
    leBytes 2 dst ++ leBytes 2 0 ++ leBytes 8 r.addr ++ mfBytes r.pfm ++ leBytes 16 r.mask.toNat ++
    List.replicate 48 (0 : Byte) ++ opnd

/-- Store-group bytes: OPEN, CODE, DETAIL, INDEX with LD. -/
def Group.frameBytes (g : Group) : List Byte :=
  leBytes 1 (b2n g.opened) ++ leBytes 1 g.code ++ leBytes 1 g.detail ++ leBytes 1 (g.idx + 32 * b2n g.ld)

/-- The header (R372) at frame address `fa`. -/
def headerBytes (pc cause kind flags rcnt slot tval rsptr seq npark : Nat) : List Byte :=
  leBytes 8 pc ++ leBytes 2 cause ++ leBytes 1 kind ++ leBytes 1 flags ++ leBytes 1 rcnt ++ leBytes 2 0 ++
    leBytes 1 slot ++ leBytes 8 tval ++ leBytes 8 rsptr ++ leBytes 8 seq ++ leBytes 2 npark

/-- FLAGS: LOOPV, SGOPEN, MXV, RSV, and the fetch queues open. -/
def frameFlags (h : Hart) (c : Cont) (v : VRun) : Nat :=
  b2n v.loop.isSome + 2 * b2n h.group.opened + 4 * b2n (bit c.mxProg 20) + 8 +
    (List.range 4).foldl (fun a q => a + b2n (tget FetchQ.closed v.fq q).opened * 2 ^ (4 + q)) 0

/-- Valid replay entries: those that the handler has not dropped (R372). -/
def VRun.valid (v : VRun) : Nat := (v.fly.filter fun r => !r.gone).length

/-- Everything a frame holds, by offset (R371). -/
def frameImage (h : Hart) (c : Cont) (v : VRun) (parked : List (Nat × QEntry)) (fa cause kind tval : Nat)
    (mfr : Option MemFault) (ef : Option EngFault) : Memory :=
  cellsAt 0 (headerBytes h.pc.toNat cause kind (frameFlags h c v) v.valid c.slot tval (fa + 0x20000) c.seq parked.length) ++
  cellsAt 0x100 h.xBytes ++ cellsAt 0x200 (ctlBytes h c) ++
  tblCells 0x300 16 (fun p => leBytes 16 (BitVec.toNat p)) v.pred ++
  rowCells 0x400 8 (fun w => leBytes 8 (BitVec.toNat w)) v.mbox ++ cellsAt 0x480 (leBytes 8 v.mbox.length) ++
  tblCells 0x500 16 (fun d => leBytes 4 d.head ++ leBytes 4 d.count ++ leBytes 4 d.out) v.dorm ++
  (match v.loop with
   | some l => cellsAt 0x600 l.bytes ++ rowCells 0x640 8 (fun e => leBytes 8 e.word.toNat) l.body
   | none => []) ++
  tblCells 0x840 128 FetchQ.bytes v.fq ++ cellsAt 0xA40 h.group.frameBytes ++
  cellsAt 0xA80 (match ef with | some f => f.bytes | none => []) ++
  cellsAt 0xAC0 (match mfr with | some f => f.bytes | none => []) ++ cellsAt 0xB00 (leBytes 8 c.mxProg) ++
  tblCells 0xC00 128 id c.epi ++ tblCells 0x1400 256 id c.lut ++ cellsAt 0x2400 c.sigCfg ++
  rowCells 0x2800 512 lanesBytes v.latch ++ rowCells 0x3000 2048 (Res.bytes v.cyc) v.fly ++
  rowCells 0x10000 24 (fun p => leBytes 8 p.2.word.toNat ++ leBytes 8 p.2.sc0.toNat ++ leBytes 8 p.2.sc1.toNat) parked ++
  (match v.loop with
   | some l => rowCells 0x1C000 16 (fun e => leBytes 8 e.sc0.toNat ++ leBytes 8 e.sc1.toNat) l.body
   | none => []) ++
  shiftCells 0x20000 v.rs

/-- FB: the frame block of core `n` in context `k` (R371). -/
def frameBlock (s : State) (k n : Nat) : Nat := s.contArea k + 0x100000000 + n * 0x800000
/-- The frame of resident slot `r`. -/
def frameAddr (s : State) (k n r : Nat) : Nat := frameBlock s k n + 0x40000 * (r + 1)

/-- The agent that writes frames: hart 0's accesses with M-mode rights (R371). -/
def frameAgent (s : State) (n : Nat) : Agent := { hartAgent s (2 * n) with mode := .m }

/-- The page of `n` bytes at `va` for a frame; for a write it must be PLAIN, with PR and PW set and PU clear, or PERM_W (R371). -/
def framePage (s : State) (ag : Agent) (acc : Acc) (va n : Nat) : Except Stop (List Piece) :=
  let r : Req := ⟨ag, acc, va, n, false, true⟩
  match plan s r anyFmt with
  | .error e => .error e
  | .ok ps =>
    if acc != .store then .ok ps
    else match ps with
    | [p] =>
      match p.leaf with
      | some l =>
        if pteKind l.w0 == 0 && bit l.w0 4 && bit l.w0 5 && !bit l.w0 7 then .ok ps
        else .error (.flt (r.fault va .permW 7 l.w0 0))
      | none => .error (.flt (r.fault va .permW 7 0 0))
    | _ => .error (.flt (r.fault va .permW 7 0 0))

/-- Bytes of cells in [lo, lo + n). -/
def denseOf (m : Memory) (lo n : Nat) : List Byte := mgets m lo n

/-- Cells in canonical form: rising locations, of two entries for one location the first, and no zeros. -/
def canon (cs : Memory) : Memory := cs.foldr (fun c m => mset m c.1 c.2) []

/-- Cells placed over [a, a + n) of memory: those of `img` in [lo, lo + n). -/
def overlay (m img : Memory) (a lo n : Nat) : Memory :=
  (m.filter fun c => c.1 < a) ++ (((canon img).filter fun c => lo ≤ c.1 && c.1 < lo + n).map fun c => (c.1 - lo + a, c.2)) ++
    (m.filter fun c => a + n ≤ c.1)

/-- One frame page written with the image's cells. -/
def writeFramePage (s : State) (ag : Agent) (va lo : Nat) (img : Memory) : Except Stop State :=
  match framePage s ag .store va 0x10000 with
  | .error e => .error e
  | .ok ps =>
    match ps with
    | [p] =>
      match p.leaf with
      | some l =>
        if l.xf then writePieces ⟨ag, .store, va, 0x10000, false, true⟩ s ps (denseOf img lo 0x10000)
        else .ok ({ s with mem := overlay s.mem img p.tgt.loc lo 0x10000 }.wrote ag.who p.tgt.loc 0x10000)
      | none => .ok s
    | _ => .ok s

/-- The cells of a frame page in memory, by frame offset. -/
def readFramePage (s : State) (ag : Agent) (va lo : Nat) : Except Stop Memory :=
  match framePage s ag .load va 0x10000 with
  | .error e => .error e
  | .ok ps =>
    match ps with
    | [p] =>
      match p.leaf with
      | some l =>
        if l.xf then
          match readPieces s ⟨ag, .load, va, 0x10000, false, true⟩ ps with
          | .error e => .error e
          | .ok bs => .ok (cellsAt lo bs)
        else .ok ((s.mem.filter fun c => p.tgt.loc ≤ c.1 && c.1 < p.tgt.loc + 0x10000).map fun c => (c.1 - p.tgt.loc + lo, c.2))
      | none => .ok []
    | _ => .ok []

/-- The first page of a frame, or of its block, whose translation a write of the frame would wait for. -/
def frameMiss (s : State) (n ctx slot : Nat) : Option Stop :=
  let fa := frameAddr s ctx n slot
  ([(fa, 0x10000), (fa + 0x10000, 0x10000), (fa + 0x20000, 0x10000), (fa + 0x30000, 0x10000), (frameBlock s ctx n, 8)]).findSome? fun p =>
    match framePage s (frameAgent s n) .store p.1 p.2 with | .error (.miss wh c v) => some (.miss wh c v) | _ => none

/-- A whole frame written, then ACTIVE when it is to be served (R371). -/
def writeFrame (s : State) (n ctx slot : Nat) (img : Memory) (active : Bool) : Except Stop State :=
  let ag := frameAgent s n
  let fa := frameAddr s ctx n slot
  match writeFramePage s ag fa 0 img with
  | .error e => .error e
  | .ok s =>
    match writeFramePage s ag (fa + 0x10000) 0x10000 img with
    | .error e => .error e
    | .ok s =>
      match writeFramePage s ag (fa + 0x20000) 0x20000 img with
      | .error e => .error e
      | .ok s =>
        match writeFramePage s ag (fa + 0x30000) 0x30000 img with
        | .error e => .error e
        | .ok s =>
          if active then
            match framePage s ag .store (frameBlock s ctx n) 8 with
            | .error e => .error e
            | .ok ps => writePieces ⟨ag, .store, frameBlock s ctx n, 8, false, true⟩ s ps (leBytes 8 slot)
          else .ok s

/-! ## Taking an exception (R226, R368, R369) -/

/-- A standard CSR of a hart. -/
def Hart.csrGet (h : Hart) (k : Nat) : Nat := (tget 0 h.csr k).toNat
def Hart.csrSet (h : Hart) (k v : Nat) : Hart := { h with csr := tset h.csr k (BitVec.ofNat 64 v) }

/-- The cause code of a hart memory fault (R369). -/
def hartCause (f : MemFault) (store : Bool) : Nat :=
  let pg := match f.cause with
    | .noncanon => true | .hole => true | .notMapped => true | .pteMalformed => true | .paHole => true
    | .ilvMismatch => true | .tenant => true | .permU => true | .permR => true | .permW => true | .permX => true
    | .attrSplit => true | _ => false
  if f.cause == .misalign then (if store then 6 else 4)
  else if f.acc == .fetch then (if pg then 12 else 1)
  else if store then (if pg then 15 else 7) else (if pg then 13 else 5)

/-- CAUSE of the frame that an S-mode software interrupt writes: bit 15 marks an interrupt, as in the codes of R369 (DEDUCED, log 8). -/
def ssiCause : Nat := 0x8001

/-- scause of a frame's CAUSE: its bit 15 marks an interrupt. -/
def scauseOf (cause : Nat) : Nat := if bit cause 15 then 2 ^ 63 + bits cause 14 0 else cause

/-- The handler's address: with MODE 1 an interrupt goes to its own entry. -/
def stvecPc (tvec cause : Nat) : Nat := tvec / 4 * 4 + (if bit cause 15 && bit tvec 0 then 4 * bits cause 14 0 else 0)

/-- The standard entry to S mode: sepc, scause, stval, SPP, SPIE, SIE, and the handler's address. -/
def Hart.enterS (h : Hart) (cause tval : Nat) : Hart :=
  let st := h.csrGet 0x100
  let st := setBits st 8 8 (match h.mode with | .u => 0 | _ => 1)
  let st := setBits (setBits st 5 5 (bits st 1 1)) 1 1 0
  let h := (((h.csrSet 0x141 h.pc.toNat).csrSet 0x142 (scauseOf cause)).csrSet 0x143 tval).csrSet 0x100 st
  { h with mode := .s, pc := BitVec.ofNat 64 (stvecPc (h.csrGet 0x105) cause), stalled := false, resv := none }

/-- The standard entry to M mode. -/
def Hart.enterM (h : Hart) (cause tval : Nat) : Hart :=
  let st := h.csrGet 0x300
  let st := setBits st 12 11 3
  let st := setBits (setBits st 7 7 (bits st 3 3)) 3 3 0
  let h := (((h.csrSet 0x341 h.pc.toNat).csrSet 0x342 cause).csrSet 0x343 tval).csrSet 0x300 st
  { h with mode := .m, pc := BitVec.ofNat 64 (h.csrGet 0x305 / 4 * 4), stalled := false, resv := none,
           group := h.group.struck }

/-- An exception of hart `n`: in U mode the frame is written and the S handler entered; in S mode firmware
abandons the continuation with the fault of the frame that is served (R368); in M mode the standard entry is taken. A translation miss of the frame's
pages leaves the instruction to be tried again; a fault of them abandons the continuation (R371). -/
def State.trap (s0 : State) (n cause tval : Nat) (mfr : Option MemFault) (ef : Option EngFault) : State :=
  let h := s0.hart n
  let s := match mfr with | some f => s0.noted f | none => s0
  match h.mode with
  | .m => (s.setHart n (h.enterM cause tval)).tookWalk (.hart n)
  | .s =>
    match h.cont with
    | some cid =>
      let held := match (s.cont cid).frame with | some fr => fr.mfr | none => mfr
      (s.abandonCont cid held).tookWalk (.hart n)
    | none => (s.setHart n (h.enterS cause tval)).tookWalk (.hart n)
  | .u =>
    match h.cont with
    | none => (s.setHart n (h.enterS cause tval)).tookWalk (.hart n)
    | some cid =>
      let run := s.frameRun cid
      let s := s.captureV run
      let c := s.cont cid
      let kind := if cause == 25 then 3 else 0
      let h := { h with group := h.group.struck, resv := none }
      let c := { c with seq := c.seq + 1 }
      let img := frameImage h c (s.vrun run) [] (frameAddr s c.ctx (coreOf n) c.slot) cause kind tval mfr ef
      match writeFrame s (coreOf n) c.ctx c.slot img true with
      | .error (.miss wh k v) => (s0.missed wh k v).setHart n { s0.hart n with stalled := true }
      | .error (.flt f) => ((s.noted f).abandonCont cid (some f)).tookWalk (.hart n)
      | .ok s =>
        let mf := match mfr with | some f => some f | none => ef.bind EngFault.mfr
        let c := { c with frame := some ⟨cause, kind, coreOf n, img, [], mf, [], h, run⟩, flagsIn := 0 }
        ((s.setCont cid c).setHart n { h.enterS cause tval with serving := true, group := Group.none }).tookWalk (.hart n)

/-- A supervisor software interrupt is pending, enabled, and taken in the hart's mode (R226). -/
def Hart.ssiDue (h : Hart) : Bool :=
  bit (h.csrGet 0x144) 1 && bit (h.csrGet 0x104) 1 && (h.mode == .u || (h.mode == .s && bit (h.csrGet 0x100) 1))

/-- The acting hart takes it: from U mode with a frame, from S mode by the standard entry alone. -/
def State.takeSsi (s : State) : State :=
  if s.me.mode == .s then (s.setHart s.hn { s.me.enterS ssiCause 0 with group := s.me.group.struck }).tookWalk (.hart s.hn) else s.trap s.hn ssiCause 0 none none

/-- An illegal instruction whose word is `w` at the acting hart. -/
def State.illegal (s : State) (w : Nat) : State := s.trap s.hn 2 w none none

/-- A memory fault of the acting hart. -/
def State.memFault (s : State) (f : MemFault) (store : Bool) : State :=
  s.trap s.hn (hartCause f store) f.faddr (some f) none

/-- A stop of an access by the acting hart: a miss waits, a fault traps. -/
def State.hartStop (s : State) (e : Stop) (store : Bool) : State :=
  match e with
  | .miss wh c v => s.hartMiss wh c v
  | .flt f => s.memFault f store

/-- The fault of an engine command, raised at an instruction that waits for it (R137, R369). -/
def State.raiseEngine (s : State) (l : Live) : State :=
  s.trap s.hn 24 0 none l.fault

end Sys2Proof.Machine
end

