-- ==== Sys2Proof/Machine/Devices.lean ====
section
/-! DEFINITION. The units behind the register window: stream queues and triggers (R210 to R216), opening
and closing a stream (R161), the graph store (R213), event records and the persistent log (R414, R422),
invalidations (R50), Squirrel's pool (R119). A function that answers `Except Stop` makes accesses of the
part; only a miss leaves it, every fault being handled as its rule says. -/

namespace Sys2Proof.Machine

/-! ## Agents of the hub die (R33, R41, log 18) -/

/-- The front end acting in a context. -/
def feAgent (ctx : Nat) : Agent := ⟨.fe, 11, 0, .s, ctx, 0, ⟨true, true, false, false, false⟩⟩
/-- Owl acting for a stream, with M-mode rights (R169). -/
def owlAgent (ctx : Nat) : Agent := ⟨.owl, 6, 0, .m, ctx, 0, ⟨true, false, false, false, false⟩⟩
/-- A decode engine acting for a stream. -/
def decAgent (eng ctx : Nat) : Agent := ⟨.dec eng, 10, eng, .s, ctx, 0, ⟨true, false, false, false, false⟩⟩

/-- Read bytes that move unchanged. -/
def rdBytes (s : State) (ag : Agent) (acc : Acc) (va n : Nat) : Except Stop (List Byte) :=
  memRead s ⟨ag, acc, va, n, false, true⟩ anyFmt
/-- Write bytes that move unchanged. -/
def wrBytes (s : State) (ag : Agent) (acc : Acc) (va : Nat) (bs : List Byte) : Except Stop State :=
  memWrite s ⟨ag, acc, va, bs.length, false, true⟩ anyFmt bs

/-- A write of the part whose fault is handled by `onFault`; a miss goes on to the caller. -/
def wrOr (s : State) (ag : Agent) (va : Nat) (bs : List Byte) (onFault : MemFault → State) : Except Stop State :=
  match wrBytes s ag .engWrite va bs with
  | .ok s => .ok s
  | .error (.miss wh c v) => .error (.miss wh c v)
  | .error (.flt f) => .ok ((onFault f).noted f)

/-! ## Streams (R161, R210 to R216, R437, R440) -/

/-- Stream `st` exists. -/
def strOk (st : Nat) : Bool := st < 128

/-- CMU_STAT_s with bits set. -/
def State.cmuStat (s : State) (st v : Nat) : State := s.ror (oCmuS st 0x38) v
/-- The stream is stopped (R159). -/
def State.isStopped (s : State) (st : Nat) : Bool := bit (s.rget (oCmuS st 0x38) 0) 3
/-- CMU_FRAME_s. -/
def State.cmuFrame (s : State) (st : Nat) : Nat := s.rget (oCmuS st 0x28) 0
/-- The decode engine of a stream. -/
def State.strEng (s : State) (st : Nat) : Nat := bits (s.rget (oCmuS st 0x10) 0) 50 48

/-- The stream error record (R159) written by an agent; a fault sets ERR_LOST (R440). -/
def State.errRecord (s : State) (ag : Agent) (st frame code : Nat) (f : Option MemFault) : Except Stop State :=
  let x := s.stream st
  let n := min (x.errs + 1) m32
  let s := s.setStream st { x with errs := n }
  let bs := leBytes 8 frame ++ leBytes 4 code ++ leBytes 4 n ++ List.replicate 16 (0 : Byte) ++ mfBytes f
  wrOr s ag (s.rget (oCmuS st 0x30) 0) bs fun _ => s.cmuStat st 0x10

/-- The stream stops: its decoding is abandoned and STOPPED set (R159). -/
def State.stopStream (s : State) (st : Nat) : State :=
  (s.setStream st { s.stream st with bits := [], taken := [] }).cmuStat st 8

/-- A fault of an access of Owl's (R440). -/
def State.owlFault (s : State) (st : Nat) (f : MemFault) : Except Stop State :=
  (((s.noted f).stopStream st).cmuStat st 4).errRecord (owlAgent (s.streamCtx st)) st (s.cmuFrame st) 4 (some f)

/-- Size of a stream's spill ring in records. -/
def State.spillSize (s : State) (st : Nat) : Nat := 2 ^ (bits (s.rget (oFeStr st + 0x18) 0) 3 0 + 6)
/-- Place `k` of the spill ring (R437). -/
def State.spillAddr (s : State) (st k : Nat) : Nat :=
  bits (s.rget (oFeStr st + 0x18) 0) 51 12 * 4096 + 64 * (k % s.spillSize st)

/-- The queue has room for `n` records. -/
def State.hasRoom (s : State) (st n : Nat) : Bool :=
  let x := s.stream st
  x.hw.length + x.spilled + n ≤ (if x.spilled == 0 then 32 else x.hw.length) + s.spillSize st

/-- Append a record: to a hardware entry, or behind the spilled records; `false` when it is refused with
FULL and nothing changes (R210, R437, log 19). -/
def State.qappend (s : State) (st : Nat) (rcd : List Byte) : Except Stop (State × Bool) :=
  let x := s.stream st
  if x.spilled == 0 && x.hw.length < 32 then .ok (s.setStream st { x with hw := x.hw ++ [rcd] }, true)
  else if s.spillSize st ≤ x.spilled then .ok (s, false)
  else
    match wrBytes s (feAgent (s.streamCtx st)) .engWrite (s.spillAddr st x.placed) rcd with
    | .error (.miss wh c v) => .error (.miss wh c v)
    | .error (.flt f) => .ok (s.noted f, false)
    | .ok s => .ok (s.setStream st { x with spilled := x.spilled + 1, placed := x.placed + 1 }, true)

/-- The copies held for the records of a queue once record number `n` is lost: later records move up by one. -/
def dropCopy (n : Nat) (c : Tbl LaunchCopy) : Tbl LaunchCopy :=
  (c.filter fun p => p.1 != n).map fun p => (if n < p.1 then p.1 - 1 else p.1, p.2)

/-- The head record leaves; a freed entry takes the oldest spilled record (R210, R437). A refill that
faults loses its record, counted in FEQ_BAD_s (log 19). -/
def State.qpop (s : State) (st : Nat) : Except Stop State :=
  let x := s.stream st
  let x := { x with hw := x.hw.drop 1, popped := x.popped + 1, copies := x.copies.filter fun p => x.popped < p.1 }
  if x.spilled == 0 then .ok (s.setStream st x)
  else
    match rdBytes s (feAgent (s.streamCtx st)) .engRead (s.spillAddr st (x.placed - x.spilled)) 64 with
    | .error (.miss wh c v) => .error (.miss wh c v)
    | .error (.flt f) =>
      let x := { x with spilled := x.spilled - 1, copies := dropCopy (x.popped + x.hw.length) x.copies }
      .ok (((s.setStream st x).noted f).rinc32 (oFeStr st + 0x28))
    | .ok r => .ok (s.setStream st { x with hw := x.hw ++ [r], spilled := x.spilled - 1 })

/-- A trigger is sent to the front end; `none` while the queue has no entry for it: the sender stalls
(R28, R212). A trigger for a closed stream is taken and discarded (log 20). -/
def State.sendTrig (s : State) (st : Nat) (arg : Word) (dec : Bool) : Option State :=
  let x := s.stream st
  if !s.isOpen st then some s
  else if 64 ≤ x.trigq.length + x.sent.length then none
  else some (s.setStream st { x with sent := x.sent ++ [⟨arg, dec⟩] })

/-- EAU_CREDIT_s as a signed number. -/
def State.credit (s : State) (st : Nat) : Int := sext (s.rget (oEAU + 0x2008 + 16 * st) 0) 64
def State.setCredit (s : State) (st : Nat) (v : Int) : State := s.rset (oEAU + 0x2008 + 16 * st) (wrapW 64 v)

/-- Iterations of a launch are left to bind: how many a tile list has is not known before its launch has started (R190). -/
def Launch.more (l : Launch) : Bool := !l.begun || l.next < l.count

/-- A stream is ready: a walker holds a launch of it with iterations to bind and its credit is not negative (R217). -/
def State.isReady (s : State) (st : Nat) : Bool :=
  0 ≤ s.credit st && s.launches.any fun p => p.2.stream == some st && p.2.held && !p.2.finished && p.2.more && p.2.stopped.isNone

/-- Whether the stream is ready is looked at again: one that has stopped being ready loses its age, and its deficit is at most 0. -/
def State.unready (s : State) (st : Nat) : State :=
  let x := s.stream st
  let r := s.isReady st
  if r == x.ready then s
  else s.setStream st (if r then { x with ready := true } else { x with ready := false, aged := false, deficit := min x.deficit 0 })

/-- Every stream that has launches looked at again. -/
def State.unreadyAll (s : State) : State := (s.launches.filterMap fun p => p.2.stream).foldl State.unready s

/-- A trigger enters the queue: the budget is credited, the sum capped at twice the budget, and counted (R212). -/
def State.acceptTrig (s : State) (st : Nat) : State :=
  let x := s.stream st
  match x.sent with
  | [] => s
  | t :: ts =>
    let b : Int := s.rget (oFeStr st + 0x10) 0
    ((s.setStream st { x with sent := ts, trigq := x.trigq ++ [t], accepted := (x.accepted + 1) % 2 ^ 64, credited := x.credited + 1 }).setCredit st
      (min (s.credit st + b) (2 * b))).unready st

/-- The layer state record at opening (R161, R166). -/
def idleLayer : List Byte :=
  leBytes 8 m64 ++ leBytes 8 0 ++ leBytes 26 0 ++ leBytes 2 0x100 ++ leBytes 20 0

/-- M_L (R166). -/
def State.metaAddr (s : State) (st l : Nat) : Nat := s.rget (oCmuS st 8) 0 + l * 0x400000

/-- Write the layer state records of layers `l` and up; a fault stops the stream (R161, R440). -/
def initLayers (st : Nat) : Nat → State → Except Stop State
  | 0, s => .ok s
  | k + 1, s =>
    let l := 63 - k
    match wrBytes s (owlAgent (s.streamCtx st)) .engWrite (s.metaAddr st l) idleLayer with
    | .error (.miss wh c v) => .error (.miss wh c v)
    | .error (.flt f) => s.owlFault st f
    | .ok s => initLayers st k s

/-- The 64 entries of a layer table. -/
def layerRows : Nat → Nat → List Byte → Tbl (List Byte)
  | 0, _, _ => []
  | k + 1, l, bs => (l, bs.take 32) :: layerRows k (l + 1) (bs.drop 32)

/-- FE_STR_s written with OPEN going from 0 to 1 (R161, R216). -/
def State.openStream (s : State) (st v : Nat) : Except Stop State :=
  let x := s.stream st
  let y := { Stream.reset with run := x.run, deficit := x.deficit, aged := x.aged, ready := x.ready, credited := x.credited, shed := x.shed }
  let s := (s.setStream st y).rset (oFeStr st) (v &&& (fm 1 0 + fm 17 8))
  let s := ((s.rset (oCmuS st 0x28) 0).rset (oCmuS st 0x20) 0).rset (oCmuS st 0x24) 0
  let s := s.rset (oCmuS st 0x38) (setBits (s.rget (oCmuS st 0x38) 0) 3 3 0)
  let ctx := s.streamCtx st
  match rdBytes s (owlAgent ctx) .engRead (s.rget (oCmuS st 0) 0) 2048 with
  | .error (.miss wh c w) => .error (.miss wh c w)
  | .error (.flt f) =>
    match (s.noted f).errRecord (owlAgent ctx) st 0 4 (some f) with
    | .error e => .error e
    | .ok s => initLayers st 64 s
  | .ok bs => initLayers st 64 (s.setStream st { s.stream st with layers := layerRows 64 0 bs })

/-- FE_STR_s written with OPEN going from 1 to 0: queued records and triggers and the decoder's records are
discarded, a run in progress goes on (R159, R216). -/
def State.closeStream (s : State) (st : Nat) : State :=
  let x := s.stream st
  let s := s.setStream st { x with hw := [], spilled := 0, copies := [], sent := [], trigq := [], bits := [], taken := [], layers := [] }
  s.rset (oFeStr st) (setBits (s.feStr st) 16 16 0)

/-! ## The graph store (R213) -/

/-- Little-endian field of a record. -/
def fieldAt (bs : List Byte) (o n : Nat) : Nat := leNat ((bs.drop o).take n)
/-- Bytes [o, o + n) are zero. -/
def zeroAt (bs : List Byte) (o n : Nat) : Bool := fieldAt bs o n == 0

/-- One node passes the checks of R213 in a graph of `n` nodes. -/
def nodeOk (n : Nat) (b : List Byte) : Bool :=
  let ix (o : Nat) : Bool := fieldAt b o 2 < n
  let ixE (o : Nat) : Bool := ix o || fieldAt b o 2 == 0xFFFF
  zeroAt b 1 1 && zeroAt b 4 4 && ixE 2 &&
  match fieldAt b 0 1 with
  | 1 => bits (fieldAt b 24 2) 15 7 == 0 && ixE 26 && zeroAt b 28 4 && zeroAt b 42 22
  | 2 => bits (fieldAt b 8 2) 15 6 == 0 && bits (fieldAt b 10 2) 15 12 == 0 && zeroAt b 12 52
  | 3 => bits (fieldAt b 28 4) 31 4 == 0 && zeroAt b 32 32
  | 4 => bits (fieldAt b 8 8) 63 1 == 0 && zeroAt b 32 32
  | 5 => ix 10 && ix 14 && zeroAt b 32 32
  | 6 => ix 10 && zeroAt b 12 52
  | 7 => bits (fieldAt b 16 8) 63 4 == 0 && zeroAt b 24 40
  | _ => false

/-- Cut bytes into records of `sz`. -/
def chunksOf (sz : Nat) : Nat → List Byte → List (List Byte)
  | 0, _ => []
  | n + 1, bs => bs.take sz :: chunksOf sz n (bs.drop sz)

/-- The first node that fails, counting from `i`. -/
def badNode (n i : Nat) : List (List Byte) → Option Nat
  | [] => none
  | b :: bs => if nodeOk n b then badNode n (i + 1) bs else some i

/-- An open stream names graph `g`. -/
def State.graphInUse (s : State) (g : Nat) : Bool :=
  (List.range 128).any fun st =>
    let r := s.rget (oFeStr st + 8) 0
    s.isOpen st && bit r 8 && bits r 7 0 == g

/-- FE_GLOAD_CMD written (R213); a write while a load is in progress is ignored (log 21). -/
def State.graphLoad (s : State) (cmd : Nat) : State :=
  if s.gload.isSome then s
  else if s.graphInUse (bits cmd 7 0) then s.rset (oFE + 0x1C) (3 + 2 * 4)
  else { s with gload := some (BitVec.ofNat 32 cmd) }.rset (oFE + 0x1C) 1

/-- The copied graph is checked and installed or refused. -/
def State.graphDone (s : State) (cmd : Nat) : State :=
  let s := { s with gload := none }
  let g := bits cmd 7 0
  let n := bits cmd 16 8 + 1
  let a := s.rget (oFE + 0x10) 0
  if s.graphInUse g then s.rset (oFE + 0x1C) (3 + 2 * 4)
  else if 256 < n then s.rset (oFE + 0x1C) (3 + 1 * 4)
  else if hbmEnd < a + 64 * n || ueIn s.ue a (64 * n) || (fencedAt s (n + 1) a (a + 64 * n)).isSome then s.rset (oFE + 0x1C) (3 + 3 * 4)
  else
    let ns := chunksOf 64 n (mgets s.mem a (64 * n))
    match badNode n 0 ns with
    | some i => s.rset (oFE + 0x1C) (3 + 1 * 4 + i * 256)
    | none => { s with graphs := tset s.graphs g ns }.rset (oFE + 0x1C) 2

/-! ## Event records and the persistent log (R414, R422) -/

/-- The context whose address space holds a tenant's event ring: the lowest valid one (log 22). -/
def State.tenantCtx (s : State) (t : Nat) : Option Nat :=
  (List.range 256).find? fun k => ctxValid (s.ctxDesc k) && s.tenantOf k == t

/-- One tenant's event record. -/
def State.evrOne (s : State) (t : Nat) (rcd : List Byte) : Except Stop State :=
  let o := 0x2000 + 0x20 * t
  let r := s.rget o 0
  let hd := s.rget (o + 8) 0
  let size := 2 ^ (bits r 3 0 + 4)
  let lost := s.rinc32 (o + 0x10)
  if (hd + 2 ^ 32 - s.rget (o + 0xC) 0) % 2 ^ 32 == size then .ok lost
  else
    match s.tenantCtx t with
    | none => .ok lost
    | some k =>
      match wrBytes s (feAgent k) .engWrite (bits r 51 12 * 4096 + 32 * (hd % size)) rcd with
      | .error (.miss wh c v) => .error (.miss wh c v)
      | .error (.flt f) => .ok (lost.noted f)
      | .ok s => .ok (s.rset (o + 8) ((hd + 1) % 2 ^ 32))

/-- The records of tenants `t` and up. -/
def evrAll (rcd : List Byte) : Nat → State → Except Stop State
  | 0, s => .ok s
  | k + 1, s =>
    match s.evrOne (15 - k) rcd with
    | .error e => .error e
    | .ok s => evrAll rcd k s

/-- An event sent to every tenant (R414). -/
def State.event (s : State) (ev kind reason newv oldv seq time : Nat) : Except Stop State :=
  evrAll (leBytes 2 ev ++ leBytes 1 kind ++ leBytes 1 reason ++ leBytes 4 newv ++ leBytes 4 oldv ++ leBytes 4 seq ++
    leBytes 8 time ++ leBytes 8 0) 16 s

/-- Flash bytes, stored complemented (R398, log 2). -/
def State.flashGet (s : State) (o n : Nat) : List Byte := (mgets s.mem (flashLoc o) n).map fun b => ~~~b
def State.flashPut (s : State) (o : Nat) (bs : List Byte) : State :=
  { s with mem := msets s.mem (flashLoc o) (bs.map fun b => ~~~b) }
/-- Erase a range: every byte reads 0xFF. -/
def State.flashErase (s : State) (o n : Nat) : State := { s with mem := mclear s.mem (flashLoc o) (flashLoc o + n) }

/-- A record appended to the persistent log (R422). -/
def State.logRecord (s : State) (reason unit detail : Nat) : State :=
  let n := s.rget (oRAS + 0x68) 0
  let (t, s) := s.draw
  let rcd := leBytes 8 n ++ leBytes 8 t.toNat ++ leBytes 1 reason ++ leBytes 2 unit ++ leBytes 8 detail ++ leBytes 37 0
  (s.flashPut (0x800000 + 64 * (n % 65536)) rcd).rset (oRAS + 0x68) ((n + 1) % 2 ^ 32)

/-- REPLACE_REQUEST with its reason: the first stays, requests are counted (R421). -/
def State.replaceReq (s : State) (reason : Nat) : State :=
  let v := s.rget (oRAS + 0x50) 0
  let v := if bit v 0 then v else setBits (setBits v 0 0 1) 15 8 reason
  s.rset (oRAS + 0x50) (setBits v 31 16 (min (bits v 31 16 + 1) 0xFFFF))

/-! ## Translation unit and Squirrel -/

/-- MMU_INV_CMD accepted: numbered and pending (R50). -/
def State.invalidate (s : State) (op : Nat) : State :=
  let i : Inval := ⟨op, s.rget (oMMU + 0x90) 0, s.rget (oMMU + 0x98) 0⟩
  ({ s with invals := s.invals ++ [i] } : State).radd (oMMU + 0xA8) 1

/-- Whether an invalidation covers a cached entry (R49). -/
def Inval.covers (i : Inval) (e : TlbEntry) : Bool :=
  match i.op with
  | 0 => e.ctx == i.ctx
  | 1 => e.ctx == i.ctx && Machine.covers e (i.va / 65536)
  | _ => true

/-- Whether it covers an entry of a page-walk cache: one on the path to a leaf that it covers (R51). -/
def Inval.coversWalk (i : Inval) (e : WalkEntry) : Bool :=
  match i.op with
  | 0 => e.ctx == i.ctx
  | 1 => e.ctx == i.ctx && e.idx == walkIdx i.va e.level
  | _ => true

/-- A hart's store group holds a store that was translated with an entry that the invalidation covers and is not performed. -/
def Inval.holds (i : Inval) (h : Hart) : Bool :=
  h.group.opened && h.group.code == 0 && h.group.stores.any fun x =>
    match x.leaf with | some l => i.covers ⟨0, h.ctx, x.va / 65536, l⟩ | none => false

/-- The oldest invalidation may complete: every request translated with an entry that it covers has been performed (R51, R53). -/
def State.invalReady (s : State) : Bool :=
  match s.invals with
  | [] => false
  | i :: _ => !s.harts.any fun p => i.holds p.2

/-- The oldest invalidation completes (R50, R51). -/
def State.invalDone (s : State) : State :=
  match s.invals with
  | [] => s
  | i :: is =>
    { s with invals := is, tlb := s.tlb.filter fun e => !i.covers e
             walkCache := s.walkCache.filter fun e => !i.coversWalk e }.radd (oMMU + 0xB0) 1

/-- MMU_ILV_LOCK written with 1 (R49). -/
def State.ilvLock (s : State) : State :=
  if s.locked then s else if ilvValid s then s.rset (oMMU + 0x80) 1 else s.rset (oMMU + 0x88) 1

/-- CSM_POOL_ADD written: 256 chunks of a 64 KiB area (R119). -/
def State.poolAdd (s : State) (d v : Nat) : State :=
  let a := bits v 47 16 * 65536
  { s with pool := setDie s.pool d (s.pool.getD d [] ++ (List.range 256).map fun i => a + 256 * i) }

/-! ## Hand-over in progress (R403) -/

/-- Registers of kind `k`. -/
def oHo (k : Nat) : Nat := 0x1000 + 0x100 * k
def State.hoState (s : State) (k : Nat) : Nat := bits (s.rget (oHo k + 4) 0) 3 0
def State.handOver (s : State) (k : Nat) : HandOver := tget HandOver.reset s.ho k
def State.setHandOver (s : State) (k : Nat) (h : HandOver) : State := { s with ho := tset s.ho k h }

/-- Decisions of unit `u` of kind `k` wait: from its hand-over point to the first heartbeat (R403). -/
def State.hoPaused (s : State) (k u : Nat) : Bool :=
  let st := s.hoState k
  (s.handOver k).down || (st == 2 && (s.handOver k).arrived.contains u) || st == 3 || st == 4 || st == 7

/-- Decisions of kind `k` for the whole part wait. -/
def State.hoWaits (s : State) (k : Nat) : Bool := (s.handOver k).down || s.hoState k == 3 || s.hoState k == 4 || s.hoState k == 7

/-- Unit `u` of kind `k` executes its image: one has booted, and the unit neither waits at the barrier nor for the new image to start
(R403, R410). -/
def State.fwRuns (s : State) (k u : Nat) : Bool :=
  let h := s.handOver k
  !h.down && !(s.hoState k == 2 && h.arrived.contains u) && !(s.hoState k == 4 && h.todo.contains .start)

end Sys2Proof.Machine
end

