-- ==== Sys2Proof/Machine/PageFmt.lean ====
section
/-! DEFINITION. Page formats: element sizes (R80), decoding into register types and encoding from them
(R84 to R89, R95, R96). -/

namespace Sys2Proof.Machine

/-- The element type of FMT 1 to 9 (R82). -/
def fmtElem : Nat → Option ElemT
  | 1 => some .f32 | 2 => some .f16 | 3 => some .bf16 | 4 => some .e4m3 | 5 => some .e5m2
  | 6 => some .i8 | 7 => some .u8 | 8 => some .i16 | 9 => some .i32 | _ => none

/-- FMT of a register type. -/
def elemFmt : ElemT → Nat
  | .f32 => 1 | .f16 => 2 | .bf16 => 3 | .e4m3 => 4 | .e5m2 => 5 | .i8 => 6 | .u8 => 7 | .i16 => 8 | .i32 => 9

/-- FMT 10 or 11: stored blocks along dimension 0. -/
def isBlockFmt (fmt : Nat) : Bool := fmt == 10 || fmt == 11

/-- Elements of a stored block (R84, R87). -/
def blockLen (fmt geo : Nat) : Nat := if fmt == 10 then 64 else if geo == 1 then 16 else if geo == 2 then 64 else 32

/-- Stored planes of a BPN page. -/
def geoPlanes (geo : Nat) : Nat := geo + 2

/-- Bytes of a stored block. -/
def blockSize (fmt geo : Nat) : Nat := if fmt == 10 then 8 * geoPlanes geo else blockLen fmt geo + 4

/-- Element size e of R80: the stored block's size for FMT 10 and 11. -/
def fmtSize (fmt geo : Nat) : Nat :=
  if isBlockFmt fmt then blockSize fmt geo else match fmtElem fmt with | some t => t.bytes | none => 1

/-! ## Plain elements -/

/-- A stored element decoded into a register type (R96). -/
def decElem (fmt : Nat) (t : ElemT) (x : Nat) : Nat :=
  match fmtElem fmt with | some s => (convElem ctlRne s t x).1 | none => x

/-- A register element encoded for a page (R96). -/
def encElem (fmt : Nat) (t : ElemT) (x : Nat) : Nat :=
  match fmtElem fmt with | some d => (convElem ctlRne t d x).1 | none => x

/-- The exact value of a stored element; BYTES reads as UINT8. -/
def storedVal (fmt : Nat) (x : Nat) : Fv :=
  match fmtElem fmt with | some t => t.val x | none => .fin false (x % 256) 0

/-! ## Bit planes (R84 to R86) -/

/-- The leading `p` planes of a stored block as words. -/
def planeWords (bs : List Byte) : Nat → List Nat
  | 0 => []
  | p + 1 => leNat (bs.take 8) :: planeWords (bs.drop 8) p

/-- Element `i`: the field that the plane words give, plane 0 first. -/
def planeField (i : Nat) : List Nat → Nat → Nat
  | [], acc => acc
  | w :: ws, acc => planeField i ws (2 * acc + b2n (bit w i))

/-- The 64 values of the leading `p` planes. -/
def bpnDecode (bs : List Byte) (p : Nat) : List Int :=
  let ws := planeWords bs p
  (List.range 64).map fun i => bpnValue (planeField i ws 0) p

/-- Bit `b` of each value as a word. -/
def planeOf (b : Nat) : List Nat → Nat
  | [] => 0
  | v :: vs => b2n (bit v b) + 2 * planeOf b vs

/-- The stored block of 64 bytes' values with `q` planes. -/
def bpnEncode (vs : List Nat) (q : Nat) : List Byte :=
  (List.range q).flatMap fun j => leBytes 8 (planeOf (7 - j) vs)

/-- Bits 7 to 8 - q of each stored value, the others zero. -/
def bpnStored (bs : List Byte) (q : Nat) : List Nat :=
  let ws := planeWords bs q
  (List.range 64).map fun i => planeField i ws 0 * 2 ^ (8 - q)

/-! ## Block scales (R87 to R89) -/

/-- The values of a block-scaled stored block. -/
def bsDecode (bs : List Byte) : List Fv :=
  match bs with
  | [] => []
  | c :: r => (r.drop 3).map fun k => e8Value c.toNat k.toNat

/-- A block of values quantised, with OVF. -/
def bsEncode (vs : List Fv) : List Byte × Flags :=
  let c := e8Of (maxFinite vs)
  let ks := vs.map (quantElem .rne c)
  ([BitVec.ofNat 8 c, 0, 0, 0] ++ ks.map (fun k => BitVec.ofInt 8 k.1), orFlags (ks.map fun k => k.2 &&& fOVF))

/-! ## A block in a register type -/

/-- A block format with a register type: the pairing is legal (R96). -/
def blockTypeOk (fmt : Nat) (t : ElemT) : Bool := fmt == 10 || t == .f32 || t == .f16 || t == .bf16

/-- The register elements of a stored block; `p` planes of a BPN block are read. -/
def blockDecode (fmt p : Nat) (t : ElemT) (bs : List Byte) : List Nat :=
  if fmt == 10 then (bpnDecode bs p).map fun v => (convElem ctlRne .i8 t (wrapW 8 v)).1
  else
    match t.fmt? with
    | some f => (bsDecode bs).map fun v => (toFloat .rne false f v).1
    | none => []

/-- The stored block after the active elements take new register values (R305); `new` gives each element's
value where it is active. -/
def blockEncode (fmt geo : Nat) (t : ElemT) (old : List Byte) (new : List (Option Nat)) : List Byte × Flags :=
  if fmt == 10 then
    let q := geoPlanes geo
    let vs := List.zipWith (fun o n => match n with | some x => (convElem ctlRne t .i8 x).1 | none => o) (bpnStored old q) new
    (bpnEncode vs q, fNone)
  else bsEncode (List.zipWith (fun o n => match n with | some x => t.val x | none => o) (bsDecode old) new)

end Sys2Proof.Machine
end

