-- ==== Sys2Proof/Machine/Tensor.lean ====
section
/-! DEFINITION. Tensor handles and the rows of tensor-shaped requests (R75 to R81). -/

namespace Sys2Proof.Machine

/-! ## How an engine command stops -/

/-- Why a command of C, G, S, M or X goes no further: a translation miss, a condition it waits for, the end of one of its steps
(R329), a full frame log of a stream with the operation and the records that it has appended before (R183), an engine fault (ECODE,
DETAIL and memory fault record), or a fault of an access of Owl's for a stream, with the state in which it was made. `begun` is a
translation miss of an operation that has its turn at Owl (R218). -/
inductive EStop where
  | miss (who : Who) (ctx vpn : Nat)
  | begun (who : Who) (ctx vpn : Nat)
  | wait
  | step
  | logFull (op : Who × Nat) (st : Nat) (recs : List (Nat × List Byte))
  | fault (ecode detail : Nat) (mfr : Option MemFault)
  | owl (s : State) (st : Nat) (f : MemFault)
  deriving DecidableEq, Repr, Inhabited

/-- What a part of a command answers. -/
abbrev EM (α : Type) := Except EStop α

/-- A stopped access of an engine: ECODE 1 MEM (R348). -/
def Stop.engine : Stop → EStop
  | .miss wh c v => .miss wh c v
  | .flt f => .fault 1 0 (some f)

/-- An access made by an engine for itself. -/
def liftE {α : Type} : Except Stop α → EM α
  | .ok a => .ok a
  | .error e => .error e.engine

/-- An access that Owl makes for a stream (R440). -/
def liftOwl {α : Type} (s : State) (st : Nat) : Except Stop α → EM α
  | .ok a => .ok a
  | .error (.miss wh c v) => .error (.miss wh c v)
  | .error (.flt f) => .error (.owl s st f)

/-- An engine's own memory fault at an address. -/
def memStop (ag : Agent) (acc : Acc) (va : Nat) (c : Cause) : EStop :=
  .fault 1 0 (some ((⟨ag, acc, va, 1, false, true⟩ : Req).fault va c 7 0 0))

/-- Bytes read by an engine. -/
def eRead (s : State) (ag : Agent) (va n : Nat) : EM (List Byte) := liftE (rdBytes s ag .engRead va n)
/-- Bytes written by an engine. -/
def eWrite (s : State) (ag : Agent) (va : Nat) (bs : List Byte) : EM State := liftE (wrBytes s ag .engWrite va bs)

/-- Units `i`, `i + 1`, … of a command in progress order: the state after those that succeeded, how many
did, and why the next did not (R349). -/
def units (f : State → Nat → EM State) : Nat → Nat → State → State × Nat × Option EStop
  | 0, i, s => (s, i, none)
  | n + 1, i, s =>
    match f s i with
    | .error e => (s, i, some e)
    | .ok s => units f n (i + 1) s

/-! ## Handles (R75 to R77) -/

/-- A tensor handle. EXT_d is stored minus one. `tab` is the base and the stride of its permutation table, read with it (R77). -/
structure Handle where
  base  : Nat
  ndim  : Nat
  kind  : Nat
  padm  : Nat
  perm  : Bool
  ext   : List Nat
  pad   : Nat
  permh : Nat
  str   : List Int
  tab   : Int × Int
  deriving DecidableEq, Repr, Inhabited

def Handle.extOf (h : Handle) (d : Nat) : Nat := h.ext.getD d 0
def Handle.strOf (h : Handle) (d : Nat) : Int := h.str.getD d 0

/-- A 64-byte record read as a handle. -/
def parseHandle (bs : List Byte) : Handle :=
  let w := leNat (bs.take 8)
  let t := leNat (bs.drop 32)
  ⟨bits w 51 0, bits w 55 52, bits w 58 56, bits w 60 59, bit w 61,
   (List.range 9).map fun d => fieldAt bs (8 + 2 * d) 2, fieldAt bs 26 4, bits (fieldAt bs 30 2) 11 0,
   (List.range 9).map fun d => sext (t >>> (28 * d)) 28, (0, 0)⟩

/-- The first two points of R76. -/
def badHandle (bs : List Byte) : Bool :=
  let h := parseHandle bs
  let w := leNat (bs.take 8)
  h.ndim == 0 || 9 < h.ndim || 5 < h.kind || 1 < h.padm || bits w 63 62 != 0 || bits (fieldAt bs 30 2) 15 12 != 0 ||
    bits (leNat (bs.drop 32)) 255 252 != 0 ||
    (List.range 9).any fun d => h.ndim ≤ d && (h.extOf d != 0 || h.strOf d != 0)

/-- The 64 bytes of handle `i` of a context. -/
def handleBytes (s : State) (ag : Agent) (i : Nat) : EM (List Byte) :=
  eRead s ag (s.handleTable ag.ctx + 64 * i) 64

/-- A handle whose form is legal; HANDLE 1 otherwise. -/
def formHandle (s : State) (ag : Agent) (i : Nat) : EM Handle :=
  match handleBytes s ag i with
  | .error e => .error e
  | .ok bs => if badHandle bs then .error (.fault 2 1 none) else .ok (parseHandle bs)

/-- A handle with its permutation table, whose own handle is read here, once (R77): HANDLE 4 when it does not fit (R76). -/
def Handle.withTab (s : State) (ag : Agent) (h : Handle) : EM Handle :=
  if !h.perm then .ok h
  else
    match formHandle s ag h.permh with
    | .error (.fault 2 1 none) => .error (.fault 2 4 none)
    | .error e => .error e
    | .ok p =>
      if p.kind == 0 && p.ndim == 1 && p.extOf 0 == h.extOf 0 then .ok { h with tab := (p.base, p.strOf 0) }
      else .error (.fault 2 4 none)

/-- Handle `i`, with all of R76 checked. -/
def getHandle (s : State) (ag : Agent) (i : Nat) : EM Handle := (formHandle s ag i).bind fun h => h.withTab s ag

/-! ## Views of a tensor (R62, R80) -/

/-- A handle as a command uses it: the format of its page, the bytes of one unit of dimension 0, the
elements in a unit, and the stride between units. -/
structure View where
  h     : Handle
  ag    : Agent
  fmt   : Nat
  geo   : Nat
  fixed : Bool
  e     : Nat
  step  : Nat
  str0  : Int
  deriving DecidableEq, Repr, Inhabited

/-- A view of a handle whose page has a format. -/
def viewOf (h : Handle) (ag : Agent) (fmt geo : Nat) (fixed : Bool) : View :=
  let e := fmtSize fmt geo
  if isBlockFmt fmt then ⟨h, ag, fmt, geo, fixed, e, blockLen fmt geo, e⟩
  else ⟨h, ag, fmt, geo, fixed, e, 1, h.strOf 0⟩

/-- The page of BASE is translated and checked (R80); a fixed region is BYTES (R62), the reserved region a HOLE, and a BASE in the
privileged window PRIV even where every element is pad (R26). The check is an
engine read, ACC 4, for a destination too: R80 gives its fault no ACC (DESIGN CHOICE, log 26). -/
def openView (s : State) (ag : Agent) (h : Handle) : EM View :=
  if resvBase ≤ h.base then .error (memStop ag .engRead h.base .hole)
  else if winBase ≤ h.base && h.base < trigBase then
    (liftE (planFixed ⟨ag, .engRead, h.base, 1, false, false⟩)).map fun _ => viewOf h ag 0 0 true
  else if apBase ≤ h.base then .ok (viewOf h ag 0 0 true)
  else
    match liftE (pageFmt s ⟨ag, .engRead, h.base, 1, false, false⟩) with
    | .error e => .error e
    | .ok (f, g) => .ok (viewOf h ag f g false)

/-- A view with another element size, as R62 and R352 give to a BYTES page. -/
def View.sized (v : View) (w : View) : View := { v with e := w.e, step := w.step, str0 := if w.step == 1 then v.h.strOf 0 else w.e }

/-- The alignment rules of R80 for a request whose dimension 0 has this origin and shape. -/
def View.aligned (v : View) (o0 : Int) (s0 : Nat) : Bool :=
  let str := (List.range 9).all fun d => (v.step != 1 && d == 0) || v.h.strOf d % v.e == 0
  v.h.base % v.e == 0 && str &&
    (v.step == 1 || (v.h.strOf 0 == 0 && (v.h.extOf 0 + 1) % v.step == 0 && o0 % v.step == 0 && s0 % v.step == 0))

/-- FMT_TYPE of a request that breaks the rules of R80; FADDR is BASE, which R80 does not say (DESIGN CHOICE, log 71). -/
def View.fmtStop (v : View) (acc : Acc) : EStop := memStop v.ag acc v.h.base .fmtType

/-- The page test of the accesses of a view. -/
def View.ty (v : View) (fmt geo : Nat) : Bool := v.fixed || (fmt == v.fmt && geo == v.geo)

/-! ## Elements (R78, R79) -/

/-- Where an element lies. -/
inductive Spot where
  | pad
  | here (a : Nat)
  deriving DecidableEq, Repr, Inhabited

/-- Entry `x` of the permutation table of a handle (R78, R90). -/
def permEntry (s : State) (v : View) (x : Nat) : EM Nat :=
  let a : Int := v.h.tab.1 + x * v.h.tab.2
  if a < 0 || 2 ^ 52 ≤ a then .error (memStop v.ag .engRead (wrapW 64 a) .noncanon)
  else (eRead s v.ag a.toNat 2).map leNat

/-- Sum of coordinate times stride from dimension `d` up. -/
def offsetFrom (h : Handle) : Nat → List Int → Int
  | _, [] => 0
  | d, x :: xs => x * h.strOf d + offsetFrom h (d + 1) xs

/-- The address of a coordinate; an address outside 2^52 faults. On a page of FMT 10 or 11 the coordinate, or the table entry that
stands for it, names the stored block that holds it, which moves whole (DESIGN CHOICE, log 85). -/
def View.addrOf (v : View) (acc : Acc) (x0 : Int) (rest : List Int) : EM Spot :=
  let a : Int := v.h.base + x0 / v.step * v.str0 + offsetFrom v.h 1 rest
  if a < 0 || 2 ^ 52 ≤ a then .error (memStop v.ag acc (wrapW 64 a) .noncanon) else .ok (.here a.toNat)

/-- Coordinates all inside their extents, from dimension `d`. -/
def insideFrom (h : Handle) : Nat → List Int → Bool
  | _, [] => true
  | d, x :: xs => 0 ≤ x && x ≤ h.extOf d && insideFrom h (d + 1) xs

/-- Coordinates clamped into their extents. -/
def clampFrom (h : Handle) : Nat → List Int → List Int
  | _, [] => []
  | d, x :: xs => sat x 0 (h.extOf d) :: clampFrom h (d + 1) xs

/-- R78 for one element; `rd` tells a read from a write. On FMT 10 and 11 the element stands for its whole stored block: a permutation
table's entry is that of the block's first element, and CLAMP repeats the whole block (DESIGN CHOICE, log 85). -/
def View.spot (s : State) (v : View) (rd : Bool) (x0 : Int) (rest : List Int) : EM Spot :=
  let acc : Acc := if rd then .engRead else .engWrite
  let clamps := rd && v.h.padm == 1
  if insideFrom v.h 0 (x0 :: rest) then
    if v.h.perm then
      match permEntry s v x0.toNat with
      | .error e => .error e
      | .ok p =>
        if v.h.extOf 0 < p then (if clamps then v.addrOf acc (v.h.extOf 0) rest else .ok .pad)
        else v.addrOf acc p rest
    else v.addrOf acc x0 rest
  else if clamps then
    let y0 := sat x0 0 (v.h.extOf 0)
    let ys := clampFrom v.h 1 rest
    if v.h.perm then
      match permEntry s v y0.toNat with
      | .error e => .error e
      | .ok p => v.addrOf acc (min p (v.h.extOf 0)) ys
    else v.addrOf acc y0 ys
  else .ok .pad

/-- The bytes of a pad unit (R79); REUSE pads with zero (R165). -/
def View.padBytes (v : View) : List Byte :=
  if v.h.kind == 4 then List.replicate v.e 0
  else if v.step != 1 then List.replicate v.e (BitVec.ofNat 8 v.h.pad)
  else leBytes v.e v.h.pad

/-! ## Rows (R81) -/

/-- The spots of `n` units of a row from unit coordinate `x0`. -/
def View.rowSpots (s : State) (v : View) (rd : Bool) (rest : List Int) : Nat → Int → EM (List Spot)
  | 0, _ => .ok []
  | n + 1, x0 =>
    match v.spot s rd x0 rest with
    | .error e => .error e
    | .ok p =>
      match v.rowSpots s rd rest n (x0 + v.step) with
      | .error e => .error e
      | .ok ps => .ok (p :: ps)

/-- A range cut at 256-byte boundaries. -/
def cutSpan : Nat → Nat → Nat → Spans
  | 0, _, _ => []
  | k + 1, a, n =>
    if n == 0 then [] else
      let c := min n (256 - a % 256)
      (a, c) :: cutSpan k (a + c) (n - c)

/-- Read runs of spans, each run one request: every span with its bytes. -/
def readRuns (s : State) (ag : Agent) (ty : Nat → Nat → Bool) : List Spans → EM (List ((Nat × Nat) × List Byte))
  | [] => .ok []
  | r :: rs =>
    match liftE (spanRead s ag .engRead r ty) with
    | .error e => .error e
    | .ok bs => (readRuns s ag ty rs).map fun cs => r.zip bs ++ cs

/-- Bytes of the units in order, pad units filled in. -/
def fillPads (e : Nat) (pad : List Byte) : List Spot → List Byte → List Byte
  | [], _ => []
  | .pad :: ps, bs => pad ++ fillPads e pad ps bs
  | .here _ :: ps, bs => bs.take e ++ fillPads e pad ps (bs.drop e)

/-- Addresses of the units that are accessed, cut into spans. -/
def spansOf (e : Nat) : List Spot → Spans
  | [] => []
  | .pad :: ps => spansOf e ps
  | .here a :: ps => cutSpan (e / 256 + 2) a e ++ spansOf e ps

/-- The stop of a row that does not lie within one slice (R20). -/
def View.cross (s : State) (v : View) (acc : Acc) (sp : Spans) : Option Stop :=
  runsCross s v.ag acc v.ty (lowSpan sp).1 (pieceRuns Prod.fst sp)

/-- The bytes of given spots of one row through a view. -/
def View.readSpots (s : State) (v : View) (ps : List Spot) : EM (List Byte) :=
  let sp := spansOf v.e ps
  match v.cross s .engRead sp with
  | some e => .error e.engine
  | none =>
    match readRuns s v.ag v.ty (pieceRuns Prod.fst sp) with
    | .error e => .error e
    | .ok rs => .ok (fillPads v.e v.padBytes ps (sp.flatMap fun x => (rs.lookup x).getD []))

/-- The bytes of `n` units of a row. -/
def View.readRow (s : State) (v : View) (x0 : Int) (n : Nat) (rest : List Int) : EM (List Byte) :=
  match v.rowSpots s true rest n x0 with
  | .error e => .error e
  | .ok ps => v.readSpots s ps

/-- Bytes for each unit, cut at 256-byte boundaries; pads are discarded. -/
def writesOf (e : Nat) : List Spot → List Byte → List (Nat × List Byte)
  | [], _ => []
  | .pad :: ps, bs => writesOf e ps (bs.drop e)
  | .here a :: ps, bs =>
    ((cutSpan (e / 256 + 2) a e).map fun c => (c.1, (bs.drop (c.1 - a)).take c.2)) ++ writesOf e ps (bs.drop e)

/-- Write runs, each one request. -/
def writeRuns (ag : Agent) (ty : Nat → Nat → Bool) : List (List (Nat × List Byte)) → State → EM State
  | [], s => .ok s
  | r :: rs, s =>
    match liftE (spanWrite s ag .engWrite r ty) with
    | .error e => .error e
    | .ok s => writeRuns ag ty rs s

/-- Bytes written at given spots of one row: the state and how many were not discarded. -/
def View.writeSpots (s : State) (v : View) (ps : List Spot) (bs : List Byte) : EM (State × Nat) :=
  let ws := writesOf v.e ps bs
  if let some e := v.cross s .engWrite (ws.map fun w => (w.1, w.2.length)) then .error e.engine else
  match writeRuns v.ag v.ty (pieceRuns Prod.fst ws) s with
  | .error e => .error e
  | .ok s => .ok (s, (ws.map fun w => w.2.length).sum)

/-- Write the units of a row. -/
def View.writeRow (s : State) (v : View) (x0 : Int) (rest : List Int) (bs : List Byte) : EM (State × Nat) :=
  match v.rowSpots s false rest (bs.length / v.e) x0 with
  | .error e => .error e
  | .ok ps => v.writeSpots s ps bs

/-- Coordinates of row `n` of a shape: dimension 1 varies fastest. -/
def rowCoords : List Nat → List Int → Nat → List Int
  | [], _, _ => []
  | k :: ks, os, n => (os.headD 0 + (n % k : Nat)) :: rowCoords ks (os.drop 1) (n / k)

/-- Rows of a shape. -/
def rowsIn (shp : List Nat) : Nat := (shp.drop 1).foldl (· * ·) 1

/-! ## Engines as requesters (R33, R41, R54) -/

/-- The reach of engine e: V, M, C, G, S, X (R33). -/
def engReach : Nat → Reach
  | 4 => ⟨true, true, true, false, false⟩
  | 1 => ⟨false, false, true, false, false⟩
  | 5 => ⟨true, false, false, false, false⟩
  | _ => ⟨true, true, true, false, false⟩

/-- UNIT of an engine: its core, the FI of R346 for G, 0 for Owl. -/
def engUnit (e core : Nat) : Nat :=
  if e == 3 then fiOf core else if e == 5 then 0 else core

/-- Engine `e` of core `n` performing an entry: the CLS of its memory words, the mode and context that the
entry was pushed in. -/
def engAgent (n e : Nat) (q : QEntry) : Agent :=
  ⟨.engine n e, e + 1, engUnit e n, q.mode, q.ctx, n, engReach e⟩

/-- The engine of the step in progress. -/
def State.eng (s : State) : Agent :=
  match s.cur.who with
  | .engine n e => engAgent n e s.cur.ent
  | _ => engAgent s.cur.core 0 s.cur.ent

end Sys2Proof.Machine
end

