-- ==== Sys2Proof/Machine/Owl.lean ====
section
/-! DEFINITION. Owl, the change-mask unit: the layer table, the metadata of the reuse store, the frame log,
reads and writes through REUSE handles, and the five CM operations (R163 to R184, R355, R364 to R366, R440). -/

namespace Sys2Proof.Machine

/-! ## Accesses of Owl's (R169, R440) -/

/-- Owl acting for stream `st` in the step in progress. -/
def State.owl (s : State) (st : Nat) : Agent := { owlAgent (s.streamCtx st) with who := s.cur.who }

def owlRead (s : State) (st va n : Nat) : EM (List Byte) := liftOwl s st (rdBytes s (s.owl st) .engRead va n)
def owlWrite (s : State) (st va : Nat) (bs : List Byte) : EM State := liftOwl s st (wrBytes s (s.owl st) .engWrite va bs)

/-- A record with bytes replaced from an offset. -/
def putAt (bs : List Byte) (o : Nat) (v : List Byte) : List Byte := splice bs o v

/-! ## The layer table (R163, R164) -/

/-- A layer table entry. -/
structure LayerE where
  thresh : Nat
  budget : Nat
  resW   : Nat
  mvW    : Nat
  refresh : Nat
  cfg    : Nat
  stride : Nat
  rwin   : Nat
  lower  : Nat
  attf   : Nat
  esmax  : Nat
  rh     : Nat
  ept    : Nat
  deriving DecidableEq, Repr, Inhabited

/-- A 32-byte entry. -/
def parseLayer (b : List Byte) : LayerE :=
  ⟨fieldAt b 0 4, fieldAt b 4 4, fieldAt b 8 4, fieldAt b 12 4, fieldAt b 16 1, fieldAt b 17 1, fieldAt b 18 2,
   fieldAt b 20 2, fieldAt b 22 1, fieldAt b 23 1, fieldAt b 24 2, fieldAt b 26 2, fieldAt b 28 4⟩

def LayerE.tsz (e : LayerE) : Nat := 8 * 2 ^ bits e.cfg 1 0
def LayerE.src (e : LayerE) : Nat := bits e.cfg 3 2
def LayerE.en (e : LayerE) : Bool := bit e.cfg 4
def LayerE.att (e : LayerE) : Bool := bit e.cfg 5
def LayerE.esc (e : LayerE) : Bool := bit e.cfg 6
def LayerE.low (e : LayerE) : Nat := bits e.lower 5 0

/-- A weight or threshold that R164 refuses: negative other than -0, NaN or infinite. -/
def badF32 (x : Nat) : Bool :=
  match fmtF32.dec x with
  | .fin neg m _ => neg && m != 0
  | _ => true

/-- The points of R164 that need no handle. -/
def badLayer (l : Nat) (e : LayerE) : Bool :=
  bits e.cfg 1 0 == 3 || e.src == 3 || bit e.cfg 7 || bits e.lower 7 6 != 0 || bits e.rh 15 12 != 0 || 4095 < e.rwin ||
    e.refresh == 0 || e.stride == 0 || 1024 < e.stride || badF32 e.thresh || badF32 e.budget || badF32 e.resW || badF32 e.mvW ||
    (e.esc && e.esmax < 0x100) || (e.src != 0 && l ≤ e.low)

/-- The held entry of a layer, when it is legal in itself. -/
def State.heldLayer (s : State) (st l : Nat) : Option LayerE :=
  if thas (s.stream st).layers l then
    let e := parseLayer (tget [] (s.stream st).layers l)
    if badLayer l e then none else some e
  else none

/-- A layer: its entry, its REUSE handle and its grid (R165). -/
structure Layer where
  st : Nat
  l  : Nat
  e  : LayerE
  h  : Handle
  gw : Nat
  gh : Nat
  deriving DecidableEq, Repr, Inhabited

/-- Elements of the layer's output across and down. -/
def Layer.w (y : Layer) : Nat := y.h.extOf 1 + 1
def Layer.hgt (y : Layer) : Nat := y.h.extOf 2 + 1
def Layer.t (y : Layer) : Nat := y.e.tsz

/-- A REUSE handle of stream `st` and layer `l` (R165). -/
def isReuse (h : Handle) (st l : Nat) : Bool :=
  h.kind == 4 && h.ndim == 4 && h.extOf 3 == 1 && !h.perm && bits h.pad 6 0 == st && bits h.pad 12 7 == l && bits h.pad 31 13 == 0

/-- A CM command refused with a status (R366). -/
def cmStatus {α : Type} (c : Nat) : EM α := .error (.fault 9 c none)

/-- A handle of the stream's context read by Owl; `bad` answers a malformed one. -/
def owlHandle (s : State) (st i bad : Nat) : EM Handle :=
  match getHandle s (s.owl st) i with
  | .ok h => .ok h
  | .error (.fault 1 _ (some f)) => .error (.owl s st f)
  | .error (.fault _ _ _) => cmStatus bad
  | .error e => .error e

/-- A well-formed layer; LAYER otherwise (R164). -/
def getLayer (s : State) (st l : Nat) : EM Layer :=
  match s.heldLayer st l with
  | none => cmStatus 2
  | some e =>
    match owlHandle s st (bits e.rh 11 0) 2 with
    | .error x => .error x
    | .ok h =>
      let gw := ceilDiv (h.extOf 1 + 1) e.tsz
      let gh := ceilDiv (h.extOf 2 + 1) e.tsz
      if isReuse h st l && gw * gh ≤ 65536 then .ok ⟨st, l, e, h, gw, gh⟩ else cmStatus 2

/-! ## The frame log (R182, R183) -/

/-- A frame-log record. -/
def logRec (frame kind layer scale cr cc te gen : Nat) : List Byte :=
  leBytes 8 frame ++ leBytes 1 kind ++ leBytes 1 layer ++ leBytes 2 scale ++ leBytes 4 cr ++ leBytes 4 cc ++
    leBytes 4 te ++ leBytes 4 gen ++ leBytes 4 0

/-- Records in a ring with this size field. -/
def ringSize (v : Nat) : Nat := 2 ^ (bits v 3 0 + 7)

/-- The ring of a stream has no room (R183). -/
def State.logIsFull (s : State) (st : Nat) : Bool :=
  (s.rget (oCmuS st 0x20) 0 + 2 ^ 32 - s.rget (oCmuS st 0x24) 0) % 2 ^ 32 == ringSize (s.rget (oCmuS st 0x18) 0)

/-- A record written into the ring, and HEAD advanced. -/
def logWrite (s : State) (st : Nat) (r : List Byte) : EM State :=
  let v := s.rget (oCmuS st 0x18) 0
  let hd := s.rget (oCmuS st 0x20) 0
  match owlWrite s st (bits v 51 12 * 4096 + 32 * (hd % ringSize v)) r with
  | .error e => .error e
  | .ok s => .ok (s.rset (oCmuS st 0x20) ((hd + 1) % 2 ^ 32))

/-- Append a record. What waits for room begins again once there is some; the records that it has appended are not appended
again (log 78). -/
def logAppend (s : State) (st : Nat) (r : List Byte) : EM State :=
  let o := s.owlOp
  let done := ((o.held.find? fun p => p.1 == s.opKey).map Prod.snd).getD 0
  if o.seen < done then .ok { s with owlOp := { o with seen := o.seen + 1 } }
  else if s.logIsFull st then .error (.logFull s.opKey st o.recs)
  else (logWrite { s with owlOp := { o with seen := o.seen + 1, recs := o.recs ++ [(st, r)] } } st r)

/-- Records appended again in the state in which an operation began. -/
def logAgain : List (Nat × List Byte) → State → State
  | [], s => s
  | (st, r) :: rs, s => match logWrite s st r with | .ok t => logAgain rs t | .error _ => logAgain rs s

/-- The state of operation `op` that waits for room in the ring of stream `st`: as it began, but for the records appended so far,
and with LOG_STALL (R183). -/
def State.logStall (s0 : State) (op : Who × Nat) (st : Nat) (recs : List (Nat × List Byte)) : State :=
  let o := s0.owlOp
  let done := ((o.held.find? fun p => p.1 == op).map Prod.snd).getD 0
  let s := logAgain recs s0
  { s with owlOp := { o with held := (op, done + recs.length) :: o.held.filter fun p => p.1 != op } }.cmuStat st 1

/-! ## Metadata (R166, R184) -/

/-- Address of a tile record. -/
def State.tileAddr (s : State) (st l t : Nat) : Nat := s.metaAddr st l + 64 + 32 * t

/-- A metadata record read; one with an uncorrectable error is rewritten as never computed, and the layer's commands that have
begun lose their marks (R184). -/
def metaRead (s : State) (st l a : Nat) (fresh : List Byte) (tile gen : Nat) : EM (State × List Byte) :=
  match rdBytes s (s.owl st) .engRead a fresh.length with
  | .ok b => .ok (s, b)
  | .error (.miss wh c v) => .error (.miss wh c v)
  | .error (.flt f) =>
    if f.cause == .memUe then
      match owlWrite s st a fresh with
      | .error e => .error e
      | .ok s =>
        match logAppend { s with owlOp := { s.owlOp with lost := (st, l) :: s.owlOp.lost } } st
            (logRec (s.cmuFrame st) 5 l 0 tile 0 0 gen) with
        | .error e => .error e
        | .ok s => .ok (s, fresh)
    else .error (.owl s st f)

/-- The layer state record. -/
def readLayer (s : State) (st l : Nat) : EM (State × List Byte) := metaRead s st l (s.metaAddr st l) idleLayer 0 0
/-- The record of a tile. -/
def readTile (s : State) (st l t gen : Nat) : EM (State × List Byte) :=
  metaRead s st l (s.tileAddr st l t) (List.replicate 32 0) t gen

/-- Fields of the layer state record. -/
def lsFrame (b : List Byte) : Nat := fieldAt b 0 8
def lsEFrame (b : List Byte) : Nat := fieldAt b 8 8
def lsState (b : List Byte) : Nat := fieldAt b 16 1
def lsCh (b : List Byte) : Nat := bits (fieldAt b 17 1) 0 0
def lsCountR (b : List Byte) : Nat := fieldAt b 24 4
def lsCountC (b : List Byte) : Nat := fieldAt b 28 4
def lsNwr (b : List Byte) : Nat := fieldAt b 32 4
def lsGen (b : List Byte) : Nat := fieldAt b 36 4
def lsList (b : List Byte) : Nat := bits (fieldAt b 40 2) 11 0
def lsNscale (b : List Byte) : Nat := fieldAt b 42 2
/-- No commit since the stream opened. -/
def lsNever (b : List Byte) : Bool := lsFrame b == m64

/-- Half `c` of a tile record. -/
def halfOf (b : List Byte) (c : Nat) : List Byte := (b.drop (12 * c)).take 12
def hfAcc (h : List Byte) : Nat := fieldAt h 0 4
def hfAge (h : List Byte) : Nat := fieldAt h 4 1
def hfSlot (h : List Byte) : Nat := bits (fieldAt h 5 1) 0 0
def hfValid (h : List Byte) : Bool := bit (fieldAt h 5 1) 1
def hfWr (h : List Byte) : Bool := bit (fieldAt h 5 1) 2
/-- A half. -/
def mkHalf (acc age slot : Nat) (dx dy : Int) : List Byte :=
  leBytes 4 acc ++ leBytes 1 age ++ leBytes 1 (slot + 2) ++ leBytes 2 (wrapW 16 dx) ++ leBytes 2 (wrapW 16 dy) ++ leBytes 2 0

/-- REQ bits of a tile set, written (R184, R365). -/
def setReq (s : State) (st l t gen v : Nat) : EM State :=
  match readTile s st l t gen with
  | .error e => .error e
  | .ok (s, b) => owlWrite s st (s.tileAddr st l t + 24) (leBytes 1 (fieldAt b 24 1 ||| v))

/-- An uncorrectable error found in tile `t` (R184). -/
def ueTile (s : State) (st l t gen : Nat) : EM State :=
  match setReq s st l t gen 1 with
  | .error e => .error e
  | .ok s => logAppend (s.cmuStat st 2) st (logRec (s.cmuFrame st) 5 l 0 t 0 0 gen)

/-! ## Reads through a REUSE handle (R167, R184) -/

/-- What a command takes of a layer at its start; `none` where every element reads as zero. -/
structure Reuse where
  st  : Nat
  l   : Nat
  t   : Nat
  gw  : Nat
  ch  : Nat
  gen : Nat
  deriving DecidableEq, Repr, Inhabited

/-- The layer of a REUSE handle, read once. A layer whose held entry is malformed has committed nothing
that can be read (log 27). -/
def openReuse (s : State) (h : Handle) : EM (State × Option Reuse) :=
  let st := bits h.pad 6 0
  let l := bits h.pad 12 7
  match s.heldLayer st l with
  | none => .ok (s, none)
  | some e =>
    match readLayer s st l with
    | .error x => .error x
    | .ok (s, b) =>
      if lsNever b then .ok (s, none)
      else .ok (s, some ⟨st, l, e.tsz, ceilDiv (h.extOf 1 + 1) e.tsz, lsCh b, lsGen b⟩)

/-- A fault of a read that R184 makes good, by R111 a tag or key failure too: the place that stands for the error, for a failure
the block. -/
def hurtPlace (f : MemFault) : Option Nat :=
  match f.cause with
  | .memUe => some (eccBase f.detail)
  | .gcmTag => some (2 ^ 64 + f.faddr / 256)
  | .keyInvalid => some (2 ^ 64 + f.faddr / 256)
  | _ => none

/-- The units of a row read one by one, an error giving zeros; the places found with one. -/
def readHurt (s : State) (v : View) : List Spot → EM (List Byte × List Nat)
  | [] => .ok ([], [])
  | p :: ps =>
    match readHurt s v ps with
    | .error e => .error e
    | .ok (bs, us) =>
      match v.readSpots s [p] with
      | .ok b => .ok (b ++ bs, us)
      | .error (.fault 1 d (some f)) =>
        (match hurtPlace f with
         | some u => .ok (List.replicate v.e 0 ++ bs, u :: us)
         | none => .error (.fault 1 d (some f)))
      | .error e => .error e

/-- A row at spots, with the substitution of R184, and the places found with an error. -/
def readSubst (s : State) (v : View) (ps : List Spot) : EM (List Byte × List Nat) :=
  match v.readSpots s ps with
  | .ok b => .ok (b, [])
  | .error (.fault 1 d (some f)) => if (hurtPlace f).isSome then readHurt s v ps else .error (.fault 1 d (some f))
  | .error e => .error e

/-- `n` units of the channel row at (x, y) of a slot. -/
def slotRow (s : State) (v : View) (c0 : Int) (n : Nat) (x y : Int) (slot : Nat) : EM (List Byte × List Nat) :=
  match v.rowSpots s true [x, y, slot] n c0 with
  | .error e => .error e
  | .ok ps => readSubst s v ps

/-- Errors found by reads through a REUSE handle: a command reports each once for each tile that it touches (R184; log 60). -/
def ueFoundIn (st l t gen : Nat) : List Nat → State → EM State
  | [], s => .ok s
  | u :: us, s =>
    let k := (u, (st * 64 + l) * 65536 + t)
    if s.owlOp.found.contains k then ueFoundIn st l t gen us s
    else
      match ueTile s st l t gen with
      | .error e => .error e
      | .ok s => ueFoundIn st l t gen us { s with owlOp := { s.owlOp with found := k :: s.owlOp.found } }

/-- A row through a REUSE handle: the committed slot of its tile, zeros where there is none (R167). `also` is
the tile that a tcpy.mc writes. -/
def reuseRow (s : State) (v : View) (rc : Option Reuse) (c0 : Int) (n : Nat) (x y : Int) (also : Option Nat) :
    EM (State × List Byte) :=
  let zeros := List.replicate (n * v.e) (0 : Byte)
  let clamps := v.h.padm == 1
  let xs : Int := if clamps then sat x 0 (v.h.extOf 1) else x
  let ys : Int := if clamps then sat y 0 (v.h.extOf 2) else y
  match rc with
  | none => .ok (s, zeros)
  | some r =>
    if xs < 0 || v.h.extOf 1 < xs || ys < 0 || v.h.extOf 2 < ys then .ok (s, zeros)
    else
      let t := ys.toNat / r.t * r.gw + xs.toNat / r.t
      match readTile s r.st r.l t r.gen with
      | .error e => .error e
      | .ok (s, b) =>
        let hf := halfOf b r.ch
        if !hfValid hf then .ok (s, zeros)
        else
          match slotRow s v c0 n xs ys (hfSlot hf) with
          | .error e => .error e
          | .ok (bs, []) => .ok (s, bs)
          | .ok (bs, us) =>
            match ueFoundIn r.st r.l t r.gen us s with
            | .error e => .error e
            | .ok s =>
              match also with
              | none => .ok (s, bs)
              | some u => (setReq s r.st r.l u r.gen 1).map fun s => (s, bs)

/-- A row of `n` units of a handle at coordinates `rest` of dimensions 1 up. Beyond the four dimensions of a REUSE handle a
coordinate other than 0 is a pad's (R78, R352). -/
def viewRow (s : State) (v : View) (rc : Option Reuse) (x0 : Int) (n : Nat) (rest : List Int) : EM (State × List Byte) :=
  if v.h.kind != 4 then (v.readRow s x0 n rest).map fun b => (s, b)
  else if v.h.padm != 1 && (rest.drop 3).any (· != 0) then .ok (s, List.replicate (n * v.e) 0)
  else reuseRow s v rc x0 n (rest.headD 0) ((rest.drop 1).headD 0) none

/-! ## Tile lists (R177, R355, R363) -/

/-- An address a signed distance from BASE, as 64 bits. -/
def Handle.at (h : Handle) (d : Int) : Nat := wrapW 64 (h.base + d)

/-- Entry `i` of a list as read by an agent. -/
def listEntry (s : State) (ag : Agent) (h : Handle) (i : Nat) : EM (List Byte) := eRead s ag (h.at (16 * i)) 16
/-- The header of a list. -/
def listHeader (s : State) (ag : Agent) (h : Handle) : EM (List Byte) := eRead s ag (h.at (-64)) 64

/-- The layer, entry and pending state that scat.tl and tcpy.mc write (R168): entry `i` of list `lh`. `copy` asks
for an entry of the copy section. The state is the same but for repaired records. -/
structure Target where
  y    : Layer
  tile : Nat
  tx   : Nat
  ty   : Nat
  dx   : Int
  dy   : Int
  slot : Nat
  gen  : Nat
  deriving DecidableEq, Repr, Inhabited

/-- The tile-list checks of R355 and R363: the header and the entry. `sect` 0 any section, 1 recompute, 2 copy. -/
def tileEntry (s : State) (ag : Agent) (lh i sect : Nat) : EM (Handle × List Byte × List Byte) :=
  match getHandle s ag lh with
  | .error (.fault 2 _ _) => .error (.fault 6 1 none)
  | .error e => .error e
  | .ok h =>
    if h.kind != 5 then .error (.fault 6 1 none)
    else
      match listHeader s ag h with
      | .error e => .error e
      | .ok hd =>
        if fieldAt hd 12 4 + fieldAt hd 16 4 ≤ i then .error (.fault 6 2 none)
        else if sect == 1 && fieldAt hd 12 4 ≤ i then .error (.fault 6 3 none)
        else
          match listEntry s ag h i with
          | .error e => .error e
          | .ok b => if sect == 2 && !bit (fieldAt b 5 1) 1 then .error (.fault 6 3 none) else .ok (h, hd, b)

/-- The layer that a list header names, for a command of G or C: a refused layer is TL_ENTRY 4. -/
def listLayer (s : State) (hd : List Byte) : EM Layer :=
  match getLayer s (bits (fieldAt hd 9 1) 6 0) (bits (fieldAt hd 8 1) 5 0) with
  | .error (.fault 9 _ _) => .error (.fault 6 4 none)
  | r => r

/-- The pending slot of the tile of an entry. -/
def pendingOf (s : State) (y : Layer) (b : List Byte) : EM (State × Target) :=
  let tx := fieldAt b 0 2
  let ty := fieldAt b 2 2
  let t := ty * y.gw + tx
  match readLayer s y.st y.l with
  | .error e => .error e
  | .ok (s, ls) =>
    match readTile s y.st y.l t (lsGen ls) with
    | .error e => .error e
    | .ok (s, r) =>
      .ok (s, ⟨y, t, tx, ty, sext (fieldAt b 8 2) 16, sext (fieldAt b 10 2) 16, hfSlot (halfOf r (1 - lsCh ls)), lsGen ls⟩)

/-- The written mark of R168; it is dropped when a record of the layer was rewritten since the command began (R184). -/
def markWritten (s : State) (g : Target) : EM State :=
  match readLayer s g.y.st g.y.l with
  | .error e => .error e
  | .ok (s, ls) =>
    if lsGen ls != g.gen || lsState ls != 1 || s.owlOp.lost.contains (g.y.st, g.y.l) then .ok s
    else
      match readTile s g.y.st g.y.l g.tile g.gen with
      | .error e => .error e
      | .ok (s, r) =>
        let o := 12 * (1 - lsCh ls)
        if hfWr (halfOf r (1 - lsCh ls)) then .ok s
        else
          match owlWrite s g.y.st (s.tileAddr g.y.st g.y.l g.tile + o + 5) (leBytes 1 (fieldAt r (o + 5) 1 ||| 4)) with
          | .error e => .error e
          | .ok s => owlWrite s g.y.st (s.metaAddr g.y.st g.y.l + 32) (leBytes 4 (lsNwr ls + 1))

/-! ## The export tensors (R155) -/

/-- The four export views of a stream and its buffers. -/
structure Exports where
  luma : View
  chroma : View
  motion : View
  residual : View
  nbuf : Nat
  deriving DecidableEq, Repr, Inhabited

/-- A handle fits with this kind, dimensions, extents at least these, and format. -/
def fits (v : View) (kind ndim fmt : Nat) (ext : List Nat) : Bool :=
  v.h.kind == kind && v.h.ndim == ndim && v.fmt == fmt &&
    (List.range ext.length).all fun d => ext.getD d 0 ≤ v.h.extOf d + 1

/-- The views of CMU_SRC_s, read by `ag`; a malformed handle answers none. -/
def exportViews (s : State) (ag : Agent) (st : Nat) : Except Stop (Option Exports) :=
  let src := s.rget (oCmuS st 0x10) 0
  let one (i : Nat) : Except Stop (Option View) :=
    match getHandle s ag i with
    | .error (.miss wh c v) => .error (.miss wh c v)
    | .error (.fault _ _ (some f)) => .error (.flt f)
    | .error _ => .ok none
    | .ok h =>
      match openView s ag h with
      | .error (.miss wh c v) => .error (.miss wh c v)
      | .error (.fault _ _ (some f)) => .error (.flt f)
      | .error _ => .ok none
      | .ok v => .ok (some v)
  match one (bits src 11 0), one (bits src 47 36), one (bits src 23 12), one (bits src 35 24) with
  | .ok a, .ok b, .ok c, .ok d =>
    match a, b, c, d with
    | some a, some b, some c, some d => .ok (some ⟨a, b, c, d, bits src 54 51 + 1⟩)
    | _, _, _, _ => .ok none
  | .error e, _, _, _ => .error e
  | _, .error e, _, _ => .error e
  | _, _, .error e, _ => .error e
  | _, _, _, .error e => .error e

/-- The handles fit a picture of this size (R155). -/
def Exports.fit (x : Exports) (w h lumaFmt : Nat) : Bool :=
  fits x.luma 1 3 lumaFmt [w, h, x.nbuf] &&
    (x.chroma.h.extOf 0 == 1 && fits x.chroma 1 4 lumaFmt [2, ceilDiv w 2, ceilDiv h 2, x.nbuf]) &&
    (x.motion.h.extOf 0 == 1 && fits x.motion 2 4 8 [2, ceilDiv w 8, ceilDiv h 8, x.nbuf]) &&
    fits x.residual 3 3 2 [ceilDiv w 8, ceilDiv h 8, x.nbuf]

/-! ## The change score (R170 to R172) -/

/-- One block's vector and energy. -/
structure Blk where
  u : Int
  v : Int
  e : Nat
  deriving DecidableEq, Repr, Inhabited

/-- Both components are the mark of an intra block (R156). -/
def Blk.intra (b : Blk) : Bool := b.u == -32768 && b.v == -32768

/-- Block (bx, by) of buffer `b`. -/
def readBlk (s : State) (st : Nat) (x : Exports) (b bx bY : Nat) : EM Blk :=
  let rd (v : View) (x0 : Int) (n : Nat) (rest : List Int) : EM (List Byte) :=
    match (if v.aligned 0 v.step then v.readRow s x0 n rest else .error (v.fmtStop .engRead)) with
    | .error (.fault _ _ (some f)) => .error (.owl s st f)
    | r => r
  match rd x.motion 0 2 [bx, bY, b] with
  | .error e => .error e
  | .ok m =>
    match rd x.residual bx 1 [bY, b] with
    | .error e => .error e
    | .ok r => .ok ⟨sext (fieldAt m 0 2) 16, sext (fieldAt m 2 2) 16, fieldAt r 0 2⟩

/-- The blocks of one row of a window, then of all its rows. -/
def readBlkRow (s : State) (st : Nat) (x : Exports) (b bY : Nat) : Nat → Nat → EM (List Blk)
  | 0, _ => .ok []
  | n + 1, bx =>
    match readBlk s st x b bx bY with
    | .error e => .error e
    | .ok k => (readBlkRow s st x b bY n (bx + 1)).map (k :: ·)

def readBlks (s : State) (st : Nat) (x : Exports) (b bx nx : Nat) : Nat → Nat → EM (List Blk)
  | 0, _ => .ok []
  | n + 1, bY =>
    match readBlkRow s st x b bY nx bx with
    | .error e => .error e
    | .ok r => (readBlks s st x b bx nx n (bY + 1)).map (r ++ ·)

/-- Insert into an ascending list. -/
def insertAsc (x : Int) : List Int → List Int
  | [] => [x]
  | y :: ys => if x ≤ y then x :: y :: ys else y :: insertAsc x ys

/-- Sorted ascending. -/
def sortAsc : List Int → List Int
  | [] => []
  | x :: xs => insertAsc x (sortAsc xs)

/-- The lower median (R171). -/
def lowMedian (xs : List Int) : Int := (sortAsc xs).getD ((xs.length - 1) / 2) 0

/-- a / b rounded to the nearest integer, ties away from zero. -/
def roundAway (a : Int) (b : Nat) : Int :=
  let q : Int := ((2 * a.natAbs + b) / (2 * b) : Nat)
  if a < 0 then -q else q

/-- The displacement of a window (R171) before the attention rule. -/
def dispOf (bs : List Blk) (stride : Nat) : Int × Int :=
  (roundAway (lowMedian (bs.map Blk.u)) (4 * stride), roundAway (lowMedian (bs.map Blk.v)) (4 * stride))

/-- The deviation D in FP32. -/
def deviation (bs : List Blk) (stride : Nat) (d : Int × Int) : Nat :=
  let n := (bs.map fun b => (b.u - 4 * stride * d.1).natAbs + (b.v - 4 * stride * d.2).natAbs).sum
  (fmtF32.roundQuot .rne false false n (4 * bs.length) 0).1

/-- FP32 operations with one rounding under RNE. -/
def f32mul (a b : Nat) : Nat := (fmtF32.round .rne false (fvMul (fmtF32.dec a) (fmtF32.dec b)).1).1
def f32add (a b : Nat) : Nat := (fmtF32.round .rne false (fvAdd .rne (fmtF32.dec a) (fmtF32.dec b)).1).1
def f32inf : Nat := fmtF32.infBits false
def f32gt (a b : Nat) : Bool := fvLt (fmtF32.dec b) (fmtF32.dec a)
def f32max (a b : Nat) : Nat := (fmtF32.round .rne false (fvMax (fmtF32.dec a) (fmtF32.dec b))).1

/-- The residual term of CODEC: the exact sum rounded once; a bad energy counts as +Inf. -/
def codecTerm (bs : List Blk) : Nat :=
  let vs := bs.map fun b => fmtF16.dec b.e
  if vs.any fun v => !v.isFin || (v.isNeg && !v.isZero) then f32inf
  else (fmtF32.round .rne false ((dySum (vs.map Fv.dy)).fv false)).1

/-- Layer LOWER as a source of scores: geometry, its generation, and the tiles whose MEAS counts. -/
structure LowerSrc where
  y    : Layer
  gen  : Nat
  meas : Bool
  recomp : List Nat
  deriving DecidableEq, Repr, Inhabited

/-- A window: x and y ranges of luma pixels, none when empty. -/
structure Window where
  x0 : Nat
  x1 : Nat
  y0 : Nat
  y1 : Nat
  ok : Bool
  deriving DecidableEq, Repr, Inhabited

/-- The window of tile (tx, ty) in a picture of size (w, h) (R170). -/
def windowOf (y : Layer) (tx ty w h : Nat) : Window :=
  let sg := y.e.stride
  let x1 := min ((tx + 1) * y.t) y.w * sg - 1 + y.e.rwin
  let y1 := min ((ty + 1) * y.t) y.hgt * sg - 1 + y.e.rwin
  let x0 := tx * y.t * sg - y.e.rwin
  let y0 := ty * y.t * sg - y.e.rwin
  ⟨x0, min x1 (w - 1), y0, min y1 (h - 1), x0 < w && y0 < h⟩

/-- Tiles of LOWER whose footprint meets the window. -/
def lowerTiles (y : Layer) (w : Window) : List Nat :=
  let f := y.t * y.e.stride
  if !w.ok || y.w * y.e.stride ≤ w.x0 || y.hgt * y.e.stride ≤ w.y0 then []
  else
    let c0 := w.x0 / f
    let c1 := min (w.x1 / f) (y.gw - 1)
    let r0 := w.y0 / f
    let r1 := min (w.y1 / f) (y.gh - 1)
    (List.range (r1 + 1 - r0)).flatMap fun j => (List.range (c1 + 1 - c0)).map fun i => (r0 + j) * y.gw + c0 + i

/-- The greatest score of some tiles of LOWER. -/
def lowerTerm (src : LowerSrc) : List Nat → State → EM (State × Nat)
  | [], s => .ok (s, f32inf)
  | t :: ts, s =>
    match readTile s src.y.st src.y.l t src.gen with
    | .error e => .error e
    | .ok (s, b) =>
      let sc := if src.meas && src.recomp.contains t then (toFloat .rne false fmtF32 (fmtF16.dec (fieldAt b 26 2))).1 else fieldAt b 28 4
      match ts with
      | [] => .ok (s, sc)
      | ts =>
        match lowerTerm src ts s with
        | .error e => .error e
        | .ok (s, m) => .ok (s, f32max sc m)

/-- The outcome of R171 and R172 for one window. -/
structure Score where
  intra : Bool
  dx : Int
  dy : Int
  score : Nat
  deriving DecidableEq, Repr, Inhabited

/-- The score of a tile. `low` is none for CODEC; `skip` where LOWER fails and the score is not used. -/
def scoreTile (s : State) (y : Layer) (x : Exports) (buf : Nat) (w : Window) (low : Option LowerSrc) (skip : Bool) : EM (State × Score) :=
  let bx := w.x0 / 8
  let bY := w.y0 / 8
  match (if w.ok then readBlks s y.st x buf bx (w.x1 / 8 + 1 - bx) (w.y1 / 8 + 1 - bY) bY else .ok []) with
  | .error e => .error e
  | .ok bs =>
    if bs.isEmpty || bs.any Blk.intra then .ok (s, ⟨true, 0, 0, f32inf⟩)
    else
      let d := dispOf bs y.e.stride
      let dv := deviation bs y.e.stride d
      let d := if y.e.att then (0, 0) else d
      let term : EM (State × Nat) := match low with
        | none => .ok (s, codecTerm bs)
        | some src => if skip then .ok (s, f32inf) else lowerTerm src (lowerTiles src.y w) s
      match term with
      | .error e => .error e
      | .ok (s, rt) =>
        if rt == f32inf then .ok (s, ⟨false, d.1, d.2, f32inf⟩)
        else .ok (s, ⟨false, d.1, d.2, f32add (f32mul y.e.resW rt) (f32mul y.e.mvW dv)⟩)

/-! ## The decision (R173 to R175) -/

/-- What evaluation decides of one tile. -/
structure Verdict where
  tile   : Nat
  reason : Nat          -- 0 reused
  dx     : Int
  dy     : Int
  score  : Nat          -- SCORE as written
  age    : Nat
  acc    : Nat
  slot   : Nat          -- SLOT of the committed half
  att    : Bool
  deriving DecidableEq, Repr, Inhabited

/-- The in-layer range of a tile's elements shifted by `d` along one dimension: first, count. -/
def shifted (t n i : Nat) (d : Int) : Nat × Nat :=
  let lo : Int := i * t + d
  let hi : Int := min ((i + 1) * t) n + d
  let a := max lo 0
  let b := min hi n
  (a.toNat, (b - a).toNat)

/-- Source tiles of a tile under a displacement. -/
def sourceTiles (y : Layer) (tx ty : Nat) (dx dy : Int) : List Nat :=
  let (x0, nx) := shifted y.t y.w tx dx
  let (y0, ny) := shifted y.t y.hgt ty dy
  if nx == 0 || ny == 0 then []
  else
    let c0 := x0 / y.t
    let c1 := (x0 + nx - 1) / y.t
    let r0 := y0 / y.t
    let r1 := (y0 + ny - 1) / y.t
    (List.range (r1 + 1 - r0)).flatMap fun j => (List.range (c1 + 1 - c0)).map fun i => (r0 + j) * y.gw + c0 + i

/-- More than 25 % of the displaced region lies outside the layer. -/
def isEdge (y : Layer) (tx ty : Nat) (dx dy : Int) : Bool :=
  let n := (min ((tx + 1) * y.t) y.w - tx * y.t) * (min ((ty + 1) * y.t) y.hgt - ty * y.t)
  let k := (shifted y.t y.w tx dx).2 * (shifted y.t y.hgt ty dy).2
  4 * (n - k) > n

/-- The reason of R173 and the inherited age and accumulator. `recs` are the tile records. -/
def decideTile (y : Layer) (recs : Tbl (List Byte)) (c te : Nat) (missing : Bool) (t : Nat) (sc : Score) : Verdict :=
  let r := tget [] recs t
  let m := halfOf r c
  let tx := t % y.gw
  let ty := t / y.gw
  let req := fieldAt r 24 1
  let src := sourceTiles y tx ty sc.dx sc.dy
  let hs := src.map fun u => halfOf (tget [] recs u) c
  let a := (hs.map hfAge).foldl max 0
  let q := match hs.map hfAcc with | [] => 0 | x :: xs => xs.foldl f32max x
  let sum := f32add q sc.score
  let reason :=
    if missing || !hfValid m then 8
    else if bit req 0 then 7
    else if bit req 1 then 6
    else if sc.intra then 4
    else if isEdge y tx ty sc.dx sc.dy then 5
    else if hs.any fun h => !hfValid h then 8
    else if src.any fun u => bit (fieldAt (tget [] recs u) 24 1) 0 then 7
    else if f32gt sc.score te then 1
    else if y.e.refresh ≤ a + 1 then 2
    else if f32gt sum y.e.budget then 3
    else 0
  ⟨t, reason, sc.dx, sc.dy, if reason == 8 then f32inf else sc.score, a + 1, sum, hfSlot m, false⟩

/-- The attention rule (R175): every tile listed when the changed fraction is passed. -/
def attend (y : Layer) (vs : List Verdict) : List Verdict × Bool :=
  let n := (vs.filter fun v => v.reason != 0).length
  if y.e.att && y.e.attf * vs.length < n * 256 then
    (vs.map fun v => if v.reason == 0 then { v with reason := 6, att := true } else v, true)
  else (vs, false)

/-- The pending half that a verdict writes. -/
def Verdict.half (v : Verdict) : List Byte :=
  if v.reason != 0 then mkHalf 0 0 (1 - v.slot) v.dx v.dy
  else if v.dx != 0 || v.dy != 0 then mkHalf v.acc v.age (1 - v.slot) v.dx v.dy
  else mkHalf v.acc v.age v.slot 0 0

/-- A verdict's tile record: pending half, MEAS and SCORE. -/
def Verdict.record (v : Verdict) (c : Nat) (r : List Byte) : List Byte :=
  putAt (putAt (putAt r (12 * (1 - c)) v.half) 26 (leBytes 2 0)) 28 (leBytes 4 v.score)

/-- A verdict's list entry. -/
def Verdict.entry (gw : Nat) (v : Verdict) : List Byte :=
  leBytes 2 (v.tile % gw) ++ leBytes 2 (v.tile / gw) ++ leBytes 1 v.reason ++
    leBytes 1 (b2n v.att + 2 * b2n (v.reason == 0)) ++ leBytes 2 0 ++ leBytes 2 (wrapW 16 v.dx) ++ leBytes 2 (wrapW 16 v.dy) ++
    leBytes 4 v.score

/-- Every tile record of a layer. -/
def readTiles (st l gen : Nat) : Nat → Nat → State → EM (State × Tbl (List Byte))
  | 0, _, s => .ok (s, [])
  | n + 1, t, s =>
    match readTile s st l t gen with
    | .error e => .error e
    | .ok (s, b) =>
      match readTiles st l gen n (t + 1) s with
      | .error e => .error e
      | .ok (s, bs) => .ok (s, (t, b) :: bs)

/-- The verdicts of tiles `t`, `t + 1`, … -/
def judge (y : Layer) (x : Exports) (buf w h c te : Nat) (recs : Tbl (List Byte)) (missing : Bool) (low : Option LowerSrc) :
    Nat → Nat → State → EM (State × List Verdict)
  | 0, _, s => .ok (s, [])
  | n + 1, t, s =>
    match scoreTile s y x buf (windowOf y (t % y.gw) (t / y.gw) w h) low missing with
    | .error e => .error e
    | .ok (s, sc) =>
      match judge y x buf w h c te recs missing low n (t + 1) s with
      | .error e => .error e
      | .ok (s, vs) => .ok (s, decideTile y recs c te missing t sc :: vs)

/-- Write tile records. -/
def writeTiles (st l c : Nat) (recs : Tbl (List Byte)) : List Verdict → State → EM State
  | [], s => .ok s
  | v :: vs, s =>
    match owlWrite s st (s.tileAddr st l v.tile) (v.record c (tget [] recs v.tile)) with
    | .error e => .error e
    | .ok s => writeTiles st l c recs vs s

/-- Write list entries from index `i`. -/
def writeEntries (st gw : Nat) (h : Handle) : List Verdict → Nat → State → EM State
  | [], _, s => .ok s
  | v :: vs, i, s =>
    match owlWrite s st (h.at (16 * i)) (v.entry gw) with
    | .error e => .error e
    | .ok s => writeEntries st gw h vs (i + 1) s

/-- Entries of the recompute section of a list as tile numbers. -/
def listTiles (s : State) (st gw : Nat) (h : Handle) : Nat → Nat → EM (List Nat)
  | 0, _ => .ok []
  | n + 1, i =>
    match owlRead s st (h.at (16 * i)) 16 with
    | .error e => .error e
    | .ok b => (listTiles s st gw h n (i + 1)).map ((fieldAt b 2 2 * gw + fieldAt b 0 2) :: ·)

/-- THRESH_EFF (R173). -/
def effThresh (e : LayerE) (k : Nat) : Nat :=
  match fmtF32.dec e.thresh with
  | .fin n m x => (fmtF32.roundMag .rne false n (m * k) (x - 8) false).1
  | _ => e.thresh

/-- The factor applied (R173). -/
def scaleOf (e : LayerE) (nscale : Nat) : Nat := if e.esc then max 0x100 (min nscale e.esmax) else 0x100

/-- Whether R172's requirement on LOWER holds for frame `f`, and LOWER as a source. It fails when LOWER is not well-formed, so that every
tile is NEW: R172 does not speak of that case (DESIGN CHOICE, log 86). -/
def lowerSrc (s : State) (y : Layer) (f : Nat) : EM (State × Bool × Option LowerSrc) :=
  if y.e.src == 0 then .ok (s, true, none)
  else
    match getLayer s y.st y.e.low with
    | .error (.fault 9 _ _) => .ok (s, false, some ⟨y, 0, false, []⟩)
    | .error e => .error e
    | .ok ly =>
      match readLayer s y.st y.e.low with
      | .error e => .error e
      | .ok (s, ls) =>
        let ok := if y.e.src == 2 then lsFrame ls == f else lsEFrame ls == f && (lsState ls == 1 || lsState ls == 2)
        if !ok then .ok (s, false, some ⟨ly, lsGen ls, false, []⟩)
        else if y.e.src == 1 then .ok (s, true, some ⟨ly, lsGen ls, false, []⟩)
        else
          match owlHandle s y.st (lsList ls) 4 with
          | .error e => .error e
          | .ok h => (listTiles s y.st ly.gw h (lsCountR ls) 0).map fun ts => (s, true, some ⟨ly, lsGen ls, true, ts⟩)

/-- The list handle of cm.eval (R177); LIST otherwise. -/
def evalList (s : State) (y : Layer) (i : Nat) : EM Handle :=
  match owlHandle s y.st i 4 with
  | .error e => .error e
  | .ok h =>
    if h.kind == 5 && h.ndim == 2 && h.extOf 0 == 15 && h.strOf 0 == 1 && h.strOf 1 == 16 && y.gw * y.gh ≤ h.extOf 1 + 1 then .ok h
    else cmStatus 4

/-- The size of the picture of frame `f` and whether it has 10-bit samples: as decoded; else the extents of the luma handle and the
format of its page (log 28). -/
def State.picSize (s : State) (st f : Nat) (x : Exports) : Nat × Nat × Bool :=
  tget (x.luma.h.extOf 0 + 1, x.luma.h.extOf 1 + 1, x.luma.fmt == 8) (s.stream st).sizes f

/-- The export handles of a stream, fitting the picture of frame `f`; HANDLE otherwise (R365). -/
def evalExports (s : State) (st f : Nat) : EM Exports :=
  match exportViews s (s.owl st) st with
  | .error (.miss wh c v) => .error (.miss wh c v)
  | .error (.flt g) => .error (.owl s st g)
  | .ok none => cmStatus 10
  | .ok (some x) =>
    let (w, h, ten) := s.picSize st f x
    if x.fit w h (if ten then 8 else 7) then .ok x else cmStatus 10

/-- The list header (R177). -/
def headerOf (y : Layer) (f k te gen : Nat) (vs : List Verdict) (cc : Nat) (all : Bool) : List Byte :=
  let cnt (r : Nat) : Nat := (vs.filter fun v => v.reason == r).length
  leBytes 8 f ++ leBytes 1 y.l ++ leBytes 1 y.st ++ leBytes 2 k ++ leBytes 4 (vs.filter fun v => v.reason != 0).length ++
    leBytes 4 cc ++ leBytes 4 te ++ leBytes 4 gen ++ ((List.range 8).flatMap fun r => leBytes 4 (cnt (r + 1))) ++
    leBytes 1 (b2n all) ++ leBytes 3 0

/-- cm.eval once the checks of R364 have passed. -/
def evalLayer (s : State) (y : Layer) (li : Nat) : EM State :=
  let st := y.st
  let f := s.cmuFrame st
  match evalList s y li with
  | .error e => .error e
  | .ok lh =>
    match evalExports s st f with
    | .error e => .error e
    | .ok x =>
      match readLayer s st y.l with
      | .error e => .error e
      | .ok (s, ls) =>
        match (if lsState ls == 1 then logAppend s st (logRec (lsEFrame ls) 3 y.l 0 0 0 0 (lsGen ls)) else .ok s) with
        | .error e => .error e
        | .ok s =>
          match lowerSrc s y f with
          | .error e => .error e
          | .ok (s, lowOk, low) =>
            let missing := lsNever ls || (lsFrame ls + 1) % 2 ^ 64 != f || !lowOk
            let k := scaleOf y.e (lsNscale ls)
            let te := effThresh y.e k
            let n := y.gw * y.gh
            let c := lsCh ls
            match readTiles st y.l (lsGen ls) n 0 s with
            | .error e => .error e
            | .ok (s, recs) =>
              let (w, h, _) := s.picSize st f x
              match judge y x (f % x.nbuf) w h c te recs missing low n 0 s with
              | .error e => .error e
              | .ok (s, vs0) =>
                let (vs, all) := attend y vs0
                let rs := vs.filter fun v => v.reason != 0
                let cs := vs.filter fun v => v.reason == 0 && (v.dx != 0 || v.dy != 0)
                let gen := (lsGen ls + 1) % 2 ^ 32
                match writeTiles st y.l c recs vs s with
                | .error e => .error e
                | .ok s =>
                  match writeEntries st y.gw lh (rs ++ cs) 0 s with
                  | .error e => .error e
                  | .ok s =>
                    match owlWrite s st (lh.at (-64)) (headerOf y f k te gen vs cs.length all) with
                    | .error e => .error e
                    | .ok s =>
                      let b := putAt ls 8 (leBytes 8 f ++ leBytes 1 1)
                      let b := putAt b 18 (leBytes 2 k ++ leBytes 4 te ++ leBytes 4 rs.length ++ leBytes 4 cs.length ++ leBytes 4 0 ++ leBytes 4 gen ++ leBytes 2 li)
                      match owlWrite s st (s.metaAddr st y.l) b with
                      | .error e => .error e
                      | .ok s =>
                        match logAppend s st (logRec f 1 y.l k rs.length cs.length te gen) with
                        | .error e => .error e
                        | .ok s => .ok ((s.radd (oCMU + 8) 1).radd (oCMU + 0x10) n)

/-! ## The CM operations (R364, R365) -/

/-- The checks of R364 for a command of context `ctx`. -/
def cmCheck (s : State) (st l ctx : Nat) : EM Layer :=
  if !s.isOpen st || s.isStopped st || s.streamCtx st != ctx then cmStatus 1
  else
    match getLayer s st l with
    | .error e => .error e
    | .ok y => if y.e.en then .ok y else cmStatus 3

def cmEval (s : State) (st l li ctx : Nat) : EM State :=
  match cmCheck s st l ctx with
  | .error e => .error e
  | .ok y => evalLayer s y li

/-- The values of a run of stored units, decoded exactly (R365). -/
def View.values (v : View) : Nat → List Byte → List Fv
  | 0, _ => []
  | n + 1, bs =>
    let b := bs.take v.e
    (if v.fmt == 10 then (bpnDecode b (geoPlanes v.geo)).map Fv.ofInt
     else if v.fmt == 11 then bsDecode b
     else [storedVal v.fmt (leNat b)]) ++ v.values n (bs.drop v.e)

/-- The larger of an accumulated difference and those of two rows; none once a value is NaN or infinite. -/
def maxDiff : Option Dy → List Fv → List Fv → Option Dy
  | some m, p :: ps, q :: qs =>
    if p.isFin && q.isFin then
      let d := (p.dy.sub q.dy).abs
      maxDiff (some (if m.lt d then d else m)) ps qs
    else none
  | m, _, _ => m

/-- Differences over the rows of a tile. -/
def tileDiff (v : View) (y : Layer) (tx ty sp sq tile gen : Nat) : Nat → Nat → Option Dy → State → EM (State × Option Dy)
  | 0, _, m, s => .ok (s, m)
  | n + 1, i, m, s =>
    let wd := min ((tx + 1) * y.t) y.w - tx * y.t
    let x : Int := tx * y.t + (i % wd : Nat)
    let yy : Int := ty * y.t + (i / wd : Nat)
    let units := (y.h.extOf 0 + 1) / v.step
    let own {α : Type} (r : EM α) : EM α := match r with | .error (.fault _ _ (some f)) => .error (.owl s y.st f) | r => r
    match own (slotRow s v 0 units x yy sp), own (slotRow s v 0 units x yy sq) with
    | .error e, _ => .error e
    | _, .error e => .error e
    | .ok (p, hp), .ok (q, hq) =>
      match ueFoundIn y.st y.l tile gen (hp ++ hq) s with
      | .error e => .error e
      | .ok s => tileDiff v y tx ty sp sq tile gen n (i + 1) (maxDiff m (v.values units p) (v.values units q)) s

/-- cm.meas (R365). -/
def cmMeas (s : State) (st l i ctx : Nat) : EM State :=
  match cmCheck s st l ctx with
  | .error e => .error e
  | .ok y =>
    match readLayer s st l with
    | .error e => .error e
    | .ok (s, ls) =>
      if lsState ls != 1 then cmStatus 6
      else if lsCountR ls ≤ i then cmStatus 7
      else
        match owlHandle s st (lsList ls) 4 with
        | .error e => .error e
        | .ok h =>
          match owlRead s st (h.at (16 * i)) 16 with
          | .error e => .error e
          | .ok b =>
            let tx := fieldAt b 0 2
            let ty := fieldAt b 2 2
            let t := ty * y.gw + tx
            match readTile s st l t (lsGen ls) with
            | .error e => .error e
            | .ok (s, r) =>
              let p := halfOf r (1 - lsCh ls)
              let q := halfOf r (lsCh ls)
              if !hfWr p then cmStatus 5
              else
                match openView s (s.owl st) y.h with
                | .error (.fault _ _ (some f)) => .error (.owl s st f)
                | .error e => .error e
                | .ok v =>
                  let whole := v.aligned 0 (y.h.extOf 0 + 1)
                  if !whole then .error (.owl s st ((⟨s.owl st, .engRead, v.h.base, 1, false, true⟩ : Req).fault v.h.base .fmtType 7 0 0)) else
                  let rows := (min ((tx + 1) * y.t) y.w - tx * y.t) * (min ((ty + 1) * y.t) y.hgt - ty * y.t)
                  match tileDiff v y tx ty (hfSlot p) (hfSlot q) t (lsGen ls) rows 0 (some Dy.zero) s with
                  | .error e => .error e
                  | .ok (s, m) =>
                    let inf := fmtF16.infBits false
                    let x := match m with
                      | some d => if hfValid q then (fmtF16.round .rup false (d.fv false)).1 else inf
                      | none => inf
                    owlWrite s st (s.tileAddr st l t + 26) (leBytes 2 x)

/-- The recompute entries whose REQ a commit clears. -/
def clearReqs (st l : Nat) : List Nat → State → EM State
  | [], s => .ok s
  | t :: ts, s =>
    match owlWrite s st (s.tileAddr st l t + 24) (leBytes 1 0) with
    | .error e => .error e
    | .ok s => clearReqs st l ts s

/-- cm.commit (R180): one transaction, none of whose writes stands when one faults. -/
def cmCommit (s : State) (st l ctx : Nat) : EM State :=
  match cmCheck s st l ctx with
  | .error e => .error e
  | .ok y =>
    match readLayer s st l with
    | .error e => .error e
    | .ok (s0, ls) =>
      if lsState ls != 1 then cmStatus 6
      else if lsNwr ls != lsCountR ls + lsCountC ls then cmStatus 5
      else
        let undo {α : Type} (r : EM α) : EM α := match r with | .error (.owl _ t f) => .error (.owl s0 t f) | r => r
        match owlHandle s0 st (lsList ls) 4 with
        | .error e => .error e
        | .ok h =>
          match listTiles s0 st y.gw h (lsCountR ls) 0 with
          | .error e => .error e
          | .ok ts =>
            match undo (clearReqs st l ts s0) with
            | .error e => .error e
            | .ok s1 =>
              let b := putAt (putAt ls 0 (leBytes 8 (lsEFrame ls))) 16 (leBytes 1 2 ++ leBytes 1 (1 - lsCh ls))
              match undo (owlWrite s1 st (s1.metaAddr st l) b) with
              | .error e => .error e
              | .ok s2 => undo (logAppend s2 st (logRec (lsEFrame ls) 2 l 0 (lsCountR ls) (lsCountC ls) 0 (lsGen ls)))

/-- cm.force. -/
def cmForce (s : State) (st l t ctx : Nat) : EM State :=
  match cmCheck s st l ctx with
  | .error e => .error e
  | .ok y =>
    if y.gw * y.gh ≤ t then cmStatus 8
    else
      match readLayer s st l with
      | .error e => .error e
      | .ok (s, ls) => setReq s st l t (lsGen ls) 2

/-- cm.thr. -/
def cmThr (s : State) (st l nscale ctx : Nat) : EM State :=
  match cmCheck s st l ctx with
  | .error e => .error e
  | .ok _ =>
    match readLayer s st l with
    | .error e => .error e
    | .ok (s, ls) =>
      match owlWrite s st (s.metaAddr st l + 42) (leBytes 2 nscale) with
      | .error e => .error e
      | .ok s => logAppend s st (logRec (s.cmuFrame st) 4 l nscale 0 0 0 (lsGen ls))

/-- The state after an access of Owl's faulted (R440): the stream stopped and its error record written, with
nothing but a miss of that record's page left to wait for. -/
def owlStopped (s : State) (st : Nat) (f : MemFault) : Except Stop State :=
  (((s.noted f).stopStream st).cmuStat st 4).errRecord (s.owl st) st (s.cmuFrame st) 4 (some f)

end Sys2Proof.Machine
end

