-- ==== Sys2Proof/Machine/Weights.lean ====
section
/-! DEFINITION. The weight buffer of a core: its directory, and the loading of one block (R73, R74, R336, R357). -/

namespace Sys2Proof.Machine

/-- Entry `k` of a table, when it is listed. -/
def lookupT {α : Type} : Tbl α → Nat → Option α
  | [], _ => none
  | (i, v) :: t, k => if i == k then some v else lookupT t k

/-- Directory entry `w`. -/
def State.wbEnt (s : State) (n w : Nat) : Option WbEntry := lookupT (s.core n).wb w
/-- Location that stands for entry `w` of the weight buffer of core `n` among the errors. -/
def wbLoc (n w : Nat) : Nat := 2 ^ 63 + n * 2 ^ 22 + w * 256
/-- An expanded entry. -/
def State.wbBytes (s : State) (n w : Nat) : List Byte :=
  match s.wbEnt n w with
  | some e => (expand e.hdr e.sectors).getD (List.replicate 256 0)
  | none => List.replicate 256 0

/-- Sectors in use by the entries of a directory. -/
def sectorsUsed (t : Tbl WbEntry) : Nat := (t.map fun x => hNsec x.2.hdr).sum

/-- An entry put into the directory of a core. -/
def State.putWeight (s : State) (n w : Nat) (e : WbEntry) : State :=
  let c := s.core n
  { s.setCore n { c with wb := tset c.wb w e } with ue := ueLeft s.ue (wbLoc n w) (wbLoc n w + 256) }

/-- The permutation table of a weight load for elements of `e` bytes (R357). -/
def permTable (s : State) (ag : Agent) (pt e : Nat) : EM (List Nat) :=
  match formHandle s ag pt with
  | .error (.fault 2 1 none) => .error (.fault 2 4 none)
  | .error x => .error x
  | .ok h =>
    if h.kind != 0 || h.ndim != 1 || h.extOf 0 + 1 != 128 / e then .error (.fault 2 4 none)
    else
      (List.range (128 / e)).foldl (fun (a : EM (List Nat)) (i : Nat) =>
        match a with
        | .error x => .error x
        | .ok xs =>
          let p : Int := h.base + i * h.strOf 0
          if p < 0 || 2 ^ 52 ≤ p then .error (memStop ag .engRead (wrapW 64 p) .noncanon)
          else match eRead s ag p.toNat 2 with
            | .error x => .error x
            | .ok b => .ok (xs ++ [leNat b])) (.ok [])

/-- The two halves of a block with their elements reordered by a table. -/
def permuteHalves (e : Nat) (t : List Nat) (y : List Byte) : List Byte :=
  let half (h : List Byte) : List Byte := t.flatMap fun i => if 128 / e ≤ i then List.replicate e 0 else (h.drop (e * i)).take e
  half (y.take 128) ++ half (y.drop 128)

/-- The weight block at `va`: entry without its context and table fields. -/
def weightBlock (s : State) (ag : Agent) (va pt : Nat) (pen ro : Bool) : EM WbEntry :=
  match liftE (pageFmt s ⟨ag, .engRead, va, 256, false, true⟩) with
  | .error e => .error e
  | .ok (fmt, geo) =>
    let e := eszOf fmt
    if pen && (isBlockFmt fmt || e == 4) then .error (memStop ag .engRead va .fmtType)
    else
      match eRead s ag va 256 with
      | .error x => .error x
      | .ok y =>
        match (if pen then (permTable s ag pt e).map fun t => permuteHalves e t y else .ok y) with
        | .error x => .error x
        | .ok y =>
          let p := compress 15 e (byteElems fmt) y
          .ok ⟨header p false false 0, p.data, va, ag.ctx, fmt, geo, pen, pt, ro⟩

end Sys2Proof.Machine
end

