-- ==== Sys2Proof/Machine/Storage.lean ====
section
/-! DEFINITION. Storage of a core: slabs and accumulator tiles of a continuation (R63, R72, R428), claims and
restoration of those and of weight-buffer entries (R68, R357, R383), read-only staging and its provenance (R65 to R67). -/

namespace Sys2Proof.Machine

/-- Hart 1 of core `n` acting in context `k` (R33, R202). -/
def fwAgent (n k : Nat) : Agent := ⟨.fw n, 9, n, .m, k, n, reachHart1⟩

/-! ## Pieces: a slab, or 1024 plus a run of 32 accumulator tiles -/

/-- The location and length of a piece of core `n`. -/
def pieceLoc (n p : Nat) : Nat × Nat :=
  if p < 1024 then (sliceLoc n (p * 4096), 4096) else (accLoc n ((p - 1024) * 32) 0, 16384)

/-- Where a piece is saved in its owner's context (R383). -/
def State.saveAddr (s : State) (ctx n p : Nat) : Nat :=
  if p < 1024 then s.contArea ctx + 0x200000000 + n * 0x400000 + p * 0x1000
  else s.contArea ctx + 0x300000000 + n * 0x80000 + (p - 1024) * 32 * 512

/-- A slab is free: V = 0 and SYS = 0. -/
def State.slabFree (s : State) (n k : Nat) : Bool := !bit (s.slcOwn n k) 8 && !bit (s.slcOwn n k) 12
/-- A run of accumulator tiles is free. -/
def State.accFree (s : State) (n r : Nat) : Bool := !thas (s.core n).accs r
/-- A piece is free. -/
def State.pieceFree (s : State) (n p : Nat) : Bool := if p < 1024 then s.slabFree n p else s.accFree n (p - 1024)

/-- The continuation that holds a piece. -/
def State.holder (s : State) (n p : Nat) : Option Nat :=
  if s.pieceFree n p then none
  else if p < 1024 then
    let slot := bits (s.slcOwn n p) 19 16
    if thas (s.core n).slots slot then some (tget 0 (s.core n).slots slot) else none
  else some (tget 0 (s.core n).accs (p - 1024))

/-- SAVED of a slab: the content of a continuation of this core that it held is claimed (R64, R67). -/
def State.savedOn (s : State) (n p : Nat) : Nat := b2n (s.conts.any fun q => q.2.home == some n && q.2.saved.any fun x => x.1 == p) * 0x800

/-- Give a piece to a continuation: it reads as zero (R63, R72). -/
def State.givePiece (s : State) (n p cid : Nat) : State :=
  let c := s.cont cid
  let (a, len) := pieceLoc n p
  let s := { s with mem := mclear s.mem a (a + len), ue := ueLeft s.ue a (a + len) }
  if p < 1024 then
    (s.setSlcOwn n p (c.ctx + 0x100 + c.slot * 2 ^ 16 + s.savedOn n p)).setCont cid { c with slabs := c.slabs ++ ([p] : List Nat) }
  else
    (s.setCore n { s.core n with accs := tset (s.core n).accs (p - 1024) cid }).setCont cid { c with accs := c.accs ++ [p - 1024] }

/-- A piece becomes free; RO and PROV are cleared (R65). -/
def State.freePiece (s : State) (n p : Nat) : State :=
  if p < 1024 then s.setSlcOwn n p (s.savedOn n p)
  else s.setCore n { s.core n with accs := tdel (s.core n).accs (p - 1024) }

/-- A continuation's storage may be claimed: it neither runs nor is pinned (R383). -/
def Cont.claimable (c : Cont) : Bool := c.stat != .running && !c.pin && c.live.isEmpty

/-- A piece claimed from its holder, saved first unless it is read-only; `false` when the claim may not be
made or the save faults (R383). Bytes with an uncorrectable error are saved as they stand and are sound when restored, of which R68 and
R383 do not speak (DESIGN CHOICE, log 90). -/
def State.claimPiece (s : State) (n p : Nat) : Except Stop (State × Bool) :=
  match s.holder n p with
  | none => .ok (s, s.pieceFree n p)
  | some k =>
    let c := s.cont k
    let own := if p < 1024 then setBits (s.slcOwn n p) 11 11 1 else 0
    let (a, len) := pieceLoc n p
    if !c.claimable then .ok (s, false)
    else
      let take (s : State) : State :=
        (s.setCont k { c with saved := c.saved ++ [(p, own)], slabs := c.slabs.filter (· != p),
                              accs := c.accs.filter (· + 1024 != p) }).freePiece n p
      if p < 1024 && bit own 9 then .ok (take s, true)
      else
        match wrBytes s (fwAgent n c.ctx) .engWrite (s.saveAddr c.ctx n p) (mgets s.mem a len) with
        | .error (.miss wh x v) => .error (.miss wh x v)
        | .error (.flt f) => .ok (s.noted f, false)
        | .ok s => .ok (take s, true)

/-- Claim pieces in turn; `false` as soon as one cannot be claimed. -/
def claimAll (n : Nat) : List Nat → State → Except Stop (State × Bool)
  | [], s => .ok (s, true)
  | p :: ps, s =>
    match s.claimPiece n p with
    | .error e => .error e
    | .ok (s, false) => .ok (s, false)
    | .ok (s, true) => claimAll n ps s

/-- Scheduler firmware may take a piece: it is free, or it may be claimed; no claim is made while `paused` (R383, R403). -/
def State.mayTake (s : State) (n : Nat) (paused : Bool) (p : Nat) : Bool :=
  s.pieceFree n p || (!paused && match s.holder n p with | some k => (s.cont k).claimable | none => false)

/-- Victim `a` is chosen before victim `b`: read-only slabs, then the lowest PRIO, then the longest suspended (R383). -/
def State.victimBefore (s : State) (n a b : Nat) : Bool :=
  let ro (p : Nat) : Bool := p < 1024 && bit (s.slcOwn n p) 9
  let c (p : Nat) : Cont := s.cont ((s.holder n p).getD 0)
  if ro a != ro b then ro a
  else if ro a then a < b
  else if (c a).prio != (c b).prio then (c a).prio < (c b).prio
  else if (c a).restAt != (c b).restAt then (c a).restAt < (c b).restAt
  else a < b

/-- A victim put in its place. -/
def insertVictim (s : State) (n p : Nat) : List Nat → List Nat
  | [] => [p]
  | q :: qs => if s.victimBefore n p q then p :: q :: qs else q :: insertVictim s n p qs

/-- The pieces among `ps` that may be taken, in the order in which they are: free ones, then victims (R68, R383). -/
def State.candidates (s : State) (n : Nat) (paused : Bool) (ps : List Nat) (k : Nat) : List Nat :=
  let free := ps.filter (s.pieceFree n)
  if k ≤ free.length then free
  else free ++ (ps.filter fun p => !s.pieceFree n p && s.mayTake n paused p).foldr (insertVictim s n) []

/-- Claim the first `k` pieces that can be claimed: a victim whose save faults is passed over (R383). -/
def claimSome (n : Nat) : List Nat → Nat → State → Except Stop (State × List Nat)
  | _, 0, s => .ok (s, [])
  | [], _, s => .ok (s, [])
  | p :: ps, k + 1, s =>
    match s.claimPiece n p with
    | .error e => .error e
    | .ok (s, false) => claimSome n ps (k + 1) s
    | .ok (s, true) => (claimSome n ps k s).map fun r => (r.1, p :: r.2)

/-- The pieces that R428 fixes for a continuation in slot `r`. -/
def fixedPieces (r nslab nacc : Nat) : List Nat :=
  (if nslab ≤ 60 then (List.range nslab).map (60 * r + ·) else []) ++ (if nacc == 1 then [1024 + r] else [])

/-- Slabs that firmware chooses: none when R428 fixes them. -/
def looseSlabs (nslab : Nat) : Nat := if nslab ≤ 60 then 0 else nslab
/-- Runs of accumulator tiles that firmware chooses. -/
def looseRuns (nacc : Nat) : Nat := if nacc == 1 then 0 else nacc

/-- Continuations in slots `rs` of a core could all have their storage. -/
def State.storageRoom (s : State) (n : Nat) (paused : Bool) (rs : List Nat) (nslab nacc : Nat) : Bool :=
  let room (ps : List Nat) (k : Nat) : Bool := k == 0 || k ≤ (ps.filter (s.mayTake n paused)).length
  rs.all (fun r => (fixedPieces r nslab nacc).all (s.mayTake n paused)) && room (List.range 960) (rs.length * looseSlabs nslab) &&
    room ((List.range 32).map (1024 + ·)) (rs.length * looseRuns nacc)

/-- The storage of a continuation in slot `r` taken; no pieces when one cannot be had. -/
def State.takeStorage (s : State) (n : Nat) (paused : Bool) (r nslab nacc : Nat) : Except Stop (State × Option (List Nat)) :=
  let fx := fixedPieces r nslab nacc
  if !fx.all (s.mayTake n paused) then .ok (s, none)
  else
    match claimAll n fx s with
    | .error e => .error e
    | .ok (s, false) => .ok (s, none)
    | .ok (s, true) =>
      match claimSome n (s.candidates n paused (List.range 960) (looseSlabs nslab)) (looseSlabs nslab) s with
      | .error e => .error e
      | .ok (s, xs) =>
        match claimSome n (s.candidates n paused ((List.range 32).map (1024 + ·)) (looseRuns nacc)) (looseRuns nacc) s with
        | .error e => .error e
        | .ok (s, ys) => .ok (s, if xs.length < looseSlabs nslab || ys.length < looseRuns nacc then none else some (fx ++ xs ++ ys))

/-- Every piece of a continuation freed at retirement. -/
def State.freeStorage (s : State) (cid : Nat) : State :=
  let c := s.cont cid
  match c.home with
  | none => s
  | some n =>
    let s := s.setCont cid { c with slabs := [], accs := [], saved := [] }
    let s := (c.slabs ++ c.accs.map (1024 + ·)).foldl (fun (s : State) p => s.freePiece n p) s
    c.saved.foldl (fun (s : State) q => if q.1 < 1024 then s.setSlcOwn n q.1 (setBits (s.slcOwn n q.1) 11 11 0 + s.savedOn n q.1) else s) s

/-! ## Read-only staging (R65, R66, R354) -/

/-- Address of provenance record `k` of core `n`. -/
def State.provAddr (s : State) (n k : Nat) : Nat :=
  let v := s.rget (oCore n + 0x5000) 0
  v - v % 2 ^ 17 + 128 * k

/-- A provenance record. -/
def provRecord (handle : List Byte) (org : List Int) (shp : List Nat) (nslab ctx cls : Nat) : List Byte :=
  let pad (n : Nat) (bs : List Byte) : List Byte := bs.take n ++ List.replicate (n - bs.length) 0
  pad 64 handle ++ pad 36 (org.flatMap fun o => leBytes 4 (wrapW 32 o)) ++ pad 18 (shp.flatMap fun k => leBytes 2 (k - 1)) ++
    leBytes 2 (nslab - 1) ++ leBytes 1 ctx ++ leBytes 1 cls ++ List.replicate 6 0

/-- Slabs [k, k + n) of a core become read-only with their record at `k` (R65). -/
def State.sealSlabs (s : State) (core k n : Nat) (r : List Byte) : State :=
  let own (s : State) (j : Nat) : State :=
    s.setSlcOwn core j (setBits (setBits (s.slcOwn core j) 10 9 3) 29 20 k)
  let s := ((List.range n).map (k + ·)).foldl own s
  { s with mem := msets s.mem (s.provAddr core k) r }

/-- The rows of a tile through a view, in progress order, all bytes. -/
def tileRows (v : View) (rc : Option Reuse) (org : List Int) (shp : List Nat) : Nat → Nat → State → EM (State × List Byte)
  | 0, _, s => .ok (s, [])
  | k + 1, i, s =>
    let rest := rowCoords (shp.drop 1) (org.drop 1) i
    let n := shp.headD 1 / v.step
    match viewRow s v rc (org.headD 0) n rest with
    | .error e => .error e
    | .ok (s, b) =>
      match tileRows v rc org shp k (i + 1) s with
      | .error e => .error e
      | .ok (s, bs) => .ok (s, b ++ bs)

/-- A claimed read-only region fetched again from its record (R67): the bytes of its slabs, and the state with what R184 does to
a layer that is read. The record is the one that stands at LINK now: one that a new owner of the region has overwritten is not kept,
of which R67 does not speak (DESIGN CHOICE, log 90). -/
def refetchBytes (s : State) (n ctx k : Nat) : EM (State × List Byte) :=
  let r := mgets s.mem (s.provAddr n k) 128
  let h0 := parseHandle (r.take 64)
  let org := (List.range 9).map fun d => sext (fieldAt r (64 + 4 * d) 4) 32
  let shp := (List.range 9).map fun d => fieldAt r (100 + 2 * d) 2 + 1
  let ag := fwAgent n ctx
  match h0.withTab s ag with
  | .error e => .error e
  | .ok h =>
    match openView s ag h with
    | .error e => .error e
    | .ok v =>
      match (if h.kind == 4 then openReuse s h else .ok (s, none)) with
      | .error e => .error e
      | .ok (s, rc) => tileRows v rc org shp (rowsIn shp) 0 s

/-- What a restoration reads; what faults gives no bytes, which stand for zeros (log 29). A miss and a full frame log are left to
wait for. -/
def orZeros (s : State) : EM (State × List Byte) → EM (State × List Byte)
  | .ok r => .ok r
  | .error (.fault _ _ f) => .ok ((match f with | some g => s.noted g | none => s), [])
  | .error (.owl t st f) => (liftE (owlStopped t st f)).map fun t => (t, [])
  | .error e => .error e

/-- One claimed piece given back to its owner with its content (R67, R68, R383); `false` when its present
holder may not lose it. -/
def restorePiece (s : State) (n cid : Nat) (q : Nat × Nat) : EM (State × Bool) :=
  let (p, own) := q
  let c := s.cont cid
  let (a, len) := pieceLoc n p
  match liftE (s.claimPiece n p) with
  | .error e => .error e
  | .ok (s, false) => .ok (s, false)
  | .ok (s, true) =>
    let link := bits own 29 20
    let content : EM (State × List Byte) :=
      if p < 1024 && bit own 9 then (refetchBytes s n c.ctx link).map fun r => (r.1, (r.2.drop (4096 * (p - link))).take 4096)
      else (eRead s (fwAgent n c.ctx) (s.saveAddr c.ctx n p) len).map fun bs => (s, bs)
    match orZeros s content with
    | .error e => .error e
    | .ok (s, bs) =>
      let s := s.setCont cid { s.cont cid with saved := (s.cont cid).saved.filter fun x => x.1 != p }
      let s := s.givePiece n p cid
      let s := { s with mem := msets s.mem a bs }
      .ok (if p < 1024 then s.setSlcOwn n p (setBits own 11 11 0 + s.savedOn n p) else s, true)

/-- Every claimed piece of a continuation given back. -/
def restoreAll (n cid : Nat) : List (Nat × Nat) → State → EM (State × Bool)
  | [], s => .ok (s, true)
  | q :: qs, s =>
    match restorePiece s n cid q with
    | .error e => .error e
    | .ok (s, false) => .ok (s, false)
    | .ok (s, true) => restoreAll n cid qs s

/-! ## Weight-buffer entries (R357, R383; log 77) -/

/-- A weight-buffer entry as a serialised block (R114): header and sectors. -/
def WbEntry.bytes (e : WbEntry) : List Byte := leBytes 8 e.hdr ++ e.sectors

/-- Where entry `w` of a context is saved. -/
def State.weightAddr (s : State) (ctx n w : Nat) : Nat := s.contArea ctx + 0x380000000 + n * 0x800000 + w * 512

/-- No continuation of context `k` on core `n` runs or is pinned: its weight-buffer entries there may be claimed. -/
def State.ctxIdle (s : State) (n k : Nat) : Bool := s.conts.all fun p => p.2.ctx != k || p.2.core != some n || p.2.claimable

/-- Entry `w` claimed from its context: saved first unless it was loaded with RO = 1; `false` when that cannot be. -/
def State.claimWeight (s : State) (n w : Nat) : Except Stop (State × Bool) :=
  match s.wbEnt n w with
  | none => .ok (s, false)
  | some e =>
    let take (s : State) : State :=
      s.setCore n { s.core n with wb := tdel (s.core n).wb w, wbOut := (s.core n).wbOut ++ [(w, e)] }
    if !s.ctxIdle n e.ctx || ueIn s.ue (wbLoc n w) 256 then .ok (s, false)
    else if e.ro then .ok (take s, true)
    else
      match wrBytes s (fwAgent n e.ctx) .engWrite (s.weightAddr e.ctx n w) e.bytes with
      | .error (.miss wh x v) => .error (.miss wh x v)
      | .error (.flt f) => .ok (s.noted f, false)
      | .ok s => .ok (take s, true)

/-- The rank of a context among the victims on core `n`: the highest PRIO of its continuations there, and the latest time at which one
of them was suspended (DESIGN CHOICE, log 77). -/
def State.ctxRank (s : State) (n k : Nat) : Nat × Nat :=
  let cs := (s.conts.filter fun p => p.2.ctx == k && (p.2.core == some n || p.2.home == some n) && p.2.alive).map Prod.snd
  (cs.foldl (fun a c => max a c.prio) 0, cs.foldl (fun a c => max a c.restAt) 0)

/-- Weight entry `a` is chosen before `b`: those with RO = 1, then of the lowest PRIO, then of the longest suspended (R383). -/
def State.weightBefore (s : State) (n : Nat) (a b : Nat × WbEntry) : Bool :=
  let x := s.ctxRank n a.2.ctx
  let y := s.ctxRank n b.2.ctx
  if a.2.ro != b.2.ro then a.2.ro
  else if a.2.ro then a.1 < b.1
  else if x.1 != y.1 then x.1 < y.1
  else if x.2 != y.2 then x.2 < y.2
  else a.1 < b.1

/-- A weight entry put in its place. -/
def insertWeight (s : State) (n : Nat) (a : Nat × WbEntry) : List (Nat × WbEntry) → List (Nat × WbEntry)
  | [] => [a]
  | b :: bs => if s.weightBefore n a b then a :: b :: bs else b :: insertWeight s n a bs

/-- The entries that may be claimed for another context than theirs, in the order in which they are chosen; none of context `keep`. -/
def State.weightVictims (s : State) (n : Nat) (keep : Option Nat) : List Nat :=
  (((s.core n).wb.filter fun x => some x.2.ctx != keep && s.ctxIdle n x.2.ctx).foldr (insertWeight s n) []).map Prod.fst

/-- The first of some entries that can be claimed, one whose save faults being passed over (R383). -/
def claimFirst (n : Nat) : List Nat → State → Except Stop (State × Option Nat)
  | [], s => .ok (s, none)
  | w :: ws, s =>
    match s.claimWeight n w with
    | .error e => .error e
    | .ok (s, false) => claimFirst n ws s
    | .ok (s, true) => .ok (s, some w)

/-- Sectors for a block of `k` made free by claims of entries `ws` in turn. -/
def sectorRoom (n k : Nat) : List Nat → State → Except Stop (State × Bool)
  | [], s => .ok (s, sectorsUsed (s.core n).wb + k ≤ 32768)
  | w :: ws, s =>
    if sectorsUsed (s.core n).wb + k ≤ 32768 then .ok (s, true)
    else match s.claimWeight n w with | .error e => .error e | .ok (s, _) => sectorRoom n k ws s

/-- A claimed entry as it is loaded again from its record, or read back where it was saved; its bytes are zeros when that faults
(log 29). -/
def weightBack (s : State) (n w : Nat) (e : WbEntry) : EM WbEntry :=
  let ag := fwAgent n e.ctx
  let zero : WbEntry := { e with hdr := 0, sectors := [] }
  let r := if e.ro then weightBlock s { ag with mode := .s, reach := engReach 0 } e.va e.pt e.pen e.ro
    else
      (eRead s ag (s.weightAddr e.ctx n w) 8).bind fun h =>
        let k := hNsec (leNat h)
        (eRead s ag (s.weightAddr e.ctx n w + 8) (32 * k)).map fun d => { e with hdr := leNat h, sectors := d }
  match r with
  | .error (.fault _ _ _) => .ok zero
  | r => r

/-- A claimed entry given back to its context. -/
def restoreWeight (s : State) (n : Nat) (x : Nat × WbEntry) : EM (State × Bool) :=
  let (w, e) := x
  match liftE (if (s.wbEnt n w).isSome then s.claimWeight n w else .ok (s, true)) with
  | .error z => .error z
  | .ok (s, false) => .ok (s, false)
  | .ok (s, true) =>
    match weightBack s n w e with
    | .error z => .error z
    | .ok e =>
      match liftE (sectorRoom n (hNsec e.hdr) (s.weightVictims n (some e.ctx)) s) with
      | .error z => .error z
      | .ok (s, false) => .ok (s, false)
      | .ok (s, true) =>
        let c := s.core n
        .ok ((s.setCore n { c with wbOut := c.wbOut.filter fun y => y.1 != w || y.2.ctx != e.ctx }).putWeight n w e, true)

/-- Every claimed entry of a context given back before it runs on a core (R357, R383). -/
def restoreWeights (n : Nat) : List (Nat × WbEntry) → State → EM (State × Bool)
  | [], s => .ok (s, true)
  | x :: xs, s =>
    match restoreWeight s n x with
    | .error e => .error e
    | .ok (s, false) => .ok (s, false)
    | .ok (s, true) => restoreWeights n xs s

/-- All storage of a continuation that firmware has claimed, given back before it runs on core `n`. -/
def State.restoreFor (s : State) (n cid : Nat) : EM (State × Bool) :=
  match restoreAll n cid (s.cont cid).saved s with
  | .ok (s, true) => restoreWeights n ((s.core n).wbOut.filter fun x => x.2.ctx == (s.cont cid).ctx) s
  | r => r

end Sys2Proof.Machine
end

