-- ==== Sys2Proof/Machine/Launches.lean ====
section
/-! DEFINITION. Launches: the record and its checks (R187 to R191), walk order (R189), acceptance and the
walkers, binding (R193 to R196, R217), charges (R222), completion (R205, R206, R441). -/

namespace Sys2Proof.Machine

/-! ## Fields of the record (R187) -/

def Launch.f (l : Launch) (o n : Nat) : Nat := fieldAt l.bytes o n
def Launch.nlev (l : Launch) : Nat := bits l.lctl 11 8
def Launch.isList (l : Launch) : Bool := bit l.lctl 12
def Launch.morton (l : Launch) : Bool := bit l.lctl 13
def Launch.nloop (l : Launch) : Nat := bits l.lctl 16 14
def Launch.nrel (l : Launch) : Nat := bits l.lctl 21 17
def Launch.rscope (l : Launch) : Nat := bits l.lctl 26 24
def Launch.slot (l : Launch) : Nat := bits l.lctl 37 32
def Launch.home (l : Launch) : Bool := bit l.lctl 38
def Launch.entry (l : Launch) : Nat := l.f 8 4
def Launch.epi (l : Launch) : Nat := l.f 12 4
def Launch.ord (l : Launch) (p : Nat) : Nat := bits l.lres (3 * p + 2) (3 * p)
def Launch.dom (l : Launch) (k : Nat) : Nat := bits (l.lev k) 2 0
def Launch.scopeAt (l : Launch) (k : Nat) : Nat := bits (l.lev k) 5 3
def Launch.group (l : Launch) (k : Nat) : Nat := bits (l.lev k) 31 8
def Launch.start (l : Launch) (k : Nat) : Int := sext (l.f (56 + 12 * k) 4) 32
def Launch.stepOf (l : Launch) (k : Nat) : Int := sext (l.f (60 + 12 * k) 4) 32
def Launch.ext (l : Launch) (k : Nat) : Nat := l.f (64 + 12 * k) 4
def Launch.rel (l : Launch) (k : Nat) : Nat := if k < l.nrel then l.f (128 + 8 * k) 8 else 0
/-- Gang size, 1 when there is none. -/
def Launch.gsize (l : Launch) : Nat := max l.gang 1
/-- Tile-list handle and section of SRC = 1. -/
def Launch.listH (l : Launch) : Nat := bits (l.f 56 4) 11 0
def Launch.section1 (l : Launch) : Bool := bit (l.f 56 4) 12
/-- Iterations of a loop nest. -/
def Launch.space (l : Launch) : Nat := ((List.range l.nloop).map l.ext).foldl (· * ·) 1

/-- The natural scope of a domain. -/
def natScope : Nat → Nat | 0 => 5 | 1 => 4 | 2 => 3 | 3 => 2 | 4 => 1 | _ => 0

/-! ## Checks (R188 to R191, R194) -/

/-- Code 1. -/
def Launch.versionOk (l : Launch) : Bool :=
  bits l.lctl 7 0 == 1 && bits l.lctl 63 39 == 0 && bits l.lres 63 34 == 0 && (List.range 8).all fun k => bits (l.lev k) 7 6 == 0

/-- Code 2: R188. -/
def Launch.levelsOk (l : Launch) : Bool :=
  let n := l.nlev
  1 ≤ n && n ≤ 8 &&
  (List.range 8).all fun k =>
    if n ≤ k then l.lev k == 0
    else
      l.dom k != 7 && l.scopeAt k ≤ 5 && natScope (l.dom k) ≤ l.scopeAt k && 1 ≤ l.group k &&
      (if k + 1 == n then l.dom k == 6 && l.group k == 1
       else (l.dom k < l.dom (k + 1) || (l.dom k == 6 && l.dom (k + 1) == 6)) && l.scopeAt (k + 1) ≤ l.scopeAt k &&
         l.group k % max (l.group (k + 1)) 1 == 0)

/-- Code 3: R189, R190. -/
def Launch.sourceOk (l : Launch) : Bool :=
  let p := l.nloop
  l.nrel ≤ 16 && l.rscope ≤ 5 &&
  if l.isList then
    p == 0 && !l.morton && bits l.lres 17 0 == 0 && bits (l.f 56 4) 31 13 == 0 && zeroAt l.bytes 60 68
  else
    1 ≤ p && p ≤ 6 && (!l.morton || 2 ≤ p) && l.space ≤ 2 ^ 24 &&
    (List.range 6).all fun k =>
      if k < p then l.stepOf k != 0 && 1 ≤ l.ext k && l.ext k ≤ 2 ^ 24 && l.ord k < p && (List.range k).all (fun j => l.ord j != l.ord k)
      else l.ord k == 0 && zeroAt l.bytes (56 + 12 * k) 12

/-- Code 4. -/
def slotResident (s : State) (k ctx : Nat) : Bool :=
  let v := s.rget (oFE + 0x3000 + 16 * k) 0
  bit v 8 && bits v 7 0 == ctx

/-- Code 5. -/
def Launch.entryOk (s : State) (l : Launch) : Bool :=
  l.entry % 2 == 0 && l.entry < s.rget (oFE + 0x3008 + 16 * l.slot) 0

/-- Code 6: R194, for a count of iterations. -/
def Launch.gangOk (l : Launch) (count : Nat) : Bool :=
  l.gang ≤ 16 &&
  (l.gang < 2 || (count % l.gang == 0 &&
    (List.range l.nlev).all fun k => l.group k % l.gang == 0 || (l.dom k == 6 && l.gang % l.group k == 0)))

/-- Code 7. -/
def Launch.resourceOk (l : Launch) : Bool := l.gsize * l.nslab ≤ 960 && l.gsize * l.nacc ≤ 32

/-- The tile list of a launch: none when its handle is not a TILELIST handle of the context. -/
def launchList (s : State) (l : Launch) : Except Stop (Option Handle) :=
  match getHandle s (feAgent l.ctx) l.listH with
  | .ok h => .ok (if h.kind == 5 then some h else none)
  | .error (.miss wh c v) => .error (.miss wh c v)
  | .error _ => .ok none

/-- The counts in the header of the tile list at `base`. -/
def listCounts (s : State) (l : Launch) (base : Nat) : Except Stop (Nat × Nat) :=
  (rdBytes s (feAgent l.ctx) .engRead ((base + 2 ^ 64 - 64) % 2 ^ 64) 64).map fun b => (fieldAt b 12 4, fieldAt b 16 4)

/-- The outcome of the checks: a code, 0 when all pass; the iterations of a loop nest; BASE of a tile list. -/
structure Checked where
  code   : Nat
  count  : Nat
  listAt : Nat
  deriving DecidableEq, Repr, Inhabited

/-- The iterations that the section of a tile list at `base` holds; none when its header cannot be read. -/
def listSize (s : State) (l : Launch) (base : Nat) : Except Stop (Option Nat) :=
  match listCounts s l base with
  | .ok (r, c) => .ok (some (if l.section1 then c else r))
  | .error (.flt _) => .ok none
  | .error e => .error e

/-- R191. The number of iterations that a tile list holds is checked when the launch starts (R190, log 81); for a launch that fails a
later check it is looked at now, so that the first failing code is given. -/
def launchCheck (s : State) (l : Launch) : Except Stop Checked :=
  let bad (c : Nat) : Except Stop Checked := .ok ⟨c, 0, 0⟩
  if !l.versionOk then bad 1
  else if !l.levelsOk then bad 2
  else if !l.sourceOk then bad 3
  else if !slotResident s l.slot l.ctx then bad 4
  else if !l.entryOk s then bad 5
  else if !l.gangOk (if l.isList then 0 else l.space) then bad 6
  else
    let list : Except Stop (Option Nat) := if l.isList then (launchList s l).map fun h => h.map Handle.base else .ok (some 0)
    match list with
    | .error e => .error e
    | .ok la =>
      let late := !l.resourceOk || 8 < l.depth
      let size : Except Stop (Option Nat) := match la with | some a => if l.isList && late then listSize s l a else .ok none | none => .ok none
      match size with
      | .error e => .error e
      | .ok n =>
        if !l.gangOk (n.getD 0) && n.isSome then bad 6
        else if !l.resourceOk then bad 7
        else match la with
          | none => bad 8
          | some a => if 8 < l.depth then bad 9 else .ok ⟨0, if l.isList then 0 else l.space, a⟩

/-! ## Walk order (R189) -/

/-- The `i`-th cell of an ex by ey grid in Morton order over a square of 2^k: x in the even bits. -/
def mortonAt : Nat → Nat → Nat → Nat → Nat × Nat
  | 0, _, _, _ => (0, 0)
  | k + 1, ex, ey, i =>
    let h := 2 ^ k
    let (xa, xb, ya, yb) := (min ex h, ex - h, min ey h, ey - h)
    if i < xa * ya then mortonAt k xa ya i
    else
      let i := i - xa * ya
      if i < xb * ya then let r := mortonAt k xb ya i; (r.1 + h, r.2)
      else
        let i := i - xb * ya
        if i < xa * yb then let r := mortonAt k xa yb i; (r.1, r.2 + h)
        else let r := mortonAt k xb yb (i - xa * yb); (r.1 + h, r.2 + h)

/-- Digits of `i` over radices listed innermost first. -/
def digits : List Nat → Nat → List Nat
  | [], _ => []
  | k :: ks, i => i % k :: digits ks (i / k)

/-- Index of each walk position, innermost first, for an ordinal. -/
def Launch.walkAt (l : Launch) (i : Nat) : List Nat :=
  let p := l.nloop
  let ex := ((List.range p).map fun j => l.ext (l.ord (p - 1 - j)))
  if l.morton then
    let x := ex.headD 1
    let y := (ex.drop 1).headD 1
    let (a, b) := mortonAt (bitLen (max x y - 1)) x y (i % (x * y))
    a :: b :: digits (ex.drop 2) (i / (x * y))
  else digits ex i

/-- The value of loop `k` at an ordinal, wrapped to 64 bits. -/
def Launch.loopValue (l : Launch) (i k : Nat) : Word :=
  let p := l.nloop
  let w := l.walkAt i
  let pos := ((List.range p).filter fun j => l.ord (p - 1 - j) == k).headD 0
  BitVec.ofInt 64 (l.start k + l.stepOf k * (w.getD pos 0 : Nat))

/-- a0 to a5 at the first start of an ordinal (R178, R196); the entry of a list is read now (R190). -/
def startRegs (s : State) (l : Launch) (i : Nat) : Except Stop (List Word) :=
  if l.isList then
    (rdBytes s (feAgent l.ctx) .engRead ((l.listAt + 16 * i) % 2 ^ 64) 16).map fun b =>
      [BitVec.ofNat 64 (fieldAt b 0 2), BitVec.ofNat 64 (fieldAt b 2 2), BitVec.ofInt 64 (sext (fieldAt b 8 2) 16),
       BitVec.ofInt 64 (sext (fieldAt b 10 2) 16), BitVec.ofNat 64 (fieldAt b 4 1 + 256 * fieldAt b 5 1),
       BitVec.ofNat 64 (l.index0 + i)]
  else .ok ((List.range 6).map fun k => if k < l.nloop then l.loopValue i k else 0)

/-! ## Charges (R222, log 12) -/

/-- One nJ in the unit of the counters' fractions, 2^-16 pJ. -/
def njUnit : Nat := 65536000

/-- Energy added to the counter at `off`, which carries its fraction forward: the whole nJ that it gains. -/
def State.eauAdd (s : State) (off e : Nat) : State × Nat :=
  let f := tget 0 s.eauFrac off + e
  (({ s with eauFrac := tset s.eauFrac off (f % njUnit) } : State).radd off (f / njUnit), f / njUnit)

/-- Table energy of `n` operations of a kind, counted in the interval, and with the factor in force. -/
def State.tableEnergy (s : State) (cls word n : Nat) : State × Nat :=
  let t := n * s.rget (oEAU + 0x4000 + 4 * (Config.energyKind cls word % 1024)) 0
  ({ s with eauSum := s.eauSum + t }, t * s.rget (oEAU + 8) 0x10000)

/-- The energy of an operation charged to an engine class, a context, a stream and its credit, a launch and a continuation. -/
def State.charge (s : State) (cls word ctx : Nat) (st lid cid : Option Nat) : State :=
  let (s, e) := s.tableEnergy cls word 1
  let s := ((s.eauAdd (oEAU + 0x100 + 8 * cls) e).1.eauAdd (oEAU + 0x1000 + 8 * ctx) e).1
  let s := match st with
    | some k => let (s, n) := s.eauAdd (oEAU + 0x2000 + 16 * k) e; (s.setCredit k (s.credit k - (n : Int))).unready k
    | none => s
  let s := match lid with
    | some k => s.setLaunch k { s.launch k with nj := (s.launch k).nj + e }
    | none => s
  match cid with
  | some k => s.setCont k { s.cont k with nj := (s.cont k).nj + e }
  | none => s

/-! ## Completion (R205, R206, R441) -/

/-- A record of the front end's written; a fault sets FEWR and is not retried (R441). -/
def State.feWrite (s : State) (ctx va : Nat) (bs : List Byte) : Except Stop (State × Bool) :=
  match wrBytes s (feAgent ctx) .engWrite va bs with
  | .ok s => .ok (s, true)
  | .error (.miss wh c v) => .error (.miss wh c v)
  | .error (.flt f) => .ok ((s.noted f).ror (oRAS + 0x78) 0x10, false)

/-- The 64-byte completion record. -/
def compRecord (lid status code done nj : Nat) (f : Option MemFault) : List Byte :=
  leBytes 8 lid ++ leBytes 4 status ++ leBytes 4 code ++ leBytes 8 done ++ leBytes 8 nj ++ mfBytes f

/-- The walker's next launch takes a free walker (R217): up to 32 are held, in acceptance order. -/
def rehold (n : Nat) : Tbl Launch → Tbl Launch
  | [] => []
  | (k, l) :: t =>
    if l.finished || !l.more || l.stopped.isSome then (k, { l with held := false }) :: rehold n t
    else if l.held then (k, l) :: rehold n t
    else if n < 32 then (k, { l with held := true }) :: rehold (n + 1) t
    else (k, l) :: rehold n t

/-- Launches held by walkers. -/
def State.walkersBusy (s : State) : Nat :=
  (s.launches.filter fun p => p.2.held && !(p.2.finished || !p.2.more || p.2.stopped.isSome)).length

/-- Walkers brought up to date. -/
def State.reholdAll (s : State) : State := { s with launches := rehold s.walkersBusy s.launches }.unreadyAll

/-- Status 2 FAULT when an iteration was abandoned or a read stopped the launch. -/
def Launch.outcome (l : Launch) : Nat := if l.gone == 0 && l.stopped.isNone && !l.orphan then 0 else 2

/-- Every bound iteration has ended and none is left to bind. -/
def Launch.drained (l : Launch) : Bool :=
  (!l.more || l.stopped.isSome) && l.bound == l.retired + l.gone

/-- The run's status is set by node `i` (R214). -/
def GRun.fail (r : GRun) (i c : Nat) : GRun := if r.status == 0 then { r with status := c, snode := i } else r

/-- The state with the run of a stream replaced. -/
def State.setRun (s : State) (st : Nat) (r : GRun) : State := s.setStream st { s.stream st with run := some r }

/-- The run of stream `st` with number `id`, if it is still the stream's run, gets status FAULT by node `i`. -/
def State.failRun (s : State) (st id : Option Nat) (i : Nat) : State :=
  match st, id with
  | some st, some id =>
    match (s.stream st).run with
    | some r => if r.id == id then s.setRun st (r.fail i 2) else s
    | none => s
  | _, _ => s

/-- The launch completes once drained: its record is written, and whether or not that succeeds it is finished. A
record that could not be written counts as FAULT for the run (R214). -/
def State.settleLaunch (s : State) (lid : Nat) : Except Stop State :=
  let l := s.launch lid
  if l.finished || !l.drained then .ok s
  else
    let st := l.outcome
    let f := match l.first with | some (_, f) => f | none => l.stopped
    match s.feWrite l.ctx l.comp (compRecord lid st (min l.gone m32) l.retired (l.nj / njUnit) (if st == 0 then none else f)) with
    | .error e => .error e
    | .ok (s, w) =>
      let st := if w then st else 2
      let s := if st == 0 then s else s.failRun l.stream l.run l.node
      .ok (s.setLaunch lid { l with finished := true, held := false, status := st }).reholdAll

/-! ## Acceptance -/

/-- How a launch is submitted. -/
structure Submit where
  ctx     : Nat
  stream  : Option Nat
  comp    : Nat
  parent  : Option (Nat × Nat × Nat)
  depth   : Nat
  async   : Bool
  run     : Option Nat
  node    : Nat
  deriving DecidableEq, Repr, Inhabited

/-- The launch as submitted. -/
def Submit.launch (u : Submit) (bytes : List Byte) : Launch :=
  { Launch.none with bytes := bytes, ctx := u.ctx, stream := u.stream, comp := u.comp, parent := u.parent, depth := u.depth,
                     async := u.async, run := u.run, node := u.node }

/-- A launch that ends at acceptance: REJECTED with a code, or FAULT with the record's read fault. -/
def State.refuseLaunch (s : State) (u : Submit) (bytes : List Byte) (status code : Nat) (f : Option MemFault) : Except Stop (State × Nat) :=
  let lid := s.nextLid
  match s.feWrite u.ctx u.comp (compRecord lid status code 0 0 f) with
  | .error e => .error e
  | .ok (s, _) =>
    .ok ((({ s with nextLid := lid + 1 } : State).setLaunch lid { u.launch bytes with finished := true, status := status }).failRun
      u.stream u.run u.node, lid)

/-- A launch accepted, or rejected with its record (R191): the state and its number. -/
def State.acceptLaunch (s : State) (u : Submit) (bytes : List Byte) : Except Stop (State × Nat) :=
  let l := u.launch bytes
  match launchCheck s l with
  | .error e => .error e
  | .ok k =>
    if k.code != 0 then s.refuseLaunch u bytes 1 k.code none
    else
      let lid := s.nextLid
      let l := { l with begun := !l.isList, count := k.count, listAt := k.listAt }
      .ok ((({ s with nextLid := lid + 1 } : State).setLaunch lid l).reholdAll, lid)

/-- A launch accepted from the copy of a ring's LAUNCH record: its SLOT is checked before the record (R392), and a copy that could
not be read completes it with FAULT (R191). -/
def State.acceptCopy (s : State) (u : Submit) : LaunchCopy → Except Stop (State × Nat)
  | .fault f => s.refuseLaunch u [] 2 0 (some f)
  | .read bytes => if slotResident s (u.launch bytes).slot u.ctx then s.acceptLaunch u bytes else s.refuseLaunch u bytes 1 4 none

/-- A launch whose record the front end reads at `va`; a fault of the read completes it with FAULT (R191). -/
def State.acceptAt (s : State) (u : Submit) (va : Nat) : Except Stop (State × Nat) :=
  match rdBytes s (feAgent u.ctx) .engRead va 256 with
  | .error (.miss wh c v) => .error (.miss wh c v)
  | .error (.flt f) => (s.noted f).refuseLaunch u [] 2 0 (some f)
  | .ok bs => s.acceptLaunch u bs

/-! ## Binding (R193 to R196) -/

/-- The instance of a domain that holds a core. -/
def instOf (dom core : Nat) : Nat :=
  let d := core / 96
  let r := core % 96 / 12
  let c := core % 12
  match dom with
  | 2 => d
  | 3 => d * 4 + r / 4 * 2 + c / 6
  | 4 => d * 24 + r / 2 * 6 + c / 2
  | 5 => core
  | _ => 0

/-- The instance `i` of a domain has a core in service. -/
def State.anyInService (s : State) (dom i : Nat) : Bool := (List.range 192).any fun n => instOf dom n == i && s.coreOk n

/-- Whether the next iteration may be bound to a core: at each level whose current group goes on, the core lies in
the group's instance, unless that has been fenced whole (R193, R207). -/
def Launch.placeOk (s : State) (l : Launch) (core : Nat) : Bool :=
  (List.range l.nlev).all fun k =>
    l.next == 0 || !s.anyInService (l.dom k) (instOf (l.dom k) l.core) || l.next / max (l.group k) 1 != (l.next - 1) / max (l.group k) 1 || l.dom k == 6 ||
      instOf (l.dom k) core == instOf (l.dom k) l.core

/-- The narrowest bound domain: the last level that is not CONT; the package when there is none. -/
def Launch.narrow (l : Launch) : Nat :=
  (((List.range l.nlev).map l.dom).filter (· != 6)).getLastD 1

/-- Free resident slots of a core, lowest first. -/
def State.freeSlots (s : State) (n : Nat) : List Nat := (List.range 16).filter fun k => !thas (s.core n).slots k

/-- Every continuation of the launch has a home core (R195). -/
def Launch.homes (l : Launch) : Bool := l.home || 0 < l.nslab || 0 < l.nacc || 2 ≤ l.gang

/-- The wait operand of a child launch holds (R260). -/
def Launch.parentReady (s : State) (l : Launch) : Bool :=
  match l.parent with
  | .none => true
  | .some (cid, e, n) => n ≤ nth (s.cont cid).tl e

/-- A launch could bind its next iteration, or gang, to a core. -/
def State.canBind (s : State) (l : Launch) (n : Nat) : Bool :=
  l.held && !l.finished && l.stopped.isNone && l.begun && l.next < l.count && l.parentReady s && s.coreOk n && l.placeOk s n &&
    l.gsize ≤ (s.freeSlots n).length && s.storageRoom n (s.hoPaused 1 n) ((s.freeSlots n).take l.gsize) l.nslab l.nacc

/-- Barriers of a slot as binding leaves them, for a gang of `g` (R263). -/
def State.freshBars (s : State) (n slot g : Nat) : State :=
  (List.range 8).foldl (fun s h => s.setBar (n, 8 * slot + h) { Bar.reset with arr := max g 1 }) s

/-- Bind one iteration to slot `slot` of core `n` with its registers and storage; `false` when a claim, which
scheduler firmware makes, must wait (R383, R403). -/
def State.bindOne (s : State) (lid n slot : Nat) (a : List Word) : Except Stop (State × Bool) :=
  let l := s.launch lid
  let cid := s.nextCid
  let text := bits (s.rget (oFE + 0x3000 + 16 * l.slot) 0) 51 12 * 4096
  let c : Cont := { Cont.fresh with
    pc := BitVec.ofNat 64 (text + l.entry), a := a, home := if l.homes then some n else none, core := some n, slot := slot
    prio := l.prio, gang := l.gang, lid := lid, ordinal := l.next, ctx := l.ctx, dom := l.narrow, inst := instOf l.narrow n
    restAt := s.clock }
  match s.takeStorage n (s.hoPaused 1 n) slot l.nslab l.nacc with
  | .error e => .error e
  | .ok (s, none) => .ok (s, false)
  | .ok (s, some ps) =>
    let s := { s with nextCid := cid + 1, clock := s.clock + 1 }.setCont cid c
    let s := (s.setCore n { s.core n with slots := tset (s.core n).slots slot cid }).freshBars n slot l.gang
    let s := ps.foldl (fun (s : State) p => s.givePiece n p cid) s
    let l := s.launch lid
    .ok (s.setLaunch lid { l with next := l.next + 1, bound := l.bound + 1, core := n }, true)

/-- The registers of `k` iterations from ordinal `i`. -/
def gangRegs (s : State) (l : Launch) (i : Nat) : Nat → Except Stop (List (List Word))
  | 0 => .ok []
  | k + 1 =>
    match startRegs s l i with
    | .error e => .error e
    | .ok a => (gangRegs s l (i + 1) k).map (a :: ·)

/-- Bind an iteration to each slot. -/
def bindSlots (lid n : Nat) : List (Nat × List Word) → State → Except Stop (State × Bool)
  | [], s => .ok (s, true)
  | p :: ps, s =>
    match s.bindOne lid n p.1 p.2 with
    | .error e => .error e
    | .ok (s, false) => .ok (s, false)
    | .ok (s, true) => bindSlots lid n ps s

/-- Bind a whole gang, or one iteration (R194); a fault of a list entry's read binds none of them and stops the launch (R190). -/
def bindMany (lid n : Nat) (slots : List Nat) (s : State) : Except Stop (State × Bool) :=
  let l := s.launch lid
  match gangRegs s l l.next slots.length with
  | .error (.miss wh c v) => .error (.miss wh c v)
  | .error (.flt f) => ((s.noted f).setLaunch lid { l with stopped := some f }).settleLaunch lid |>.map fun s => (s, true)
  | .ok as => bindSlots lid n (slots.zip as) s

/-- A walker starts a launch with a tile list: it reads the list's header, and the number of iterations is checked against the gang
(R190, R191, log 81). -/
def State.startLaunch (s : State) (lid : Nat) : Except Stop State :=
  let l := s.launch lid
  match listCounts s l l.listAt with
  | .error (.miss wh c v) => .error (.miss wh c v)
  | .error (.flt f) => ((s.noted f).setLaunch lid { l with begun := true, stopped := some f }).settleLaunch lid
  | .ok (r, c) =>
    let n := if l.section1 then c else r
    let i := if l.section1 then r else 0
    if l.gangOk n then
      (s.setLaunch lid { l with begun := true, count := n, listAt := (l.listAt + 16 * i) % 2 ^ 64, index0 := i }).reholdAll.settleLaunch lid
    else
      (s.feWrite l.ctx l.comp (compRecord lid 1 6 0 0 none)).map fun p =>
        ((p.1.failRun l.stream l.run l.node).setLaunch lid { l with begun := true, finished := true, held := false, status := 1 }).reholdAll

/-- FE_CTL.EN. -/
def State.feOn (s : State) : Bool := bit (s.rget oFE 0) 0

/-- A launch waits for its walker to start it. -/
def State.canStart (s : State) (lid : Nat) : Bool :=
  let l := s.launch lid
  thas s.launches lid && l.held && !l.finished && !l.begun && l.parentReady s

/-! ## Badger (R217) -/

/-- Weight of a stream. -/
def State.weight (s : State) (st : Nat) : Nat := max (bits (s.feStr st) 15 8) 1
/-- Effective class. -/
def State.effClass (s : State) (st : Nat) : Nat := if (s.stream st).aged then 0 else bits (s.feStr st) 1 0

/-- Launches of stream `st` that could bind at a core, by number, with the highest PRIO first. -/
def bestLaunch (s : State) (st n : Nat) : Tbl Launch → Option Nat
  | [] => none
  | (k, l) :: t =>
    let r := bestLaunch s st n t
    if l.stream == some st && s.canBind l n then
      match r with
      | some j => if l.prio < (s.launch j).prio then some j else some k
      | none => some k
    else r

/-- Visits without a selection that a stream needs before its deficit is positive. -/
def roundsTo (d : Int) (inc : Nat) : Nat := if 0 < d then 0 else (-d).toNat / max inc 1 + 1

/-- Badger's choice among eligible streams of one class, in cyclic order: the fewest visits, then the first. -/
def pickStream : List (Nat × Nat) → Option (Nat × Nat)
  | [] => none
  | p :: ps =>
    match pickStream ps with
    | none => some p
    | some q => if q.2 < p.2 then some q else some p

/-- Add `k` visits' increments to the streams before the chosen one, and one more; `k` to the others. -/
def addVisits (q : Nat) (k : Nat) (win : Nat) : Bool → List Nat → State → State
  | _, [], s => s
  | before, st :: sts, s =>
    let before := before && st != win
    let x := s.stream st
    let n := if before then k + 1 else k
    addVisits q k win before sts (s.setStream st { x with deficit := x.deficit + (n * (q * s.weight st) : Nat) })

/-- A decision of scheduler firmware is not made because a claim's save faulted in `t`: what the part counts of the fault stays
(R119, R383); none when it counts nothing. -/
def State.passed (s t : State) : Option State :=
  if [0x01300028, 0x02300028].all fun o => t.rget o 0 == s.rget o 0 then none
  else some ([0x01300020, 0x01300028, 0x02300020, 0x02300028].foldl (fun (u : State) o => u.rset o (t.rget o 0)) s)

/-- One binding opportunity at core `n`: Badger selects a stream, and its launch binds. `none` when no stream is
eligible. -/
def State.opportunity (s0 : State) (n : Nat) : Except Stop (Option State) :=
  let s := s0.unreadyAll
  let el := (List.range 128).filter fun st => s.isReady st && (bestLaunch s st n s.launches).isSome
  match el with
  | [] => .ok none
  | _ =>
    let c := el.foldl (fun c st => min c (s.effClass st)) 3
    let p := nth s.badger c
    let cl := el.filter fun st => s.effClass st == c
    let cyc := cl.filter (p ≤ ·) ++ cl.filter (· < p)
    let q := s.rget (oFE + 8) 100000
    match pickStream (cyc.map fun st => (st, roundsTo (s.stream st).deficit (q * s.weight st))) with
    | none => .ok none
    | some (st, k) =>
      match bestLaunch s st n s.launches with
      | none => .ok none
      | some lid =>
        let g := (s.launch lid).gsize
        let epi := (s.launch lid).epi
        let s1 := addVisits q k st true cyc { s with badger := s.badger.set c st }
        let x := s1.stream st
        let s1 := s1.setStream st { x with aged := false, deficit := x.deficit - (g * epi : Nat) }
        match bindMany lid n ((s1.freeSlots n).take g) s1 with
        | .error e => .error e
        | .ok (t, false) => .ok (s0.passed t)
        | .ok (s, true) => .ok (some s.reholdAll)

end Sys2Proof.Machine
end

