-- ==== Sys2Proof/Machine/Firmware.lean ====
section
/-! DEFINITION. Firmware slots, the hand-over state machine, the heartbeat watchdog, measurements, keys
(R398 to R416), fencing (R420 to R422), and the resets of the part (R401, R426). -/

namespace Sys2Proof.Machine

/-! ## Flash (R398, R399) -/

/-- One step of the reflected CRC-32 over `n` bits. -/
def crcBits : Nat → Nat → Nat
  | 0, c => c
  | n + 1, c => crcBits n (if c % 2 == 1 then (c / 2) ^^^ 0xEDB88320 else c / 2)

/-- CRC register after some bytes. -/
def crcRun : List Byte → Nat → Nat
  | [], c => c
  | b :: bs, c => crcRun bs (crcBits 8 (c ^^^ b.toNat))

/-- CRC-32 of R399. -/
def crc32 (bs : List Byte) : Nat := crcRun bs 0xFFFFFFFF ^^^ 0xFFFFFFFF

/-- Flash offset of marker copy `c` of kind `k`. -/
def markerOff (k c : Nat) : Nat := 0x10000 + k * 0x20000 + c * 0x10000
/-- Flash offset of image slot `sl` of kind `k`. -/
def slotOff (k sl : Nat) : Nat := 0x01000000 + (2 * k + sl) * 0x01000000
/-- Bytes of an image slot. -/
def slotSize : Nat := 0x01000000

/-- A marker copy. -/
structure Marker where
  slot    : Nat
  state   : Nat
  seq     : Nat
  version : Nat
  attempt : Nat
  deriving DecidableEq, Repr, Inhabited

/-- A marker as its 64 bytes. -/
def Marker.bytes (k : Nat) (m : Marker) : List Byte :=
  let b := leBytes 4 0x4D574B31 ++ leBytes 1 k ++ leBytes 1 m.slot ++ leBytes 1 m.state ++ leBytes 1 0 ++ leBytes 4 m.seq ++
    leBytes 4 m.version ++ List.replicate 36 (0 : Byte)
  b ++ leBytes 4 (crc32 b) ++ leBytes 8 m.attempt

/-- The valid marker that 64 bytes hold for kind `k`. -/
def parseMarker (k : Nat) (b : List Byte) : Option Marker :=
  if fieldAt b 0 4 == 0x4D574B31 && fieldAt b 4 1 == k && fieldAt b 6 1 ≤ 1 && fieldAt b 52 4 == crc32 (b.take 52) then
    some ⟨fieldAt b 5 1 % 2, fieldAt b 6 1, fieldAt b 8 4, fieldAt b 12 4, fieldAt b 56 8⟩
  else none

/-- Marker copy `c` of kind `k`, when valid. -/
def State.marker (s : State) (k c : Nat) : Option Marker := parseMarker k (s.flashGet (markerOff k c) 64)

/-- The valid copy with the highest SEQ, with its copy number. -/
def State.bestMarker (s : State) (k : Nat) : Option (Nat × Marker) :=
  match s.marker k 0, s.marker k 1 with
  | some a, some b => if a.seq < b.seq then some (1, b) else some (0, a)
  | some a, none => some (0, a)
  | none, some b => some (1, b)
  | none, none => none

/-- The copy that a new marker overwrites: one that is not valid, or that of lower SEQ (R402). -/
def State.oldCopy (s : State) (k : Nat) : Nat :=
  match s.bestMarker k with
  | some (c, _) => 1 - c
  | none => 0

/-- The block of the marker copy to be overwritten is erased (R402). -/
def State.eraseMarker (s : State) (k : Nat) : State := s.flashErase (markerOff k (s.oldCopy k)) 0x10000

/-- A marker's 64 bytes programmed into the copy that is not valid (R402). -/
def State.putMarker (s : State) (k slot state version attempt : Nat) : State :=
  let q := match s.bestMarker k with | some (_, m) => m.seq + 1 | none => 0
  s.flashPut (markerOff k (s.oldCopy k)) (Marker.bytes k ⟨slot, state, q, version, attempt⟩)

/-- ATTEMPT of a marker copy programmed to 0 (R399, R401). -/
def State.startTrial (s : State) (k c : Nat) : State := s.flashPut (markerOff k c + 56) (leBytes 8 0)

/-! ## Images (R400) -/

/-- The header of the image in slot `sl` of kind `k`. -/
def State.imageHead (s : State) (k sl : Nat) : ImageHead := Config.imageHead (s.flashGet (slotOff k sl) 512)

/-- The measurement of an image slot (R411). -/
def State.imageDigest (s : State) (k sl : Nat) : BitVec 384 := Config.digest (s.flashGet (slotOff k sl) slotSize)

/-- A slot verifies: its signature checks, the digest of its body matches, its KIND matches, and its SVN is at least the fused rollback
counter. -/
def State.slotVerifies (s : State) (k sl : Nat) : Bool :=
  let h := s.imageHead k sl
  Config.imageSigned (s.flashGet (slotOff k sl) 512) && h.len ≤ slotSize - 512 &&
    Config.digest (s.flashGet (slotOff k sl + 512) h.len) == h.digest && h.kind == k && Config.rollback k ≤ h.svn

/-- Block `b` of the staged image written into the inactive slot (R402, R403). -/
def State.stageBlock (s : State) (k b : Nat) : State :=
  let src := bits (s.rget (0x1008 + 0x100 * k) 0) 47 16 * 65536 + b * 65536
  let dst := slotOff k (1 - bits (s.rget (0x1028 + 0x100 * k) 0) 0 0) + b * 65536
  (s.flashErase dst 65536).flashPut dst (mgets s.mem src 65536)

/-! ## Registers of the hand-over (R415) -/

/-- State and REASON; BUSY is cleared. -/
def State.setHo (s : State) (k st reason : Nat) : State := s.rset (oHo k + 4) (st + 256 * reason)
/-- BUSY of FW_HO_STATE_k. -/
def State.hoBusy (s : State) (k : Nat) : State := s.ror (oHo k + 4) 0x10000
def State.runVer (s : State) (k : Nat) : Nat := s.rget (oHo k + 0x20) 0
def State.pendVer (s : State) (k : Nat) : Nat := s.rget (oHo k + 0x24) 0
def State.bootSlot (s : State) (k : Nat) : Nat := bits (s.rget (oHo k + 0x28) 0) 0 0

/-- A hand-over is in progress (R403). -/
def State.hoActive (s : State) : Bool := (List.range 3).any fun k => s.hoState k != 0

/-- The units of a kind that reach the hand-over point (R410). -/
def State.hoUnits (s : State) (k : Nat) : List Nat :=
  match k with
  | 0 => List.range 4
  | 1 => (List.range 192).filter s.coreOk
  | _ => (List.range 4).filter fun i => bit (s.rget (oRAS + 0x40) 0xFFF) (8 + i)

/-- Event records of a hand-over (R414); TIME is a free value (log 5). -/
def State.hoEvent (s : State) (k ev reason newv oldv : Nat) : Except Stop State :=
  let (t, s) := s.draw
  s.event ev k reason newv oldv (s.handOver k).seq t.toNat

/-- The harts that execute the image of a kind; the controllers of the FIs are no harts. -/
def State.fwHarts (s : State) (k : Nat) : List Nat :=
  match k with
  | 0 => [384, 385, 386, 387]
  | 1 => ((List.range 192).filter s.coreOk).map (2 * · + 1)
  | _ => []

/-- Every hart of a kind starts an image at an entry, all at one point (R408, R410, log 89). -/
def State.startImage (s : State) (k : Nat) (entry : Word) : State :=
  (s.fwHarts k).foldl (fun s n => s.setHart n { hartReset n with pc := entry, ctx := (s.hart n).ctx }) s

/-- The firmware of a kind gets work to do. -/
def State.hoDo (s : State) (k : Nat) (ws : List HoWork) : State := s.setHandOver k { s.handOver k with todo := ws }

/-! ## Transitions (R403, R404) -/

/-- ABORTED or FALLBACK done, IDLE: the pending measurement is cleared and MEAS_REVERTED sent when MEAS_PENDING was. -/
def State.hoBack (s : State) (k : Nat) : Except Stop State :=
  let h := s.handOver k
  let v := s.pendVer k
  let reason := bits (s.rget (oHo k + 4) 0) 15 8
  let t := ({ s with measNext := tdel s.measNext k } : State).rset (oHo k + 0x24) 0 |>.setHo k 0 reason
  let t := t.setHandOver k { HandOver.reset with seq := h.seq, beats := h.beats }
  if h.verified then t.hoEvent k 3 reason v (s.runVer k) else .ok t

/-- ABORTED: the old image continues. -/
def State.hoAborted (s : State) (k reason : Nat) : State :=
  let h := s.handOver k
  (s.setHo k 8 reason).setHandOver k { h with todo := [.back], start := false, abortReq := false, arrived := [] }

/-- FALLBACK: the new image is stopped, the old one, still resident, starts at its fallback entry and replays the journal (R408). -/
def State.hoFallback (s : State) (k reason : Nat) : State :=
  let h := s.handOver k
  let t := (s.radd (oHBW + 0x70) 1).rset (oHBW + 0x50 + 8 * k) 0
  let t := match h.old with | some d => t.startImage k (Config.imageEntry d).2 | none => t
  (t.setHo k 7 reason).setHandOver k { h with todo := [.replay 0, .back], abortReq := false, arrived := [] }

/-- QUIESCE ends once every unit is at its hand-over point. -/
def State.hoGathered (s : State) (k : Nat) : State :=
  if s.hoState k == 2 && (s.hoUnits k).all (fun u => (s.handOver k).arrived.contains u) then s.setHo k 3 0 else s

/-- CMD PREPARE (R404). -/
def State.hoPrepare (s : State) (k : Nat) : State :=
  if s.hoState k != 0 || s.hoActive then s.hoBusy k
  else
    let n := (List.range 3).foldl (fun a j => max a (s.handOver j).seq) 0
    (s.setHo k 1 0).setHandOver k { HandOver.reset with seq := n + 1, beats := (s.handOver k).beats, todo := [.stage 0] }

/-- CMD START (R404). -/
def State.hoStart (s : State) (k : Nat) : State :=
  let h := s.handOver k
  if s.hoState k != 1 then s
  else if h.verified then s.setHo k 2 0
  else s.setHandOver k { h with start := true }

/-- CMD ABORT (R404). -/
def State.hoAbort (s : State) (k : Nat) : State :=
  let h := s.handOver k
  match s.hoState k with
  | 1 => s.hoAborted k 7
  | 2 => s.hoAborted k 7
  | 3 => s.setHandOver k { h with abortReq := true }
  | 4 => s.hoFallback k 7
  | 5 => s.hoFallback k 7
  | _ => s

/-- A write of FW_HO_CTL_k. -/
def State.hoCommand (s : State) (k cmd : Nat) : State :=
  match cmd % 4 with
  | 1 => s.hoPrepare k
  | 2 => s.hoStart k
  | 3 => s.hoAbort k
  | _ => s

/-- The image in the inactive slot verifies: its measurement is published and MEAS_PENDING sent; a held START then acts (R403, R404,
R411). -/
def State.hoVerified (s : State) (k : Nat) : Except Stop State :=
  let sl := 1 - s.bootSlot k
  let v := (s.imageHead k sl).version % 2 ^ 32
  let h := s.handOver k
  let s := { s with measNext := tset s.measNext k (s.imageDigest k sl) }
  let s := (s.rset (oHo k + 0x24) v).setHandOver k { h with verified := true, start := false }
  match s.hoEvent k 1 0 v (s.runVer k) with
  | .error e => .error e
  | .ok s => .ok (if h.start then s.setHo k 2 0 else s)

/-- A unit arrives at the barrier of R410. -/
def State.hoArrive (s : State) (k u : Nat) : State :=
  let h := s.handOver k
  (s.setHandOver k { h with arrived := if h.arrived.contains u then h.arrived else h.arrived ++ [u] }).hoGathered k

/-- The state records at `a`, back to back, that belong to kind `k` and whose CRC matches: their number and
the address behind them (R405). A header of zeros is none, and 20 bytes stay free for the end record (log 30). -/
def exportScan (m : Memory) (k a stop : Nat) : Nat → Nat → Nat × Nat
  | 0, n => (n, a)
  | f + 1, n =>
    let len := mnum m (a + 4) 4
    let nxt := roundUp (a + 16 + len) 16
    if mnum m a 16 != 0 && mnum m a 2 / 0x4000 == k && mnum m (a + 12) 4 == 0 && nxt + 20 ≤ stop && mnum m (a + 8) 4 == crc32 (mgets m (a + 16) len)
    then exportScan m k nxt stop f (n + 1)
    else (n, a)

/-- The end record behind the exported records (R405). -/
def State.exportEnd (s : State) (k : Nat) : State :=
  let x := bits (s.rget (oHo k + 0x10) 0) 47 16 * 65536
  let (n, a) := exportScan s.mem k x (x + 0x4000000) 0x400000 0
  let pay := leBytes 4 n
  { s with mem := msets s.mem a (leBytes 2 0xFFFF ++ leBytes 2 0 ++ leBytes 4 4 ++ leBytes 4 (crc32 pay) ++ leBytes 4 0 ++ pay) }

/-- EXPORT ends with the end record: in ACTIVATE the TRIAL marker is written with ATTEMPT 0 and the new image starts, beside the old
one; a held ABORT makes it fall back (R402, R403, R416). -/
def State.hoExported (s : State) (k : Nat) : State :=
  let s := (s.exportEnd k).setHo k 4 0
  let h := s.handOver k
  let s := s.setHandOver k { h with
    todo := [.erase, .program (1 - s.bootSlot k) 0 (s.pendVer k) 0, .start], old := some (tget 0 s.measNow (2 + k)), jrnl := 0, beats := 0 }
  if h.abortReq then s.hoFallback k 7 else s

/-- COMMIT: the CONFIRMED marker, then the transaction (R403). -/
def State.hoCommitting (s : State) (k : Nat) : State :=
  (s.setHo k 6 0).hoDo k [.erase, .program (1 - s.bootSlot k) 1 (s.pendVer k) m64, .commit]

/-- The transaction of COMMIT, then IDLE: the old image is no longer resident (R403, R411, R143). -/
def State.hoCommit (s : State) (k : Nat) : Except Stop State :=
  let v := s.pendVer k
  let old := s.runVer k
  let s := { s with measNow := tset s.measNow (2 + k) (tget 0 s.measNext k), measNext := tdel s.measNext k }
  let s := ((s.rset (oHo k + 0x20) v).rset (oHo k + 0x24) 0).setHo k 0 0
  let h := s.handOver k
  (s.setHandOver k { HandOver.reset with seq := h.seq, beats := h.beats }).hoEvent k 2 0 v old

/-- Boot probation ends with its CONFIRMED marker (R401). -/
def State.bootConfirm (s : State) (k : Nat) : State := s.hoDo k [.erase, .program (s.bootSlot k) 1 (s.runVer k) m64, .confirm]

/-- The journal's record at offset `o` replayed: the offset of the next, if there is one (R405, R407, R408). -/
def State.jrnlNext (s : State) (k o : Nat) : Option Nat :=
  let n := roundUp (o + 16 + mnum s.mem (bits (s.rget (oHo k + 0x18) 0) 47 16 * 65536 + o + 4) 4) 16
  if n < (s.handOver k).jrnl then some n else none

/-- The firmware of a kind does the first of what it has to do. -/
def State.hoStep (s : State) (k : Nat) (w : HoWork) (ws : List HoWork) : Except Stop State :=
  let t := s.hoDo k ws
  match w with
  | .stage b => .ok ((s.stageBlock k b).hoDo k (if b < 255 then .stage (b + 1) :: ws else ws))
  | .erase => .ok (t.eraseMarker k)
  | .program sl st v a => .ok (t.putMarker k sl st v a)
  | .start => .ok (t.startImage k (Config.imageEntry (tget 0 s.measNext k)).1)
  | .replay o => .ok (match s.jrnlNext k o with | some n => s.hoDo k (.replay n :: ws) | none => t)
  | .commit => t.hoCommit k
  | .confirm => .ok (t.rset (oHo k + 0x28) (s.bootSlot k))
  | .back => t.hoBack k

/-! ## Heartbeats (R408) -/

/-- HBW_MISS_k. -/
def oMiss (k : Nat) : Nat := oHBW + 0x50 + 8 * k

/-- A write to HBW_BEAT_k: the first of the new image, which has started, ends ACTIVATE. -/
def State.beat (s : State) (k : Nat) : State :=
  let h := s.handOver k
  if s.hoState k == 4 && h.todo.isEmpty then ((s.setHo k 5 0).setHandOver k { h with beats := 1 }).rset (oMiss k) 0
  else s.setHandOver k { h with beats := h.beats + 1 }

/-- A write to HBW_NACK_k. -/
def State.nack (s : State) (k : Nat) : State := if s.hoState k == 4 || s.hoState k == 5 then s.hoFallback k 6 else s

/-! ## The downgrade journal (R407) -/

/-- A record appended to the journal of kind `k`; none when it is full. -/
def State.jrnlAppend (s : State) (k : Nat) : Option State :=
  let v := s.rget (oHo k + 0x18) 0
  let h := s.handOver k
  let (ty, sch, pay) := Config.journalRec s.fresh
  let rcd := leBytes 2 (k * 0x4000 + ty % 0x4000) ++ leBytes 2 sch ++ leBytes 4 pay.length ++ leBytes 4 (crc32 pay) ++ leBytes 4 0 ++ pay
  let n := roundUp rcd.length 16
  if 2 ^ (bits v 5 0 + 16) < h.jrnl + n then none
  else some ({ s with mem := msets s.mem (bits v 47 16 * 65536 + h.jrnl) rcd, fresh := s.fresh + 1 }.setHandOver k { h with jrnl := h.jrnl + n })

/-- A decision of firmware of kind `k`, which led from `s0` to `t`: from ACTIVATE to COMMIT the new image journals it first, and a full
journal counts as a NACK, before which the decision is not made (R407, R409). -/
def State.journalled (s0 t : State) (k : Nat) : State :=
  if t.hoState k != 4 && t.hoState k != 5 then t
  else match t.jrnlAppend k with | some u => u | none => s0.hoFallback k 6

/-! ## Measurements and keys (R411 to R413) -/

/-- Block 5: the memory configuration. -/
def State.memConfig (s : State) : List Byte :=
  (List.range 16).flatMap (fun j => leBytes 8 (s.rget (oMMU + 8 * j) 0)) ++ leBytes 4 (s.rget (oMMU + 0x80) 0) ++
    s.spares.flatMap (leBytes 8) ++ Config.keyPolicy ++ leBytes 8 (s.rget (oHL + 0x210) 0) ++ leBytes 8 (s.rget (oHL + 0x218) 0)

/-- One measurement block: index, state of a pending image (1 STAGED, 2 PROBATION), digest. -/
def State.measBlock (s : State) (i : Nat) : List Byte :=
  let (st, d) :=
    if i == 5 then (0, Config.digest s.memConfig)
    else if i < 5 then (0, tget 0 s.measNow i)
    else if thas s.measNext (i - 6) then ((if s.hoState (i - 6) == 5 then 2 else 1), tget 0 s.measNext (i - 6))
    else (0, 0)
  leBytes 1 i ++ leBytes 1 st ++ leBytes 48 (BitVec.toNat d)

/-- The response to GET_MEASUREMENTS: the blocks and their signature (log 10). -/
def State.measurements (s : State) : List Byte :=
  let b := [1, 2, 3, 4, 5, 6, 7, 8].flatMap s.measBlock
  b ++ Config.sign b

/-- FW_KEY_STAT with its result. -/
def State.keyStat (s : State) (slot st reason : Nat) : State :=
  s.rset 0x3010 (st + 16 * reason + 256 * b2n (thas s.keys slot))

/-- OP LOAD. -/
def State.keyLoad (s : State) : State :=
  let slot := bits (s.rget 0x3008 0) 7 0
  let ten := bits (s.rget 0x3008 0) 11 8
  let a := bits (s.rget 0x3000 0) 47 5 * 32
  if !s.locked then s.keyStat slot 3 1
  else if slot == 0 then s.keyStat slot 3 2
  else if !s.attested.contains ten then s.keyStat slot 3 3
  else if hbmEnd < a + 32 || ueIn s.ue a 32 || !s.chanOk (channelOf s a) then s.keyStat slot 3 4
  else
    let s := { s with keys := tset s.keys slot (mgets s.mem a 32, ten) }
    (s.putLoc .part a (List.replicate 32 0)).keyStat slot 2 0

/-- OP CLEAR. -/
def State.keyClear (s : State) : State :=
  let slot := bits (s.rget 0x3008 0) 7 0
  ({ s with keys := tdel s.keys slot } : State).keyStat slot 2 0

/-! ## Resets (R401, R402, R426) -/

/-- What flash keeps: the memory at and above its first location, and the head of the persistent log. -/
def State.flashOnly (s : State) : State :=
  { State.reset with mem := s.mem.filter (fun c => flashLoc 0 ≤ c.1), fresh := s.fresh, agenda := s.agenda }
    |>.rset (oRAS + 0x68) (s.rget (oRAS + 0x68) 0)

/-- FW_BOOT and FW_MARK_SEQ (R401, R415). -/
def State.bootRegs (s : State) (k sl trial : Nat) : State :=
  (s.rset (oHo k + 0x28) (sl + 2 * trial)).rset (oHo k + 0x2C) (match s.bestMarker k with | some (_, m) => m.seq | none => 0)

/-- The image in a slot is booted: it is measured, its version runs, and its harts start at its entry (R401, R411, R415). -/
def State.bootSlotOf (s : State) (k sl trial : Nat) : State :=
  let d := s.imageDigest k sl
  let s := { s with measNow := tset s.measNow (2 + k) d }.rset (oHo k + 0x20) ((s.imageHead k sl).version % 2 ^ 32)
  (s.startImage k (Config.imageEntry d).1).bootRegs k sl trial

/-- The boot ROM's choice for kind `k`. -/
def State.bootKind (s : State) (k : Nat) : State :=
  let (sl, trial, s) : Nat × Nat × State :=
    match s.bestMarker k with
    | none => (0, 0, s)
    | some (c, m) =>
      if m.state == 0 then (if m.attempt == m64 then (m.slot, 1, s.startTrial k c) else (1 - m.slot, 0, s))
      else (m.slot, 0, s)
  if s.slotVerifies k sl then s.bootSlotOf k sl trial
  else if s.slotVerifies k (1 - sl) then s.bootSlotOf k (1 - sl) 0
  else ((s.bootRegs k sl trial).setHandOver k { HandOver.reset with down := true }).logRecord 6 k 0 |>.replaceReq 6

/-- The rows that the persistent log names for repair: DETAIL of its records of a repair candidate, which has bit 63 set (R418, R422,
log 64). -/
def State.repairs (s : State) : List Nat :=
  ((List.range (min (s.rget (oRAS + 0x68) 0) 65536)).filterMap fun i =>
    let b := s.flashGet (0x800000 + 64 * i) 64
    let d := fieldAt b 19 8
    if fieldAt b 16 1 == 2 && bit d 63 then some (d % 2 ^ 63) else none).eraseDups

/-- Cold reset: only flash is kept; the boot ROM measures itself and the fuses and chooses the slots, spare rows are applied from the
log, and the strap is known. The link is not trained yet (R426). -/
def State.coldReset (s : State) (inp : BootInputs) : State :=
  let s := s.flashOnly
  let s := { s with measNow := tset s.measNow 1 (Config.digest Config.romFuses), spares := s.repairs }
  let s := (List.range 3).foldl State.bootKind s
  (s.rset (oEAU + 0x6000) (if inp.liquid then 700 else 550)).rset (oEAU + 0x6018) (b2n inp.liquid)

/-- The link is trained, once, in a mode and at a rate and width that this mode allows, which gives its lanes in use (R385, R421,
R426). -/
def State.linkUp (s : State) (cxl : Bool) (rate width : Nat) : State :=
  (s.rset (oHL + 0x200) (b2n cxl + width * 4 + rate * 256)).rset (oRAS + 0x48) width

/-- Three missed periods outside probation: the request and its record, then the part is reset (R408). -/
def State.fwHang (s : State) (k : Nat) (inp : BootInputs) : State :=
  ((s.logRecord 7 k 0).replaceReq 7).coldReset inp

/-- A heartbeat period of kind `k` ends (R408). -/
def State.beatPeriod (s : State) (k : Nat) (inp : BootInputs) : State :=
  let h := s.handOver k
  let n := if h.beats == 0 then s.rget (oMiss k) 0 + 1 else 0
  let t := (s.setHandOver k { h with beats := 0 }).rset (oMiss k) n
  if n < 3 then t
  else if s.hoState k == 5 then t.hoFallback k 5
  else t.fwHang k inp

/-! ## Fencing (R420 to R422, R22, R162) -/

/-- The reason code of a unit's fence. -/
def fenceReason : UnitKind → Nat | .core => 1 | .channel => 2 | .decoder => 3 | .link => 4 | .fi => 5

/-- The unit exists and, but for link lanes, is in service. -/
def State.unitUp (s : State) (u : UnitKind) (n : Nat) : Bool :=
  match u with
  | .core => n < 192 && s.coreOk n
  | .channel => n < 256 && s.chanOk n
  | .decoder => n < 8 && bit (s.rget (oRAS + 0x40) 0xFFF) n
  | .fi => n < 4 && bit (s.rget (oRAS + 0x40) 0xFFF) (8 + n)
  | .link => 1 ≤ n && n ≤ s.rget (oRAS + 0x48) 16

/-- The unit's bit cleared; a link retrains at the `lanes - n` lanes that remain. -/
def State.unitDown (s : State) (u : UnitKind) (n : Nat) : State :=
  let clr (off d b : Nat) : State := s.rset off (setBits (s.rget off d) b b 0)
  match u with
  | .core => clr (oRAS + 8 * (n / 64)) m64 (n % 64)
  | .channel => clr (oRAS + 0x20 + 8 * (n / 64)) m64 (n % 64)
  | .decoder => clr (oRAS + 0x40) 0xFFF n
  | .fi => clr (oRAS + 0x40) 0xFFF (8 + n)
  | .link =>
    let w := s.rget (oRAS + 0x48) 16 - n
    (s.rset (oRAS + 0x48) w).rset (oHL + 0x200) (let v := s.rget (oHL + 0x200) 0; if v == 0 then 0 else setBits v 6 2 w)

/-- Load of a decode engine: open streams assigned to it. -/
def State.decLoad (s : State) (e : Nat) : Nat := ((List.range 128).filter fun st => s.isOpen st && s.strEng st == e).length

/-- The least-loaded decode engine in service, lowest number first. -/
def State.leastDec (s : State) : Option Nat :=
  let up := (List.range 8).filter fun e => bit (s.rget (oRAS + 0x40) 0xFFF) e
  match up with
  | [] => none
  | e :: es => some (es.foldl (fun b x => if s.decLoad x < s.decLoad b then x else b) e)

/-- The open streams of a fenced decode engine move, lowest first, and the picture in progress starts again;
with no engine left every open stream stops with UNSUPPORTED (R162). -/
def moveDec (e : Nat) : List Nat → State → Except Stop State
  | [], s => .ok s
  | st :: sts, s =>
    if s.isOpen st && (s.strEng st == e || (s.leastDec.isNone && !s.isStopped st)) then
      match s.leastDec with
      | none =>
        match (s.stopStream st).errRecord (decAgent e (s.streamCtx st)) st (s.stream st).frames 2 none with
        | .error x => .error x
        | .ok s => moveDec e sts s
      | some d =>
        let x := s.stream st
        let s := s.setStream st { x with bits := x.taken ++ x.bits, taken := [] }
        moveDec e sts (s.rset (oCmuS st 0x10) (setBits (s.rget (oCmuS st 0x10) 0) 50 48 d))
    else moveDec e sts s

/-- Continuations that a fenced core takes with it: those that run, are homed or are pinned there (R207). -/
def coreConts (n : Nat) : Tbl Cont → List Nat
  | [] => []
  | (k, c) :: t =>
    if (c.home == some n || (c.core == some n && (c.stat == .running || c.pin || c.frame.isSome))) && c.alive
    then k :: coreConts n t else coreConts n t

/-- The other continuations of a fenced core give their slots up. -/
def leaveCore (n : Nat) : Tbl Cont → Tbl Cont
  | [] => []
  | (k, c) :: t =>
    (k, if c.core == some n && c.home.isNone && c.alive then { c with core := none } else c) :: leaveCore n t

/-- The fault that an abandoned continuation of a fenced core reports. -/
def fencedFault (n ctx : Nat) : MemFault := ⟨0, .unitFenced, .load, 7, false, 9, n, ctx, 0, 0⟩

/-- The frame of the continuation that runs on a core that is being fenced (R369, log 84); one whose pages fault is not written. -/
def State.fenceFrame (s : State) (n : Nat) : Except Stop State :=
  let h := s.hart (2 * n)
  match h.cont with
  | none => .ok s
  | some cid =>
    if (s.cont cid).frame.isSome then .ok s
    else
      let run := s.frameRun cid
      let s := s.captureV run
      let c := s.cont cid
      let c := { c with seq := c.seq + 1 }
      let img := frameImage { h with group := h.group.struck } c (s.vrun run) [] (frameAddr s c.ctx n c.slot) 0x8011 2 0 none none
      match writeFrame s n c.ctx c.slot img false with
      | .error (.miss wh k v) => .error (.miss wh k v)
      | .error (.flt f) => .ok (s.noted f)
      | .ok s => .ok (s.setCont cid c)

/-- What a unit does when it takes no new work any more. -/
def State.unitStops (s : State) (u : UnitKind) (n : Nat) : Except Stop State :=
  match u with
  | .core =>
    match s.fenceFrame n with
    | .error e => .error e
    | .ok s =>
    let s := (coreConts n s.conts).foldl (fun s k => s.abandonCont k (some (fencedFault n (s.cont k).ctx))) s
    let s := { s with conts := leaveCore n s.conts }
    .ok (s.setCore n { s.core n with slots := (s.core n).slots.filter fun p => (s.cont p.2).core == some n })
  | .decoder => moveDec n (List.range 128) s
  | _ => .ok s

/-- The steps of R420. -/
def State.fence (s : State) (u : UnitKind) (n reason : Nat) : Except Stop State :=
  match (s.unitDown u n).unitStops u n with
  | .error e => .error e
  | .ok s =>
    let s := (s.replaceReq reason).ror (oRAS + 0x78) 8
    let s := s.logRecord reason n 0
    match s.event 4 0 reason 0 0 0 0 with
    | .error e => .error e
    | .ok s => .ok ((s.hoGathered 1).hoGathered 2)

end Sys2Proof.Machine
end

