-- ==== Sys2Proof/Machine/Rings.lean ====
section
/-! DEFINITION. Queue records (R211) and the submission rings of the functions (R388 to R394, R441). -/

namespace Sys2Proof.Machine

/-! ## Records (R211, R391) -/

def recKind (b : List Byte) : Nat := fieldAt b 0 1
def recAddr (b : List Byte) : Nat := fieldAt b 8 8
def recLen (b : List Byte) : Nat := fieldAt b 16 4
def recFlags (b : List Byte) : Nat := fieldAt b 20 4
def recAux (b : List Byte) : Nat := fieldAt b 24 8

/-- The reserved bytes of every kind are zero. -/
def recZeros (b : List Byte) : Bool := zeroAt b 1 7 && zeroAt b 32 32

/-- A BITS record of R211. -/
def isBits (b : List Byte) : Bool :=
  recKind b == 1 && recZeros b && 1 ≤ recLen b && recLen b ≤ 2 ^ 24 && recFlags b < 2
/-- A LAUNCH record of R211. -/
def isLaunchRec (b : List Byte) : Bool := recKind b == 2 && recZeros b && recLen b == 0 && recFlags b == 0
/-- A record that the queue accepts at its head. -/
def recOk (b : List Byte) : Bool := isBits b || isLaunchRec b
/-- BEGIN of a batch. -/
def isBegin (b : List Byte) : Bool := recKind b == 3 && recZeros b && 1 ≤ recLen b && recLen b ≤ 256
/-- COMMIT of a batch. -/
def isCommit (b : List Byte) : Bool := recKind b == 4 && recZeros b

/-! ## Ring registers (R388) -/

def State.ringCtl (s : State) (f r : Nat) : Nat := s.rget (oRing f r + 8) 0
def State.ringOn (s : State) (f r : Nat) : Bool := bit (s.ringCtl f r) 0
def State.ringStream (s : State) (f r : Nat) : Nat := bits (s.ringCtl f r) 7 1
def State.ringTail (s : State) (f r : Nat) : Nat := s.rget (oRing f r + 0xC) 0
def State.ringHead (s : State) (f r : Nat) : Nat := s.rget (oRing f r + 0x10) 0
def State.ringSize (s : State) (f r : Nat) : Nat := 2 ^ (bits (s.rget (oRing f r) 0) 3 0 + 4)
def State.ringStat (s : State) (f r v : Nat) : State := s.ror (oRing f r + 0x14) v
/-- HL_FN_CTX_f. -/
def State.fnCtx (s : State) (f : Nat) : Nat := bits (s.rget (oHL + 16 * f) 0) 7 0
/-- Difference modulo 2^32. -/
def sub32 (a b : Nat) : Nat := (a + 2 ^ 32 - b % 2 ^ 32) % 2 ^ 32

/-- HEAD := h, published to the head shadow (R394); a write that faults sets WFAULT and FEWR (R441). -/
def State.publishHead (s : State) (f r h : Nat) : Except Stop State :=
  let s := s.rset (oRing f r + 0x10) (h % 2 ^ 32)
  if bit (s.ringCtl f r) 8 then
    match s.feWrite (s.fnCtx f) (s.rget (oRing f r + 0x18) 0) (leBytes 8 (h % 2 ^ 32)) with
    | .error e => .error e
    | .ok (s, true) => .ok s
    | .ok (s, false) => .ok (s.ringStat f r 0x80)
  else .ok s

/-- HL_RING_CTL written (R389): a refused write leaves EN = 0, and EN cleared by any write discards what was not taken. -/
def State.ringCtlWrite (s : State) (f r v : Nat) : Except Stop State :=
  let v := bits v 9 0
  let o := oRing f r + 8
  let cleared (t : State) : Except Stop State := if s.ringOn f r then t.publishHead f r (s.ringTail f r) else .ok t
  if bit v 0 then
    if f != 0 && s.streamTenant (bits v 7 1) + 1 != f then
      cleared ((s.rset o (setBits (s.ringCtl f r) 0 0 0)).ringStat f r 0x20)
    else .ok (((s.rset o v).rset (oRing f r + 0xC) 0).rset (oRing f r + 0x10) 0)
  else cleared (s.rset o v)

/-- HL_RING_TAIL written (R390). -/
def State.ringTailWrite (s : State) (f r v : Nat) : State :=
  let d := sub32 v (s.ringTail f r)
  if d == 0 || 2 ^ 31 ≤ d then (s.ringStat f r 1).rset (oRing f r + 0x20) ((s.rget (oRing f r + 0x20) 0 + 1) % 2 ^ 32)
  else if s.ringSize f r < sub32 v (s.ringHead f r) then s.ringStat f r 2
  else s.rset (oRing f r + 0xC) v

/-- Record `i` of a ring. -/
def State.ringRead (s : State) (f r i : Nat) : Except Stop (List Byte) :=
  rdBytes s (feAgent (s.fnCtx f)) .engRead (bits (s.rget (oRing f r) 0) 51 12 * 4096 + 64 * (i % s.ringSize f r)) 64

/-- The front end's copy of a launch record with the relocation values of RMASK (R392). -/
def State.relocate (s : State) (f r : Nat) (b : List Byte) : List Byte :=
  (List.range 16).foldl (fun b k =>
    if bit (s.rget (oRing f r + 0x28) 0) k then
      b.take (128 + 8 * k) ++ leBytes 8 (s.rget (oRing f r + 0x80 + 8 * k) 0) ++ b.drop (136 + 8 * k)
    else b) b

/-- The number of the next record appended to a stream's queue. -/
def Stream.nextNum (x : Stream) : Nat := x.popped + x.hw.length + x.spilled

/-- Append a ring record with the launch copy read for it. -/
def State.appendCopy (s : State) (st : Nat) (b : List Byte) (copy : Option LaunchCopy) : Except Stop (State × Bool) :=
  let n := (s.stream st).nextNum
  match s.qappend st b with
  | .error e => .error e
  | .ok (s, false) => .ok (s, false)
  | .ok (s, true) =>
    match copy with
    | some c => let x := s.stream st; .ok (s.setStream st { x with copies := tset x.copies n c }, true)
    | none => .ok (s, true)

/-- The launch record of a ring's LAUNCH record, relocated, or the fault of its read. -/
def State.ringLaunch (s : State) (f r st : Nat) (b : List Byte) : Except Stop LaunchCopy :=
  match rdBytes s (feAgent (s.streamCtx st)) .engRead (recAddr b) 256 with
  | .error (.miss wh c v) => .error (.miss wh c v)
  | .error (.flt e) => .ok (.fault e)
  | .ok l => .ok (.read (s.relocate f r l))

/-- The record at HEAD is taken, outside a batch (R391); `none` when consumption waits. -/
def State.ringTake (s : State) (f r : Nat) : Except Stop (Option State) :=
  let h := s.ringHead f r
  let st := s.ringStream f r
  let gone (s : State) : Except Stop (Option State) := (s.publishHead f r (h + 1)).map some
  match s.ringRead f r h with
  | .error (.miss wh c v) => .error (.miss wh c v)
  | .error (.flt e) => gone ((s.noted e).ringStat f r 8)
  | .ok b =>
    if isBegin b then .ok none
    else if !recOk b then gone (s.ringStat f r 8)
    else if !s.isOpen st then gone (s.ringStat f r 0x40)
    else
      let copy : Except Stop (Option LaunchCopy) := if isLaunchRec b then (s.ringLaunch f r st b).map some else .ok none
      match copy with
      | .error e => .error e
      | .ok c =>
        match s.appendCopy st b c with
        | .error e => .error e
        | .ok (s, false) => .ok (some (s.ringStat f r 4))
        | .ok (s, true) => gone (match c with | some (.fault e) => s.noted e | _ => s)

/-! ## Batches (R393) -/

/-- A record of a batch as read: its bytes, or the fault of the read. -/
abbrev BatchRec := Except MemFault (List Byte)

/-- The records behind the BEGIN at `h` of a batch of `n` members, from place `i` to its COMMIT, with `k` records published: the first
COMMIT, wherever it stands, and a record that cannot be read in its place. `none` when TAIL covers none. -/
def batchScan (s : State) (f r h n : Nat) : Nat → Nat → Except Stop (Option (List BatchRec))
  | 0, _ => .ok none
  | k + 1, i =>
    let rest (m : BatchRec) : Except Stop (Option (List BatchRec)) := (batchScan s f r h n k (i + 1)).map fun x => x.map fun l => m :: l
    match s.ringRead f r ((h + 1 + i) % 2 ^ 32) with
    | .error (.miss wh c v) => .error (.miss wh c v)
    | .error (.flt e) => if i == n then .ok (some [.error e]) else rest (.error e)
    | .ok b => if recKind b == 4 then .ok (some [.ok b]) else rest (.ok b)

/-- A failure of validation: STATUS and DETAIL. -/
structure BatchErr where
  status : Nat
  index  : Nat
  detail : Nat
  deriving DecidableEq, Repr, Inhabited

/-- The members in index order, then the COMMIT that is due at place `n`: each appended copy, or the first failure. -/
def batchCheck (s : State) (f r st n : Nat) : Nat → List BatchRec → Except Stop (Except BatchErr (List (List Byte × Option LaunchCopy)))
  | _, [] => .ok (.ok [])
  | i, m :: ms =>
    let bad (st d : Nat) : Except Stop (Except BatchErr (List (List Byte × Option LaunchCopy))) := .ok (.error ⟨st, i, d⟩)
    match m with
    | .error e => bad 6 e.cause.code
    | .ok b =>
      if n ≤ i then (if isCommit b then .ok (.ok []) else bad 3 0)
      else
        let rest (c : Option LaunchCopy) : Except Stop (Except BatchErr (List (List Byte × Option LaunchCopy))) :=
          (batchCheck s f r st n (i + 1) ms).map fun x => x.map fun l => (b, c) :: l
        if recKind b == 3 || recKind b == 4 then bad 3 0
        else if isBits b then rest none
        else if !isLaunchRec b then bad 1 0
        else
          match s.ringLaunch f r st b with
          | .error e => .error e
          | .ok (.fault e) => bad 6 e.cause.code
          | .ok (.read c) =>
            let ctx := s.streamCtx st
            let l : Launch := { Launch.none with bytes := c, ctx := ctx, stream := some st }
            if !slotResident s l.slot ctx then bad 2 4
            else
              match launchCheck s l with
              | .error e => .error e
              | .ok k => if k.code != 0 then bad 2 k.code else rest (some (.read c))

/-- The members appended in order. -/
def batchAppend (st : Nat) : List (List Byte × Option LaunchCopy) → State → Except Stop (State × Bool)
  | [], s => .ok (s, true)
  | (b, c) :: ms, s =>
    match s.appendCopy st b c with
    | .error e => .error e
    | .ok (s, false) => .ok (s, false)
    | .ok (s, true) => batchAppend st ms s

/-- The batch is decided: its status record, then HEAD (R393, R394). -/
def State.batchEnd (s : State) (f r ci aux status index detail : Nat) : Except Stop State :=
  let s := if status == 0 then s else (s.ringStat f r 0x10).rset (oRing f r + 0x24) ((s.rget (oRing f r + 0x24) 0 + 1) % 2 ^ 32)
  let bs := leBytes 4 ci ++ leBytes 2 status ++ leBytes 2 index ++ leBytes 4 detail ++ leBytes 4 0
  let w : Except Stop (State × Bool) := if aux == 0 then .ok (s, true) else s.feWrite (s.fnCtx f) aux bs
  match w with
  | .error e => .error e
  | .ok (s, ok) => (if ok then s else s.ringStat f r 0x80).publishHead f r (ci + 1)

/-- The address of the status record: AUX of the COMMIT; a COMMIT that could not be read gives none. -/
def commitAux (ms : List BatchRec) : Nat :=
  match ms.getLast? with
  | some (.ok b) => recAux b
  | _ => 0

/-- Validate the batch at HEAD, from BEGIN to its COMMIT; `none` when there is none, or TAIL does not cover it (log 31). -/
def State.batch (s : State) (f r : Nat) : Except Stop (Option State) :=
  let h := s.ringHead f r
  let st := s.ringStream f r
  match s.ringRead f r h with
  | .error (.miss wh c v) => .error (.miss wh c v)
  | .error (.flt _) => .ok none
  | .ok b =>
    if !isBegin b then .ok none
    else
      match batchScan s f r h (recLen b) (sub32 (s.ringTail f r) h - 1) 0 with
      | .error e => .error e
      | .ok none => .ok none
      | .ok (some ms) =>
        let ci := (h + ms.length) % 2 ^ 32
        let fin (s : State) (a i d : Nat) : Except Stop (Option State) := (s.batchEnd f r ci (commitAux ms) a i d).map some
        if !s.isOpen st then fin s 5 0 0
        else if 32 + s.spillSize st < recLen b then fin s 4 0 0
        else
          match batchCheck s f r st (recLen b) 0 ms with
          | .error e => .error e
          | .ok (.error e) => fin s e.status e.index e.detail
          | .ok (.ok l) =>
            if !s.hasRoom st l.length then .ok (some (s.ringStat f r 4))
            else
              match batchAppend st l s with
              | .error e => .error e
              | .ok (_, false) => .ok (some (s.ringStat f r 4))
              | .ok (s, true) => fin s 0 0 0

end Sys2Proof.Machine
end

