-- ==== Sys2Proof/Machine/Window.lean ====
section
/-! DEFINITION. Reading and writing the device registers (R7, R8, R24 to R28) with the effect that each
register's own rule gives a write. -/

namespace Sys2Proof.Machine

/-! ## Reading -/

/-- Occupancy of engine queue `e` of core `n`: hardware entries, then spilled words (R220). -/
def State.engOcc (s : State) (n e : Nat) : Nat :=
  let k := (((s.core n).queues.getD e []).filter fun i => match i with | .word _ => true | .settle _ => false).length
  min k 32 + (k - 32) * 2 ^ 16

/-- CORE_RES of a core (R203). -/
def State.coreRes (s : State) (n : Nat) : Nat :=
  let run := match (s.hart (2 * n)).cont with | some k => (s.cont k).slot * 32 + 2 ^ 9 | none => 0
  (s.core n).slots.length + run

/-- DEC_STAT of an engine (R160). -/
def State.decStat (s : State) (e : Nat) : Nat :=
  let busy := (List.range 128).filter fun st => s.strEng st == e && !(s.stream st).taken.isEmpty
  (match busy with | st :: _ => 1 + 256 * st | [] => 0) + 2 ^ 16 * b2n (!bit (s.rget (oRAS + 0x40) 0xFFF) e)

/-- The value of the register of row `r` whose first byte is at `off`; `i` and `j` are its indexes. A
write-only register reads as zero (R7). -/
def regVal (s : State) (r : RegRow) (off i j : Nat) : Nat :=
  let b := r.base
  if r.acc == .wo then 0
  else if b == oFE + 0x20 then s.walkersBusy
  else if b == oFE + 0x4020 then (s.stream i).hw.length + (s.stream i).spilled
  else if b == oFE + 0x4024 then (s.stream i).spilled
  else if b == oFE + 0x402C then (s.stream i).trigq.length
  else if b == oCMU + 0x1003C then s.rget off 0 + 256 * b2n (s.isOpen i)
  else if b == oDEC + 8 then s.decStat i
  else if b == 0x01300008 then (s.pool.getD i []).length
  else if b == 0x01300018 then (let p := s.reserve.getD i (0, []); p.1 + p.2.length)
  else if b == oMMU + 0xC0 then (s.walks.filter fun m => m.die == i).length
  else if b == oMMU + 0xC8 then (s.missq.filter fun m => m.die == i).length
  else if b == oCore 0 + 0x108 then s.coreRes i
  else if b == oCore 0 + 0x2008 then s.engOcc i j
  else if b == oCore 0 + 0x5008 then ((List.range 1024).filter (s.slabFree i)).length
  else s.rget off (r.resetAt j)

/-- FW key registers, which only the management harts reach (R413). -/
def keyReg (off : Nat) : Bool := 0x3000 ≤ off && off < 0x3014

/-- The 4 bytes at an offset of the window; `mgmt` says that a management hart reads (R26, R27). -/
def regRead4 (s : State) (mgmt : Bool) (off : Nat) : Nat :=
  if keyReg off && !mgmt then 0
  else
    match findReg regMap off with
    | none => 0
    | some (r, b, i, j) =>
      let v := regVal s r b i j
      (if b == off then v else v / 2 ^ 32) % 2 ^ 32

/-- A load of 4 or 8 bytes from the window. -/
def regRead (s : State) (mgmt : Bool) (off n : Nat) : Nat :=
  if n == 8 then regRead4 s mgmt (canonOff off) + 2 ^ 32 * regRead4 s mgmt (canonOff off + 4)
  else regRead4 s mgmt (canonOff off)

/-! ## Writing -/

/-- What a write does: the state after it, or none while it is held. -/
abbrev RegOut := Except Stop (Option State)

/-- A write takes effect. -/
def rdone (s : State) : RegOut := .ok (some s)

/-- A launch that names slot `k` has continuations that have not ended (R209). -/
def State.slotBusy (s : State) (k : Nat) : Bool := s.launches.any fun p => !p.2.finished && p.2.slot == k

/-- RAS_SHED written: the counts restart with a write that sets EN (R423). -/
def State.shedWrite (s : State) (v : Nat) : State :=
  let s := s.rset (oRAS + 0x70) (v &&& (fm 2 0 + fm 15 8))
  if bit v 0 then { s with streams := s.streams.map fun p => (p.1, { p.2 with shed := 0 }) } else s

/-- FE_STR_s written (R161, R216). -/
def State.strWrite (s : State) (st v : Nat) : Except Stop State :=
  if s.isOpen st then (if bit v 16 then .ok s else .ok (s.closeStream st))
  else if bit v 16 then s.openStream st v
  else .ok (s.rset (oFeStr st) (v &&& (fm 1 0 + fm 17 8)))

/-- The effect of a write that stores `nv` in the register of row `r`, or performs the action of a write-only
register for `v`, by an agent. A first context made valid begins step 7 of bring-up (R426). -/
def regEffect (s : State) (who : RegAgent) (r : RegRow) (off i nv v : Nat) : RegOut :=
  let b := r.base
  let put : RegOut := rdone (s.rset off nv)
  let skipIf (c : Bool) : RegOut := if c then rdone s else put
  if b == 0x1000 then rdone (s.hoCommand i v)
  else if b == 0x300C then rdone (if v % 4 == 1 then s.keyLoad else if v % 4 == 2 then s.keyClear else s)
  else if b == oFE + 8 then skipIf (nv == 0 || 2 ^ 40 < nv)
  else if b == oFE + 0x18 then rdone (s.graphLoad v)
  else if b == oFE + 0x3000 then
    (if bit (s.rget off 0) 8 && !bit nv 8 && s.slotBusy i then .ok none else put)
  else if b == oFE + 0x4000 then (s.strWrite i nv).map some
  else if b == oFE + 0x4008 || b == oFE + 0x4018 || b == oFE + 0x4030 then skipIf (s.isOpen i)
  else if b == oCMU + 0x10000 || b == oCMU + 0x10008 || b == oCMU + 0x10010 || b == oCMU + 0x10018 ||
      b == oCMU + 0x10030 || b == oCMU + 0x1003C then skipIf (s.isOpen i)
  else if b == oEAU + 0x2008 then rdone ((s.rset off nv).unready i)
  else if b == oEAU + 0x4000 then skipIf (bit (s.rget oEAU 1) 0)
  else if b == oEAU + 0x6000 then
    skipIf (nv < 400 || 700 < nv || (550 < nv && !bit (s.rget (oEAU + 0x6018) 0) 0))
  else if b == oHBW then (if nv == 0 && (who == .host || !Config.debugBuild) then rdone s else put)
  else if b == oHBW + 8 then skipIf (nv < 10 || 1000 < nv)
  else if b == oHBW + 0x10 then rdone (s.beat i)
  else if b == oHBW + 0x30 then rdone (s.nack i)
  else if b == oHL + 0x210 || b == oHL + 0x218 then skipIf (s.rget (oHL + 0x200) 0 != 0)
  else if b == oRAS + 0x70 then rdone (s.shedWrite nv)
  else if b == 0x01300000 then rdone (s.poolAdd i v)
  else if b == 0x01300010 then skipIf (thas s.regs off)
  else if b == 0x01800008 then skipIf (nv == 0 || 201600 < nv)
  else if b == oMMU then skipIf s.locked
  else if b == oMMU + 0x80 then rdone (if bit v 0 then s.ilvLock else s)
  else if b == oMMU + 0xA0 then
    (if v % 4 == 3 then rdone s else if 64 ≤ s.invals.length then .ok none else rdone (s.invalidate (v % 4)))
  else if b == oMMU + 0x1000 then
    (if bit nv 0 && !s.locked then rdone (s.rset off (setBits nv 0 0 (s.rget off 0)))
     else rdone { s.rset off nv with barsOpen := s.barsOpen || bit nv 0 })
  else if b == oCore 0 + 0x100 then skipIf (nv == 0 || 8 < nv)
  else put

/-- A write to the register at `off` of the bits in `wm` (R7, R8, R27); V of SLC_OWN_960 and up stays 0 (R64). -/
def regWriteAt (s : State) (who : RegAgent) (r : RegRow) (off i j v wm : Nat) : RegOut :=
  let old := s.rget off (r.resetAt j)
  let m := (if r.name == "SLC_OWN" && 960 ≤ j then r.mask - 0x100 else r.mask) &&& wm
  let keep := old - (old &&& m)
  match r.acc with
  | .ro => rdone s
  | .rw => regEffect s who r off i (keep + (v &&& m)) (v &&& m)
  | .wo => regEffect s who r off i (v &&& m) (v &&& m)
  | .w1c => rdone (s.rset off (old - (old &&& (v &&& m))))
  | .w1s => regEffect s who r off i (old ||| (v &&& m)) (v &&& m)

/-- A management hart writes. -/
def isMgmt : RegAgent → Bool
  | .host => false
  | .hart h => 384 ≤ h

/-- A 4-byte write at an offset. -/
def regWrite4 (s : State) (who : RegAgent) (off v : Nat) : RegOut :=
  if keyReg off && !isMgmt who then rdone s
  else
    match findReg regMap off with
    | none => rdone s
    | some (r, b, i, j) =>
      if b == off then regWriteAt s who r b i j v m32 else regWriteAt s who r b i j (v * 2 ^ 32) (m64 - m32)

/-- A store of 4 or 8 bytes to the window: an 8-byte store to one 64-bit register is one write, any other
acts as two, lower address first (R27). -/
def regWrite (s : State) (who : RegAgent) (off n v : Nat) : RegOut :=
  let off := canonOff off
  if n != 8 then regWrite4 s who off (v % 2 ^ 32)
  else
    match findReg regMap off with
    | some (r, b, i, j) =>
      if b == off && r.width == 64 then
        (if keyReg off && !isMgmt who then rdone s else regWriteAt s who r b i j v m64)
      else
        match regWrite4 s who off (v % 2 ^ 32) with
        | .ok (some s) => regWrite4 s who (off + 4) (v / 2 ^ 32)
        | x => x
    | none => regWrite4 s who (off + 4) (v / 2 ^ 32)

/-! ## Ring registers in BAR0 (R388) -/

/-- A ring register as a row: the register at `o` of ring `r` of function `f`. -/
def ringRow (o : Nat) : Option (Nat × Nat) :=
  if o < 8 then some (0, 64) else if o < 0xC then some (8, 32) else if o < 0x10 then some (0xC, 32)
  else if o < 0x14 then some (0x10, 32) else if o < 0x18 then some (0x14, 32) else if o < 0x20 then some (0x18, 64)
  else if o < 0x24 then some (0x20, 32) else if o < 0x28 then some (0x24, 32) else if o < 0x2C then some (0x28, 32)
  else if 0x80 ≤ o && o < 0x100 then some (o / 8 * 8, 64) else none

/-- A write of the bits in `wm` of ring register `o`. -/
def ringWriteAt (s : State) (f r o v wm : Nat) : Except Stop State :=
  let a := oRing f r + o
  let old := s.rget a 0
  let put (mask : Nat) : Except Stop State := .ok (s.rset a (old - (old &&& (mask &&& wm)) + (v &&& mask &&& wm)))
  if o == 0 then (if s.ringOn f r then .ok s else put (fm 51 12 + fm 3 0))
  else if o == 8 then s.ringCtlWrite f r v
  else if o == 0xC then .ok (s.ringTailWrite f r v)
  else if o == 0x14 then .ok (s.rset a (old - (old &&& (v &&& 0xFF))))
  else if o == 0x18 then put (fm 51 3)
  else if o == 0x28 then put (fm 15 0)
  else if 0x80 ≤ o then put m64
  else .ok s

/-- A 4-byte write in BAR0. -/
def ringWrite4 (s : State) (f o v : Nat) : Except Stop State :=
  match ringRow (o % 0x100) with
  | none => .ok s
  | some (b, _) => if b == o % 0x100 then ringWriteAt s f (o / 0x100) b v m32 else ringWriteAt s f (o / 0x100) b (v * 2 ^ 32) (m64 - m32)

/-- A write of 4 or 8 bytes in BAR0 of function `f` (R27, R388). -/
def ringWrite (s : State) (f o n v : Nat) : Except Stop State :=
  if 0x800 ≤ o then .ok s
  else if n != 8 then ringWrite4 s f o (v % 2 ^ 32)
  else
    match ringRow (o % 0x100) with
    | some (b, w) =>
      if b == o % 0x100 && w == 64 then ringWriteAt s f (o / 0x100) b v m64
      else
        match ringWrite4 s f o (v % 2 ^ 32) with
        | .ok s => ringWrite4 s f (o + 4) (v / 2 ^ 32)
        | e => e
    | none => ringWrite4 s f (o + 4) (v / 2 ^ 32)

/-! ## Triggers as seen by a hart (R28) -/

/-- A load in the trigger window: the accepted count at a trigger register, zero elsewhere. -/
def trigRead (s : State) (st off n : Nat) : Nat := if off == 0 && n == 8 then (s.stream st).accepted else 0

/-- A store in the trigger window; none while the queue is full. -/
def trigWrite (s : State) (st off : Nat) (v : Word) : Option State :=
  if off == 0 then s.sendTrig st v false else some s

end Sys2Proof.Machine
end

