-- ==== Sys2Proof/Machine/Scalar.lean ====
section
/-! DEFINITION. Scalar accesses of a hart (R26, R28, R122 to R128), inside and outside a store group
(R139 to R141), and the suspension of a continuation (R197 to R201). -/

namespace Sys2Proof.Machine

/-! ## Requests of the acting hart -/

/-- A request of the acting hart for `n` bytes; `ord` asks for natural alignment. -/
def hartReq (s : State) (acc : Acc) (va n : Nat) (ord : Bool) : Req := ⟨hartAgent s s.hn, acc, va, n, ord, true⟩

/-- The bytes of a planned request of the acting hart, device registers and triggers included. -/
def hartBytes (s : State) (r : Req) (ps : List Piece) : Except Stop (List Byte) :=
  match ps with
  | [p] =>
    match p.tgt with
    | .reg o => .ok (leBytes r.n (regRead s (384 ≤ s.hn) o r.n))
    | .trig st o => .ok (leBytes r.n (trigRead s st o r.n))
    | _ => readPieces s r ps
  | _ => readPieces s r ps

/-- A read of the acting hart. -/
def hartRead (s : State) (r : Req) : Except Stop (List Byte) :=
  match plan s r anyFmt with
  | .error e => .error e
  | .ok ps => hartBytes s r ps

/-- What a write of a hart does: it is performed, waits in the state given, or stops. -/
inductive HWrite where
  | done (s : State)
  | wait (s : State)
  | stop (e : Stop)

/-- A write of the acting hart. -/
def hartWrite (s : State) (r : Req) (bs : List Byte) : HWrite :=
  match plan s r anyFmt with
  | .error e => .stop e
  | .ok ps =>
    let plain : HWrite := match writePieces r s ps bs with | .ok s => .done s | .error e => .stop e
    match ps with
    | [p] =>
      match p.tgt with
      | .reg o =>
        match regWrite s (.hart s.hn) o r.n (leNat bs) with
        | .ok (some t) => .done t
        | .ok none => .wait s
        | .error (.miss wh c v) => .wait (s.missed wh c v)
        | .error e => .stop e
      | .trig st o => (match trigWrite s st o (BitVec.ofNat 64 (leNat bs)) with | some t => .done t | none => .wait s)
      | _ => plain
    | _ => plain

/-! ## Store groups -/

/-- The group of the acting hart aborts with ILLEGAL: an instruction that may not stand in it (R139). -/
def State.groupIllegal (s : State) : State := s.setHart s.hn { s.me with group := s.me.group.abort 6 0 0 false }

/-- A target that a group may not reach: neither an HBM page of kind PLAIN or SCRATCH nor a slice. -/
def Piece.badTarget (p : Piece) : Bool :=
  match p.tgt with
  | .slice _ _ => false
  | .hbm _ => (match p.leaf with | some l => pteKind l.w0 == 1 | none => false)
  | _ => true

/-- The target of a faulting request is known to be one that a group may not reach. -/
def groupBadTarget (s : State) (r : Req) : Bool :=
  if 2 ^ 52 ≤ r.va then false
  else if apBase ≤ r.va then winBase ≤ r.va && r.va < resvBase
  else match pageLeaf s r r.va with
    | .ok l => Piece.badTarget ⟨r.va, r.n, leafTgt s l r.va, some l⟩
    | .error _ => false

/-- Bytes at a location with the group's own pending stores over them, later stores last. -/
def overStores (loc : Nat) : List GStore → List Byte → List Byte
  | [], bs => bs
  | g :: gs, bs =>
    let bs := bs.zipIdx.map fun (b, i) =>
      if g.loc ≤ loc + i && loc + i < g.loc + g.bytes.length then g.bytes.getD (loc + i - g.loc) b else b
    overStores loc gs bs

/-- The bytes of pieces with pending stores over them. -/
def overPieces (gs : List GStore) : List Piece → List Byte → List Byte
  | [], _ => []
  | p :: ps, bs => overStores p.key gs (bs.take p.n) ++ overPieces gs ps (bs.drop p.n)

/-- Distinct lines of pieces that a group has not touched by a load. -/
def newLines (g : Group) (ps : List Piece) : List Nat :=
  ((ps.flatMap fun p => linesOf p.key p.n).filter fun l => !g.lines.contains l).eraseDups

/-- Ordinal of a line among the group's load lines. -/
def lineOrd (ls : List Nat) (l : Nat) : Nat := ls.findIdx (· == l)

/-- The group's load lines with those of a request, and the ordinal of the first that it touches: a request that has no
translation touches lines that are not among them. -/
def groupLines (s : State) (g : Group) (r : Req) : Nat × Nat :=
  match plan s { r with perm := false, ord := false } anyFmt with
  | .ok ps =>
    let ls := g.lines ++ newLines g ps
    (ls.length, match ps with | p :: _ => lineOrd ls (p.key / 64) | [] => 0)
  | .error _ => (g.lines.length + (linesOf r.va r.n).length, g.lines.length)

/-- The group after a load that breaks the conditions given: TARGET before CAPACITY, and CAPACITY before FAULT (R141). -/
def Group.badLoad (g : Group) (target : Bool) (lines i : Nat) (f : Option MemFault) : Group :=
  if target then g.abort 7 0 (min i 16) true
  else if 16 < lines then g.abort 2 0 16 true
  else match f with | some f => g.abort 3 f.cause.code i true | none => g

/-- A load inside a group: its bytes and the state; only a miss leaves it (R139 to R141). -/
def groupRead (s : State) (r : Req) : Except Stop (List Byte × State) :=
  let g := s.me.group
  let put (g : Group) : State := s.setHart s.hn { s.me with group := g }
  let (n, i) := groupLines s g r
  match plan s r anyFmt with
  | .error (.miss wh c v) => .error (.miss wh c v)
  | .error (.flt f) => .ok (List.replicate r.n 0, put (g.badLoad (groupBadTarget s r) n i (some f)))
  | .ok ps =>
    let ls := g.lines ++ newLines g ps
    match hartBytes s r ps with
    | .error (.miss wh c v) => .error (.miss wh c v)
    | .error (.flt f) => .ok (List.replicate r.n 0, put (g.badLoad (ps.any Piece.badTarget) n i (some f)))
    | .ok bs =>
      if g.code != 0 then .ok (bs, s)
      else if ps.any Piece.badTarget || 16 < n then .ok (bs, put (g.badLoad (ps.any Piece.badTarget) n i none))
      else .ok (overPieces g.stores ps bs, put { g with lines := ls })

/-- The pieces of an accepted store as pending stores. -/
def gstores (ord : Nat) : List Piece → List Byte → List GStore
  | [], _ => []
  | p :: ps, bs => ⟨ord, p.key, p.va, p.leaf, bs.take p.n⟩ :: gstores ord ps (bs.drop p.n)

/-- A vst that breaks a limit of R139 has been pushed and is not performed yet: it is the first cause of the group's abort, and the
stores behind it perform nothing (R141). -/
def Group.doomed (g : Group) : Bool := g.vsts.any fun x => x.2.2

/-- A store inside a group; only a miss leaves it. -/
def groupWrite (s : State) (r : Req) (bs : List Byte) : Except Stop State :=
  let g := s.me.group
  let put (g : Group) : State := s.setHart s.hn { s.me with group := g }
  if g.code != 0 then .ok s
  else
    let room := g.count < 16 && g.total + r.n ≤ 1024
    let past (g : Group) : Group := { g with count := g.count + 1, total := g.total + r.n }
    let full := g.abort 2 0 (min g.count 16) false
    match plan s r anyFmt with
    | .error (.miss wh c v) => .error (.miss wh c v)
    | .error (.flt f) =>
      .ok (put (if g.doomed then past g else if groupBadTarget s r then g.abort 7 0 g.count false else if !room then full else g.abort 3 f.cause.code g.count false))
    | .ok ps =>
      if g.doomed then .ok (put (past g))
      else if ps.any Piece.badTarget then .ok (put (g.abort 7 0 g.count false))
      else if !room then .ok (put full)
      else .ok (put { g with stores := g.stores ++ gstores g.count ps bs, count := g.count + 1, total := g.total + r.n })

/-- A pending store as a piece again. -/
def GStore.piece (s : State) (x : GStore) : Piece :=
  let n := x.bytes.length
  match x.leaf with
  | some l => ⟨x.va, n, leafTgt s l x.va, some l⟩
  | none => ⟨x.va, n, .slice ((x.loc - apBase) / 0x400000) ((x.loc - apBase) % 0x400000), none⟩

/-- The group's stores performed in order; each is checked at its target when it is performed, so that a slice or a channel fenced
in the meantime takes none (R22, R56 step 9, R140). A fault names the store's ordinal. -/
def commitStores (r : Req) : List GStore → State → Except (Nat × MemFault) State
  | [], s => .ok s
  | x :: xs, s =>
    let q : Req := { r with va := x.va, n := x.bytes.length }
    let done : Except Stop State := match tgtCheck s q [x.piece s] with | some e => .error e | none => writePieces q s [x.piece s] x.bytes
    match done with
    | .error (.flt f) => .error (x.ord, f)
    | .error (.miss _ _ _) => .ok s
    | .ok s => commitStores r xs s

/-- The status word (R141). -/
def Group.status (g : Group) : Nat := g.code + g.detail * 2 ^ 8 + g.idx * 2 ^ 16 + b2n g.ld * 2 ^ 21

/-! ## Loads and stores as the instructions use them -/

/-- A load of a trigger register is performed after the trigger stores before it: it waits while one is on its way (R28, R123). -/
def State.trigHeld (s : State) (r : Req) : Bool :=
  match plan s r anyFmt with
  | .ok [p] => (match p.tgt with | .trig st o => o == 0 && !(s.stream st).sent.isEmpty | _ => false)
  | _ => false

/-- A load of `n` bytes: `k` gets the state and the little-endian value. -/
def State.load (s : State) (va n : Nat) (ord : Bool) (k : State → Nat → Out) : Out :=
  let r := hartReq s .load va n ord
  if s.trigHeld r then .next s.stall
  else if s.me.group.opened then
    match groupRead s r with
    | .error e => .next (s.hartStop e false)
    | .ok (bs, s) => k s (leNat bs)
  else
    match hartRead s r with
    | .error e => .next (s.hartStop e false)
    | .ok bs => k s (leNat bs)

/-- A store of bytes, after which `k` goes on. -/
def State.store (s : State) (va : Nat) (bs : List Byte) (ord : Bool) (k : State → Out) : Out :=
  let r := hartReq s .store va bs.length ord
  if s.me.group.opened then
    match groupWrite s r bs with
    | .error e => .next (s.hartStop e true)
    | .ok s => k s
  else
    match hartWrite s r bs with
    | .done s => k s
    | .wait s => .next s.stall
    | .stop e => .next (s.hartStop e true)

/-! ## Instructions (R256, R229) -/

/-- The encoding of an instruction as a number, the trap value of an illegal instruction. -/
def instrWord (i : Instr) : Nat := match encode i with | some b => leNat b | none => 0

/-- The instruction raises an illegal-instruction exception. -/
def State.illegalI (s : State) (i : Instr) : Out := .next (s.illegal (instrWord i))

/-- The pushes of a loop body are not complete: control instructions other than cap and the pushes are illegal (R311). -/
def State.inSpan (s : State) : Bool := s.me.mode == .u && s.me.loopLeft != 0

/-- A control instruction of any hart that may not stand among the pushes of a loop body. -/
def State.ctl (s : State) (i : Instr) (k : Out) : Out := if s.inSpan then s.illegalI i else k

/-- cap or a push, of hart 0 in U mode or in S mode: `k` gets its continuation. -/
def State.onHart0Span (s : State) (i : Instr) (k : Nat → Out) : Out :=
  if isHart0 s.hn && (s.me.mode == .u || s.me.mode == .s) then
    match s.me.cont with
    | some cid => k cid
    | none => s.illegalI i
  else s.illegalI i

/-- The instruction is one of hart 0, in U mode or, when `sOk`, in S mode: `k` gets its continuation. -/
def State.onHart0 (s : State) (i : Instr) (sOk : Bool) (k : Nat → Out) : Out :=
  if s.inSpan then s.illegalI i
  else if isHart0 s.hn && (s.me.mode == .u || (sOk && s.me.mode == .s)) then
    match s.me.cont with
    | some cid => k cid
    | none => s.illegalI i
  else s.illegalI i

/-- The instruction completes with rd := v. -/
def State.wrote4 (s : State) (rd : Reg) (v : Word) : Out := .next (s.retire 4 (s.me.wx rd v))

/-- The instruction completes. -/
def State.done4 (s : State) : Out := .next (s.retire 4 s.me)

/-- A destination that survives a suspension point: x0 or a0 to a5 (R198). -/
def suspReg (rd : Reg) : Bool := rd == 0 || (10 ≤ rd.toNat && rd.toNat ≤ 15)

/-! ## Settles (R439) -/

/-- V words of some continuation are queued or in flight on core `n`. -/
def State.vBusy (s : State) (n : Nat) : Bool :=
  !((s.core n).queues.headD []).isEmpty || s.conts.any fun p => p.2.core == some n && !p.2.ending && p.2.outst.any fun o => o.eng == 0

/-- A settle is placed on the core of hart 0, unless the last item of the V queue is one already. -/
def State.settle (s : State) : State :=
  if isHart0 s.hn && s.vBusy (coreOf s.hn) then
    let n := coreOf s.hn
    let c := s.core n
    let v := c.queues.headD []
    match v.getLast? with
    | some (.settle _) => s
    | _ => s.setCore n { c with queues := (v ++ ([.settle c.seq] : List QItem)) :: c.queues.drop 1 }
  else s

/-! ## Suspension (R197 to R201) -/

/-- a0 to a5. -/
def Hart.args (h : Hart) : List Word := [h.rx 10, h.rx 11, h.rx 12, h.rx 13, h.rx 14, h.rx 15]

/-- A hart with no continuation. -/
def Hart.free (h : Hart) : Hart :=
  { h with cont := none, serving := false, mode := .u, stalled := false, group := Group.none, markers := [], loopLeft := 0,
           fqOpen := [], resv := none, sc0 := 0, sc1 := 0, again := .none, dviewV := 0, dviewM := 0, dviewC := 0 }

/-- A continuation that has left hart 0 keeps its slot when it has a home core or is pinned, and else releases it, at write-back
(R201). -/
def State.leaveSlot (s : State) (cid : Nat) : State :=
  let c := s.cont cid
  match c.core with
  | none => s
  | some n =>
    if c.homed || c.pin then s
    else (s.setCore n { s.core n with slots := tdel (s.core n).slots c.slot }).setCont cid { c with core := none, pin := false }

/-- The continuation of the acting hart leaves it at a suspension point: its record is to be written back (R197), and an open group,
which has aborted, stays with it (R139, R280). -/
def State.suspend (s : State) (cid : Nat) (st : Stat) (w : Wait) (pc : Word) : State :=
  let h := s.me
  let c := s.cont cid
  let c := { c with stat := st, wait := w, pc := pc, a := h.args, dfcsr := h.dfcsr, dclass := h.dclass,
                    pin := c.pinnedNow, restAt := s.clock, waited := 0
                    group := { h.group with stores := [], vsts := [] }, unsaved := some (coreOf s.hn) }
  let s := ({ s with clock := s.clock + 1 }.setCont cid c).setHart s.hn { h.free with instret := h.instret + 1 }
  s.tookWalk (.hart s.hn)

/-- A suspension point waits: in U mode the continuation is suspended at the instruction, else hart 0 stalls. -/
def State.waitPoint (s : State) (cid : Nat) (w : Wait) : Out :=
  if s.me.mode == .u then .next (s.suspend cid .suspended w s.me.pc) else .next s.stall

/-- A suspension-point instruction begins: in U mode an open group aborts with ILLEGAL, and a settle is placed. -/
def State.atPoint (s : State) : State := (if s.me.mode == .u then s.groupIllegal else s).settle

/-- The command of the lowest engine among some. -/
def lowestOf (ls : List Live) : Option Live :=
  ls.foldl (fun a l => match a with | some b => if l.eng < b.eng then some l else a | none => some l) none

/-- The faulted command of the lowest engine among those that an instruction waits for. -/
def lowestFault (p : Live → Bool) (c : Cont) : Option Live := lowestOf (c.faulted.filter p)

/-! ## Classes of engine words (R122, R126) -/

/-- The ordering class of an engine operation's memory accesses: that of its CL field, or class 0 for a form without one (R239,
R320); none when it makes no memory access. -/
def wordClass : Instr → Option Nat
  | .vld _ _ m => some m.cl.toNat
  | .vlds _ _ m => some m.cl.toNat
  | .vldx _ _ m => some m.cl.toNat
  | .vst _ _ m => some m.cl.toNat
  | .vsts _ _ m => some m.cl.toNat
  | .vstx _ _ m => some m.cl.toNat
  | .vldb _ _ m => some m.cl.toNat
  | .fqOpen _ _ cl => some cl.toNat
  | .vdefer _ m => some m.cl.toNat
  | .vdtake _ m => some m.cl.toNat
  | .vdret _ m => some m.cl.toNat
  | .tepiSet _ _ cl => some cl.toNat
  | .tlutLd _ _ cl => some cl.toNat
  | .cpy _ _ cl _ => some cl.toNat
  | .cpyFill _ _ cl => some cl.toNat
  | .tcpy _ m => some m.cl.toNat
  | .cpyPerm _ m => some m.cl.toNat
  | .tcpyMc _ _ cl => some cl.toNat
  | .cpyXf _ cl => some cl.toNat
  | .cpyWb _ cl _ => some cl.toNat
  | .gath _ m => some m.cl.toNat
  | .scat _ m => some m.cl.toNat
  | .scatAdd _ _ m => some m.cl.toNat
  | .scatMax _ _ m => some m.cl.toNat
  | .gathTl _ _ cl => some cl.toNat
  | .scatTl _ _ cl => some cl.toNat
  | .sigCfg _ cl => some cl.toNat
  | .sigHash _ _ m => some m.cl.toNat
  | .sigKey _ m => some m.cl.toNat
  | .sigGroup _ m => some m.cl.toNat
  | .sigScat _ m => some m.cl.toNat
  | .sigBexp _ m => some m.cl.toNat
  | .sigBred _ _ m => some m.cl.toNat
  | .tmma .. => some 0
  | .tmmaSp .. => some 0
  | .tmmaBp .. => some 0
  | .tmmaGrp .. => some 0
  | .cmEval .. => some 0
  | .cmMeas .. => some 0
  | .cmCommit .. => some 0
  | .cmForce .. => some 0
  | .cmThr .. => some 0
  | _ => none

/-- The operation that an engine word names. -/
def engineOp (w : BitVec 64) : Option Instr := match decodeEngine w with | .ok i => some i | .error _ => none

/-- Queue entries of a continuation on a core. -/
def State.queued (s : State) (n cid : Nat) : List (Nat × QEntry) :=
  (s.core n).queues.zipIdx.flatMap fun (q, e) => q.filterMap fun i =>
    match i with | .word x => if x.cid == cid then some (e, x) else none | .settle _ => none

/-- A command of the continuation that has not completed carries a class of the mask. -/
def State.classBusy (s : State) (cid : Nat) (mask : Nat → Bool) : Bool :=
  let c := s.cont cid
  let ws := ((match c.core with | some n => (s.queued n cid).map Prod.snd | none => []) ++ c.live.map Live.ent ++ c.faulted.map Live.ent)
  ws.any fun e => match (engineOp e.word).bind wordClass with | some k => mask k | none => false

/-- fence.c over a set of classes (R126, R127, R272). -/
def State.fenceOver (s : State) (mask : Nat → Bool) : Out :=
  let s := s.groupIllegal.settle
  match s.me.cont with
  | some cid => if s.classBusy cid mask then .next s.stall else s.done4
  | none => s.done4

end Sys2Proof.Machine
end

