-- ==== Sys2Proof/Machine/Operands.lean ====
section
/-! DEFINITION. Operands of the vector unit: register names through view and rotation, latches, capture
slots, predicates (R237, R238, R249 to R251, R281 to R283), and how a word issues: what it adds to the
results in flight and how the loop engine goes on (R244 to R248, R311 to R315). -/

namespace Sys2Proof.Machine

/-! ## Names -/

/-- The vector run of the acting word. -/
def State.vr (s : State) : VRun := s.vrun s.cur.ent.run

/-- The number that a rotating name denotes (R250). -/
def VRun.rotName (v : VRun) (body : Bool) (i : Nat) : Nat :=
  match v.loop with
  | some l => if body && 16 ≤ i && i < 16 + l.rot then 16 + (i - 16 + l.rb) % l.rot else i
  | none => i

/-- The register-space offset of name `i` for the acting word (R237, R250). -/
def State.vOff (s : State) (i : Nat) : Nat := s.cur.ent.vb + 512 * s.vr.rotName s.cur.body i

/-- A vector source field (R238). -/
def State.vsrc (s : State) (f : BitVec 6) : Vec :=
  let i := f.toNat
  if i < 32 then lanesAt s.vr.rs (s.vOff i) 128
  else if i < 36 then s.vr.latchOf (i - 32)
  else if i == 36 then List.replicate 128 (s.cur.ent.sc0.truncate 32)
  else if i == 37 then List.replicate 128 (s.cur.ent.sc1.truncate 32)
  else vzero

/-- Predicate register `k`. -/
def VRun.predReg (v : VRun) (k : Nat) : BitVec 128 := tget 0 v.pred k

/-- The active lanes of a word (R238). -/
def State.active (s : State) (p : Pred) : BitVec 128 :=
  if p.k == 0 then BitVec.allOnes 128
  else if p.kn then ~~~(s.vr.predReg p.k.toNat) else s.vr.predReg p.k.toNat

/-- Destination of a field: WS reaches the latch only (R238). -/
def State.vdst (s : State) (d : BitVec 6) : Dest := if d.getLsbD 5 then .latchOnly else .reg (s.vOff (d.toNat % 32))

/-- RM, FTZ and DAZ of the acting word (R93). -/
def State.fp (s : State) : FpCtl := fpCtlOf s.cur.ent.dfcsr

/-! ## Elements (R281) -/

/-- The elements of a vector, element 0 first. -/
def elems (w : Nat) (v : Vec) : List Nat :=
  v.flatMap fun x => (List.range (32 / w)).map fun i => bits x.toNat (w * i + w - 1) (w * i)

/-- `n` lanes made of elements in order; missing elements are zero. -/
def packLanes (w : Nat) : Nat → List Nat → Vec
  | 0, _ => []
  | n + 1, es =>
    let p := 32 / w
    BitVec.ofNat 32 ((es.take p).zipIdx.foldl (fun a x => a + x.1 % 2 ^ w * 2 ^ (w * x.2)) 0) :: packLanes w n (es.drop p)

/-- Elements packed into a vector. -/
def packV (w : Nat) (es : List Nat) : Vec := packLanes w 128 es

/-- The lane of each element is active. -/
def activeElem (m : BitVec 128) (p e : Nat) : Bool := m.getLsbD (e / p)

/-- Flags of the elements in active lanes. -/
def flagsOf (m : BitVec 128) (p : Nat) (fs : List Flags) : Flags :=
  (fs.zipIdx.filter fun x => activeElem m p x.2).foldl (fun a x => a ||| x.1) fNone

/-! ## Pipes and latencies (R244) -/

/-- Pipe, which is the latch written, and exposed latency. -/
structure Pipe where
  latch : Nat
  lat   : Nat
  deriving DecidableEq, Repr, Inhabited

def pAlu : Pipe := ⟨0, 2⟩
def pMul : Pipe := ⟨1, 3⟩
def pFma : Pipe := ⟨1, 4⟩
def pSfu : Pipe := ⟨1, 6⟩
def pCvt : Pipe := ⟨3, 3⟩
def pPerm : Pipe := ⟨3, 3⟩
def pLut : Pipe := ⟨3, 4⟩
def pBlock : Pipe := ⟨3, 3⟩
def pReduce : Pipe := ⟨3, 6⟩
def pLoad : Pipe := ⟨2, 8⟩
def pPop : Pipe := ⟨2, 1⟩

/-! ## Words with their names resolved (R373) -/

/-- Lowest bits of the register-name fields of a V word (R239 to R242). -/
def nameFields (w : BitVec 64) : List Nat :=
  let op := bits w.toNat 43 36
  if bits w.toNat 47 44 == 0 then
    if 0xFA ≤ op then []
    else if op == 0x4F then [30]
    else if op == 0x4E then [30, 24]
    else if op == 0xF9 then [24]
    else if (0x44 ≤ op && op < 0x48) || (0x88 ≤ op && op < 0x8C) then [24, 18]
    else if op == 0xEC || op == 0xED then [30, 24, 18]
    else [30, 24, 18, 12]
  else if op < 0x60 || (0x70 ≤ op && op < 0x77) then [30, 20]
  else if op < 0x70 then [30]
  else if 0x85 ≤ op && op < 0x88 then [30, 24]
  else if op == 0x89 then [30, 24, 18]
  else []

/-- The word with its rotating names replaced by the registers they denote. -/
def State.resolved (s : State) : BitVec 64 :=
  let w := s.cur.ent.word
  BitVec.ofNat 64 ((nameFields w).foldl (fun a b =>
    let f := bits w.toNat (b + 5) b
    if f < 32 then setBits a (b + 5) b (s.vr.rotName s.cur.body f) else a) w.toNat)

/-! ## The loop engine (R249 to R251, R312, R313, R380) -/

/-- Passes of a run of the loop (R251). -/
def Loop.passes (l : Loop) : Nat := if l.n == 0 then 0 else l.n + l.st - 1

/-- k8 to k15 during pass `p` of a loop of `n` iterations (R251). -/
def stagePreds (n p : Nat) (t : Tbl (BitVec 128)) : Tbl (BitVec 128) :=
  (List.range 8).foldl (fun t i => tset t (8 + i) (if i ≤ p && p - i < n then BitVec.allOnes 128 else 0)) t

/-- k8 to k15 read as zero. -/
def noStages (t : Tbl (BitVec 128)) : Tbl (BitVec 128) := t.filter fun x => x.1 < 8 || 16 ≤ x.1

/-- The loop exits: latches and stage predicates are cleared; a loop that pre-emption drained is kept until its capture, and one with
no iterations until its body words have been taken (R312, R380). -/
def VRun.loopExit (v : VRun) : VRun :=
  { v with latch := [], pred := noStages v.pred,
           loop := match v.loop with | some l => if l.drain || l.n == 0 then some { l with w := 0, exited := true } else none | none => none }

/-- The loop's exit cycle is the next: after the last pass, or after the vloop itself with no iterations (R312). -/
def Loop.atExit (l : Loop) : Bool := !l.exited && l.passes ≤ l.pass

/-- The word at the loop's place has issued: the next word, the next pass, or the place before the exit. -/
def VRun.loopNext (v : VRun) : VRun :=
  match v.loop with
  | none => v
  | some l =>
    if l.w + 1 < l.nb then { v with loop := some { l with w := l.w + 1 } }
    else
      let l := { l with w := 0, pass := l.pass + 1 }
      let v := { v with loop := some l }
      if l.atExit then v else { v with pred := stagePreds l.n l.pass v.pred }

/-- Hart 0 has not pushed the whole body. -/
def Loop.partly (l : Loop) : Bool := l.body.length < l.nb

/-- A loop that has stopped after its drain (R380). -/
def Loop.drained (l : Loop) : Bool := l.drain && l.exited && !l.partly

/-! ## Issue -/

/-- A queue without the word of push order `q`. -/
def unqueue (q : Nat) (xs : List QItem) : List QItem :=
  xs.filter fun i => match i with | .word e => e.seq != q | .settle _ => true

/-- The acting word leaves the queue of engine `e`. -/
def State.popWord (s : State) (e : Nat) : State :=
  let c := s.core s.cur.core
  s.setCore s.cur.core { c with queues := c.queues.set e (unqueue s.cur.ent.seq (c.queues.getD e [])) }

/-- The command of the acting word is in flight, with more results to come and more bytes moved. -/
def Cont.inFlight (c : Cont) (e : Nat) (x : QEntry) (tx issues : Nat) : Cont :=
  match c.liveOf e x.num with
  | some _ => { c with live := c.live.map fun l =>
      if l.eng == e && l.ent.num == x.num then { l with tx := l.tx + tx, issues := l.issues + issues } else l }
  | none => { c with live := c.live ++ [⟨e, x, tx, none, issues⟩] }

/-- A body word of the first pass enters the loop buffer. -/
def VRun.collect (v : VRun) (x : QEntry) : VRun :=
  match v.loop with
  | some l => if l.w < l.body.length then v else { v with loop := some { l with body := l.body ++ [x] } }
  | none => v

/-- The acting V word has issued: it leaves the queue, its results are in flight, its flags are raised
(R93), and a vector issue cycle passes. -/
def State.vLaunch (s : State) (rs : List Res) (tx : Nat) (fl : Flags) : State :=
  let e := s.cur.ent
  let s := if fl == fNone then s else s.raise e.cid fl
  let s := s.popWord 0
  let s := s.setCont e.cid ((s.cont e.cid).inFlight 0 e tx rs.length)
  let v := s.vr
  let v := if s.cur.body then v.collect e else v
  (s.setVrun e.run { v with cyc := v.cyc + 1, fly := v.fly ++ rs }).tookWalk s.cur.who

/-- In a loop, the loop engine goes on after the acting word. -/
def State.vAdvance (s : State) : State := if s.cur.body then s.setVrun s.cur.ent.run s.vr.loopNext else s

/-- The acting word issues and the loop engine goes on. -/
def State.vIssued (s : State) (rs : List Res) (tx : Nat) (fl : Flags) : State := (s.vLaunch rs tx fl).vAdvance

/-- A result of the acting word: where it lands and when. -/
def State.res (s : State) (p : Pipe) (dst : Dest) (mask : BitVec 128) (data : Vec) (opnd : List Vec) : Res where
  due := s.vr.cyc + p.lat
  ent := s.cur.ent
  word := s.resolved
  pipe := match dst with | .pred _ => none | .mbox => none | _ => some p.latch
  dest := dst
  data := data
  value := 0
  mask := mask
  full := false
  arrived := true
  addr := 0
  jel := 0
  x := []
  opnd := opnd
  pfm := none
  reissue := false
  gone := false
  slices := []

/-- A VA or VM word issues in state `s`: a late load freezes the unit (R60), else what is due lands first
and `k` goes on. -/
def State.vWord (s : State) (k : State → Out) : Out :=
  let v := s.vr
  if v.fly.any (fun r => r.due ≤ v.cyc && !r.arrived) then .next s else k (s.landUpTo s.cur.ent.run v.cyc)

/-- A masking word (P = M): with no active lane it has no effect (R282). -/
def State.vMasked (s : State) (pp : Pipe) (d : BitVec 6) (p : Pred) (f : State → Vec × Flags) (opnd : State → List Vec) : Out :=
  s.vWord fun s =>
    let m := s.active p
    if m == 0 then .next (s.vIssued [] 0 fNone)
    else
      let (v, fl) := f s
      .next (s.vIssued [s.res pp (s.vdst d) m v (opnd s)] 0 fl)

/-- A selecting word (P = S): every lane of its destination is written. -/
def State.vSelect (s : State) (pp : Pipe) (d : BitVec 6) (p : Pred) (f : State → Vec × Flags) (opnd : State → List Vec) : Out :=
  s.vWord fun s =>
    let (v, fl) := f s
    .next (s.vIssued [{ s.res pp (s.vdst d) (s.active p) v (opnd s) with full := true }] 0 fl)

/-- A word that writes predicate `kd` (R287, R301). -/
def State.vPred (s : State) (kd : BitVec 4) (m : State → BitVec 128) (f : State → BitVec 128) (opnd : State → List Vec) : Out :=
  s.vWord fun s => .next (s.vIssued [s.res pAlu (.pred kd.toNat) (m s) (predVec (f s)) (opnd s)] 0 fNone)

/-- Entries that stand in the mailbox or are on their way (R302). -/
def VRun.mboxCount (v : VRun) : Nat := v.mbox.length + (v.fly.filter fun r => r.dest == .mbox).length

/-- A word that puts an entry into the mailbox; it waits while the mailbox is full (R247, R302). -/
def State.vMbox (s : State) (f : State → Word) (opnd : State → List Vec) : Out :=
  s.vWord fun t =>
    if 16 ≤ t.vr.mboxCount then .next s
    else .next (t.vIssued [{ t.res ⟨4, 3⟩ .mbox (BitVec.allOnes 128) [] (opnd t) with value := f t }] 0 fNone)

/-- A vector issue cycle without issue (R248, R439), the exit of a loop among them (R312); a load that is late freezes it (R60). -/
def State.vTick (s : State) (run : Nat) : State :=
  let v := s.vrun run
  if v.fly.any (fun r => r.due ≤ v.cyc && !r.arrived) then s
  else
    let s := s.landUpTo run v.cyc
    let v := s.vrun run
    let done := match v.loop with | some l => v.idle == 0 && l.atExit | none => false
    let v := { v with cyc := v.cyc + 1, idle := v.idle - 1 }
    s.setVrun run (if done then v.loopExit else if v.idle == 0 && v.idleEnd then { v with idleEnd := false }.loopNext else v)

/-! ## Faults of VM words (R285) -/

/-- The acting VM word faults: it stays where it is, the engine of its run stops, and what was due before
this cycle has landed. -/
def State.vFault (s : State) (ecode detail : Nat) (f : Option MemFault) : State :=
  let e := s.cur.ent
  let v := s.vr
  let s := if v.cyc == 0 then s else s.landUpTo e.run (v.cyc - 1)
  let s := match f with | some g => s.noted g | none => s
  let ef : EngFault := ⟨e.num, 0, ecode, detail, 0, f⟩
  let c := (s.cont e.cid).inFlight 0 e 0 0
  let c := { c with live := c.live.map fun l => if l.eng == 0 && l.ent.num == e.num then { l with fault := some ef } else l }
  ((s.setCont e.cid c).setVrun e.run { s.vrun e.run with stopped := true }).tookWalk s.cur.who

end Sys2Proof.Machine
end

