-- ==== Sys2Proof/Machine/Engine.lean ====
section
/-! DEFINITION. How a command of the engines M, C, G, S and X ends: it leaves its queue with its effect and
waits for its completion, or with its fault (R137, R346, R348, R349). -/

namespace Sys2Proof.Machine

/-- What a command comes to: the state it leaves, the bytes it transferred (R349), PROGRESS, and why it
stopped short, if it did. -/
structure ERes where
  st   : State
  tx   : Nat
  prog : Nat
  stop : Option EStop
  deriving DecidableEq, Repr, Inhabited

/-- A command performed whole. -/
def ERes.done (s : State) (tx : Nat) : ERes := ⟨s, tx, 0, none⟩
/-- A command stopped before it wrote anything. -/
def ERes.refuse (s : State) (e : EStop) : ERes := ⟨s, 0, 0, some e⟩
/-- A command that performs all or nothing. -/
def ERes.ofEM (s : State) (tx : Nat) : EM State → ERes
  | .ok t => .done t tx
  | .error e => .refuse s e

/-- The acting command of engine `e` has acted: it leaves the queue and waits for its completion. -/
def State.engDone (s : State) (e tx : Nat) : State :=
  let x := s.cur.ent
  let s := s.popWord e
  (s.setCont x.cid ((s.cont x.cid).inFlight e x tx 0)).tookWalk s.cur.who

/-- The acting command of engine `e` ends with a fault: it leaves the queue and waits for it to be taken. -/
def State.engEnds (s : State) (e ecode detail prog tx : Nat) (f : Option MemFault) : State :=
  let x := s.cur.ent
  let s := s.popWord e
  let c := s.cont x.cid
  (s.setCont x.cid { c with live := c.live ++ [⟨e, x, tx, some ⟨x.num, e, ecode, detail, prog, f⟩, 0⟩] }).tookWalk s.cur.who

/-- The acting command of engine `e` has faulted, and the fault is counted. -/
def State.engFault (s : State) (e ecode detail prog tx : Nat) (f : Option MemFault) : State :=
  (match f with | some g => s.noted g | none => s).engEnds e ecode detail prog tx f

/-- An operand addressed the privileged register window: no part of the word is performed (R26). -/
def windowFault (f : Option MemFault) : Bool :=
  match f with | some g => g.cause == .priv && winBase ≤ g.faddr && g.faddr < trigBase | none => false

/-- A stopped command of engine `e`: a miss or a condition leaves `s0`, in which it started; at the end of a step it stays at the
head of its queue. -/
def State.engStop (s0 : State) (e : Nat) (r : ERes) : EStop → State
  | .miss wh c v => s0.missed wh c v
  | .begun wh c v => s0.missed wh c v
  | .wait => s0
  | .step => r.st.tookWalk s0.cur.who
  | .logFull op st rs => s0.logStall op st rs
  | .fault ec d f =>
    if windowFault f then s0.engFault e ec d s0.cur.ent.start s0.cur.ent.moved f else r.st.engFault e ec d r.prog r.tx f
  | .owl s st f =>
    match owlStopped s st f with
    | .error (.miss wh c v) => s0.missed wh c v
    | .error (.flt _) => s0
    | .ok s => if e == 5 then s.engEnds e 9 9 r.prog r.tx (some f) else s.engEnds e 1 0 r.prog r.tx (some f)

/-- A command of engine `e` performed in state `s`. -/
def State.engRun (s : State) (e : Nat) (r : ERes) : Out :=
  .next (match r.stop with | none => r.st.engDone e r.tx | some x => s.engStop e r x)

/-! ## Owl's order of arrival (R218, R346) -/

/-- The operation that waits for Owl still stands: the CM word heads its queue, or the run is at the node that asks for it. -/
def State.owlStands (s : State) (k : Nat × Nat) : Bool :=
  if k.1 < 1000 then
    match (s.core k.1).queues.getD 5 [] with
    | .word x :: _ => x.seq == k.2
    | _ => false
  else
    match (s.stream (k.1 - 1000)).run with
    | some r =>
      let kind := fieldAt (r.nodes.getD (r.node.getD 256) []) 0 1
      r.id == k.2 && (r.relax.isSome || r.plan.isSome || (r.status == 0 && (kind == 1 || kind == 2)))
    | none => false

/-- Owl performs operations (R160), and this is the first that has arrived. -/
def State.owlMay (s : State) (k : Nat × Nat) : Bool :=
  bit (s.rget oCMU 0) 0 && (match s.owlQ.find? s.owlStands with | some j => j == k | none => true)

/-- The operation has arrived and waits. -/
def State.owlJoin (s : State) (k : Nat × Nat) : State := if s.owlQ.contains k then s else { s with owlQ := s.owlQ.filter s.owlStands ++ [k] }
/-- The operation is over. -/
def State.owlLeave (s : State) (k : Nat × Nat) : State := { s with owlQ := s.owlQ.filter (· != k) }

/-! ## Ranges moved in 256-byte pieces (R42) -/

/-- Bytes of spans, each one request. -/
def readSpansE (s : State) (ag : Agent) : Spans → EM (List Byte)
  | [] => .ok []
  | x :: xs =>
    match eRead s ag x.1 x.2 with
    | .error e => .error e
    | .ok b => match readSpansE s ag xs with | .error e => .error e | .ok bs => .ok (b ++ bs)

/-- `n` bytes from `va`. -/
def readRange (s : State) (ag : Agent) (va n : Nat) : EM (List Byte) := readSpansE s ag (cutSpan (n / 256 + 2) va n)

/-- Spans written from the bytes at hand, each one request: the state, the bytes written, and a stop. -/
def writeSpansE (ag : Agent) : Spans → List Byte → State → Nat → State × Nat × Option EStop
  | [], _, s, n => (s, n, none)
  | x :: xs, bs, s, n =>
    match eWrite s ag x.1 (bs.take x.2) with
    | .error e => (s, n, some e)
    | .ok s => writeSpansE ag xs (bs.drop x.2) s (n + x.2)

/-- Bytes written from `va`, as far as that goes. -/
def writeRangeP (s : State) (ag : Agent) (va : Nat) (bs : List Byte) : State × Nat × Option EStop :=
  writeSpansE ag (cutSpan (bs.length / 256 + 2) va bs.length) bs s 0

/-- Bytes written from `va`, all or nothing. -/
def writeRange (s : State) (ag : Agent) (va : Nat) (bs : List Byte) : EM State :=
  match writeRangeP s ag va bs with
  | (s, _, none) => .ok s
  | (_, _, some e) => .error e

/-- A state carried through a list, all or nothing. -/
def foldE {α : Type} (f : State → α → EM State) : List α → State → EM State
  | [], s => .ok s
  | x :: xs, s => match f s x with | .error e => .error e | .ok s => foldE f xs s

/-- A function that may stop, over a list. -/
def mapE {α β : Type} (f : α → EM β) : List α → EM (List β)
  | [] => .ok []
  | x :: xs =>
    match f x with
    | .error e => .error e
    | .ok y => match mapE f xs with | .error e => .error e | .ok ys => .ok (y :: ys)

/-- An address of the global scratch aperture or the local slice alias. -/
def inSlices (a : Nat) : Bool := (apBase ≤ a && a < apEnd) || (alBase ≤ a && a < alBase + 0x400000)

end Sys2Proof.Machine
end

