-- ==== Sys2Proof/Machine/VecMem.lean ====
section
/-! DEFINITION. The VM words: loads and stores (R303 to R306), fetch queues (R307 to R310), the hardware loop,
vsync and vnop (R311 to R315), Dormouse (R316, R317), and the events of the vector unit. -/

namespace Sys2Proof.Machine

/-! ## Addresses (R303) -/

/-- j of R303: the iterations before the word's, 0 outside a loop. -/
def State.iterOf (s : State) (p : Pred) : Int :=
  if s.cur.body then
    match s.vr.loop with
    | some l => (l.base + l.pass : Nat) - (if 8 ≤ p.k.toNat && !p.kn then (p.k.toNat - 8 : Nat) else 0 : Nat)
    | none => 0
  else 0

/-- An address modulo 2^64. -/
def addr64 (x : Int) : Nat := wrapW 64 x

/-- sc1 as a signed stride. -/
def State.stride (s : State) : Int := sext s.cur.ent.sc1.toNat 64

/-- The base address of a VMM word; `fixed` for vlds and vsts, whose base does not move. -/
def State.vmBase (s : State) (m : Vmm) (fixed : Bool) : Nat :=
  addr64 (s.cur.ent.sc0.toNat + 512 * m.off.toInt + (if fixed then 0 else s.iterOf m.p * s.stride))

/-- How the elements of a VMM word lie. -/
inductive Form where | packed | strided | indexed | planes (p : Nat)
  deriving DecidableEq, Repr, Inhabited

/-- The page formats that a form takes with register type `t` (R96, R303, R304). -/
def Form.takes (f : Form) (t : ElemT) (fmt geo : Nat) : Bool :=
  match f with
  | .packed => !isBlockFmt fmt || blockTypeOk fmt t
  | .planes p => fmt == 10 && p ≤ geoPlanes geo
  | _ => !isBlockFmt fmt

/-- FMT and GEO of the page that holds `a`: its checks by steps 1 to 7 of R56 but for the access permissions (R303). -/
def vmPage (s : State) (ag : Agent) (acc : Acc) (a : Nat) : Except Stop (Nat × Nat) :=
  match plan s ⟨ag, acc, a, 1, false, false⟩ anyFmt with
  | .error e => .error e
  | .ok ps => .ok (match ps with | p :: _ => (p.fmt, p.geo) | [] => (0, 0))

/-- Memory element size of a word (R303). -/
def memSize (fmt geo : Nat) (t : ElemT) : Nat := if fmt == 0 then t.bytes else fmtSize fmt geo

/-- A memory item of a word: address, length, and the register element or block it belongs to. -/
structure Item where
  at_ : Nat
  len : Nat
  ix  : Nat
  deriving DecidableEq, Repr, Inhabited

/-- What a VMM word addresses: its items in element order, each element's or stored block's own. -/
structure Layout where
  fmt   : Nat
  geo   : Nat
  items : List Item
  deriving DecidableEq, Repr, Inhabited

/-- Elements moved by a form. -/
def Form.count (f : Form) (t : ElemT) : Nat := match f with | .indexed => 128 | _ => 128 * t.per

/-- Elements of one lane for a form. -/
def Form.per (f : Form) (t : ElemT) : Nat := match f with | .indexed => 1 | _ => t.per

/-- The items of the active elements (R303, R305). -/
def layoutOf (f : Form) (t : ElemT) (m : BitVec 128) (a : Nat) (jel : Int) (stride : Int) (x : Vec) (fmt geo : Nat) : List Item :=
  let n := f.count t
  let act := (List.range n).filter fun e => activeElem m (f.per t) e
  let sz := memSize fmt geo t
  match f with
  | .strided => act.map fun (e : Nat) => ⟨addr64 (a + (jel + e) * stride), sz, e⟩
  | .indexed => act.map fun (e : Nat) => ⟨addr64 (a + sext (x.getD e 0).toNat 32), sz, e⟩
  | _ =>
    if isBlockFmt fmt then
      let k := blockLen fmt geo
      let bs := blockSize fmt geo
      let len := match f with | .planes p => 8 * p | _ => bs
      ((List.range (n / k)).filter fun b => act.any fun e => e / k == b).map fun (b : Nat) => ⟨addr64 (a + b * bs), len, b⟩
    else act.map fun (e : Nat) => ⟨addr64 (a + e * sz), sz, e⟩

/-- An item cut at 256-byte boundaries. -/
def Item.spans (i : Item) : Spans := cutSpan 3 i.at_ i.len

/-- Each item is a request of its own: the elements of a strided or indexed form, and the stored blocks of a page (R305). -/
def Form.each (f : Form) (fmt : Nat) : Bool := match f with | .strided => true | .indexed => true | _ => isBlockFmt fmt

/-- The requests of a word: each item's own, or those of one 256-byte piece together (R305). -/
def requestsOf (each : Bool) (is : List Item) : List Spans :=
  if each then is.map fun i => [(i.at_, i.len)] else pieceRuns Prod.fst (is.flatMap Item.spans)

/-- The bytes of a request of a word: an item's own lie anywhere, the others in one 256-byte piece. -/
def reqRead (s : State) (ag : Agent) (acc : Acc) (ty : Nat → Nat → Bool) (each : Bool) (r : Spans) : Except Stop (List (List Byte)) :=
  if each then
    match r with
    | [x] => (memRead s ⟨ag, acc, x.1, x.2, false, true⟩ ty).map fun b => [b]
    | _ => .ok []
  else spanRead s ag acc r ty

/-- A request put into a list in ascending order of lowest address. -/
def insertReq {α : Type} (key : α → Nat) (r : α) : List α → List α
  | [] => [r]
  | x :: xs => if key r < key x then r :: x :: xs else x :: insertReq key r xs

/-- Requests in ascending order of lowest address. -/
def sortReqs {α : Type} (key : α → Nat) : List α → List α
  | [] => []
  | x :: xs => insertReq key x (sortReqs key xs)

/-! ## Loads -/

/-- An error of data that arrives late: the pending-fault mark (R374, R384). -/
def lateCause (c : Cause) : Bool := c == .memUe || c == .gcmTag

/-- Every request checked, lower addresses first (R305); an error of the data is set aside. -/
def loadCheck (s : State) (ag : Agent) (ty : Nat → Nat → Bool) (each : Bool) : List Spans → Except Stop (Option MemFault)
  | [] => .ok none
  | r :: rs =>
    match reqRead s ag .engRead ty each r with
    | .ok _ => loadCheck s ag ty each rs
    | .error (.miss wh c v) => .error (.miss wh c v)
    | .error (.flt f) =>
      if lateCause f.cause then
        match loadCheck s ag ty each rs with
        | .ok _ => .ok (some f)
        | .error e => .error e
      else .error (.flt f)

/-- The bytes of an item whose requests have been checked; zeros where its data holds an error. -/
def itemBytes (s : State) (ag : Agent) (ty : Nat → Nat → Bool) (each : Bool) (i : Item) : List Byte :=
  (if each then [(i.at_, i.len)] else i.spans).flatMap fun x =>
    match reqRead s ag .engRead ty each [x] with
    | .ok bs => bs.flatten
    | .error _ => List.replicate x.2 0

/-- The formats that every request of a word must stand on: FMT and GEO of its first page, when the form takes them (R303). -/
def Form.on (f : Form) (t : ElemT) (fmt geo u v : Nat) : Bool := u == fmt && v == geo && f.takes t u v

/-- The requests of a word lie within one slice, when each item is not a request of its own (R20); a Dormouse word is one vector access
as well (DEDUCED, log 23). -/
def wordCross (s : State) (ag : Agent) (acc : Acc) (ty : Nat → Nat → Bool) (each : Bool) (rs : List Spans) : Option Stop :=
  if each then none else runsCross s ag acc ty (lowSpan (rs.headD [])).1 rs

/-- The slices that some requests reach, each with the lowest address read there (R22). -/
def slicesOf (s : State) (ag : Agent) : List Spans → List (Nat × Nat)
  | [] => []
  | r :: rs =>
    let x := lowSpan r
    match plan s ⟨ag, .engRead, x.1, x.2, false, false⟩ anyFmt with
    | .ok (⟨_, _, .slice n _, _⟩ :: _) => (n, x.1) :: (slicesOf s ag rs).filter fun p => p.1 != n
    | _ => slicesOf s ag rs

/-- What a load reads: register lanes, the error of its data, and the slices that it comes from. -/
def vmLoad (s : State) (ag : Agent) (f : Form) (t : ElemT) (m : BitVec 128) (a : Nat) (jel stride : Int) (x : Vec) :
    Except Stop (Vec × Option MemFault × List (Nat × Nat)) :=
  match vmPage s ag .engRead a with
  | .error e => .error e
  | .ok (fmt, geo) =>
    let ty := f.on t fmt geo
    let is := layoutOf f t m a jel stride x fmt geo
    let each := f.each fmt
    let rs := sortReqs (fun r => (lowSpan r).1) (requestsOf each is)
    let chk : Except Stop (Option MemFault) := match wordCross s ag .engRead ty each rs with | some e => .error e | none => loadCheck s ag ty each rs
    match chk with
    | .error e => .error e
    | .ok late =>
      let vals := is.map fun i => (i.ix, itemBytes s ag ty each i)
      let find (k : Nat) : List Byte := match vals.find? (fun v => v.1 == k) with | some v => v.2 | none => []
      let data : Vec :=
        match f with
        | .indexed => mkIdx fun l => decElem fmt t (leNat (find l))
        | _ =>
          if isBlockFmt fmt then
            let k := blockLen fmt geo
            let p := match f with | .planes p => p | _ => geoPlanes geo
            packV t.w ((List.range (f.count t / k)).flatMap fun b =>
              match vals.find? (fun v => v.1 == b) with
              | some v => blockDecode fmt p t v.2
              | none => List.replicate k 0)
          else packV t.w ((List.range (f.count t)).map fun e =>
            match vals.find? (fun v => v.1 == e) with
            | some v => decElem fmt t (leNat v.2)
            | none => 0)
      .ok (data, late, slicesOf s ag rs)
where
  mkIdx (g : Nat → Nat) : Vec := (List.range 128).map fun l => if m.getLsbD l then BitVec.ofNat 32 (g l) else 0

/-- A load word (R303 to R305). -/
def State.vmLoadWord (s : State) (f : Form) (t : ElemT) (m : Vmm) : Out :=
  s.vWord fun l =>
    let mask := l.active m.p
    if mask == 0 then .next (l.vIssued [] 0 fNone)
    else
      let a := l.vmBase m (f == .strided)
      let jel := l.iterOf m.p * (f.count t : Nat)
      let x := match f with | .indexed => l.vsrc m.x | _ => []
      match vmLoad l l.eng f t mask a jel l.stride x with
      | .error (.miss wh c v) => .next (s.missed wh c v)
      | .error (.flt g) => .next (s.vFault 1 0 (some g))
      | .ok (d, late, sl) =>
        let r := { l.res pLoad (l.vdst m.v) mask d [] with arrived := false, addr := a, jel := jel, x := x, pfm := late, slices := sl }
        .next (l.vIssued [r] 0 fNone)

def execVld (_h : Hdr) (t : ElemT) (m : Vmm) (s : State) : Out := s.vmLoadWord .packed t m
def execVlds (_h : Hdr) (t : ElemT) (m : Vmm) (s : State) : Out := s.vmLoadWord .strided t m
def execVldx (_h : Hdr) (t : ElemT) (m : Vmm) (s : State) : Out := s.vmLoadWord .indexed t m
/-- vldb (R304): the word's 4-bit field is the number of planes. -/
def execVldb (_h : Hdr) (planes : BitVec 4) (m : Vmm) (s : State) : Out := s.vmLoadWord (.planes planes.toNat) .i8 m

/-! ## Stores -/

/-- Bytes to write at an address. -/
abbrev Write := Nat × List Byte

/-- A write cut at 256-byte boundaries. -/
def cutWrite (a : Nat) (bs : List Byte) : List Write :=
  (cutSpan (bs.length / 256 + 2) a bs.length).map fun c => (c.1, (bs.drop (c.1 - a)).take c.2)

/-- A stored block that a store reads before it writes it anew: its errors are the store's (R305, R419). -/
def oldBlock (s : State) (ag : Agent) (ty : Nat → Nat → Bool) (a n : Nat) : Except Stop (List Byte) :=
  match memRead s ⟨ag, .engRead, a, n, false, true⟩ ty with
  | .error (.flt f) => .error (.flt { f with acc := .engWrite })
  | r => r

/-- The bytes of each item of a store, and OVF (R96, R305); the old bytes of a stored block are those that its request finds. -/
def storeBytes (s : State) (ag : Agent) (f : Form) (t : ElemT) (m : BitVec 128) (src : Vec) (fmt geo : Nat) :
    List Item → Except Stop (List Write × Flags)
  | [] => .ok ([], fNone)
  | i :: is =>
    let es := match f with | .indexed => src.map fun (l : Lane) => l.toNat % 2 ^ t.w | _ => elems t.w src
    let one : Except Stop (List Byte × Flags) :=
      if isBlockFmt fmt then
        match oldBlock s ag (f.on t fmt geo) i.at_ i.len with
        | .error e => .error e
        | .ok old =>
          let k := blockLen fmt geo
          .ok (blockEncode fmt geo t old ((List.range k).map fun j =>
            let e := i.ix * k + j
            if activeElem m t.per e then some (es.getD e 0) else none))
      else .ok (leBytes i.len (encElem fmt t (es.getD i.ix 0)), fNone)
    match one with
    | .error e => .error e
    | .ok (bs, fl) =>
      match storeBytes s ag f t m src fmt geo is with
      | .error e => .error e
      | .ok (ws, g) => .ok ((if f.each fmt then [(i.at_, bs)] else cutWrite i.at_ bs) ++ ws, fl ||| g)

/-- A request of a word written. -/
def reqWrite (s : State) (ag : Agent) (ty : Nat → Nat → Bool) (each : Bool) (r : List Write) : Except Stop State :=
  if each then
    match r with
    | [w] => memWrite s ⟨ag, .engWrite, w.1, w.2.length, false, true⟩ ty w.2
    | _ => .ok s
  else spanWrite s ag .engWrite r ty

/-- Writes performed request by request. -/
def writeReqs (ag : Agent) (ty : Nat → Nat → Bool) (each : Bool) : List (List Write) → State → Except Stop State
  | [], s => .ok s
  | r :: rs, s =>
    match reqWrite s ag ty each r with
    | .error e => .error e
    | .ok s => writeReqs ag ty each rs s

/-- Every request checked, lower addresses first; `blk` says that each is a stored block, which is read first. -/
def planReqs (s : State) (ag : Agent) (ty : Nat → Nat → Bool) (blk : Bool) : List Spans → Except Stop Unit
  | [] => .ok ()
  | r :: rs =>
    let (a, n) := lowSpan r
    match plan s ⟨ag, .engWrite, a, n, false, true⟩ ty, (if blk then (oldBlock s ag ty a n).map (fun _ => ()) else .ok ()) with
    | .error e, _ => .error e
    | _, .error e => .error e
    | .ok _, .ok _ => planReqs s ag ty blk rs

/-- Every request of a store checked: within one slice, and each as it is. -/
def storeCheck (s : State) (ag : Agent) (ty : Nat → Nat → Bool) (each blk : Bool) (rs : List Spans) : Except Stop Unit :=
  match wordCross s ag .engWrite ty each rs with
  | some e => .error e
  | none => planReqs s ag ty blk rs

/-- Lowest address of a request. -/
def lowWrite (r : List Write) : Nat := (lowSpan (r.map fun w => (w.1, w.2.length))).1

/-- Writes of a word: all checked, lower addresses first, then performed in element order (R305). -/
def vmWrite (s : State) (ag : Agent) (ty : Nat → Nat → Bool) (each : Bool) (ws : List Write) : Except Stop State :=
  let rs := if each then ws.map fun w => [w] else pieceRuns Prod.fst ws
  let up := sortReqs lowWrite rs
  match storeCheck s ag ty each false (up.map fun r => r.map fun w => (w.1, w.2.length)) with
  | .error e => .error e
  | .ok _ =>
    match writeReqs ag ty each up s with
    | .error e => .error e
    | .ok _ => writeReqs ag ty each rs s

/-- The spans of a store word, in ascending order of its requests; the byte at `a` when that has no page. -/
def storeSpans (s : State) (ag : Agent) (f : Form) (t : ElemT) (m : BitVec 128) (a : Nat) (jel stride : Int) (x : Vec) : List Spans :=
  match vmPage s ag .engWrite a with
  | .error _ => [[(a, 1)]]
  | .ok (fmt, geo) => sortReqs (fun r => (lowSpan r).1) (requestsOf (f.each fmt) (layoutOf f t m a jel stride x fmt geo))

/-- The writes of a store word and its OVF flag, every request checked before a byte is read. -/
def vmStore (s : State) (ag : Agent) (f : Form) (t : ElemT) (m : BitVec 128) (a : Nat) (jel stride : Int) (x src : Vec) :
    Except Stop (List Write × Flags × Nat × Nat) :=
  match vmPage s ag .engWrite a with
  | .error e => .error e
  | .ok (fmt, geo) =>
    match storeCheck s ag (f.on t fmt geo) (f.each fmt) (isBlockFmt fmt) (storeSpans s ag f t m a jel stride x) with
    | .error e => .error e
    | .ok _ =>
      match storeBytes s ag f t m src fmt geo (layoutOf f t m a jel stride x fmt geo) with
      | .error e => .error e
      | .ok (ws, fl) => .ok (ws, fl, fmt, geo)

/-- Bytes of a list of writes. -/
def writeLen (ws : List Write) : Nat := (ws.map fun w => w.2.length).sum

/-! ## A vst inside a store group (R139 to R141) -/

/-- Pending stores put in by ordinal. -/
def Group.insertStores (g : Group) (o : Nat) (xs : List GStore) : Group :=
  { g with stores := (g.stores.filter fun x => x.ord ≤ o) ++ xs ++ (g.stores.filter fun x => o < x.ord) }

/-- The writes planned as pending stores, or the first fault, lower addresses first. -/
def groupPlans (s : State) (ag : Agent) (ty : Nat → Nat → Bool) (o : Nat) : List Write → Except Stop (List GStore × Bool)
  | [] => .ok ([], false)
  | w :: ws =>
    let r : Req := ⟨ag, .engWrite, w.1, w.2.length, false, true⟩
    match plan s r ty with
    | .error e => .error e
    | .ok ps =>
      match groupPlans s ag ty o ws with
      | .error e => .error e
      | .ok (gs, bad) => .ok (gstores o ps w.2 ++ gs, bad || ps.any Piece.badTarget)

/-- Some request is known to aim at a target that a group may not reach. -/
def badSpans (s : State) (ag : Agent) (rs : List Spans) : Bool :=
  rs.any fun r => groupBadTarget s ⟨ag, .engWrite, (lowSpan r).1, (lowSpan r).2, false, true⟩

/-- What a vst does to the group it belongs to: the group after it and the flags it raises. -/
def groupVst (s : State) (g : Group) (o : Nat) (beyond : Bool) (rs : List Spans)
    (st : Except Stop (List Write × Flags × Nat × Nat)) : Except Stop (Group × Flags) :=
  let ag := s.eng
  let stop (bad : Bool) (f : MemFault) : Group :=
    if bad then g.abort 7 0 o false else if beyond then g.abort 2 0 o false else g.abort 3 f.cause.code o false
  match st with
  | .error (.miss wh c v) => .error (.miss wh c v)
  | .error (.flt f) => .ok (stop (badSpans s ag rs) f, fNone)
  | .ok (ws, fl, fmt, geo) =>
    match groupPlans s ag (fun u v => u == fmt && v == geo) o (sortReqs Prod.fst ws) with
    | .error (.miss wh c v) => .error (.miss wh c v)
    | .error (.flt f) => .ok (stop (badSpans s ag rs) f, fNone)
    | .ok (gs, bad) =>
      if bad then .ok (g.abort 7 0 o false, fNone)
      else if beyond then .ok (g.abort 2 0 o false, fNone)
      else .ok (g.insertStores o gs, fl)

/-- The acting vst as a store of the group that it was pushed in: the flags raised and the state. -/
def State.vstGroup (s : State) (rs : List Spans) (st : Except Stop (List Write × Flags × Nat × Nat)) : Except Stop (State × Flags) :=
  let n := 2 * s.cur.core
  let h := s.hart n
  let e := s.cur.ent
  match h.group.vsts.find? (fun x => x.1 == e.num) with
  | some (_, o, beyond) =>
    if h.cont == some e.cid && h.group.opened then
      let g := { h.group with vsts := h.group.vsts.filter fun x => x.1 != e.num }
      if g.code != 0 then .ok (s.setHart n { h with group := g }, fNone)
      else
        match groupVst s g o beyond rs st with
        | .error e => .error e
        | .ok (g, fl) => .ok (s.setHart n { h with group := g }, fl)
    else .ok (s, fNone)
  | none => .ok (s, fNone)

/-- A store word (R303, R305). -/
def State.vmStoreWord (s : State) (f : Form) (t : ElemT) (m : Vmm) : Out :=
  s.vWord fun l =>
    let mask := l.active m.p
    let a := l.vmBase m (f == .strided)
    let jel := l.iterOf m.p * (f.count t : Nat)
    let x := match f with | .indexed => l.vsrc m.x | _ => []
    let st := if mask == 0 then .ok ([], fNone, 0, 0) else vmStore l l.eng f t mask a jel l.stride x (l.vsrc m.v)
    if s.cur.ent.group then
      match l.vstGroup (storeSpans l l.eng f t mask a jel l.stride x) st with
      | .error (.miss wh c v) => .next (s.missed wh c v)
      | .error (.flt g) => .next (s.vFault 1 0 (some g))
      | .ok (l, fl) => .next (l.vIssued [] (match st with | .ok w => writeLen w.1 | .error _ => 0) fl)
    else
      match st with
      | .error (.miss wh c v) => .next (s.missed wh c v)
      | .error (.flt g) => .next (s.vFault 1 0 (some g))
      | .ok (ws, fl, fmt, geo) =>
        match vmWrite l l.eng (fun u v => u == fmt && v == geo) (f.each fmt) ws with
        | .error (.miss wh c v) => .next (s.missed wh c v)
        | .error (.flt g) => .next (s.vFault 1 0 (some g))
        | .ok l => .next (l.vIssued [] (writeLen ws) fl)

def execVst (_h : Hdr) (t : ElemT) (m : Vmm) (s : State) : Out := s.vmStoreWord .packed t m
def execVsts (_h : Hdr) (t : ElemT) (m : Vmm) (s : State) : Out := s.vmStoreWord .strided t m
def execVstx (_h : Hdr) (t : ElemT) (m : Vmm) (s : State) : Out := s.vmStoreWord .indexed t m

/-! ## Fetch queues (R307 to R310) -/

/-- Trip count of level `d`. -/
def patCnt (b : List Byte) (d : Nat) : Nat := fieldAt b (8 + 4 * d) 4
/-- Byte stride of level `d`. -/
def patStr (b : List Byte) (d : Nat) : Int := sext (fieldAt b (24 + 8 * d) 8) 64
/-- Number of entries. -/
def patTotal (b : List Byte) : Nat := patCnt b 0 * patCnt b 1 * patCnt b 2 * patCnt b 3
/-- Type of the entries. -/
def patType (b : List Byte) : Option ElemT := elemT? (fieldAt b 56 1 % 16)

/-- A malformed pattern. -/
def patBad (b : List Byte) : Bool :=
  16 ≤ fieldAt b 56 1 || !zeroAt b 57 7 || patTotal b == 0 || (patType b).isNone || 2 ^ 40 < patTotal b

/-- Address of entry `k`. -/
def patAddr (b : List Byte) (k : Nat) : Nat :=
  let c0 := patCnt b 0
  let c1 := patCnt b 1
  let c2 := patCnt b 2
  addr64 (fieldAt b 0 8 + (k % c0 : Nat) * patStr b 0 + (k / c0 % c1 : Nat) * patStr b 1 +
    (k / c0 / c1 % c2 : Nat) * patStr b 2 + (k / c0 / c1 / c2 : Nat) * patStr b 3)

/-- Fetch queue `q` of a run. -/
def VRun.fqOf (v : VRun) (q : Nat) : FetchQ := tget FetchQ.closed v.fq q

/-- fq.open (R307, R308). -/
def execFqOpen (_h : Hdr) (q : BitVec 2) (_cl : BitVec 4) (s : State) : Out :=
  s.vWord fun l =>
    match rdBytes l l.eng .engRead l.cur.ent.sc0.toNat 64 with
    | .error (.miss wh c v) => .next (s.missed wh c v)
    | .error (.flt g) => .next (s.vFault 1 0 (some g))
    | .ok bs =>
      let v := l.vr
      .next ((l.setVrun l.cur.ent.run { v with fq := tset v.fq q.toNat ⟨true, l.cur.ent, bs, 0, [], none⟩ }).vIssued [] 0 fNone)

/-- fq.close (R308, R310). -/
def execFqClose (_h : Hdr) (q : BitVec 2) (s : State) : Out :=
  s.vWord fun l =>
    let v := l.vr
    .next ((l.setVrun l.cur.ent.run { v with fq := tdel v.fq q.toNat }).vIssued [] 0 fNone)

/-- FMT_TYPE raised by a vpop itself (R307, R309). -/
def popFault (s : State) (f : FetchQ) (detail : Nat) : MemFault :=
  (⟨s.eng, .engRead, fieldAt f.pattern 0 8, 1, false, true⟩ : Req).fault (fieldAt f.pattern 0 8) .fmtType 7 0 detail

/-- The fault that a vpop of the next entry takes. -/
def FetchQ.faultNow (f : FetchQ) : Option MemFault :=
  match f.faultAt with | some (n, g) => if n ≤ f.next then some g else none | none => none

/-- vpop (R309, R310). -/
def execVpop (_h : Hdr) (t : ElemT) (d : BitVec 6) (q : BitVec 2) (p : Pred) (s : State) : Out :=
  s.vWord fun l =>
    let m := l.active p
    let v := l.vr
    let f := v.fqOf q.toNat
    if m == 0 then .next (l.vIssued [] 0 fNone)
    else if patBad f.pattern then .next (s.vFault 1 0 (some (popFault l f 1)))
    else if patType f.pattern != some t then .next (s.vFault 1 0 (some (popFault l f 2)))
    else if patTotal f.pattern ≤ f.next then .next (l.vIssued [l.res pPop (l.vdst d) m vzero [vzero]] 0 fNV)
    else
      match f.ahead with
      | x :: xs =>
        let l2 := l.setVrun l.cur.ent.run { v with fq := tset v.fq q.toNat { f with next := f.next + 1, ahead := xs } }
        .next (l2.vIssued [l.res pPop (l.vdst d) m x []] 0 fNone)
      | [] =>
        match f.faultNow with
        | some g => .next (s.vFault 1 0 (some g))
        | none => .next s

/-! ## The run that the vector unit of a core serves -/

/-- The first run of a core that is busy; a continuation whose frame stands does not run. -/
def busyRun (s : State) (n : Nat) : Tbl VRun → Option Nat
  | [] => none
  | (r, v) :: t =>
    let c := s.cont v.cid
    if c.core == some n && c.frame.isNone && v.busy then some r else busyRun s n t

/-- The first word of a queue. -/
def headWord : List QItem → Option QEntry
  | [] => none
  | .word e :: _ => some e
  | .settle _ :: t => headWord t

/-- The run that the vector unit of core `n` serves. -/
def State.vRunOf (s : State) (n : Nat) : Option Nat :=
  match busyRun s n s.runs with
  | some r => some r
  | none =>
    match headWord ((s.core n).queues.headD []) with
    | some e => some e.run
    | none => (s.hart (2 * n)).cont.map fun k => (s.cont k).run

/-- fetchQueueRead (R308, R310): the generator of queue `q` reads its next entry, at most 16 ahead. -/
def execFetchQueueRead (core q : Nat) (s : State) : Out :=
  match s.vRunOf core with
  | none => .fault .notEnabled
  | some r =>
    let v := s.vrun r
    let f := v.fqOf q
    let k := f.next + f.ahead.length
    if !f.opened || v.stopped || (s.cont v.cid).frame.isSome || patBad f.pattern || patTotal f.pattern ≤ k || 16 ≤ f.ahead.length || f.faultAt.isSome then
      .fault .notEnabled
    else
      let put (s : State) (f : FetchQ) : Out := .next ((s.setVrun r { v with fq := tset v.fq q f }).tookWalk (.engine core 0))
      match vmLoad s (engAgent core 0 f.ent) .packed ((patType f.pattern).getD .f32) (BitVec.allOnes 128) (patAddr f.pattern k) 0 0 [] with
      | .error (.miss wh c w) => .next (s.missed wh c w)
      | .error (.flt g) => put (s.noted g) { f with faultAt := some (k, g) }
      | .ok (_, some g, _) => put s { f with faultAt := some (k, g) }
      | .ok (d, none, _) => put s { f with ahead := f.ahead ++ [d] }

/-! ## The hardware loop, vsync and vnop (R311 to R315) -/

/-- ROT as a size. -/
def rotSize (r : BitVec 2) : Nat := match r.toNat with | 1 => 8 | 2 => 16 | _ => 0

/-- From the next loop-back no further iteration starts (R380). -/
def Loop.drainAt (l : Loop) : Loop :=
  let m := min (l.pass + 1) l.n
  { l with n := m, left := l.left + (l.n - m), drain := true }

/-- vloop: NB and ST are stored minus one, sc0 holds the trip count; one that issues while the continuation is being pre-empted drains
from its first loop-back on (R379, R380). -/
def execVloop (_h : Hdr) (nb1 : BitVec 6) (rot : BitVec 2) (st1 : BitVec 3) (s : State) : Out :=
  s.vWord fun l =>
    let n := l.cur.ent.sc0.toNat
    let lp : Loop := ⟨nb1.toNat + 1, st1.toNat + 1, rotSize rot, n, 0, 0, 0, 0, 0, [], l.cur.ent, false, false⟩
    let lp := if (l.core l.cur.core).preempt != .none && (l.hart (2 * l.cur.core)).cont == some l.cur.ent.cid then lp.drainAt else lp
    let t := l.vIssued [] 0 fNone
    let v := t.vr
    let v := if n == 0 then v else { v with pred := stagePreds lp.n 0 v.pred }
    .next (t.setVrun l.cur.ent.run { v with loop := some lp })

/-- vsync: it issues once nothing is in flight, and clears the latches. -/
def execVsync (_h : Hdr) (s : State) : Out :=
  s.vWord fun l =>
    if !l.vr.fly.isEmpty then .next (s.vTick s.cur.ent.run)
    else .next ((l.setVrun l.cur.ent.run { l.vr with latch := [] }).vIssued [] 0 fNone)

/-- vnop: N is stored minus one. -/
def execVnop (_h : Hdr) (n1 : BitVec 6) (s : State) : Out :=
  s.vWord fun l =>
    if n1 == 0 then .next (l.vIssued [] 0 fNone)
    else
      let t := l.vLaunch [] 0 fNone
      .next (t.setVrun l.cur.ent.run { t.vr with idle := n1.toNat, idleEnd := l.cur.body })

/-! ## Dormouse (R316, R317) -/

/-- Path `k` of a run. -/
def VRun.path (v : VRun) (k : Nat) : Dorm := tget ⟨0, 0, 0⟩ v.dorm k

/-- Items of the ring that sc1 names. -/
def State.ringItems (s : State) : Nat := 2 ^ (s.cur.ent.sc1.toNat % 16 + 7)

/-- Address of item `i`. -/
def State.itemAt (s : State) (i : Nat) : Nat := addr64 (s.cur.ent.sc0.toNat + 8 * (i % s.ringItems : Nat))

/-- Numbers of the active lanes, ascending. -/
def activeOf (m : BitVec 128) : List Nat := (List.range 128).filter fun l => m.getLsbD l

/-- vdefer. -/
def execVdefer (_h : Hdr) (m : Vmd) (s : State) : Out :=
  s.vWord fun l =>
    let ls := activeOf (l.active m.p)
    let v := l.vr
    let d := v.path m.path.toNat
    let a := l.vsrc m.a
    let org (x : Nat) : Nat := wrapW 32 (l.cur.ent.sc1.toNat / 2 ^ 32 + 128 * l.iterOf m.p + x)
    if ls.isEmpty then .next (l.vIssued [] 0 fNone)
    else if l.ringItems < d.count + ls.length then .next (s.vFault 16 m.path.toNat none)
    else
      let ws := ls.zipIdx.flatMap fun (x, i) =>
        cutWrite (l.itemAt ((d.head + d.count + i) % 2 ^ 32)) (leBytes 4 (a.getD x 0).toNat ++ leBytes 4 (org x))
      match vmWrite l l.eng anyFmt false ws with
      | .error (.miss wh c w) => .next (s.missed wh c w)
      | .error (.flt g) => .next (s.vFault 1 0 (some g))
      | .ok t =>
        .next ((t.setVrun l.cur.ent.run { v with dorm := tset v.dorm m.path.toNat { d with count := d.count + ls.length } }).vIssued
          [] (writeLen ws) fNone)

/-- A vector with given values in some lanes and zero elsewhere. -/
def scatterLanes (ls : List Nat) (xs : List Nat) : Vec :=
  (List.range 128).map fun l => match (ls.zip xs).find? (fun p => p.1 == l) with | some p => BitVec.ofNat 32 p.2 | none => 0

/-- vdtake: it waits until the path holds a full batch. -/
def execVdtake (_h : Hdr) (m : Vmd) (s : State) : Out :=
  s.vWord fun l =>
    let mask := l.active m.p
    let ls := activeOf mask
    let v := l.vr
    let d := v.path m.path.toNat
    if ls.isEmpty then .next (l.vIssued [] 0 fNone)
    else if d.count < ls.length then .next s
    else
      let is := (List.range ls.length).map fun i => (⟨l.itemAt ((d.head + i) % 2 ^ 32), 8, i⟩ : Item)
      let rs := sortReqs (fun r => (lowSpan r).1) (requestsOf false is)
      let chk : Except Stop (Option MemFault) :=
        match wordCross l l.eng .engRead anyFmt false rs with | some e => .error e | none => loadCheck l l.eng anyFmt false rs
      match chk with
      | .error (.miss wh c w) => .next (s.missed wh c w)
      | .error (.flt g) => .next (s.vFault 1 0 (some g))
      | .ok late =>
        let bs := is.map (itemBytes l l.eng anyFmt false)
        let sl := slicesOf l l.eng (requestsOf false is)
        let ra := { l.res pLoad (l.vdst m.a) mask (scatterLanes ls (bs.map fun b => fieldAt b 0 4)) [] with arrived := false, addr := l.itemAt d.head, pfm := late, slices := sl }
        let rb := { l.res pLoad (l.vdst m.b) mask (scatterLanes ls (bs.map fun b => fieldAt b 4 4)) [] with arrived := false, addr := l.itemAt d.head, pipe := none, pfm := late, slices := sl }
        let k := ls.length
        let d := ⟨(d.head + k) % 2 ^ 32, d.count - k, (d.out + k) % 2 ^ 32⟩
        .next ((l.setVrun l.cur.ent.run { v with dorm := tset v.dorm m.path.toNat d }).vIssued [ra, rb] 0 fNone)

/-- vdret. -/
def execVdret (_h : Hdr) (m : Vmd) (s : State) : Out :=
  s.vWord fun l =>
    let ls := activeOf (l.active m.p)
    let v := l.vr
    let d := v.path m.path.toNat
    let a := l.vsrc m.a
    let b := l.vsrc m.b
    if ls.isEmpty then .next (l.vIssued [] 0 fNone)
    else
      let ws := ls.flatMap fun x =>
        cutWrite (addr64 (l.cur.ent.sc0.toNat + 4 * ((b.getD x 0).toNat : Nat))) (leBytes 4 (a.getD x 0).toNat)
      match vmWrite l l.eng anyFmt false ws with
      | .error (.miss wh c w) => .next (s.missed wh c w)
      | .error (.flt g) => .next (s.vFault 1 0 (some g))
      | .ok t =>
        .next ((t.setVrun l.cur.ent.run { v with dorm := tset v.dorm m.path.toNat { d with out := d.out - ls.length } }).vIssued
          [] (writeLen ws) fNone)

/-- vdcnt: latch b3 receives COUNT and OUT. -/
def execVdcnt (_h : Hdr) (path : BitVec 4) (s : State) : Out :=
  s.vWord fun l =>
    let d := l.vr.path path.toNat
    .next (l.vIssued [l.res ⟨3, 3⟩ .latchOnly (BitVec.allOnes 128) (scatterLanes [0, 1] [d.count, d.out]) [vzero]] 0 fNone)

/-! ## Events (R60, R245, R384) -/

/-- The first load whose data has not arrived, with its place. -/
def lateLoad : Nat → List Res → Option (Nat × Res)
  | _, [] => none
  | i, r :: rs => if r.arrived then lateLoad (i + 1) rs else some (i, r)

/-- The fault of a load whose data was on its way from the slice of a core that has been fenced since: it faults or completes, as a
free value says (R22, R54 INFLIGHT). -/
def State.cutOff (s : State) (core : Nat) (r : Res) : State × Option MemFault :=
  match r.slices.find? fun p => !s.coreOk p.1 with
  | none => (s, none)
  | some (_, a) =>
    let (v, s) := s.draw
    let q : Req := ⟨engAgent core 0 r.ent, .engRead, a, 1, false, true⟩
    (s, if v.getLsbD 0 then some { q.fault a .unitFenced 7 0 0 with inflight := true } else none)

/-- vmLoadDataArrive: late data arrives; an error in it stops the V engine (R384). -/
def execVmLoadDataArrive (core : Nat) (s : State) : Out :=
  match s.vRunOf core with
  | none => .fault .notEnabled
  | some k =>
    let v := s.vrun k
    match lateLoad 0 v.fly with
    | none => .fault .notEnabled
    | some (i, r) =>
      if v.stopped || (s.cont v.cid).frame.isSome then .fault .notEnabled
      else
        let (s, cut) := match r.pfm with | some _ => (s, none) | none => s.cutOff core r
        let r := match cut with | some f => { r with pfm := some f } | none => r
        let v := { v with fly := v.fly.set i { r with arrived := true } }
        match r.pfm with
        | none => .next (s.setVrun k v)
        | some f =>
          let ef : EngFault := ⟨r.ent.num, 0, 1, i, 0, some f⟩
          let c := s.cont v.cid
          let c := { c with live := c.live.map fun l => if l.eng == 0 && l.ent.num == r.ent.num then { l with fault := some ef } else l }
          .next ((s.setCont v.cid c).setVrun k { v with stopped := true })

/-- vectorResultLand: the next due result lands (R245). -/
def execVectorResultLand (core : Nat) (s : State) : Out :=
  match s.vRunOf core with
  | none => .fault .notEnabled
  | some k =>
    let v := s.vrun k
    match earliest v.cyc v.fly with
    | none => .fault .notEnabled
    | some r => if v.stopped || !r.arrived || (s.cont v.cid).frame.isSome then .fault .notEnabled else .next (s.landOne k r)

end Sys2Proof.Machine
end

