-- ==== Sys2Proof/Machine/Matrix.lean ====
section
/-! DEFINITION. The matrix engine (R320 to R336) and the reload of a weight block (R74). -/

namespace Sys2Proof.Machine

/-! ## Tables -/

/-- `n` little-endian elements of `e` bytes. -/
def elemsOf (e : Nat) : Nat → List Byte → List Nat
  | 0, _ => []
  | n + 1, bs => leNat (bs.take e) :: elemsOf e n (bs.drop e)

/-! ## Stores of the core (R72, R73) -/

/-- Accumulator tile `t` of core `n` is allocated to the continuation (R72). -/
def State.tileOwned (s : State) (n cid t : Nat) : Bool := t < 1024 && lookupT (s.core n).accs (t / 32) == some cid

/-- The 512 bytes of a tile. -/
def State.tile (s : State) (n t : Nat) : List Byte := mgets s.mem (accLoc n t 0) 512
/-- Bytes put into a tile from its first element on. -/
def State.setTile (s : State) (n t : Nat) (bs : List Byte) : State := { s with mem := msets s.mem (accLoc n t 0) bs }

/-- The continuation of the acting command. -/
def State.ec (s : State) : Cont := s.cont s.cur.ent.cid
/-- The same, replaced. -/
def State.setEc (s : State) (c : Cont) : State := s.setCont s.cur.ent.cid c
/-- Register-space bytes of the acting command's run (R69). -/
def State.rsGet (s : State) (a n : Nat) : List Byte := mgets s.vr.rs a n
def State.rsPut (s : State) (a : Nat) (bs : List Byte) : State :=
  s.setVrun s.cur.ent.run { s.vr with rs := msets s.vr.rs a bs }

/-! ## Epilogue sets (R330) -/

def epAccm (b : List Byte) : Bool := bit (fieldAt b 0 1) 0
def epPath (b : List Byte) : Bool := bit (fieldAt b 0 1) 1
def epAct (b : List Byte) : Nat := bits (fieldAt b 0 1) 3 2
def epOut (b : List Byte) : Nat := bits (fieldAt b 0 1) 7 4
def epTbl (b : List Byte) : Nat := bits (fieldAt b 1 1) 3 0
def epRm (b : List Byte) : Rm := Rm.of (bits (fieldAt b 1 1) 5 4)
def epBias (b : List Byte) : Bool := bit (fieldAt b 1 1) 6
def epGeo (b : List Byte) : Nat := bits (fieldAt b 2 1) 1 0
def epSten (b : List Byte) : Bool := bit (fieldAt b 4 4) 0
def epStAddr (b : List Byte) : Nat := bits (fieldAt b 4 4) 21 2 * 4
def epPitch (b : List Byte) : Nat := fieldAt b 8 2
def epZp (b : List Byte) : Int := sext (fieldAt b 12 4) 32
def epLo (b : List Byte) : Nat := fieldAt b 16 4
def epHi (b : List Byte) : Nat := fieldAt b 20 4
def epBiasJ (b : List Byte) (j : Nat) : Nat := fieldAt b (32 + 4 * j) 4
def epMulJ (b : List Byte) (j : Nat) : Nat := fieldAt b (64 + 4 * j) 4
def epShJ (b : List Byte) (j : Nat) : Nat := fieldAt b (96 + j) 1
/-- Output type; FP32 stands for a code that R330 refuses. -/
def epType (b : List Byte) : ElemT := (elemT? (epOut b)).getD .f32

/-- Reserved fields of a set. -/
def epReserved (b : List Byte) : Bool :=
  bit (fieldAt b 1 1) 7 || bits (fieldAt b 2 2) 15 2 != 0 || bits (fieldAt b 4 4) 31 22 != 0 || bit (fieldAt b 4 4) 1 ||
    !zeroAt b 10 2 || !zeroAt b 24 8 || !zeroAt b 104 24

/-- HI < LO, by PATH. -/
def epCrossed (b : List Byte) : Bool :=
  if epPath b then fvLt (fmtF32.dec (epHi b)) (fmtF32.dec (epLo b)) else sext (epHi b) 32 < sext (epLo b) 32

/-- A NaN in a floating-point field. -/
def epNan (b : List Byte) : Bool :=
  ([epLo b, epHi b] ++ (List.range 8).flatMap fun j => [epBiasJ b j, epMulJ b j]).any fun x => (fmtF32.dec x).isNan

/-- A malformed set; set 0 accepts only ACCM, STEN and STADDR. -/
def epBad (ix : Nat) (b : List Byte) : Bool :=
  if ix == 0 then
    fieldAt b 0 1 / 2 != 0 || !zeroAt b 1 3 || bits (fieldAt b 4 4) 31 22 != 0 || bit (fieldAt b 4 4) 1 || !zeroAt b 8 120
  else
    epReserved b || 8 < epOut b || epGeo b == 3 || epCrossed b || epPitch b % 4 != 0 || epPitch b < 8 * (epType b).bytes ||
      (epAct b == 2 && (epPath b || (epOut b != 7 && epOut b != 8))) || (epPath b && epNan b) ||
      (List.range 8).any fun j => 63 < epShJ b j || (epPath b && epShJ b j != 0)

/-! ## Operands (R322 to R326) -/

/-- What a multiply does to each tile: its type, the planes of tmma.bp, NK, EP and ZA. -/
structure MxOp where
  t  : MxT
  bp : Option Nat
  nk : Nat
  ep : Nat
  za : Bool
  deriving DecidableEq, Repr, Inhabited

/-- One tile of a multiply: first directory entry, first A tile, rows, accumulator tile, output offset. -/
structure MxJob where
  w    : Nat
  ma   : Nat
  rows : Nat
  tile : Nat
  out  : Nat
  deriving DecidableEq, Repr, Inhabited

/-- Type of the operand elements. -/
def mxElemT : MxT → ElemT
  | .i8 => .i8 | .u8 => .u8 | .e4m3 => .e4m3 | .e5m2 => .e5m2 | .f16 => .f16 | .bf16 => .bf16 | .bs8 => .i8

/-- Integer accumulation (R323). -/
def MxOp.isInt (o : MxOp) : Bool := o.bp.isSome || o.t == .i8 || o.t == .u8

/-- Block length of a .bs8 word (R324). -/
def bsLen (es : List Byte) : Nat := match epGeo es with | 1 => 16 | 2 => 64 | _ => 32

/-- The set that a multiply names; all zeros when it is empty. -/
def State.epSet (s : State) (ep : Nat) : List Byte := (lookupT s.ec.epi ep).getD (List.replicate 128 0)

/-- Row `i` of A tile `m(k)`. -/
def State.aRow (s : State) (k i : Nat) : List Byte := s.rsGet (s.cur.ent.mb + 2048 * k + 128 * i) 128

/-- Column `j` of the four entries from `w`. -/
def State.bCol (s : State) (w j : Nat) : List Byte := ((s.wbBytes s.cur.core (w + j / 2)).drop (128 * (j % 2))).take 128

/-- Directory entries that chunk `z` reads. -/
def State.chunkEntries (s : State) (o : MxOp) (j : MxJob) (z : Nat) : List Nat :=
  match o.bp with
  | some _ =>
    let q := match s.wbEnt s.cur.core j.w with | some e => geoPlanes e.geo | none => 2
    (List.range (ceilDiv (128 * q * (z + 1)) 256 - 128 * q * z / 256)).map fun i => j.w + 128 * q * z / 256 + i
  | none =>
    (List.range 4).map (fun i => j.w + 4 * z + i) ++
      (if o.t == .bs8 then (List.range 4).map fun i => j.w + 4 * o.nk + i else [])

/-- Column `c` of chunk `z` of a bit-plane operand (R326). -/
def State.bpCol (s : State) (j : MxJob) (p z c : Nat) : List Int :=
  let q := match s.wbEnt s.cur.core j.w with | some e => geoPlanes e.geo | none => 2
  let at0 := 128 * q * z + 16 * q * c
  let first := j.w + at0 / 256
  let bs := (((List.range 2).flatMap fun i => s.wbBytes s.cur.core (first + i)).drop (at0 % 256)).take (16 * q)
  bpnDecode bs p ++ bpnDecode (bs.drop (8 * q)) p

/-- Exact sum of products. -/
def dotInt : List Int → List Int → Int
  | a :: as, b :: bs => a * b + dotInt as bs
  | _, _ => 0

/-- The chunk sum of R99; a sum of zero is +0. -/
def bsSum (ps : List (Fv × Fv)) : Fv × Flags :=
  if ps.any (fun p => p.1.isNan || p.2.isNan) then (.nan, fNone)
  else ((dySum (ps.map fun p => (fvMul p.1 p.2).1.dy)).fv false, fNone)

/-- Element codes with their scale codes. -/
def scaled (l : Nat) (codes scales : List Nat) : List Fv := codes.zipIdx.map fun x => e8Value (scales.getD (x.2 / l) 0) x.1

/-- The accumulator of element (i, c) after chunk `z` (R97 to R99, R323). -/
def State.mxElem (s : State) (o : MxOp) (j : MxJob) (z i c acc : Nat) : Nat × Flags :=
  let es := s.epSet o.ep
  let e := mxElemT o.t
  let a := elemsOf e.bytes (128 / e.bytes) (s.aRow (j.ma + z) i)
  let b := elemsOf e.bytes (128 / e.bytes) (s.bCol (j.w + 4 * z) c)
  match o.bp with
  | some p => addInt (epAccm es) acc (dotInt (a.map (ElemT.int .i8)) (s.bpCol j p z c))
  | none =>
    if o.isInt then addInt (epAccm es) acc (dotInt (a.map e.int) (b.map e.int))
    else if o.t == .bs8 then
      let l := bsLen es
      let sa := elemsOf 1 (128 / l) ((s.aRow (j.ma + o.nk) i).drop (128 / l * z))
      let sb := elemsOf 1 (128 / l) ((s.bCol (j.w + 4 * o.nk) c).drop (128 / l * z))
      let (v, f) := bsSum ((scaled l a sa).zip (scaled l b sb))
      addOnce acc v f
    else
      let (v, f) := chunkSum ((a.map e.val).zip (b.map e.val))
      addOnce acc v f

/-! ## The epilogue (R331) -/

/-- The integer path: output bits and flags. -/
def epiInt (b tbl : List Byte) (j acc : Nat) : Nat × Flags :=
  let (x, f0) := if epBias b then addInt (epAccm b) acc (sext (epBiasJ b j) 32) else (acc, fNone)
  let pr := sext x 32 * sext (epMulJ b j) 32
  let y := (rint .rne (pr < 0) pr.natAbs (-(epShJ b j : Int))).1
  let y := if epAct b == 1 then max y 0 else y
  let y := if epAct b == 3 then sat y (sext (epLo b) 32) (sext (epHi b) 32) else y
  let y := y + epZp b
  let t := epType b
  if epAct b == 2 then
    let k := sat y (-128) 127
    ((byteAt tbl (k + 128).toNat).toNat, f0 ||| fIf (k != y) fSAT)
  else
    match t.fmt? with
    | some fd => let (r, f) := toFloat (epRm b) false fd (Fv.ofInt y); (r, f0 ||| f)
    | none => let k := sat y t.lo t.hi; (wrapW t.w k, f0 ||| fIf (k != y) fSAT)

/-- The floating-point path. -/
def epiFp (b : List Byte) (j acc : Nat) : Nat × Flags :=
  let rm := epRm b
  let dec := fmtF32.dec
  let rnd (v : Fv × Flags) : Nat × Flags := let (r, f) := fmtF32.round rm false v.1; (r, v.2 ||| f)
  let (x, f0) := if epBias b then rnd (fvAdd rm (dec acc) (dec (epBiasJ b j))) else (acc, fNone)
  let (y, f1) := rnd (fvMul (dec x) (dec (epMulJ b j)))
  let y := if epAct b == 1 && fvLt (dec y) (.fin false 0 0) then 0 else y
  let y := if epAct b == 3 && !(dec y).isNan then fmtF32.minBits false false (fmtF32.maxBits false false y (epLo b)) (epHi b) else y
  let (o, f2) := convElem ⟨rm, false, false⟩ .f32 (epType b) y
  (o, f0 ||| f1 ||| f2)

/-- One output element. -/
def epiElem (b tbl : List Byte) (j acc : Nat) : Nat × Flags := if epPath b then epiFp b j acc else epiInt b tbl j acc

/-- Rows of output written; the accumulator keeps its value. -/
def State.epilogue (s : State) (o : MxOp) (j : MxJob) : State × Flags :=
  let b := s.epSet o.ep
  let tbl := (lookupT s.ec.lut (epTbl b)).getD []
  let acc := elemsOf 4 (8 * j.rows) (s.tile s.cur.core j.tile)
  let rows := (List.range j.rows).map fun i =>
    (List.range 8).map fun c => epiElem b tbl c (acc.getD (8 * i + c) 0)
  let put (s : State) (x : List (Nat × Flags) × Nat) : State :=
    s.rsPut (j.out + x.2 * epPitch b) (x.1.flatMap fun y => leBytes (epType b).bytes y.1)
  (rows.zipIdx.foldl put s, orFlags (rows.flatten.map Prod.snd))

/-! ## A multiply (R328, R329, R334) -/

/-- A chunk added to a tile. -/
def State.mxStep (s : State) (o : MxOp) (j : MxJob) (z : Nat) : State × Flags :=
  let old := elemsOf 4 (8 * j.rows) (s.tile s.cur.core j.tile)
  let new := old.zipIdx.map fun x => s.mxElem o j z (x.2 / 8) (x.2 % 8) x.1
  (s.setTile s.cur.core j.tile (new.flatMap fun x => leBytes 4 x.1), orFlags (new.map Prod.snd))

/-- A weight block that chunk `z` reads holds an uncorrectable error (R74). -/
def State.mxStalled (s : State) (o : MxOp) (j : MxJob) (z : Nat) : Bool :=
  (s.chunkEntries o j z).any fun w => ueIn s.ue (wbLoc s.cur.core w) 256

/-- MX_PROG of a multiply in group `g` with `z` chunks done, and its epilogue when `e` holds (R329). -/
def progAt (num g z : Nat) (e : Bool) : Nat := g * 2 ^ 8 + z * 2 ^ 14 + b2n e * 2 ^ 19 + 2 ^ 20 + num % 65536 * 2 ^ 32

/-- The first tile from group `g` on that has rows: its group and job (R334). -/
def nextJob : List MxJob → Nat → Option (Nat × MxJob)
  | [], _ => none
  | j :: js, g => if j.rows == 0 then nextJob js (g + 1) else some (g, j)

/-- A fault of the matrix engine. -/
def mxFault {α : Type} (c : Nat) : EM α := .error (.fault c 0 none)

/-- The entries that a job reads. -/
def State.jobEntries (s : State) (o : MxOp) (j : MxJob) : List Nat :=
  match o.bp with
  | some _ =>
    match s.wbEnt s.cur.core j.w with
    | some e => if e.fmt == 10 then (List.range (ceilDiv (128 * geoPlanes e.geo * o.nk) 256)).map fun i => j.w + i else [j.w]
    | none => [j.w]
  | none => (List.range (if o.t == .bs8 then 4 * o.nk + 4 else 4 * o.nk)).map fun i => j.w + i

/-- The status word can be written (R328). -/
def State.statusCheck (s : State) (b : List Byte) : EM Unit :=
  if !epSten b then .ok ()
  else
    match liftE (plan s ⟨s.eng, .engWrite, alBase + epStAddr b, 4, false, true⟩ anyFmt) with
    | .error e => .error e
    | .ok _ => (eRead s s.eng (alBase + epStAddr b) 4).map fun _ => ()

/-- The checks of one tile, in the order of R328. -/
def State.mxCheck (s : State) (o : MxOp) (j : MxJob) : EM Unit :=
  let es := s.jobEntries o j
  let have_ := es.filter (· < 16384)
  let ent (w : Nat) : WbEntry := (s.wbEnt s.cur.core w).getD ⟨0, [], 0, 0, 0, 0, false, 0, false⟩
  let b := s.epSet o.ep
  if !s.tileOwned s.cur.core s.cur.ent.cid j.tile then mxFault 17
  else if have_.any fun w => (s.wbEnt s.cur.core w).isNone then mxFault 18
  else if have_.any fun w => (ent w).ctx != s.cur.ent.ctx then mxFault 19
  else if es.length != have_.length then mxFault 20
  else if (match o.bp with | some p => es.any fun w => (ent w).fmt != 10 || geoPlanes (ent w).geo < p | none => false) then mxFault 20
  else if (lookupT s.ec.epi o.ep).isNone || (o.ep != 0 && epAct b == 2 && (lookupT s.ec.lut (epTbl b)).isNone) then mxFault 21
  else
    match s.statusCheck b with
    | .error e => .error e
    | .ok _ =>
      if o.ep != 0 && 65536 < j.out + (j.rows - 1) * epPitch b + 8 * (epType b).bytes then mxFault 23 else .ok ()

/-- The checks of every tile that has rows. -/
def State.mxChecks (s : State) (o : MxOp) : List MxJob → EM Unit
  | [] => .ok ()
  | j :: js =>
    if j.rows == 0 then s.mxChecks o js
    else match s.mxCheck o j with | .error e => .error e | .ok _ => s.mxChecks o js

/-- The flags ORed into the status word of the set (R332). -/
def State.orStatus (s : State) (b : List Byte) (f : Flags) : EM State :=
  if !epSten b then .ok s
  else
    match eRead s s.eng (alBase + epStAddr b) 4 with
    | .error e => .error e
    | .ok w => eWrite s s.eng (alBase + epStAddr b) (leBytes 4 (leNat w ||| f.toNat))

/-- SKIPPED written at completion (R334). -/
def State.putSkipped (s : State) : Option Nat → EM State
  | none => .ok s
  | some k => eWrite s s.eng (s.cur.ent.sc0.toNat + 4) (leBytes 4 k)

/-- A command goes on from MX_PROG when it names the command (R329, R378). -/
def Cont.mxResumes (c : Cont) (num : Nat) : Bool := bit c.mxProg 20 && bits c.mxProg 47 32 == num % 65536

/-- A step of the acting command ends in state `s`, with MX_PROG as given. -/
def State.mxGoesOn (s : State) (p : Nat) : ERes := ⟨s.setEc { s.ec with mxProg := p }, 0, p % 2 ^ 32, some .step⟩

/-- MX_PROG and what stands with it, cleared as the acting command completes. -/
def State.mxEnds (s : State) : State := s.setEc { s.ec with mxProg := 0, mxTab := [], mxFlags := 0 }

/-- The multiply takes up the first tile from group `g` on that has rows, cleared under ZA; with none left the flags go to the
status word and the command completes (R328, R332, R334). -/
def State.mxTake (s : State) (o : MxOp) (js : List MxJob) (g : Nat) (skipped : Option Nat) : ERes :=
  match nextJob (js.drop g) g with
  | some (g, j) =>
    (if o.za then s.setTile s.cur.core j.tile (List.replicate (32 * j.rows) 0) else s).mxGoesOn (progAt s.cur.ent.num g 0 false)
  | none =>
    match s.orStatus (s.epSet o.ep) s.ec.mxFlags with
    | .error e => ⟨s, 0, s.ec.mxProg % 2 ^ 32, some e⟩
    | .ok t =>
      match t.putSkipped skipped with
      | .error e => ⟨s, 0, s.ec.mxProg % 2 ^ 32, some e⟩
      | .ok t => .done t.mxEnds 0

/-- One step of a multiply (R328, R329): its checks, a chunk of a tile, the epilogue of a tile, or the end of a tile. -/
def State.mxRes (s : State) (o : MxOp) (js : List MxJob) (skipped : Option Nat) : ERes :=
  let num := s.cur.ent.num
  let p := s.ec.mxProg
  if !s.ec.mxResumes num then
    match s.mxChecks o js with
    | .error e => .refuse s e
    | .ok _ => (s.setEc { s.ec with mxFlags := fNone }).mxTake o js 0 skipped
  else
    let g := bits p 13 8
    let z := bits p 18 14
    match js[g]? with
    | none => .refuse s .wait
    | some j =>
      let keep (t : State) (f : Flags) : State := t.setEc { t.ec with mxFlags := t.ec.mxFlags ||| f }
      if z < o.nk then
        if s.mxStalled o j z then ⟨s, 0, p % 2 ^ 32, some .wait⟩
        else
          let (t, f) := s.mxStep o j z
          (keep t f).mxGoesOn (progAt num g (z + 1) false)
      else if o.ep != 0 && !bit p 19 then
        let (t, f) := s.epilogue o j
        (keep t f).mxGoesOn (progAt num g z true)
      else s.mxTake o js (g + 1) skipped

/-- The accumulator tile that a word names (R323). -/
def State.mxTile (s : State) (m : Mxt) : Nat :=
  if m.cx then bits s.cur.ent.sc1.toNat 9 0 else s.cur.ent.cb + m.ct.toNat

/-- What a word of one tile does, and its tile. -/
def State.mxOneOp (s : State) (t : MxT) (bp : Option Nat) (m : Mxt) : MxOp × List MxJob :=
  (⟨t, bp, m.nk1.toNat + 1, m.ep.toNat, m.za⟩,
   [⟨bits s.cur.ent.sc0.toNat 13 0, m.ma.toNat, 16, s.mxTile m, bits s.cur.ent.sc1.toNat 31 16⟩])

/-- A multiply of one tile. -/
def State.mxOne (s : State) (t : MxT) (bp : Option Nat) (m : Mxt) : ERes :=
  let (o, js) := s.mxOneOp t bp m
  s.mxRes o js none

/-- The type of tmma with the same result as a tmma.sp (R325). -/
def spType : MspT → MxT | .i8 => .i8 | .u8 => .u8 | .e4m3 => .e4m3 | .e5m2 => .e5m2

/-! ## Groups (R334) -/

/-- Group `g` of a table is malformed for a word: its own fields, then the limits of R327. -/
def grpBad (o : MxOp) (base : Nat) (b : List Byte) : Bool :=
  let rows := fieldAt b 3 1
  let ma := fieldAt b 2 1
  let w := fieldAt b 0 2
  let n := if o.t == .bs8 then 4 * o.nk + 4 else 4 * o.nk
  let out := fieldAt b 6 2
  rows != 0 &&
    (16 < rows || 15 < ma || 16384 ≤ w || 1024 ≤ fieldAt b 4 2 || !zeroAt b 8 8 || 1023 < base + fieldAt b 4 2 ||
      15 < ma + o.nk - (if o.t == .bs8 then 0 else 1) || 16384 < w + n || (if o.ep == 0 then out != 0 else out % 4 != 0))

/-- The tile job of a group record. -/
def grpJob (base : Nat) (b : List Byte) : MxJob :=
  ⟨fieldAt b 0 2, fieldAt b 2 1, fieldAt b 3 1, base + fieldAt b 4 2, fieldAt b 6 2⟩

/-- The tiles of a grouped multiply, from the records of its table. -/
def State.mxGroups (s : State) (o : MxOp) (m : Mxt) (gs : List (List Byte)) : ERes :=
  let js := gs.map (grpJob (s.mxTile m))
  s.mxRes o js (some (js.filter fun j => j.rows == 0).length)

/-- A grouped multiply: its table is read once, when it starts, and kept. -/
def State.mxGroup (s : State) (t : MxT) (m : Mxt) : ERes :=
  let o : MxOp := ⟨t, none, m.nk1.toNat + 1, m.ep.toNat, m.za⟩
  let a := s.cur.ent.sc0.toNat
  if s.ec.mxResumes s.cur.ent.num then s.mxGroups o m (chunksOf 16 (s.ec.mxTab.length / 16) s.ec.mxTab)
  else
    match eRead s s.eng a 16 with
    | .error e => .refuse s e
    | .ok hd =>
      let ng := fieldAt hd 0 1
      if ng == 0 || 64 < ng || !zeroAt hd 1 3 || !zeroAt hd 8 8 then .refuse s (.fault 24 0 none)
      else
        match eRead s s.eng (a + 16) (16 * ng) with
        | .error e => .refuse s e
        | .ok bs =>
          let gs := chunksOf 16 ng bs
          if gs.any (grpBad o (s.mxTile m)) then .refuse s (.fault 24 0 none)
          else
            match liftE (plan s ⟨s.eng, .engWrite, a + 4, 4, false, true⟩ anyFmt) with
            | .error e => .refuse s e
            | .ok _ => (s.setEc { s.ec with mxTab := bs }).mxGroups o m gs

/-! ## Meanings of the multiplies -/

/-- What a multiply word comes to. -/
def mxWord (i : Instr) (s : State) : Option ERes :=
  match i with
  | .tmma _ t m => some (s.mxOne t none m)
  | .tmmaSp _ t m => some (s.mxOne (spType t) none m)
  | .tmmaBp _ p m => some (s.mxOne .i8 (some p.toNat) m)
  | .tmmaGrp _ t m => some (s.mxGroup t m)
  | _ => none

/-- A multiply word performed. -/
def State.mxExec (s : State) (i : Instr) : Out :=
  match mxWord i s with
  | some r => s.engRun 1 r
  | none => .next s

def execTmma (h : Hdr) (t : MxT) (m : Mxt) (s : State) : Out := s.mxExec (.tmma h t m)
/-- tmma.sp: the result of tmma (R325). -/
def execTmmaSp (h : Hdr) (t : MspT) (m : Mxt) (s : State) : Out := s.mxExec (.tmmaSp h t m)
def execTmmaBp (h : Hdr) (planes : BitVec 4) (m : Mxt) (s : State) : Out := s.mxExec (.tmmaBp h planes m)
def execTmmaGrp (h : Hdr) (t : MxT) (m : Mxt) (s : State) : Out := s.mxExec (.tmmaGrp h t m)

/-! ## Accumulator moves (R335) -/

/-- MX_PROG of a move with `n` tiles done (R329). -/
def moveProg (num n : Nat) : Nat := n + 2 ^ 20 + num % 65536 * 2 ^ 32

/-- One step of a move: its check before the first tile, else ACC_RANGE; then one tile, by `f`; the last completes it (R335). -/
def State.accMove (s : State) (ct n : Nat) (f : State → Nat → State) : Out :=
  let t := s.cur.ent.cb + ct
  let go := s.ec.mxResumes s.cur.ent.num
  let i := if go then bits s.ec.mxProg 7 0 else 0
  s.engRun 1 (
    if !go && !(List.range n).all (fun i => s.tileOwned s.cur.core s.cur.ent.cid (t + i)) then .refuse s (.fault 17 0 none)
    else if i + 1 < n then (f s i).mxGoesOn (moveProg s.cur.ent.num (i + 1))
    else .done (f s i).mxEnds 0)

/-- Byte order of a transposed tile: the element at 64c + 4r is (r, c). -/
def transposed (bs : List Byte) : List Byte :=
  (List.range 8).flatMap fun c => (List.range 16).flatMap fun r => (bs.drop (4 * (8 * r + c))).take 4
/-- The inverse of `transposed`. -/
def untransposed (bs : List Byte) : List Byte :=
  (List.range 16).flatMap fun r => (List.range 8).flatMap fun c => (bs.drop (64 * c + 4 * r)).take 4

/-- Register-space base of a move, and tile `i` of it. -/
def State.mxaReg (s : State) (m : Mxa) (i : Nat) : Nat := s.cur.ent.mb + 2048 * m.ma.toNat + 512 * i
def State.mxaTile (s : State) (ct i : Nat) : Nat := s.cur.ent.cb + ct + i

def execTaccClr (_h : Hdr) (ct n1 : BitVec 8) (s : State) : Out :=
  s.accMove ct.toNat (n1.toNat + 1) fun s i => s.setTile s.cur.core (s.mxaTile ct.toNat i) (List.replicate 512 0)
def execTaccRd (_h : Hdr) (m : Mxa) (s : State) : Out :=
  s.accMove m.ct.toNat (m.n1.toNat + 1) fun s i => s.rsPut (s.mxaReg m i) (s.tile s.cur.core (s.mxaTile m.ct.toNat i))
def execTaccWr (_h : Hdr) (m : Mxa) (s : State) : Out :=
  s.accMove m.ct.toNat (m.n1.toNat + 1) fun s i => s.setTile s.cur.core (s.mxaTile m.ct.toNat i) (s.rsGet (s.mxaReg m i) 512)
def execTtr (_h : Hdr) (m : Mxa) (s : State) : Out :=
  s.accMove m.ct.toNat (m.n1.toNat + 1) fun s i => s.rsPut (s.mxaReg m i) (transposed (s.tile s.cur.core (s.mxaTile m.ct.toNat i)))
def execTmov (_h : Hdr) (m : Mxa) (s : State) : Out :=
  s.accMove m.ct.toNat (m.n1.toNat + 1) fun s i =>
    s.setTile s.cur.core (s.mxaTile m.ct.toNat i) (untransposed (s.rsGet (s.mxaReg m i) 512))

/-! ## Loads of sets and tables, and the weight buffer (R330, R333, R336) -/

/-- A record of `n` bytes at sc0 put into the continuation by `f`, which refuses a malformed one. -/
def State.mxLoad (s : State) (n : Nat) (f : List Byte → Except Nat Cont) : Out :=
  s.engRun 1 (match eRead s s.eng s.cur.ent.sc0.toNat n with
    | .error e => .refuse s e
    | .ok bs => match f bs with
      | .error c => .refuse s (.fault c 0 none)
      | .ok c => .done (s.setEc c) 0)

def execTepiSet (_h : Hdr) (ix _cl : BitVec 4) (s : State) : Out :=
  s.mxLoad 128 fun bs => if epBad ix.toNat bs then .error 22 else .ok { s.ec with epi := tset s.ec.epi ix.toNat bs }
def execTlutLd (_h : Hdr) (ix _cl : BitVec 4) (s : State) : Out :=
  s.mxLoad 256 fun bs => .ok { s.ec with lut := tset s.ec.lut ix.toNat bs }

/-- wb.inv: the entries of the range that were loaded in the continuation's context. -/
def execWbInv (_h : Hdr) (s : State) : Out :=
  let lo := s.cur.ent.sc0.toNat
  let hi := lo + s.cur.ent.sc1.toNat
  let c := s.core s.cur.core
  let gone (x : Nat × WbEntry) : Bool := lo ≤ x.1 && x.1 < hi && x.2.ctx == s.cur.ent.ctx
  s.engRun 1 (.done (s.setCore s.cur.core { c with wb := c.wb.filter fun x => !gone x }) 0)

/-! ## Reload of a weight block (R74, R357) -/

/-- The multiply at the head of the M queue fetches directory entry `entry` now: it has begun, and its next chunk reads it (R74). -/
def State.mxFetches (s : State) (i : Instr) (entry : Nat) : Bool :=
  let p := s.ec.mxProg
  let o? : Option (MxOp × List MxJob) := match i with
    | .tmma _ t m => some (s.mxOneOp t none m)
    | .tmmaSp _ t m => some (s.mxOneOp (spType t) none m)
    | .tmmaBp _ b m => some (s.mxOneOp .i8 (some b.toNat) m)
    | .tmmaGrp _ t m => some (⟨t, none, m.nk1.toNat + 1, m.ep.toNat, m.za⟩,
        (chunksOf 16 (s.ec.mxTab.length / 16) s.ec.mxTab).map (grpJob (s.mxTile m)))
    | _ => none
  match o? with
  | some (o, js) =>
    s.ec.mxResumes s.cur.ent.num && bits p 18 14 < o.nk &&
      (match js[bits p 13 8]? with | some j => (s.chunkEntries o j (bits p 18 14)).contains entry | none => false)
  | none => false

/-- The requester of a reload (R74). -/
def reloadAgent (core : Nat) (q : QEntry) (e : WbEntry) : Agent := { engAgent core 1 q with mode := .s, ctx := e.ctx, reach := engReach 0 }

/-- weightBlockReload: the fetch of the multiply at the head of the queue has found an error; the block is read again from its
recorded address in its recorded context, in S mode and with the reach of the VM engine, of which R74 says nothing (DESIGN
CHOICE, log 77); a reload that faults makes the multiply fault with CAUSE MEM_UE. A block that has come to need more sectors than are
free is put all the same, of which R74 does not speak either (DESIGN CHOICE, log 77). -/
def execWeightBlockReload (core entry : Nat) (s : State) : Out :=
  match s.wbEnt core entry, headWord ((s.core core).queues.getD 1 []) with
  | some e, some q =>
    let t := { s with cur := ⟨.engine core 1, 2 * core, core, q, false⟩ }
    match decodeEngine q.word with
    | .error _ => .fault .notEnabled
    | .ok i =>
      if !ueIn s.ue (wbLoc core entry) 256 || !t.mxFetches i entry then .fault .notEnabled
      else
        match weightBlock s (reloadAgent core q e) e.va e.pt e.pen e.ro with
        | .ok n => .next ((s.putWeight core entry n).tookWalk (.engine core 1))
        | .error (.miss wh c v) => .next (s.missed wh c v)
        | .error x =>
          let m : MemFault := match x with
            | .fault _ _ (some f) => { f with cause := .memUe, detail := e.va }
            | _ => ⟨e.va, .memUe, .engRead, 7, false, 2, core, e.ctx, 0, e.va⟩
          .next (t.engFault 1 1 0 (t.ec.mxProg % 2 ^ 32) 0 (some m))
  | _, _ => .fault .notEnabled

end Sys2Proof.Machine
end

