-- ==== Sys2Proof/Machine/Signature.lean ====
section
/-! DEFINITION. The signature unit (R337 to R343). -/

namespace Sys2Proof.Machine

/-! ## Configuration (R337) -/

def sgHb (b : List Byte) : Nat := fieldAt b 0 1
def sgVm (b : List Byte) : Nat := fieldAt b 1 1
def sgRepr (b : List Byte) : Nat := fieldAt b 2 1
def sgKch (b : List Byte) : Nat := bits (fieldAt b 3 1) 3 0 + 1
def sgCompact (b : List Byte) : Bool := bit (fieldAt b 3 1) 4
def sgRepOnly (b : List Byte) : Bool := bit (fieldAt b 3 1) 5
def sgVlim (b : List Byte) : Fv := fmtF32.dec (fieldAt b 4 4)
def sgSeed (b : List Byte) : Nat := fieldAt b 8 8
def sgRp (b : List Byte) : Nat := fieldAt b 16 4
def sgSb (b : List Byte) : Nat := fieldAt b 20 2
def sgSp (b : List Byte) : Nat := fieldAt b 22 2
def sgDp (b : List Byte) : Nat := fieldAt b 24 4

/-- A malformed configuration. -/
def sgBad (b : List Byte) : Bool :=
  let v := sgVlim b
  sgHb b < 4 || 16 < sgHb b || 2 < sgVm b || 2 < sgRepr b || bits (fieldAt b 3 1) 7 6 != 0 ||
    !v.isFin || (v.isNeg && !v.isZero) || sgRp b % 4 != 0 || sgRp b < 12 ||
    sgSb b % 4 != 0 || sgSb b < 4 || 2048 < sgSb b || sgSp b % 4 != 0 || sgSp b < sgSb b ||
    sgDp b % 4 != 0 || sgDp b < sgSb b || !zeroAt b 28 36

/-- A fault of the signature unit. -/
def sgFault {α : Type} (c : Nat) : EM α := .error (.fault c 0 none)

/-- sig.cfg. -/
def execSigCfg (_h : Hdr) (_cl : BitVec 4) (s : State) : Out :=
  let a := s.cur.ent.sc0.toNat
  s.engRun 4 (if !inSlices a then .refuse s (.fault 25 0 none)
    else match eRead s s.eng a 64 with
      | .error e => .refuse s e
      | .ok b => if sgBad b then .refuse s (.fault 25 0 none) else .done (s.setEc { s.ec with sigCfg := b }) 0)

/-! ## Words in general (R338) -/

/-- A word that may read rows, with its work area at `wa`: the configuration. -/
def State.sgOpen (s : State) (rows : Bool) (wa : Nat) : EM (List Byte) :=
  let b := s.ec.sigCfg
  if b.isEmpty || (rows && sgRp b < 128 * sgKch b) then sgFault 25
  else if wa % 64 != 0 || !inSlices wa then sgFault 27
  else .ok b

/-- The header of a work area whose state is among `sts` and whose N is `n`. -/
def State.sgHead (s : State) (wa n : Nat) (sts : List Nat) : EM (List Byte) :=
  match eRead s s.eng wa 64 with
  | .error e => .error e
  | .ok h => if sts.contains (fieldAt h 0 1) && fieldAt h 2 2 == n then .ok h else sgFault 26

/-- Sixteen-bit entries of a work-area table. -/
def State.sgTable (s : State) (a n : Nat) : EM (List Nat) := (readRange s s.eng a (2 * n)).map (elemsOf 2 n)

/-- The address of row `r` from `a` with pitch `p`. -/
def rowAt (a p r : Nat) : Nat := addr64 (a + p * r : Nat)

/-- The elements of rows 0 to n - 1. -/
def State.sgRows (s : State) (b : List Byte) (t : ElemT) (n : Nat) : EM (List (List Fv)) :=
  mapE (fun r => (readRange s s.eng (rowAt s.cur.ent.sc0.toNat (sgRp b) r) (128 * sgKch b)).map fun bs =>
    (elemsOf t.bytes (128 * sgKch b / t.bytes) bs).map t.val) (List.range n)

/-- The coordinates of keys 0 to n - 1 (R340). -/
def State.sgKeys (s : State) (b : List Byte) (n : Nat) : EM (List (List Nat)) :=
  mapE (fun r => (readRange s s.eng (rowAt s.cur.ent.sc0.toNat (sgRp b) r) 12).map (elemsOf 4 3)) (List.range n)

/-- A word of the unit that performs all or nothing, with `n` rows and bytes transferred. -/
def State.sgRun (s : State) (tx : Nat) (r : EM State) : Out := s.engRun 4 (.ofEM s tx r)

/-! ## Signatures (R339, R340) -/

/-- mix64. -/
def mix64 (z : Word) : Word :=
  let z := (z ^^^ (z >>> 30)) * 0xBF58476D1CE4E5B9
  let z := (z ^^^ (z >>> 27)) * 0x94D049BB133111EB
  z ^^^ (z >>> 31)

/-- proj(i, k) is -1. -/
def projNeg (seed i k : Nat) : Bool := (mix64 (BitVec.ofNat 64 (seed + 2 ^ 32 * i + k))).getLsbD 63

/-- The signature of a row of finite elements. -/
def sigOfRow (seed b : Nat) (xs : List Fv) : Nat :=
  (List.range b).foldl (fun a i =>
    let ds := xs.zipIdx.map fun x => if projNeg seed i x.2 then x.1.dy.neg else x.1.dy
    if Dy.zero.lt (dySum ds) then a + 2 ^ i else a) 0

/-- The work area after a word that makes signatures: STATE, ET, N, B, NH and SIG. -/
def State.putSigs (s : State) (wa st et n b : Nat) (nh : List Bool) (sigs : List Nat) : EM State :=
  let ag := s.eng
  match eWrite s ag wa (leBytes 1 st ++ leBytes 1 et ++ leBytes 2 n) with
  | .error e => .error e
  | .ok s =>
    match eWrite s ag (wa + 6) (leBytes 1 b) with
    | .error e => .error e
    | .ok s =>
      match eWrite s ag (wa + 16) (packBits 32 nh) with
      | .error e => .error e
      | .ok s => writeRange s ag (wa + 64) (sigs.flatMap (leBytes 2))

/-- sig.hash (R339). -/
def execSigHash (_h : Hdr) (t : SigT) (m : Sgx) (s : State) : Out :=
  let wa := s.cur.ent.sc1.toNat
  let n := m.n1.toNat + 1
  s.sgRun 0 (match s.sgOpen true wa with
    | .error e => .error e
    | .ok b =>
      match s.sgRows b t.elem n with
      | .error e => .error e
      | .ok rows =>
        let nh := rows.map fun r => r.any fun v => !v.isFin
        let sigs := rows.map fun r => if r.any fun v => !v.isFin then 0 else sigOfRow (sgSeed b) (sgHb b) r
        s.putSigs wa 1 t.elem.code n (sgHb b) nh sigs)

/-- The signature of a key (R340). -/
def sigOfKey (seed b : Nat) (c : List Nat) : Nat :=
  let k := c.getD 0 0 % 2 ^ 21 + c.getD 1 0 % 2 ^ 21 * 2 ^ 21 + c.getD 2 0 % 2 ^ 21 * 2 ^ 42
  (mix64 (BitVec.ofNat 64 seed ^^^ BitVec.ofNat 64 k)).toNat % 2 ^ b

/-- sig.key (R340). -/
def execSigKey (_h : Hdr) (m : Sgx) (s : State) : Out :=
  let wa := s.cur.ent.sc1.toNat
  let n := m.n1.toNat + 1
  s.sgRun 0 (match s.sgOpen false wa with
    | .error e => .error e
    | .ok b =>
      match s.sgKeys b n with
      | .error e => .error e
      | .ok ks => s.putSigs wa 2 5 n (sgHb b) [] (ks.map (sigOfKey (sgSeed b) (sgHb b))))

/-! ## Buckets (R341) -/

/-- A bucket: its representative and its rows, ascending. -/
structure Bucket where
  rep  : Nat
  rows : List Nat
  deriving DecidableEq, Repr, Inhabited

/-- Row `r` put into the first bucket with its key; buckets carry their key, none for a row alone. -/
def joinBucket {α : Type} [DecidableEq α] (k : Option α) (r : Nat) : List (Option α × List Nat) → List (Option α × List Nat)
  | [] => [(k, [r])]
  | (q, rs) :: bs => if k.isSome && k = q then (q, rs ++ [r]) :: bs else (q, rs) :: joinBucket k r bs

/-- Rows with equal keys together, in ascending order of lowest row. -/
def bucketsBy {α : Type} [DecidableEq α] (ks : List (Option α)) : List (List Nat) :=
  (ks.zipIdx.foldl (fun bs x => joinBucket x.1 x.2 bs) []).map Prod.snd

/-- The exact value of an element; one that is not finite where its row carries no NH has a free value. -/
def rowVal (free : Word) (v : Fv) : Dy := if v.isFin then v.dy else ⟨free.toInt, 0⟩

/-- The row of a list with the largest measure, the first among equals. -/
def bestRow (better : Dy → Dy → Bool) (f : Nat → Dy) : List Nat → Nat → Nat
  | [], b => b
  | r :: rs, b => bestRow better f rs (if better (f r) (f b) then r else b)

/-- The representative of a bucket (R341 step 2). -/
def repOf (rule : Nat) (x : Nat → List Dy) (rows : List Nat) : Nat :=
  let first := rows.headD 0
  match rule with
  | 1 => bestRow (fun a b => b.lt a) (fun r => dySum ((x r).map Dy.abs)) rows first
  | 2 =>
    let n : Int := (rows.length : Nat)
    let tot := rows.foldl (fun (a : List Dy) r => if a.isEmpty then x r else List.zipWith Dy.add a (x r)) []
    bestRow (fun a b => a.lt b) (fun r => dySum (List.zipWith (fun v m => (Dy.sub ⟨n * v.m, v.e⟩ m).abs) (x r) tot)) rows first
  | _ => first

/-- The largest of a list of magnitudes. -/
def dyMax (xs : List Dy) : Dy := xs.foldl (fun a b => if a.lt b then b else a) Dy.zero

/-- Rows beyond the verify limit leave their bucket (R341 step 3). -/
def verifyBucket (vm : Nat) (lim : Dy) (x : Nat → List Dy) (b : Bucket) : List Bucket :=
  let dist (r : Nat) : Dy :=
    let ds := List.zipWith (fun a c => (Dy.sub a c).abs) (x r) (x b.rep)
    if vm == 1 then dyMax ds else dySum ds
  let out := b.rows.filter fun r => r != b.rep && lim.lt (dist r)
  ⟨b.rep, b.rows.filter fun r => !out.contains r⟩ :: out.map fun r => ⟨r, [r]⟩

/-- Put a bucket into ascending order of lowest row. -/
def insertBucket (b : Bucket) : List Bucket → List Bucket
  | [] => [b]
  | c :: cs => if b.rows.headD 0 < c.rows.headD 0 then b :: c :: cs else c :: insertBucket b cs

/-- The buckets of a hashed work area (R341). -/
def hashedBuckets (b : List Byte) (nh : List Bool) (sigs : List Nat) (x : Nat → List Dy) : List Bucket :=
  let ks := List.zipWith (fun h g => if h then none else some g) nh sigs
  let bs := (bucketsBy ks).map fun rs => (⟨repOf (sgRepr b) x rs, rs⟩ : Bucket)
  let bs := if sgVm b == 0 then bs else bs.flatMap (verifyBucket (sgVm b) (sgVlim b).dy x)
  bs.foldl (fun a c => insertBucket c a) []

/-- MAP, REP, NB and STATE written (R341 step 5). -/
def State.putBuckets (s : State) (wa n : Nat) (bs : List Bucket) : EM State :=
  let ag := s.eng
  let map := (List.range n).map fun r => bs.findIdx fun b => b.rows.contains r
  match eWrite s ag wa (leBytes 1 3) with
  | .error e => .error e
  | .ok s =>
    match eWrite s ag (wa + 4) (leBytes 2 bs.length) with
    | .error e => .error e
    | .ok s =>
      match writeRange s ag (wa + 576) (map.flatMap (leBytes 2)) with
      | .error e => .error e
      | .ok s => writeRange s ag (wa + 1088) (bs.flatMap fun b => leBytes 2 b.rep)

/-- Representatives laid out for tmma, with the rows up to the end of the last block zero (R341). -/
def State.compact (s : State) (ma kch : Nat) (bs : List Bucket) (row : Nat → List Byte) : State :=
  (List.range (roundUp bs.length 16)).foldl (fun s k =>
    let y := match bs[k]? with | some b => row b.rep | none => List.replicate (128 * kch) 0
    (List.range kch).foldl (fun s z =>
      s.rsPut (s.cur.ent.mb + 2048 * (ma + k / 16 * kch + z) + 128 * (k % 16)) ((y.drop (128 * z)).take 128)) s) s

/-- sig.group in state KEYED. -/
def State.groupKeys (s : State) (b : List Byte) (wa n : Nat) : EM State :=
  match s.sgKeys b n with
  | .error e => .error e
  | .ok ks => s.putBuckets wa n ((bucketsBy (ks.map some)).map fun rs => ⟨rs.headD 0, rs⟩)

/-- sig.group in state HASHED. -/
def State.groupRows (s : State) (b h : List Byte) (wa ma n : Nat) : EM State :=
  match elemT? (fieldAt h 1 1) with
  | none => sgFault 26
  | some t =>
    match s.sgTable (wa + 64) n with
    | .error e => .error e
    | .ok sigs =>
      match s.sgRows b t n with
      | .error e => .error e
      | .ok rows =>
        let nh := (List.range n).map fun r => bit (leNat ((h.drop 16).take 32)) r
        let open_ := (List.zipWith (fun r q => !q && r.any fun v => !v.isFin) rows nh).any id
        let (free, s) := if open_ then s.draw else (0, s)
        let x (r : Nat) : List Dy := (rows.getD r []).map (rowVal free)
        let bs := hashedBuckets b nh sigs x
        let k := sgKch b
        if sgCompact b && 15 < ma + (bs.length - 1) / 16 * k + (k - 1) then sgFault 27
        else
          match s.putBuckets wa n bs with
          | .error e => .error e
          | .ok u =>
            if !sgCompact b then .ok u
            else
              match mapE (fun c : Bucket => readRange s s.eng (rowAt s.cur.ent.sc0.toNat (sgRp b) c.rep) (128 * k)) bs with
              | .error e => .error e
              | .ok ys =>
                let row (r : Nat) : List Byte := ys.getD (bs.findIdx fun c => c.rep == r) []
                .ok (u.compact ma k bs row)

/-- sig.group (R341). -/
def execSigGroup (_h : Hdr) (m : Sgx) (s : State) : Out :=
  let wa := s.cur.ent.sc1.toNat
  let n := m.n1.toNat + 1
  s.sgRun 0 (match s.sgOpen false wa with
    | .error e => .error e
    | .ok b =>
      match s.sgHead wa n [1, 2] with
      | .error e => .error e
      | .ok h =>
        if fieldAt h 0 1 == 2 then s.groupKeys b wa n
        else if sgRp b < 128 * sgKch b then sgFault 25
        else s.groupRows b h wa m.ma.toNat n)

/-! ## Results (R342, R343) -/

/-- Rows of SB bytes written to the destination in ascending order. -/
def State.putRows (s : State) (b : List Byte) : List (List Byte) → Nat → EM State
  | [], _ => .ok s
  | y :: ys, r =>
    match writeRange s s.eng (rowAt s.cur.ent.sc0.toNat (sgDp b) r) y with
    | .error e => .error e
    | .ok s => s.putRows b ys (r + 1)

/-- Source row `k` of a word with base MA lies in the m view. -/
def rowFits (b : List Byte) (ma k : Nat) : Bool := 2048 * ma + k * sgSp b + sgSb b ≤ 32768

/-- A GROUPED work area's configuration and MAP. -/
def State.grouped (s : State) (wa n : Nat) : EM (List Byte × List Nat) :=
  match s.sgOpen false wa with
  | .error e => .error e
  | .ok b =>
    match s.sgHead wa n [3] with
    | .error e => .error e
    | .ok _ => (s.sgTable (wa + 576) n).map fun t => (b, t)

/-- sig.scat and sig.bexp: row r from source row MAP_r, or zeros where `keep` is false. -/
def State.sgSpread (s : State) (m : Sgx) (only : Bool) : EM State :=
  let wa := s.cur.ent.sc1.toNat
  match s.grouped wa (m.n1.toNat + 1) with
  | .error e => .error e
  | .ok (b, map) =>
    match (if only && sgRepOnly b then (s.sgTable (wa + 1088) 256).map some else .ok none) with
    | .error e => .error e
    | .ok reps =>
      if reps.isSome && map.any (fun k => 256 ≤ k) then sgFault 26
      else
        let keep (r k : Nat) : Bool := match reps with | some t => t.getD k 0 == r | none => true
        if map.zipIdx.any fun x => keep x.2 x.1 && !rowFits b m.ma.toNat x.1 then sgFault 27
        else
          s.putRows b (map.zipIdx.map fun x =>
            if keep x.2 x.1 then s.rsGet (s.cur.ent.mb + 2048 * m.ma.toNat + x.1 * sgSp b) (sgSb b)
            else List.replicate (sgSb b) 0) 0

def execSigScat (_h : Hdr) (m : Sgx) (s : State) : Out :=
  s.sgRun ((m.n1.toNat + 1) * sgSb s.ec.sigCfg) (s.sgSpread m false)
def execSigBexp (_h : Hdr) (m : Sgx) (s : State) : Out :=
  s.sgRun ((m.n1.toNat + 1) * sgSb s.ec.sigCfg) (s.sgSpread m true)

/-- Elements of a row of type `t`. -/
def rowElems (b : List Byte) (t : FbT) : Nat := sgSb b / t.elem.bytes

/-- The sum of an element and one of dY, rounded into the type, with its flags. -/
def bredSum (t : FbT) (rm : Rm) (old y : Nat) : Nat × Flags :=
  let (r, f0) := fvAdd rm (t.fmt.dec old) (t.fmt.dec y)
  let (x, f1) := t.fmt.round rm false r
  (x, f0 ||| f1)

/-- Update `k` of a sig.bred with MAP `map`, row by row and in a row element by element: one read-modify-write of one sum (R145); the
state and the flags. -/
def State.bredAt (s : State) (b : List Byte) (t : FbT) (ma : Nat) (map : List Nat) (k : Nat) : EM (State × Flags) :=
  let e := t.elem.bytes
  let r := k / rowElems b t
  let o := k % rowElems b t * e
  let a := rowAt s.cur.ent.sc1.toNat (sgDp b) (nth map r) + o
  match readRange s s.eng a e with
  | .error x => .error x
  | .ok old =>
    let (x, f) := bredSum t s.fp.rm (leNat old) (leNat (s.rsGet (s.cur.ent.mb + 2048 * ma + r * sgSp b + o) e))
    (writeRange s s.eng a (leBytes e x)).map fun u => (u, f)

/-- Every access to the sums that a sig.bred will make is allowed (R338): each row's bytes are read and written back. -/
def State.bredCheck (s : State) (b : List Byte) : List Nat → EM Unit
  | [] => .ok ()
  | k :: ks =>
    let a := rowAt s.cur.ent.sc1.toNat (sgDp b) k
    match readRange s s.eng a (sgSb b) with
    | .error x => .error x
    | .ok old => match writeRange s s.eng a old with | .error x => .error x | .ok _ => s.bredCheck b ks

/-- The start of a sig.bred, which checks all that it will do: the rows before any access, then MAP and the sums (R338, R343). -/
def State.bredStart (s : State) (m : Sgx) : EM BredRun :=
  match s.sgOpen false s.cur.ent.sc0.toNat with
  | .error e => .error e
  | .ok b =>
    if !rowFits b m.ma.toNat m.n1.toNat then sgFault 27
    else
      match s.grouped s.cur.ent.sc0.toNat (m.n1.toNat + 1) with
      | .error e => .error e
      | .ok (_, map) => (s.bredCheck b map).map fun _ => ⟨map, 0, fNone⟩

/-- sig.bred (R343): its start, then one update a turn, so that two unordered ones interleave element by element (R145, R432). -/
def execSigBred (_h : Hdr) (t : FbT) (m : Sgx) (s : State) : Out :=
  let b := s.ec.sigCfg
  s.engRun 4 (match s.ec.bred with
    | none =>
      match s.bredStart m with
      | .error e => .refuse s e
      | .ok r => ⟨s.setEc { s.ec with bred := some r }, 0, 0, some .step⟩
    | some r =>
      match s.bredAt b t m.ma.toNat r.map r.done with
      | .error e => ⟨s.setEc { s.ec with bred := none }, 0, 0, some e⟩
      | .ok (u, f) =>
        if r.done + 1 < (m.n1.toNat + 1) * rowElems b t then ⟨u.setEc { u.ec with bred := some { r with done := r.done + 1, flags := r.flags ||| f } }, 0, 0, some .step⟩
        else .done ((u.setEc { u.ec with bred := none }).raise s.cur.ent.cid (r.flags ||| f)) ((m.n1.toNat + 1) * sgSb b))

end Sys2Proof.Machine
end

