-- ==== Sys2Proof/Machine/Copy.lean ====
section
/-! DEFINITION. The copy engine (R350 to R357) but for the transform chains, and the words of Owl (R364 to
R366). -/

namespace Sys2Proof.Machine

/-! ## Byte copies (R350, R351) -/

/-- An address as a location: the alias names the core's own slice (R19). -/
def locOf (core a : Nat) : Nat := if alBase ≤ a && a < alBase + 0x400000 then sliceLoc core (a - alBase) else a

/-- The locations that a range names: its part below the alias, its part in the alias, and what lies beyond (R19). -/
def locSpans (core a n : Nat) : Spans :=
  let e := a + n
  let lo := max a alBase
  let hi := max a (alBase + 0x400000)
  [(a, min e alBase - a), (sliceLoc core (lo - alBase), min e (alBase + 0x400000) - lo), (hi, e - hi)].filter fun p => p.2 != 0

/-- Two ranges overlap as locations. -/
def rangesMeet (core a b n : Nat) : Bool :=
  (locSpans core a n).any fun p => (locSpans core b n).any fun q => p.1 < q.1 + q.2 && q.1 < p.1 + p.2

/-- Source pieces read until `need` bytes are at hand. -/
def fillBuf (s : State) (ag : Agent) (need : Nat) : Spans → List Byte → EM (List Byte × Spans)
  | [], b => .ok (b, [])
  | x :: xs, b =>
    if need ≤ b.length then .ok (b, x :: xs)
    else match eRead s ag x.1 x.2 with
      | .error e => .error e
      | .ok y => fillBuf s ag need xs (b ++ y)

/-- Destination pieces written one after another, each once its source bytes have been read. -/
def cpyPieces (ag : Agent) : Spans → Spans → List Byte → State → Nat → State × Nat × Option EStop
  | [], _, _, s, n => (s, n, none)
  | d :: ds, src, b, s, n =>
    match fillBuf s ag d.2 src b with
    | .error e => (s, n, some e)
    | .ok (b, src) =>
      match eWrite s ag d.1 (b.take d.2) with
      | .error e => (s, n, some e)
      | .ok s => cpyPieces ag ds src (b.drop d.2) s (n + d.2)

/-- The spans of a range. -/
def spansAt (a n : Nat) : Spans := cutSpan (n / 256 + 2) a n

/-- What a range copy comes to; PROGRESS counts destination bytes. -/
def rangeRes (r : State × Nat × Option EStop) : ERes := ⟨r.1, r.2.1, match r.2.2 with | some _ => r.2.1 | none => 0, r.2.2⟩

/-- A slab region that a read-only copy fills: core, first slab, slabs (R354). -/
structure Stage where
  core  : Nat
  first : Nat
  count : Nat
  deriving DecidableEq, Repr, Inhabited

/-- Slab `k` of core `c` is allocated to a continuation: to its context and, on its home core, its slot (R64, R354). -/
def Cont.slabMine (q : Cont) (s : State) (c k : Nat) : Bool :=
  slabOwned (s.slcOwn c k) q.ctx && q.home == some c && bits (s.slcOwn c k) 19 16 == q.slot

/-- The destination of a read-only copy of `n` bytes. A slab of another continuation of the context is SLICE_OWNER too, which R354
does not say (DESIGN CHOICE, log 79). -/
def stageAt (s : State) (ag : Agent) (va n : Nat) : EM Stage :=
  if !inSlices va || va % 4096 != 0 then .error (.fault 8 1 none)
  else
    let o := locOf ag.core va - apBase
    let k := o % 0x400000 / 4096
    let m := ceilDiv n 4096
    if 1024 < k + m then .error (.fault 8 1 none)
    else
      let c := o / 0x400000
      let q := s.cont s.cur.ent.cid
      match (List.range m).find? fun i => !q.slabMine s c (k + i) || bit (s.slcOwn c (k + i)) 9 with
      | some i => .error (memStop ag .engWrite (va + 4096 * i) (if q.slabMine s c (k + i) then .sliceRo else .sliceOwner))
      | none => .ok ⟨c, k, m⟩

/-- A read-only copy of `n` bytes from `va` on has been written: the rest of its last slab becomes zero, and its
slabs are sealed with their record (R65, R66). -/
def finishStage (s : State) (ag : Agent) (g : Stage) (va n cl : Nat) (handle : List Byte) (org : List Int) (shp : List Nat) : EM State :=
  match writeRange s ag (va + n) (List.replicate (g.count * 4096 - n) 0) with
  | .error e => .error e
  | .ok s => .ok (s.sealSlabs g.core g.first g.count (provRecord handle org shp g.count ag.ctx cl))

/-- The record of a handle (R75). -/
def Handle.bytes (h : Handle) : List Byte :=
  let str := (h.str.zipIdx.foldl (fun a x => a + wrapW 28 x.1 * 2 ^ (28 * x.2)) 0)
  leBytes 8 (h.base + h.ndim * 2 ^ 52 + h.kind * 2 ^ 56 + h.padm * 2 ^ 59 + b2n h.perm * 2 ^ 61) ++
    ((List.range 9).flatMap fun d => leBytes 2 (h.extOf d)) ++ leBytes 4 h.pad ++ leBytes 2 h.permh ++ leBytes 32 str

/-- The handle that stands for the source of a read-only cpy. -/
def cpyHandle (va e n : Nat) : Handle :=
  ⟨va, 2, 0, 0, false, [256 / e - 1, n / 256 - 1], 0, 0, [(e : Nat), 256], (0, 0)⟩

/-- A read-only cpy (R354). -/
def cpyRo (s : State) (ag : Agent) (src dst n cl : Nat) : ERes :=
  if n % 256 != 0 then .refuse s (.fault 8 1 none)
  else
    match openView s ag (cpyHandle src 1 n) with
    | .error e => .refuse s e
    | .ok v =>
      if isBlockFmt v.fmt then .refuse s (v.fmtStop .engRead)
      else
        match stageAt s ag dst n with
        | .error e => .refuse s e
        | .ok g =>
          match cpyPieces ag (spansAt dst n) (spansAt src n) [] s 0 with
          | (t, k, some e) => ⟨t, k, k, some e⟩
          | (t, _, none) =>
            match finishStage t ag g dst n cl (cpyHandle src v.e n).bytes [] [256 / v.e, n / 256] with
            | .error e => ⟨t, n, n, some e⟩
            | .ok t => .done t n

/-- cpy (R350, R354). -/
def execCpy (_h : Hdr) (len1 : BitVec 24) (cl : BitVec 4) (ro : Bool) (s : State) : Out :=
  let n := len1.toNat + 1
  let a := s.cur.ent.sc0.toNat
  let d := s.cur.ent.sc1.toNat
  s.engRun 2 (if rangesMeet s.cur.core a d n then .refuse s (.fault 3 0 none)
    else if ro then cpyRo s s.eng a d n cl.toNat
    else rangeRes (cpyPieces s.eng (spansAt d n) (spansAt a n) [] s 0))

/-- `n` bytes of the 8-byte pattern. -/
def patternBytes (p : Word) (n : Nat) : List Byte := ((List.replicate (n / 8 + 1) (leBytes 8 p.toNat)).flatten).take n

/-- cpy.fill (R351). -/
def execCpyFill (_h : Hdr) (len1 : BitVec 24) (_cl : BitVec 4) (s : State) : Out :=
  s.engRun 2 (rangeRes (writeRangeP s s.eng s.cur.ent.sc0.toNat (patternBytes s.cur.ent.sc1 (len1.toNat + 1))))

/-! ## Tile copies (R352, R353) -/

/-- The tile descriptor. -/
structure TileDesc where
  orgs  : List Int
  orgd  : List Int
  shp   : List Nat
  pflg  : Nat
  dstro : Nat
  deriving DecidableEq, Repr, Inhabited

/-- A 128-byte record read as a tile descriptor. -/
def parseTile (b : List Byte) : TileDesc :=
  ⟨(List.range 9).map fun d => sext (fieldAt b (4 * d) 4) 32, (List.range 9).map fun d => sext (fieldAt b (36 + 4 * d) 4) 32,
   (List.range 9).map fun d => fieldAt b (72 + 2 * d) 2 + 1, fieldAt b 90 2, fieldAt b 96 8⟩

/-- A descriptor that breaks the rules of R352. -/
def badTile (perm ro : Bool) (b : List Byte) : Bool :=
  let d := parseTile b
  !zeroAt b 92 4 || !zeroAt b 104 24 || 65536 < d.shp.foldl (· * ·) 1 || bits d.pflg 15 13 != 0 ||
    (!perm && d.pflg != 0) || (!ro && d.dstro != 0)

/-- Two views that move stored elements to one another: equal formats, or one of them BYTES (R352). -/
def matchViews (a b : View) : EM (View × View) :=
  if a.fmt == b.fmt then (if isBlockFmt a.fmt && a.geo != b.geo then .error (a.fmtStop .engRead) else .ok (a, b))
  else if a.fmt == 0 then .ok (a.sized b, b)
  else if b.fmt == 0 then .ok (a, b.sized a)
  else .error (a.fmtStop .engRead)

/-- A view whose dimension 0 is read through the table of handle `pt`, at `tab`. -/
def View.through (v : View) (pt : Nat) (tab : Int × Int) : View := { v with h := { v.h with perm := true, permh := pt, tab := tab } }

/-- The permutation table of cpy.perm, which must fit a handle: read once (R77, R353). -/
def permFits (s : State) (ag : Agent) (pt : Nat) (h : Handle) : EM (Int × Int) :=
  ({ h with perm := true, permh := pt } : Handle).withTab s ag |>.map Handle.tab

/-- Where the rows of a tile copy go: elements of a handle, or densely from an address (R353). -/
inductive TileDst where
  | view (v : View) (org : List Int)
  | dense (va : Nat)
  deriving DecidableEq, Repr, Inhabited

/-- Row `i` of a tile copy: the state and the bytes written. -/
def tileRow (s : State) (v : View) (rc : Option Reuse) (d : TileDesc) (dst : TileDst) (i : Nat) : EM (State × Nat) :=
  let n := d.shp.headD 1 / v.step
  match viewRow s v rc (d.orgs.headD 0) n (rowCoords (d.shp.drop 1) (d.orgs.drop 1) i) with
  | .error e => .error e
  | .ok (s, b) =>
    match dst with
    | .view w org => w.writeRow s (org.headD 0) (rowCoords (d.shp.drop 1) (org.drop 1) i) b
    | .dense va => (writeRange s v.ag (va + i * b.length) b).map fun s => (s, b.length)

/-- Rows `i`, `i + 1`, … of a tile copy; PROGRESS stands at the row that stopped. -/
def tileCopy (v : View) (rc : Option Reuse) (d : TileDesc) (dst : TileDst) : Nat → Nat → State → Nat → ERes
  | 0, _, s, tx => .done s tx
  | k + 1, i, s, tx =>
    match tileRow s v rc d dst i with
    | .error e => ⟨s, tx, i * d.shp.headD 1, some e⟩
    | .ok (s, m) => tileCopy v rc d dst k (i + 1) s (tx + m)

/-- The handle bytes of a provenance record: a copy of HS, read through PT under cpy.perm (R354). -/
def provHandle (hb : List Byte) (pt : Option Nat) : List Byte :=
  match pt with
  | none => hb
  | some p => splice (splice hb 7 (leBytes 1 (setBits (fieldAt hb 7 1) 5 5 1))) 30 (leBytes 2 p)

/-- A tile copy that stages its data read-only. -/
def tileRo (s : State) (v : View) (rc : Option Reuse) (d : TileDesc) (cl : Nat) (hb : List Byte) : ERes :=
  let n := d.shp.headD 1 / v.step * v.e * rowsIn d.shp
  match stageAt s v.ag d.dstro n with
  | .error e => .refuse s e
  | .ok g =>
    let r := tileCopy v rc d (.dense d.dstro) (rowsIn d.shp) 0 s 0
    match r.stop with
    | some _ => r
    | none =>
      match finishStage r.st v.ag g d.dstro n cl hb d.orgs d.shp with
      | .error e => ⟨r.st, r.tx, n / v.e * v.step, some e⟩
      | .ok t => .done t n

/-- The alignment of a request of the copy (R80). -/
def alignedOr (v : View) (acc : Acc) (o0 : Int) (s0 : Nat) : EM Unit :=
  if v.aligned o0 s0 then .ok () else .error (v.fmtStop acc)

/-- A tile copy between handles. -/
def tileToHandle (s : State) (perm : Bool) (v : View) (rc : Option Reuse) (d : TileDesc) (hd : Nat) : ERes :=
  let pt := bits d.pflg 11 0
  let inv := bit d.pflg 12
  match getHandle s v.ag hd with
  | .error e => .refuse s e
  | .ok h =>
    if h.kind != 0 then .refuse s (.fault 2 2 none)
    else if perm && (h.perm || v.h.perm) then .refuse s (.fault 2 4 none)
    else
      match (if perm then permFits s v.ag pt (if inv then h else v.h) else .ok (0, 0)) with
      | .error e => .refuse s e
      | .ok tab =>
        match openView s v.ag h with
        | .error e => .refuse s e
        | .ok w =>
          match matchViews v w with
          | .error e => .refuse s e
          | .ok (v, w) =>
            match alignedOr v .engRead (d.orgs.headD 0) (d.shp.headD 1), alignedOr w .engWrite (d.orgd.headD 0) (d.shp.headD 1) with
            | .ok _, .ok _ =>
              let v := if perm && !inv then v.through pt tab else v
              let w := if perm && inv then w.through pt tab else w
              tileCopy v rc d (.view w d.orgd) (rowsIn d.shp) 0 s 0
            | .error e, _ => .refuse s e
            | _, .error e => .refuse s e

/-- A tile copy that stages read-only from a view. -/
def tileToSlabs (s : State) (perm : Bool) (v : View) (rc : Option Reuse) (d : TileDesc) (cl : Nat) (hb : List Byte) : ERes :=
  let pt := bits d.pflg 11 0
  if perm && v.h.perm then .refuse s (.fault 2 4 none)
  else if perm && bit d.pflg 12 then .refuse s (.fault 8 2 none)
  else
    match (if perm then permFits s v.ag pt v.h else .ok (0, 0)) with
    | .error e => .refuse s e
    | .ok tab =>
      match alignedOr v .engRead (d.orgs.headD 0) (d.shp.headD 1) with
      | .error e => .refuse s e
      | .ok _ => tileRo s (if perm then v.through pt tab else v) rc d cl (provHandle hb (if perm then some pt else none))

/-- tcpy and cpy.perm. -/
def State.tileWord (s : State) (perm : Bool) (m : Cpx) : ERes :=
  let ag := s.eng
  match eRead s ag s.cur.ent.sc0.toNat 128 with
  | .error e => .refuse s e
  | .ok b =>
    let d := parseTile b
    if badTile perm m.ro b then .refuse s (.fault 2 3 none)
    else
      match getHandle s ag m.hs.toNat, handleBytes s ag m.hs.toNat with
      | .error e, _ => .refuse s e
      | _, .error e => .refuse s e
      | .ok h, .ok hb =>
        match openView s ag h with
        | .error e => .refuse s e
        | .ok v =>
          match (if h.kind == 4 then openReuse s h else .ok (s, none)) with
          | .error e => .refuse s e
          | .ok (s, rc) => if m.ro then tileToSlabs s perm v rc d m.cl.toNat hb else tileToHandle s perm v rc d m.hd.toNat

def execTcpy (_h : Hdr) (m : Cpx) (s : State) : Out := s.engRun 2 (s.tileWord false m)
def execCpyPerm (_h : Hdr) (m : Cpx) (s : State) : Out := s.engRun 2 (s.tileWord true m)

/-! ## Copy-forward (R355) -/

/-- The REUSE handle of a command on a list whose header is `hd`; `same` asks for the list's own layer. -/
def reuseHandle (s : State) (ag : Agent) (i : Nat) (hd : List Byte) (same : Bool) : EM Handle :=
  match getHandle s ag i with
  | .error e => .error e
  | .ok h =>
    if h.kind != 4 then .error (.fault 2 2 none)
    else
      let st := bits h.pad 6 0
      let l := bits h.pad 12 7
      if st != bits (fieldAt hd 9 1) 6 0 || (same && l != bits (fieldAt hd 8 1) 5 0) then .error (.fault 6 4 none)
      else if isReuse h st l then .ok h else .error (.fault 2 3 none)

/-- Rows of the tile of a target, inside the layer: coordinates x and y. -/
def tileCells (g : Target) : List (Nat × Nat) :=
  let t := g.y.t
  let w := min ((g.tx + 1) * t) g.y.w - g.tx * t
  let h := min ((g.ty + 1) * t) g.y.hgt - g.ty * t
  (List.range h).flatMap fun j => (List.range w).map fun i => (g.tx * t + i, g.ty * t + j)

/-- One channel row copied forward. -/
def mcRow (v : View) (rc : Option Reuse) (g : Target) (s : State) (x : Nat × Nat) : EM State :=
  let n := (v.h.extOf 0 + 1) / v.step
  let sx : Int := x.1 + g.dx
  let sy : Int := x.2 + g.dy
  let row : EM (State × List Byte) :=
    if sx < 0 || v.h.extOf 1 < sx || sy < 0 || v.h.extOf 2 < sy then .ok (s, List.replicate (n * v.e) 0)
    else reuseRow s v rc 0 n sx sy (some g.tile)
  match row with
  | .error e => .error e
  | .ok (s, b) => (v.writeRow s 0 [x.1, x.2, g.slot] b).map Prod.fst

/-- Rows in progress order, as far as they go; PROGRESS counts elements. -/
def mcRows (v : View) (rc : Option Reuse) (g : Target) : List (Nat × Nat) → Nat → State → ERes
  | [], i, s => .done s (i * ((v.h.extOf 0 + 1) / v.step * v.e))
  | x :: xs, i, s =>
    match mcRow v rc g s x with
    | .error e => ⟨s, i * ((v.h.extOf 0 + 1) / v.step * v.e), i * (v.h.extOf 0 + 1), some e⟩
    | .ok s => mcRows v rc g xs (i + 1) s

/-- What a command on an entry works with: the REUSE view, its layer as read once, the target. -/
structure TileWork where
  st : State
  v  : View
  rc : Option Reuse
  y  : Layer
  b  : List Byte
  deriving DecidableEq, Repr, Inhabited

/-- Handle, list and entry of tcpy.mc, gath.tl and scat.tl. -/
def State.tileWork (s : State) (h lh i sect : Nat) (same : Bool) : EM TileWork :=
  let ag := s.eng
  match tileEntry s ag lh i sect with
  | .error e => .error e
  | .ok (_, hd, b) =>
    match reuseHandle s ag h hd same with
    | .error e => .error e
    | .ok r =>
      match listLayer s hd with
      | .error e => .error e
      | .ok y =>
        match openView s ag r with
        | .error e => .error e
        | .ok v =>
          match openReuse s r with
          | .error e => .error e
          | .ok (s, rc) => .ok ⟨s, v, rc, y, b⟩

/-- The mark after the writes of a tile, which completes the command (R168). -/
def ERes.mark (r : ERes) (g : Target) : ERes :=
  match r.stop with
  | some _ => r
  | none => match markWritten r.st g with
    | .error e => ⟨r.st, r.tx, r.prog, some e⟩
    | .ok s => .done s r.tx

/-- tcpy.mc. -/
def State.mcWord (s : State) (h : Nat) : ERes :=
  match eRead s s.eng s.cur.ent.sc0.toNat 8 with
  | .error e => .refuse s e
  | .ok db =>
    let d := leNat db
    if bits d 63 28 != 0 then .refuse s (.fault 6 1 none)
    else
      match s.tileWork h (bits d 27 16) (bits d 15 0) 2 true with
      | .error e => .refuse s e
      | .ok k =>
        match pendingOf k.st k.y k.b with
        | .error e => .refuse s e
        | .ok (t, g) =>
          match alignedOr k.v .engWrite 0 (k.v.h.extOf 0 + 1) with
          | .error e => .refuse s e
          | .ok _ => (mcRows k.v k.rc g (tileCells g) 0 t).mark g

def execTcpyMc (_h : Hdr) (hs : BitVec 12) (_cl : BitVec 4) (s : State) : Out := s.engRun 2 (s.mcWord hs.toNat)

/-! ## Weight-buffer loads (R357) -/

/-- A malformed weight-load descriptor. -/
def badWeightDesc (b : List Byte) : Bool :=
  fieldAt b 0 8 % 256 != 0 || 16384 ≤ fieldAt b 8 2 || 16384 ≤ fieldAt b 10 2 || 16383 < fieldAt b 8 2 + fieldAt b 10 2 ||
    bits (fieldAt b 12 2) 15 13 != 0 || !zeroAt b 14 2 || !zeroAt b 24 40

/-- Blocks loaded in order from block `k`: the state, how many, WSTAT, and a stop. -/
def loadBlocks (ag : Agent) (src w pt : Nat) (pen ro : Bool) : Nat → Nat → State → State × Nat × Nat × Option EStop
  | 0, k, s => (s, k, 0, none)
  | m + 1, k, s =>
    let old := s.wbEnt ag.core (w + k)
    if (match old with | some e => e.ctx != ag.ctx | none => false) then (s, k, 2, none)
    else
      match weightBlock s ag (src + 256 * k) pt pen ro with
      | .error e => (s, k, 0, some e)
      | .ok e =>
        let used := sectorsUsed (s.core ag.core).wb - (match old with | some o => hNsec o.hdr | none => 0)
        if 32768 < used + hNsec e.hdr then (s, k, 1, none)
        else loadBlocks ag src w pt pen ro m (k + 1) (s.putWeight ag.core (w + k) e)

/-- cpy.wb. -/
def State.wbWord (s : State) (ro : Bool) : ERes :=
  let ag := s.eng
  let a := s.cur.ent.sc0.toNat
  match eRead s ag a 64 with
  | .error e => .refuse s e
  | .ok b =>
    if badWeightDesc b then .refuse s (.fault 2 3 none)
    else
      let p := fieldAt b 12 2
      match loadBlocks ag (fieldAt b 0 8) (fieldAt b 8 2) (bits p 11 0) (bit p 12) ro (fieldAt b 10 2 + 1) 0 s with
      | (t, k, _, some e) => ⟨t, 0, k, some e⟩
      | (t, k, st, none) =>
        match eWrite t ag (a + 16) (leBytes 4 k ++ leBytes 4 st) with
        | .error e => ⟨t, 0, k, some e⟩
        | .ok t => .done t 0

def execCpyWb (_h : Hdr) (_cl : BitVec 4) (ro : Bool) (s : State) : Out := s.engRun 2 (s.wbWord ro)

/-! ## The words of Owl (R364 to R366) -/

/-- A command of Owl; it waits while CMU_CTL.EN = 0, and for those that arrived before it (R160, R218, R364). -/
def State.cmRun (s : State) (r : EM State) : Out :=
  let k := (s.cur.core, s.cur.ent.seq)
  if !s.owlMay k then .next (s.owlJoin k)
  else
    match s.engRun 5 (.ofEM s 0 r) with
    | .next t => .next (if t.owlStands k then t.owlJoin k else t.owlLeave k)
    | o => o

def execCmEval (_h : Hdr) (layer : BitVec 6) (stream : BitVec 7) (list : BitVec 12) (s : State) : Out :=
  s.cmRun (cmEval s stream.toNat layer.toNat list.toNat s.cur.ent.ctx)
def execCmMeas (_h : Hdr) (layer : BitVec 6) (stream : BitVec 7) (s : State) : Out :=
  s.cmRun (cmMeas s stream.toNat layer.toNat s.cur.ent.sc0.toNat s.cur.ent.ctx)
def execCmCommit (_h : Hdr) (layer : BitVec 6) (stream : BitVec 7) (s : State) : Out :=
  s.cmRun (cmCommit s stream.toNat layer.toNat s.cur.ent.ctx)
def execCmForce (_h : Hdr) (layer : BitVec 6) (stream : BitVec 7) (s : State) : Out :=
  s.cmRun (cmForce s stream.toNat layer.toNat s.cur.ent.sc0.toNat s.cur.ent.ctx)
def execCmThr (_h : Hdr) (layer : BitVec 6) (stream : BitVec 7) (nscale : BitVec 16) (s : State) : Out :=
  s.cmRun (cmThr s stream.toNat layer.toNat nscale.toNat s.cur.ent.ctx)

end Sys2Proof.Machine
end

