-- ==== Sys2Proof/Machine/Control.lean ====
section
/-! DEFINITION. The control instructions of hart 0 (R256 to R278). -/

namespace Sys2Proof.Machine

/-! ## Capture slots and views -/

/-- cap (R258). -/
def execCap (rs1 rs2 : Reg) (s : State) : Out :=
  s.onHart0Span (.cap rs1 rs2) fun _ => .next (s.retire 4 { s.me with sc0 := s.me.rx rs1, sc1 := s.me.rx rs2 })

/-- vwset.v (R278). -/
def execVwsetV (rs1 : Reg) (s : State) : Out :=
  s.onHart0 (.vwsetV rs1) true fun _ =>
    let v := (s.me.rx rs1).toNat
    if v % 512 == 0 && v ≤ 49152 then .next (s.retire 4 { s.me with dviewV := v }) else s.illegalI (.vwsetV rs1)

/-- vwset.m (R278). -/
def execVwsetM (rs1 : Reg) (s : State) : Out :=
  s.onHart0 (.vwsetM rs1) true fun _ =>
    let v := (s.me.rx rs1).toNat
    if v % 2048 == 0 && v ≤ 32768 then .next (s.retire 4 { s.me with dviewM := v }) else s.illegalI (.vwsetM rs1)

/-- vwset.c (R278). -/
def execVwsetC (rs1 : Reg) (s : State) : Out :=
  s.onHart0 (.vwsetC rs1) true fun _ =>
    let v := (s.me.rx rs1).toNat
    if v % 32 == 0 && v ≤ 768 then .next (s.retire 4 { s.me with dviewC := v }) else s.illegalI (.vwsetC rs1)

/-! ## Creating and ending work -/

/-- qpush (R259). -/
def execQpush (rd rs1 rs2 : Reg) (s : State) : Out :=
  s.ctl (.qpush rd rs1 rs2) <|
  let s := s.groupIllegal
  match hartRead s (hartReq s .load (s.me.rx rs2).toNat 64 true) with
  | .error e => .next (s.hartStop e false)
  | .ok rcd =>
    let st := (s.me.rx rs1).toNat
    if 127 < st then s.wrote4 rd 4
    else if s.me.mode != .m && s.streamTenant st != s.tenantOf s.me.ctx then s.wrote4 rd 3
    else if !s.isOpen st then s.wrote4 rd 2
    else
      match s.qappend st rcd with
      | .error (.miss wh c v) => .next (s.missed wh c v).stall
      | .error (.flt _) => s.wrote4 rd 1
      | .ok (s, false) => s.wrote4 rd 1
      | .ok (s, true) => s.wrote4 rd 0

/-- Submission of a child launch whose record is at X(rs1), 64-byte aligned (R260, R204). -/
def childLaunch (s : State) (i : Instr) (cid : Nat) (rd rs1 : Reg) (wait : Option (Nat × Nat)) : Out :=
  let s := s.groupIllegal.settle
  let va := (s.me.rx rs1).toNat
  let c := s.cont cid
  let late : Bool := match wait with | some (e, n) => nth c.pushed e < n | none => false
  let al := hartReq s .load va 64 true
  if va % 64 != 0 then .next (s.hartStop (match plan s al anyFmt with | .error e => e | .ok _ => al.stop .misalign) false) else
  match plan s (hartReq s .load va 256 false) anyFmt with
  | .error e => if late then s.illegalI i else .next (s.hartStop e false)
  | .ok ps =>
    if late then s.illegalI i
    else
      match hartBytes s (hartReq s .load va 256 false) ps with
      | .error e => .next (s.hartStop e false)
      | .ok bs =>
        let p := s.launch c.lid
        let u : Submit := ⟨s.me.ctx, p.stream, va + 256, wait.map fun (e, n) => (cid, e, n), p.depth + 1, false, none, 0⟩
        match s.acceptLaunch u bs with
        | .error (.miss wh k v) => .next (s.missed wh k v).stall
        | .error e => .next (s.hartStop e false)
        | .ok (s, lid) => s.wrote4 rd (BitVec.ofNat 64 lid)

/-- launch rd, rs1. -/
def execLaunch (rd rs1 : Reg) (s : State) : Out :=
  s.onHart0 (.launch rd rs1) true fun cid => childLaunch s (.launch rd rs1) cid rd rs1 none

/-- launch rd, rs1, e, rs2. -/
def execLaunchWait (e : BitVec 3) (rd rs1 rs2 : Reg) (s : State) : Out :=
  s.onHart0 (.launchWait e rd rs1 rs2) true fun cid =>
    childLaunch s (.launchWait e rd rs1 rs2) cid rd rs1 (some (e.toNat, (s.me.rx rs2).toNat))

/-- exit (R261, R148): the continuation suspends until its commands have drained, and then retires. -/
def execExit (s : State) : Out :=
  s.onHart0 .exit false fun cid =>
    let s := s.atPoint
    match lowestFault (fun _ => true) (s.cont cid) with
    | some l => .next (s.raiseEngine l)
    | none => .next (s.suspend cid .suspended .exit s.me.pc)

/-- yield (R262). -/
def execYield (s : State) : Out :=
  s.onHart0 .yield false fun cid =>
    let s := s.atPoint
    .next (s.suspend cid .ready .none (s.me.pc + 4))

/-! ## Barriers -/

/-- Barrier X(rs1) of the continuation, or an illegal instruction (R263). -/
def State.withBar (s : State) (i : Instr) (cid : Nat) (v : Word) (k : Nat → Nat × Nat → Out) : Out :=
  if (s.cont cid).homed && v.toNat < (s.cont cid).barNames then k v.toNat (s.cellOf cid v.toNat) else s.illegalI i

/-- hb.init (R265). -/
def execHbInit (rs1 rs2 : Reg) (s : State) : Out :=
  let i := Instr.hbInit rs1 rs2
  s.onHart0 i false fun cid =>
    let s := s.groupIllegal
    s.withBar i cid (s.me.rx rs1) fun _ k =>
      let n := (s.me.rx rs2).toNat
      let b := s.bar k
      if n == 0 || 65535 < n || b.cnt != 0 || b.pend != 0 then s.illegalI i
      else (s.setBar k { b with arr := n }).done4

/-- hb.arrive (R266). -/
def execHbArrive (rs1 : Reg) (s : State) : Out :=
  let i := Instr.hbArrive rs1
  s.onHart0 i false fun cid =>
    let s := s.groupIllegal
    s.withBar i cid (s.me.rx rs1) fun h k =>
      let b := s.bar k
      ((s.setCont cid ((s.cont cid).contribute h b.ph)).setBar k (b.arrive 0)).done4

/-- hb.txadd (R266). -/
def execHbTxadd (rs1 rs2 : Reg) (s : State) : Out :=
  let i := Instr.hbTxadd rs1 rs2
  s.onHart0 i false fun cid =>
    let s := s.groupIllegal
    s.withBar i cid (s.me.rx rs1) fun h k =>
      let b := s.bar k
      ((s.setCont cid ((s.cont cid).contribute h b.ph)).setBar k (Bar.test { b with pend := b.pend + s.me.rx rs2 })).done4

/-- The phase that an hb.wait waits for (R267). -/
def Cont.waitPh (c : Cont) (h : Nat) (b : Bar) : Nat :=
  let k := tget ⟨0, false⟩ c.contrib h
  if k.made then k.ph else b.ph

/-- The member has waited on barrier `h`. -/
def Cont.waited1 (c : Cont) (h : Nat) : Cont := { c with contrib := tset c.contrib h { tget ⟨0, false⟩ c.contrib h with made := false } }

/-- The wait that the acting hart executes again (R137, R280); in S mode there is none. -/
def State.againAt (s : State) : Wait := if s.me.mode == .u then s.me.again else .none

/-- hb.wait (R267, R137). -/
def execHbWait (rs1 : Reg) (s : State) : Out :=
  let i := Instr.hbWait rs1
  s.onHart0 i false fun cid =>
    let s := s.atPoint
    let v : Word := match s.againAt with | .hb h _ => BitVec.ofNat 64 h | _ => s.me.rx rs1
    s.withBar i cid v fun h k =>
      let b := s.bar k
      let c := s.cont cid
      let ph := match s.againAt with | .hb _ ph => ph | _ => c.waitPh h b
      if ph < b.ph then (s.setCont cid (c.waited1 h)).done4
      else
        match lowestOf (s.barFaults cid h) with
        | some l => .next (s.raiseEngine l)
        | none => s.waitPoint cid (.hb h ph)

/-! ## Timelines -/

/-- tl.read (R269). -/
def execTlRead (e : BitVec 3) (rd : Reg) (s : State) : Out :=
  s.onHart0 (.tlRead e rd) true fun cid =>
    let s := s.settle
    s.wrote4 rd (BitVec.ofNat 64 (nth (s.cont cid).tl e.toNat))

/-- tl.wait (R269, R134, R137). -/
def execTlWait (scope e : BitVec 3) (rs1 : Reg) (s : State) : Out :=
  let i := Instr.tlWait scope e rs1
  s.onHart0 i true fun cid =>
    let s := s.atPoint
    let n := match s.againAt with | .tl _ n _ => n | _ => (s.me.rx rs1).toNat
    let c := s.cont cid
    if nth c.pushed e.toNat < n then s.illegalI i
    else if n ≤ nth c.tl e.toNat then s.done4
    else
      match lowestFault (fun l => l.eng == e.toNat && l.ent.num ≤ n) c with
      | some l => .next (s.raiseEngine l)
      | none => s.waitPoint cid (.tl e.toNat n scope.toNat)

/-! ## Tags -/

/-- Index of the lowest bit set. -/
def lowestBit (w : Word) : Option Nat := (List.range 64).find? fun t => w.getLsbD t

/-- Masked tags whose signalling command has faulted (R270). -/
def faultTags (c : Cont) (m : Word) : List Nat :=
  (List.range 64).filter fun t => m.getLsbD t && c.faulted.any fun l => sigOf l.ent.word == 0x40 + t

/-- The faulted command that signals the lowest tag. -/
def tagFault (c : Cont) (m : Word) : Option Live :=
  match faultTags c m with
  | [] => none
  | t :: _ => (c.faulted.filter fun l => sigOf l.ent.word == 0x40 + t).head?

/-- tag.wany (R270). -/
def execTagWany (rd rs1 : Reg) (s : State) : Out :=
  let i := Instr.tagWany rd rs1
  s.onHart0 i true fun cid =>
    let s := s.atPoint
    let m := match s.againAt with | .tagAny m _ => m | _ => s.me.rx rs1
    let c := s.cont cid
    if m == 0 || (s.me.mode == .u && !suspReg rd) then s.illegalI i
    else
      match lowestBit (c.tags &&& m) with
      | some t => s.wrote4 rd (BitVec.ofNat 64 t)
      | none =>
        match tagFault c m with
        | some l => .next (s.raiseEngine l)
        | none => s.waitPoint cid (.tagAny m rd)

/-- tag.wall (R270). -/
def execTagWall (rs1 : Reg) (s : State) : Out :=
  s.onHart0 (.tagWall rs1) true fun cid =>
    let s := s.atPoint
    let m := match s.againAt with | .tagAll m => m | _ => s.me.rx rs1
    let c := s.cont cid
    if c.tags &&& m == m then s.done4
    else
      match tagFault c m with
      | some l => .next (s.raiseEngine l)
      | none => s.waitPoint cid (.tagAll m)

/-- tag.ffr (R270). -/
def execTagFfr (rd rs1 : Reg) (s : State) : Out :=
  s.onHart0 (.tagFfr rd rs1) true fun cid =>
    let s := s.settle
    match lowestBit ((s.cont cid).tags &&& s.me.rx rs1) with
    | some t => s.wrote4 rd (BitVec.ofNat 64 t)
    | none => s.wrote4 rd (-1)

/-- tag.clr (R270). -/
def execTagClr (rs1 : Reg) (s : State) : Out :=
  s.onHart0 (.tagClr rs1) true fun cid =>
    let c := s.cont cid
    (s.setCont cid { c with tags := c.tags &&& ~~~(s.me.rx rs1) }).done4

/-! ## Ordering -/

/-- mfence (R271, R138). -/
def execMfence (mask : BitVec 6) (s : State) : Out :=
  s.onHart0 (.mfence mask) true fun _ =>
    let q := (s.core (coreOf s.hn)).seq
    let ms := ((List.range 6).filter fun e => mask.getLsbD e).map fun e => (e, q)
    .next (s.retire 4 { s.me with markers := s.me.markers ++ ms })

/-- The word of engine `e` of core `n` has started and goes on at the head of its queue: a multiply or a sig.bred that is partly done,
or an operation of Owl's that waits for room in the frame log. -/
def State.goesOn (s : State) (n e : Nat) (x : QEntry) : Bool :=
  (e == 4 && (s.cont x.cid).bred.isSome && (((s.core n).queues.getD 4 []).head? == some (.word x))) ||
  (e == 1 && bit (s.cont x.cid).mxProg 20 && bits (s.cont x.cid).mxProg 47 32 == x.num % 65536) ||
    s.owlOp.held.any fun p => p.1 == (.engine n e, x.seq)

/-- A marker has reached the head of its queue: every word pushed before it has started. -/
def State.reached (s : State) (n : Nat) (m : Nat × Nat) : Bool :=
  ((s.core n).queues.getD m.1 []).all fun i => match i with | .word e => m.2 ≤ e.seq || s.goesOn n m.1 e | .settle _ => true

/-- mjoin (R271, R138). -/
def execMjoin (s : State) : Out :=
  s.onHart0 .mjoin true fun _ =>
    if s.me.markers.all (s.reached (coreOf s.hn)) then .next (s.retire 4 { s.me with markers := [] }) else .next s.stall

/-- fence.c (R272). -/
def execFenceC (mask : BitVec 16) (scope : BitVec 3) (s : State) : Out :=
  s.ctl (.fenceC mask scope) (s.fenceOver fun k => mask.getLsbD k)

/-- ld.acq of `n` bytes (R273). -/
def loadAcquire (s : State) (n : Nat) (rd rs1 : Reg) : Out :=
  s.load (s.me.rx rs1).toNat n true fun s v => s.wrote4 rd (BitVec.ofInt 64 (sext v (8 * n)))

def execLdAcqB (m : BitVec 5) (scope : BitVec 3) (rd rs1 : Reg) (s : State) : Out :=
  s.ctl (.ldAcqB m scope rd rs1) <| loadAcquire s 1 rd rs1
def execLdAcqH (m : BitVec 5) (scope : BitVec 3) (rd rs1 : Reg) (s : State) : Out :=
  s.ctl (.ldAcqH m scope rd rs1) <| loadAcquire s 2 rd rs1
def execLdAcqW (m : BitVec 5) (scope : BitVec 3) (rd rs1 : Reg) (s : State) : Out :=
  s.ctl (.ldAcqW m scope rd rs1) <| loadAcquire s 4 rd rs1
def execLdAcqD (m : BitVec 5) (scope : BitVec 3) (rd rs1 : Reg) (s : State) : Out :=
  s.ctl (.ldAcqD m scope rd rs1) <| loadAcquire s 8 rd rs1

/-- st.rel of `n` bytes (R273). -/
def storeRelease (s : State) (n : Nat) (rs1 rs2 : Reg) : Out :=
  s.store (s.me.rx rs1).toNat (leBytes n (s.me.rx rs2).toNat) true fun s => s.done4

def execStRelB (m : BitVec 5) (scope : BitVec 3) (rs1 rs2 : Reg) (s : State) : Out :=
  s.ctl (.stRelB m scope rs1 rs2) <| storeRelease s 1 rs1 rs2
def execStRelH (m : BitVec 5) (scope : BitVec 3) (rs1 rs2 : Reg) (s : State) : Out :=
  s.ctl (.stRelH m scope rs1 rs2) <| storeRelease s 2 rs1 rs2
def execStRelW (m : BitVec 5) (scope : BitVec 3) (rs1 rs2 : Reg) (s : State) : Out :=
  s.ctl (.stRelW m scope rs1 rs2) <| storeRelease s 4 rs1 rs2
def execStRelD (m : BitVec 5) (scope : BitVec 3) (rs1 rs2 : Reg) (s : State) : Out :=
  s.ctl (.stRelD m scope rs1 rs2) <| storeRelease s 8 rs1 rs2

/-! ## Store groups (R274, R139 to R142) -/

/-- sg.begin: a nested one aborts the open group and opens nothing. -/
def execSgBegin (scope : BitVec 3) (s : State) : Out :=
  s.ctl (.sgBegin scope) <|
  if s.me.group.opened then s.groupIllegal.done4
  else .next (s.retire 4 { s.me with group := { Group.none with opened := true, scope := scope.toNat } })

/-- The group ends with its status word. -/
def State.closeGroup (s : State) (rd : Reg) (g : Group) : Out :=
  .next (s.retire 4 ({ s.me with group := Group.none }.wx rd (BitVec.ofNat 64 g.status)))

/-- sg.end. -/
def execSgEnd (rd : Reg) (s : State) : Out :=
  s.ctl (.sgEnd rd) <|
  let s := s.settle
  let g := s.me.group
  if !g.opened then s.illegalI (.sgEnd rd)
  else if !g.vsts.isEmpty then .next s.stall
  else if g.code != 0 then s.closeGroup rd g
  else
    match commitStores (hartReq s .store 0 1 false) g.stores s with
    | .ok s => s.closeGroup rd g
    | .error (i, f) => (s.noted f).closeGroup rd (g.abort 3 f.cause.code i false)

/-- sg.abort. -/
def execSgAbort (rs1 : Reg) (s : State) : Out :=
  s.ctl (.sgAbort rs1) <|
  let g := s.me.group
  .next (s.retire 4 { s.me with group := g.abort 4 ((s.me.rx rs1).toNat % 256) 0 false })

/-! ## Waiting on memory, status, mailbox -/

/-- waddr (R275): a memory access of its own kind, it aborts an open group in every mode (R139). -/
def execWaddr (rs1 rs2 : Reg) (s : State) : Out :=
  s.ctl (.waddr rs1 rs2) <|
  let s := s.groupIllegal.atPoint
  let (a, v) := match s.againAt with | .addr a v => (a, v) | _ => (s.me.rx rs1, s.me.rx rs2)
  match hartRead s (hartReq s .load a.toNat 8 true) with
  | .error e => .next (s.hartStop e false)
  | .ok bs =>
    if BitVec.ofNat 64 (leNat bs) != v then s.done4
    else
      match s.me.mode, s.me.cont with
      | .u, some cid => .next (s.suspend cid .suspended (.addr a v) s.me.pc)
      | _, _ => .next s.stall

/-- eng.stat (R276, R136). -/
def execEngStat (e : BitVec 3) (rd rs1 : Reg) (s : State) : Out :=
  let i := Instr.engStat e rd rs1
  s.onHart0 i true fun cid =>
    let s := s.settle
    let n := (s.me.rx rs1).toNat
    let c := s.cont cid
    if nth c.pushed e.toNat < n then s.illegalI i
    else if n ≤ nth c.tl e.toNat then s.wrote4 rd 1
    else if c.faulted.any (fun l => l.eng == e.toNat && l.ent.num ≤ n) then s.wrote4 rd 2
    else s.wrote4 rd 0

/-- A word that will put an entry into the mailbox (R302). -/
def isMboxWord (w : BitVec 64) : Bool := match engineOp w with | some (.vtos ..) => true | some (.kpopc ..) => true | _ => false

/-- A vtos or kpopc of the continuation's present run is queued or in flight (R277). -/
def State.mboxDue (s : State) (n cid : Nat) : Bool :=
  let c := s.cont cid
  let v := s.vrun c.run
  (s.queued n cid).any (fun p => p.1 == 0 && p.2.run == c.run && isMboxWord p.2.word) ||
    (v.fly.any fun r => r.dest == .mbox) || (match v.loop with | some l => l.body.any (fun e => isMboxWord e.word) | none => false)

/-- vmb.pop (R277). -/
def execVmbPop (rd : Reg) (s : State) : Out :=
  s.onHart0 (.vmbPop rd) true fun cid =>
    let s := s.settle
    let c := s.cont cid
    let v := s.vrun c.run
    match v.mbox with
    | w :: ws => (s.setVrun c.run { v with mbox := ws }).wrote4 rd w
    | [] => if s.mboxDue (coreOf s.hn) cid then .next s.stall else s.illegalI (.vmbPop rd)

end Sys2Proof.Machine
end

