-- ==== Sys2Proof/Machine/Lifecycle.lean ====
section
/-! DEFINITION. How commands and continuations end and go on: completion and fault of a command (R133, R137), a wait
that holds (R199, R275), the record (R197), retirement (R205 to R207, R261), the return from a trap and the resumption of a
pre-empted continuation (R376 to R378), and the choice of R219. -/

namespace Sys2Proof.Machine

/-! ## Events of the part -/

/-- What an event comes to: a miss leaves `s0` and waits for its walk. -/
def evOut (s0 : State) : Except Stop State → Out
  | .ok s => .next (s.tookWalk .part)
  | .error (.miss wh c v) => .next (s0.missed wh c v)
  | .error (.flt _) => .next (s0.tookWalk .part)

/-- What a decision of firmware of kind `k` comes to, which leads to `t` (R407). -/
def evDecided (s0 : State) (k : Nat) (t : State) : Out := .next ((s0.journalled t k).tookWalk .part)

/-- A stop of an operation of the front end or of firmware: a miss, or a log that is full (R183). -/
def evStop (s0 : State) : EStop → State
  | .miss wh c v => s0.missed wh c v
  | .begun wh c v => s0.missed wh c v
  | .logFull op st rs => s0.logStall op st rs
  | _ => s0

/-- A decision that a fault of a claim's save in `t` prevents. -/
def evPassed (s t : State) : Out := match s.passed t with | some u => .next (u.tookWalk .part) | none => .fault .notEnabled

/-- An event whose condition may fail. -/
def evWhen (c : Bool) (o : Out) : Out := if c then o else .fault .notEnabled

/-! ## Commands (R133, R137, R222) -/

/-- Body words of a vloop word. -/
def loopWords (w : BitVec 64) : Nat := match engineOp w with | some (.vloop _ nb _ _) => nb.toNat + 1 | _ => 0

/-- The word of command `num` has passes of the loop to make, of this run of it or of a resumption; the vloop itself waits for its
whole body (R313, R380). -/
def Loop.toMake (p : Loop) (num : Nat) : Bool :=
  if num == p.ent.num then p.partly
  else
    p.ent.num < num && num ≤ p.ent.num + p.nb && (p.left != 0 ||
      (if p.n == 0 then !p.exited else p.pass + 1 < p.passes || (p.pass + 1 == p.passes && p.w ≤ num - p.ent.num - 1)))

/-- A V command still has results to land or passes to make (R313, R437). -/
def State.vPending (s : State) (c : Cont) (l : Live) : Bool :=
  let inLoop := match (s.vrun l.ent.run).loop with
    | some p => p.ent.cid == l.ent.cid && p.toMake l.ent.num
    | none => false
  l.issues != 0 || inLoop ||
    c.outst.any fun o => o.eng == 0 && l.ent.num < o.num && o.num ≤ l.ent.num + loopWords l.ent.word

/-- A command in flight is done. -/
def State.cmdDone (s : State) (cid : Nat) (l : Live) : Bool := l.fault.isNone && !(l.eng == 0 && s.vPending (s.cont cid) l)

/-- The command is charged and completes. -/
def State.finish (s : State) (cid : Nat) (l : Live) : State :=
  let c := s.cont cid
  (s.charge l.eng l.ent.word.toNat c.ctx (s.launch c.lid).stream (some c.lid) (some cid)).complete cid l

/-- COMMAND_COMPLETE. -/
def execCommandComplete (cid e num : Nat) (s : State) : Out :=
  match (s.cont cid).liveOf e num with
  | some l => evWhen (s.cmdDone cid l) (.next (s.finish cid l))
  | none => .fault .notEnabled

/-- COMMAND_FAULT: the fault is recorded, and for an abandoned continuation the command has ended (R378). -/
def execCommandFault (cid e num : Nat) (s : State) : Out :=
  let c := s.cont cid
  match c.liveOf e num with
  | some l =>
    let c' := { c with live := c.live.filter fun x => !(x.eng == e && x.ent.num == num),
                       faulted := if c.ending then c.faulted else c.faulted ++ [l] }
    evWhen l.fault.isSome (.next (s.setCont cid c'))
  | none => .fault .notEnabled

/-! ## Waits (R199, R267 to R275) -/

/-- The wait is over with the instruction's effect: the instruction has completed. -/
def Cont.waitDone (c : Cont) : Cont := { c with stat := .ready, wait := .none, pc := c.pc + 4 }
/-- The instruction is to run again with its operands: a command that it waits for has faulted. -/
def Cont.waitAgain (c : Cont) : Cont := { c with stat := .ready }

/-- Element `r` of a0 to a5 replaced when `r` names one of them. -/
def setArg (a : List Word) (r : Reg) (v : Word) : List Word := if 10 ≤ r.toNat then a.set (r.toNat - 10) v else a

/-- The continuation after its wait, when its condition holds or a fault must be raised. -/
def State.waitOver (s : State) (cid : Nat) : Option Cont :=
  let c := s.cont cid
  let again (b : Bool) : Option Cont := if b then some c.waitAgain else none
  match c.wait with
  | .hb h ph =>
    if ph < (s.bar (s.cellOf cid h)).ph then some (c.waited1 h).waitDone
    else again (!(s.barFaults cid h).isEmpty)
  | .tl e n _ => if n ≤ nth c.tl e then some c.waitDone else again (c.faulted.any fun l => l.eng == e && l.ent.num ≤ n)
  | .tagAny m rd =>
    match lowestBit (c.tags &&& m) with
    | some t => some { c with a := setArg c.a rd (BitVec.ofNat 64 t) }.waitDone
    | none => again (tagFault c m).isSome
  | .tagAll m => if c.tags &&& m == m then some c.waitDone else again (tagFault c m).isSome
  | .exit => again (!c.faulted.isEmpty)
  | _ => none

/-- The continuation becomes READY. -/
def State.makeReady (s : State) (cid : Nat) (c : Cont) : State :=
  s.setCont cid { c with stat := .ready, waited := 0 }

/-- WAIT_SATISFIED. -/
def execWaitSatisfied (cid : Nat) (s : State) : Out :=
  match s.waitOver cid with
  | some c => evWhen ((s.cont cid).stat == .suspended) (.next (s.makeReady cid c))
  | none => .fault .notEnabled

/-- The part re-reading a waddr location for a continuation (R275). -/
def waddrAgent (c : Cont) : Agent :=
  ⟨.fe, 8, c.core.getD 0, .u, c.ctx, c.core.getD 0, if c.core.isSome then reachHart0 else { reachHart0 with local0 := false }⟩

/-- WADDR_RECHECK: a faulting re-read makes the continuation READY at its waddr, which raises it. -/
def execWaddrRecheck (cid : Nat) (s : State) : Out :=
  let c := s.cont cid
  match c.stat, c.wait with
  | .suspended, .addr a v =>
    let r : Req := ⟨waddrAgent c, .load, a.toNat, 8, true, true⟩
    match hartRead s r with
    | .error (.miss wh k p) => .next (s.missed wh k p)
    | .error (.flt _) => .next ((s.makeReady cid c.waitAgain).tookWalk .part)
    | .ok bs =>
      let s := s.tookWalk .part
      .next (if BitVec.ofNat 64 (leNat bs) == v then s else s.makeReady cid c.waitDone)
  | _, _ => .fault .notEnabled

/-! ## The record (R197) -/

/-- STAT (R197). -/
def Stat.code : Stat → Nat | .ready => 0 | .running => 1 | .suspended => 2 | .retired => 3 | .faulted => 4
/-- WK (R197). -/
def Wait.code : Wait → Nat | .none => 0 | .hb .. => 1 | .tl .. => 2 | .tagAny .. => 3 | .tagAll .. => 3 | .addr .. => 4 | .exit => 5

/-- The 64-byte continuation record; HOME without a home core names the core `n` that it last ran on (log 80). -/
def Cont.record (c : Cont) (n : Nat) : List Byte :=
  leBytes 8 c.pc.toNat ++
  leBytes 8 (c.stat.code + (if c.stat == .suspended then c.wait.code else 0) * 2 ^ 3 + b2n c.homed * 2 ^ 6 + (c.home.getD n) * 2 ^ 7 + c.slot * 2 ^ 15 + c.prio * 2 ^ 19 +
    b2n (2 ≤ c.gang) * 2 ^ 21 + b2n c.pin * 2 ^ 22 + c.lid % 2 ^ 16 * 2 ^ 24 + c.ordinal * 2 ^ 40) ++
  c.a.flatMap fun w => leBytes 8 w.toNat

/-- The 128-byte carried block. -/
def Cont.carried (c : Cont) : List Byte :=
  leBytes 8 c.dfcsr.toNat ++ leBytes 8 c.dclass.toNat ++ c.pushed.flatMap (leBytes 8) ++ c.upTl.tl.flatMap (leBytes 8) ++
    leBytes 8 c.tags.toNat ++ List.replicate 8 (0 : Byte)

/-- The addresses of the record and of the carried block: below the frame blocks of R371 (log 80). -/
def State.recordAt (s : State) (c : Cont) : Nat × Nat :=
  let p := Config.contPlace c.lid c.ordinal
  (s.contArea c.ctx + 64 * (p.1 % 2 ^ 25), s.contArea c.ctx + 2 ^ 31 + 128 * (p.2 % 2 ^ 24))

/-- Scheduler firmware writes the record and the carried block of a continuation back; what faults is left unwritten. The slot is
released with it (R201). -/
def State.writeRecord (s : State) (cid : Nat) : Out :=
  let c := s.cont cid
  match c.unsaved with
  | none => .fault .notEnabled
  | some n =>
    let ag := fwAgent n c.ctx
    let (a, b) := s.recordAt c
    let put (s : State) (va : Nat) (bs : List Byte) : Except Stop State :=
      match wrBytes s ag .engWrite va bs with
      | .error (.flt f) => .ok (s.noted f)
      | r => r
    let r : Except Stop State := match put s a (c.record n) with
      | .error e => .error e
      | .ok t => put t b c.carried
    evWhen (!s.hoPaused 1 n) (match r with
      | .error e => evOut s (.error e)
      | .ok u => evDecided s 1 ((u.setCont cid { c with unsaved := none }).leaveSlot cid))

/-! ## Retirement (R205 to R207, R217, R261, R378) -/

/-- Release the slot of an ended continuation. -/
def State.dropSlot (s : State) (cid : Nat) : State :=
  let c := s.cont cid
  match c.core with
  | none => s
  | some n => (s.setCore n { s.core n with slots := tdel (s.core n).slots c.slot }).setCont cid { c with core := none, pin := false }

/-- The members of a continuation's gang, itself included. -/
def membersOf (c : Cont) : Tbl Cont → List Nat
  | [] => []
  | (k, d) :: t => if d.lid == c.lid && d.ordinal / max c.gang 1 == c.ordinal / max c.gang 1 then k :: membersOf c t else membersOf c t

/-- A continuation that has come to its end: its members' slots are released with the last of them (R194, R263). -/
def State.dropSlots (s : State) (cid : Nat) : State :=
  let ms := membersOf (s.cont cid) s.conts
  if ms.all (fun k => !(s.cont k).alive && !(s.cont k).ending) then ms.foldl State.dropSlot s else s

/-- The first abandoned iteration by ordinal, with the fault it reports, if any. -/
def firstGone (old : Option (Nat × Option MemFault)) (o : Nat) (f : Option MemFault) : Option (Nat × Option MemFault) :=
  match old with
  | some (p, g) => if o < p then some (o, f) else some (p, g)
  | none => some (o, f)

/-- Launches that can complete, each in turn. -/
def settleAll : List Nat → State → Except Stop State
  | [], s => .ok s
  | k :: ks, s => match s.settleLaunch k with | .error e => .error e | .ok s => settleAll ks s

/-- Launches whose parent was abandoned and that have not completed. -/
def orphanLids : Tbl Launch → List Nat
  | [] => []
  | (k, l) :: t => if l.orphan && !l.finished then k :: orphanLids t else orphanLids t

/-- The continuation retires: it frees what it holds, counts in its launch, and corrects its stream's deficit. -/
def State.retireCont (s : State) (cid : Nat) : Except Stop State :=
  let c := s.cont cid
  let s := s.freeStorage cid
  let s := s.setCont cid { s.cont cid with stat := if c.ending then .faulted else .retired, ending := false, wait := .none,
                                            outst := [], live := [], faulted := [], unsaved := none }
  let s := s.dropSlots cid
  let l := s.launch c.lid
  let l := if c.ending then { l with gone := l.gone + 1, first := firstGone l.first c.ordinal c.abandon } else { l with retired := l.retired + 1 }
  let s := s.setLaunch c.lid l
  let s := match l.stream with
    | some st => (let x := s.stream st; (s.setStream st { x with deficit := x.deficit + (l.epi : Int) - ((c.nj / njUnit : Nat) : Int) }).unready st)
    | none => s
  settleAll (c.lid :: orphanLids s.launches) s

/-- CONTINUATION_RETIRE: exit has drained and its suspension's record is written back (R197), or the work of an abandoned continuation has ended. -/
def execContinuationRetire (cid : Nat) (s : State) : Out :=
  let c := s.cont cid
  evWhen (if c.ending then c.live.isEmpty && c.bred.isNone
      else c.stat == .suspended && c.wait == .exit && c.outst.isEmpty && c.faulted.isEmpty && c.unsaved.isNone)
    (evOut s (s.retireCont cid))

/-! ## Edits of a trap frame (R377) -/

/-- The bytes of a frame that the handler may edit, replay entries apart. -/
def openByte (o : Nat) : Bool :=
  o < 8 || o == 13 || o == 14 || (24 ≤ o && o < 32) || (0x100 ≤ o && o < 0x1F8) || (0x200 ≤ o && o < 0x210) ||
    (0x228 ≤ o && o < 0x238) || (0x300 ≤ o && o < 0x400) || (0x2800 ≤ o && o < 0x3000) || (0x20000 ≤ o && o < 0x30000)

/-- The bytes of replay entry `i` that the handler may edit when it carries PFM: EFLG and OPND A. -/
def entryByte (i o : Nat) : Bool := let b := 0x3000 + 2048 * i; o == b + 18 || (b + 128 ≤ o && o < b + 640)

/-- Entries that carry PFM. -/
def pfmIndexes (fly : List Res) : List Nat := (fly.zipIdx.filter fun p => p.1.pfm.isSome).map Prod.snd

/-- Nothing was changed that the handler may not edit. -/
def frameKept (fly : List Res) (img m : Memory) : Bool :=
  let pf := pfmIndexes fly
  let shut (c : Host.Cell) : Bool := !(openByte c.1) && !(pf.any fun i => entryByte i c.1)
  img.filter shut == m.filter shut

/-- An entry after the handler's edit: it stays, it goes (DROP), or the edit is not permitted. -/
inductive Edited where
  | keep (r : Res)
  | drop
  | bad

/-- Entry `i` as the frame `m` in memory has it. -/
def editRes (m : Memory) (cyc i : Nat) (r : Res) : Edited :=
  if r.pfm.isNone then .keep r
  else
    let b := 0x3000 + 2048 * i
    let old := r.bytes cyc
    let e := fieldAt old 18 1
    let x := (mget m (b + 18)).toNat
    let a := mgets m (b + 128) 512
    let same := a == (old.drop 128).take 512
    if x == e && same then .keep r
    else if x == e + 6 && same then .keep { r with pfm := none, reissue := true }
    else if x + 2 == e then .keep { r with pfm := none, data := bytesLanes a 128 }
    else if (x + 1 == e || x + 3 == e) && same then .drop
    else .bad

/-- Every entry edited, the dropped ones in their places, and those dropped; none for an edit that is not permitted. -/
def editFly (m : Memory) (cyc : Nat) : Nat → List Res → Option (List Res × List Res)
  | _, [] => some ([], [])
  | i, r :: rs =>
    match editRes m cyc i r, editFly m cyc (i + 1) rs with
    | .keep q, some (ks, ds) => some (q :: ks, ds)
    | .drop, some (ks, ds) => some ({ r with pfm := none, gone := true } :: ks, r :: ds)
    | _, _ => none

/-! ## Re-injection (R376) -/

/-- The load of an entry performed again: its data. -/
def reload (s : State) (core : Nat) (r : Res) : Except Stop (Vec × Option MemFault) :=
  let ag := engAgent core 0 r.ent
  let go (f : Form) (t : ElemT) : Except Stop (Vec × Option MemFault) :=
    (vmLoad s ag f t r.mask r.addr r.jel (sext r.ent.sc1.toNat 64) r.x).map fun x => (x.1, x.2.1)
  match engineOp r.word with
  | some (.vld _ t _) => go .packed t
  | some (.vlds _ t _) => go .strided t
  | some (.vldx _ t _) => go .indexed t
  | some (.vldb _ p _) => go (.planes p.toNat) .i8
  | some (.vdtake ..) =>
    let t := { s with cur := { s.cur with ent := r.ent } }
    let ls := activeOf r.mask
    let i0 := (r.addr + 2 ^ 64 - r.ent.sc0.toNat) % 2 ^ 64 / 8
    let is := (List.range ls.length).map fun i => (⟨t.itemAt (i0 + i), 8, i⟩ : Item)
    match loadCheck s ag anyFmt false (sortReqs (fun q => (lowSpan q).1) (requestsOf false is)) with
    | .error e => .error e
    | .ok late =>
      let o := if r.pipe.isSome then 0 else 4
      .ok (scatterLanes ls ((is.map (itemBytes s ag anyFmt false)).map fun b => fieldAt b o 4), late)
  | _ => .ok (r.data, none)

/-- The entries placed back, or the entry that stops the re-injection with its mark. -/
inductive Inject where
  | placed (fly : List Res)
  | stopped (i : Nat) (r : Res)

/-- Re-injection in ascending order. -/
def injectAll (s : State) (core : Nat) : Nat → List Res → Except Stop Inject
  | _, [] => .ok (.placed [])
  | i, r :: rs =>
    if r.pfm.isSome then .ok (.stopped i r)
    else
      let q : Except Stop Res :=
        if !r.reissue then .ok r
        else
          match reload s core r with
          | .error (.miss wh c v) => .error (.miss wh c v)
          | .error (.flt f) => .ok { r with pfm := some f, reissue := false }
          | .ok (_, some f) => .ok { r with pfm := some f, reissue := false }
          | .ok (d, none) => .ok { r with data := d, reissue := false }
      match q with
      | .error e => .error e
      | .ok q =>
        if q.pfm.isSome then .ok (.stopped i q)
        else
          match injectAll s core (i + 1) rs with
          | .error e => .error e
          | .ok (.placed xs) => .ok (.placed (if q.gone then xs else q :: xs))
          | .ok x => .ok x

/-! ## Restarting commands (R378) -/

/-- A V command whose fault is the mark of a load in flight: its entry decides it. -/
def VRun.marks (v : VRun) (l : Live) : Bool := v.fly.any fun r => r.pfm.isSome && r.ent.num == l.ent.num

/-- A V command that is a collected body word of its loop. -/
def VRun.inBody (v : VRun) (l : Live) : Bool := match v.loop with | some p => p.body.any fun e => e.num == l.ent.num | none => false

/-- The faulted command of engine `e` starts again (R378, R328, R349, R362). -/
def State.restart (s : State) (cid e : Nat) : State :=
  let c := s.cont cid
  match c.faultOn e, c.core with
  | some l, some n =>
    let c := { c with faulted := c.faulted.filter fun x => x.eng != e }
    if e == 0 then
      let v := s.vrun l.ent.run
      let c := if v.marks l || v.inBody l then { c with live := c.live ++ [{ l with fault := none }] } else c
      (s.setCont cid c).setVrun l.ent.run { v with stopped := false }
    else
      let x := if e == 3 then { l.ent with start := max l.ent.start (match l.fault with | some f => f.progress | none => 0), moved := l.tx } else l.ent
      let co := s.core n
      (s.setCont cid c).setCore n { co with queues := co.queues.set e (.word x :: co.queues.getD e []) }
  | _, _ => s

/-- The restarts that RESTART asks for. -/
def State.restarts (s : State) (cid bitsOf : Nat) : State :=
  (List.range 6).foldl (fun (s : State) e => if bit bitsOf e then s.restart cid e else s) s

/-! ## Restoring a frame (R376, R377, R380) -/

/-- x1 to x31 from bytes. -/
def regsFrom (bs : List Byte) : Vector Word 32 :=
  (0#64 :: (List.range 31).map fun i => BitVec.ofNat 64 (fieldAt bs (8 * i) 8)).foldl (fun (p : Vector Word 32 × Nat) w =>
    (if h : p.2 < 32 then p.1.set p.2 w h else p.1, p.2 + 1)) (Vector.replicate 32 0, 0) |>.1

/-- A value of dclass as a write leaves it, over the old one (R122). -/
def dclassOf (old v : Nat) : Word := BitVec.ofNat 64 (bits v 3 0 + (if 6 ≤ bits v 6 4 then bits old 6 4 else bits v 6 4) * 16)

/-- Hart 0 as a frame `m` restores it over `h`. -/
def Hart.restored (h : Hart) (cid : Nat) (c : Cont) (img m : Memory) : Hart :=
  let f (o n : Nat) : Nat := mnum m o n
  let g := f 0xA43 1
  { h with
    x := regsFrom (mgets m 0x100 248)
    pc := BitVec.ofNat 64 (f 0 8)
    mode := .u
    ctx := c.ctx
    dfcsr := dfcsrOr (dfcsrMask (BitVec.ofNat 64 (f 0x200 8))) c.flagsIn
    dclass := dclassOf (mnum img 0x208 8) (f 0x208 8)
    dviewV := f 0x210 8
    dviewM := f 0x218 8
    dviewC := f 0x220 8
    sc0 := BitVec.ofNat 64 (f 0x228 8)
    sc1 := BitVec.ofNat 64 (f 0x230 8)
    resv := none
    group := { Group.none with opened := f 0xA40 1 == 1, code := f 0xA41 1, detail := f 0xA42 1, idx := g % 32, ld := bit g 5 }
    cont := some cid
    serving := false
    stalled := false
    again := if f 0 8 == mnum img 0 8 then h.again else .none }

/-- The loop that a drained loop goes on as (R380). -/
def Loop.resumed (l : Loop) : Loop :=
  { l with n := l.left, base := l.base + l.n, rb0 := rbAfter l.rot l.rb0 l.n, pass := 0, w := 0, left := 0, drain := false, exited := false }

/-- The vector run as a frame restores it. -/
def VRun.restored (v : VRun) (m rs : Memory) (fly : List Res) : VRun :=
  let pred : Tbl (BitVec 128) := (List.range 16).map fun k => (k, BitVec.ofNat 128 (mnum m (0x300 + 16 * k) 16))
  let v := { v with rs := rs, latch := (List.range 4).map fun k => lanesAt m (0x2800 + 512 * k) 128, pred := pred, fly := fly,
                    mbox := (List.range (mnum m 0x480 8)).map fun k => BitVec.ofNat 64 (mnum m (0x400 + 8 * k) 8) }
  match v.loop with
  | some l => if l.drained then { v with loop := some l.resumed, pred := stagePreds l.left 0 pred } else v
  | none => v

/-- The register-space image at RSPTR. -/
def readSave (s : State) (ag : Agent) (fa p : Nat) : Except Stop Memory :=
  if p == fa + 0x20000 then (readFramePage s ag p 0)
  else (memRead s ⟨ag, .load, p, 0x10000, false, true⟩ anyFmt).map (cellsAt 0)

/-- Words put back into a V queue with the settles that stood among them. -/
def mergeMarks : List Nat → List QEntry → List QItem
  | qs, [] => qs.map .settle
  | qs, e :: es => ((qs.filter (· ≤ e.seq)).map .settle) ++ (.word e :: mergeMarks (qs.filter (e.seq < ·)) es)

/-- Parked words back in their queues. -/
def Core.unpark (c : Core) (f : Frame) : Core :=
  if f.parked.isEmpty && f.marks.isEmpty then c
  else
    let of (e : Nat) : List QEntry := (f.parked.filter fun p => p.1 == e).map Prod.snd
    { c with queues := c.queues.zipIdx.map fun (q, e) => if e == 0 then mergeMarks f.marks (of 0) else q ++ (of e).map .word }

/-- What the restoration of a frame comes to. -/
inductive Restored where
  | ok (s : State)
  | fails                      -- the frame fails a check of tret, or asks for abandonment

/-- The frame of continuation `cid` restored on hart `n`, which is `h` apart from what the frame holds, and
its entries re-injected; `handler` says that a handler served it (R376 to R378). -/
def State.restoreFrame (s : State) (n cid : Nat) (h : Hart) (fr : Frame) (handler : Bool) : Except Stop Restored :=
  let c := s.cont cid
  let core := coreOf n
  let ag := frameAgent s core
  let fa := frameAddr s c.ctx core c.slot
  match readFramePage s ag fa 0 with
  | .error e => .error e
  | .ok m0 =>
    match readFramePage s ag (fa + 0x10000) 0x10000 with
    | .error e => .error e
    | .ok m1 =>
    match readFramePage s ag (fa + 0x30000) 0x30000 with
    | .error e => .error e
    | .ok m3 =>
      let m := m0 ++ m1
      let v := s.vrun fr.run
      let img := fr.image.filter fun x => x.1 < 0x20000
      let p := mnum m 24 8
      let action := (mget m 13).toNat
      match editFly m v.cyc 0 v.fly with
      | none => .ok .fails
      | some (fly, gone) =>
        if action != 0 || !frameKept v.fly img (m ++ m3) || p % 0x10000 != 0 then .ok .fails
        else
          match readSave s ag fa p with
          | .error e => .error e
          | .ok rs =>
            let t := if handler then s.restarts cid (mget m 14).toNat else s
            let d := t.cont cid
            let d := gone.foldl (fun (d : Cont) r => d.landed r.ent.num) { d with frame := none, flagsIn := 0, stat := .running, wait := .none }
            let t := t.setCont cid d
            let t := t.setVrun fr.run ((t.vrun fr.run).restored m rs fly)
            let t := t.setHart n (h.restored cid c img m)
            let t := t.setCore core ((t.core core).unpark fr)
            match injectAll t core 0 fly with
            | .error e => .error e
            | .ok (.placed fly) => .ok (.ok ((t.setVrun fr.run { t.vrun fr.run with fly := fly }).forgetWalks core))
            | .ok (.stopped i r) =>
              let t := (t.setVrun fr.run { t.vrun fr.run with fly := fly.set i r }).forgetWalks core
              match frameMiss t core c.ctx c.slot with
              | some e => .error e
              | none => .ok (.ok (t.trap n 25 0 none (some ⟨r.ent.num, 0, 1, i, 0, r.pfm⟩)))

/-- The V queue and pipeline of core `n` hold no word of another continuation (R376); one whose frame stands has its words there. -/
def State.vAlone (s : State) (n cid : Nat) : Bool :=
  !((s.core n).queues.headD []).any (fun i => match i with | .word e => e.cid != cid | .settle _ => false) &&
    !(s.runs.any fun p => (s.cont p.2.cid).core == some n && p.2.cid != cid && p.2.busy && (s.cont p.2.cid).frame.isNone)

/-- tret (R279, R376 to R378). -/
def execTret (s : State) : Out :=
  if !(isHart0 s.hn && s.me.mode == .s) then s.illegalI .tret
  else
    match s.me.cont with
    | none => s.illegalI .tret
    | some cid =>
      match (s.cont cid).frame with
      | none => s.illegalI .tret
      | some fr =>
        if !s.me.serving then s.illegalI .tret
        else if !s.vAlone (coreOf s.hn) cid then .next s.stall
        else
          match s.restoreFrame s.hn cid { s.me with instret := s.me.instret + 1 } fr true with
          | .error (.miss wh c v) => .next (s.hartMiss wh c v)
          | .error (.flt f) => .next (((s.noted f).abandonCont cid (some f)).tookWalk (.hart s.hn))
          | .ok .fails => .next ((s.abandonCont cid fr.mfr).tookWalk (.hart s.hn))
          | .ok (.ok t) => .next (t.tookWalk (.hart s.hn))

/-! ## The choice of hart 1 (R199 to R202, R219, R321) -/

/-- A READY continuation may run on core `n`: it stands there, or it has no slot and `n` lies in its instance, or that has been
fenced whole (R199, R209, log 82). -/
def State.mayRun (s : State) (n : Nat) (c : Cont) : Bool :=
  c.stat == .ready && c.unsaved.isNone && (c.core == some n || (c.core.isNone && (instOf c.dom n == c.inst || !s.anyInService c.dom c.inst) && !(s.freeSlots n).isEmpty))

/-- The numbers of the continuations that could run on core `n`. -/
def State.readyOn (s : State) (n : Nat) : List Nat := (s.conts.filter fun p => s.mayRun n p.2).map Prod.fst

/-- Every READY continuation has waited for `us` microseconds more. -/
def waitOn (us : Nat) : Tbl Cont → Tbl Cont
  | [] => []
  | (k, c) :: t => (k, if c.stat == .ready then { c with waited := c.waited + us } else c) :: waitOn us t

/-- Time passes (R208, R219). -/
def State.elapse (s : State) (us : Nat) : State := { s with conts := waitOn us s.conts }

/-- A walker starts a launch (R190). -/
def State.walkerStart (s : State) (lid : Nat) : Out := evWhen (s.feOn && s.canStart lid) (evOut s (s.startLaunch lid))

/-- `a` goes before `b` (R219). -/
def Cont.before (a b : Cont) : Bool :=
  if (300 ≤ a.waited || 300 ≤ b.waited) && a.waited != b.waited then b.waited < a.waited
  else if a.waited < 300 && a.prio != b.prio then b.prio < a.prio
  else if a.lid != b.lid then a.lid < b.lid
  else a.ordinal < b.ordinal

/-- The first of some continuations. -/
def State.firstOf (s : State) : List Nat → Option Nat
  | [] => none
  | k :: ks =>
    match s.firstOf ks with
    | none => some k
    | some j => if (s.cont j).before (s.cont k) then some j else some k

/-- Hart 0 as a continuation starts or resumes without a frame (R196, R198); a store group that it was suspended in is still open. -/
def Hart.started (h : Hart) (cid : Nat) (c : Cont) : Hart :=
  let h0 := { h.free with x := Vector.replicate 32 0, again := c.wait, group := c.group, pc := c.pc, mode := .u, ctx := c.ctx, dfcsr := c.dfcsr, dclass := c.dclass, cont := some cid }
  c.a.zipIdx.foldl (fun (h : Hart) p => h.wx (BitVec.ofNat 5 (10 + p.2)) p.1) h0

/-- The engine state of a continuation as it resumes after a suspension point: reset without a home core (R321, R337). -/
def Cont.engState (c : Cont) : Cont :=
  if c.homed then c else { c with epi := Cont.fresh.epi, lut := [], mxProg := 0, sigCfg := [] }

/-- The continuation takes a slot of core `n`, when it has none. -/
def State.takeSlot (s : State) (n cid : Nat) : State :=
  let c := s.cont cid
  if c.core == some n then s
  else
    let k := (s.freeSlots n).headD 0
    (s.setCore n { s.core n with slots := tset (s.core n).slots k cid }).setCont cid { c with core := some n, slot := k }

/-- Continuation `cid` starts on core `n` without a frame, with a new vector run (R69). -/
def State.startOn (s : State) (n cid : Nat) : State :=
  let c := (s.cont cid).engState
  let r := s.nextRun
  (({ s with nextRun := r + 1 }.setVrun r (VRun.start cid)).setCont cid { c with stat := .running, wait := .none, run := r }).setHart (2 * n)
    ((s.hart (2 * n)).started cid c)

/-- CONTINUATION_CHOICE: the storage of the chosen continuation is restored first (R68, R383). -/
def execContinuationChoice (core : Nat) (s : State) : Out :=
  let n := core
  if (s.hart (2 * n)).cont.isSome || !s.coreOk n || s.hoPaused 1 n then .fault .notEnabled
  else
    match s.firstOf (s.readyOn n) with
    | none => .fault .notEnabled
    | some cid =>
      match (s.takeSlot n cid).restoreFor n cid with
      | .error e => .next (evStop s e)
      | .ok (t, false) => evPassed s t
      | .ok (t, true) =>
        match (t.cont cid).frame with
        | none => evDecided s 1 (t.startOn n cid)
        | some fr =>
          if !t.vAlone n cid then .fault .notEnabled
          else
            let h := t.hart (2 * n)
            match t.restoreFrame (2 * n) cid { fr.hart with csr := h.csr, instret := h.instret } fr false with
            | .error (.miss wh c v) => .next (s.missed wh c v)
            | .error (.flt f) => evDecided s 1 (((t.noted f).abandonCont cid (some f)).tookWalk (.hart (2 * n)))
            | .ok .fails => evDecided s 1 ((t.abandonCont cid fr.mfr).tookWalk (.hart (2 * n)))
            | .ok (.ok t) => evDecided s 1 (t.tookWalk (.hart (2 * n)))

/-- Scheduler firmware claims weight-buffer entry `w` of core `n`, the first victim that can be had, once the free sectors might not
hold a block (R357, R383, R403; log 77). -/
def State.weightClaim (s : State) (n w : Nat) : Out :=
  if s.hoPaused 1 n || sectorsUsed (s.core n).wb + 8 ≤ 32768 then .fault .notEnabled
  else
    match claimFirst n (s.weightVictims n none) s with
    | .error x => evOut s (.error x)
    | .ok (t, none) => evPassed s t
    | .ok (t, some k) => if k == w then evDecided s 1 t else .fault .notEnabled

/-- A group open for more than 4,096 clk aborts (R141, R274). -/
def execSgTimeout (hart : Nat) (s : State) : Out :=
  let h := s.hart hart
  evWhen (h.group.opened && h.group.code == 0) (.next (s.setHart hart { h with group := h.group.abort 8 0 0 false }))

end Sys2Proof.Machine
end

