-- ==== Sys2Proof/Machine/Graphs.lean ====
section
/-! DEFINITION. Runs of the resident graphs: their start, their nodes, the planner, and load shedding (R212 to R214, R223,
R423). -/

namespace Sys2Proof.Machine

/-! ## Commands of Owl's made by the front end -/

/-- A CM operation: the state and its status, 0 when it succeeded; what it must wait for is left (R366, R440). -/
def cmOutcome (s : State) : EM State → Except EStop (State × Nat)
  | .ok t => .ok (t, 0)
  | .error (.fault 9 c _) => .ok (s, c)
  | .error (.fault _ _ _) => .ok (s, 9)
  | .error (.owl t st f) =>
    match owlStopped t st f with
    | .ok t => .ok (t, 9)
    | .error (.miss wh c v) => .error (.miss wh c v)
    | .error (.flt _) => .ok (s, 9)
  | .error e => .error e

/-- What an operation of the front end comes to. -/
def evEM (s0 : State) : Except EStop State → Out
  | .ok s => .next (s.tookWalk .part)
  | .error e => .next (evStop s0 e)

/-- Bytes of a range, read in 256-byte pieces. -/
def rdSpans (s : State) (ag : Agent) : Spans → Except Stop (List Byte)
  | [] => .ok []
  | x :: xs =>
    match rdBytes s ag .engRead x.1 x.2 with
    | .error e => .error e
    | .ok b => (rdSpans s ag xs).map fun bs => b ++ bs

/-! ## Runs -/

/-- The run of stream `st` at a node: its bytes. -/
def GRun.at? (r : GRun) : Option (Nat × List Byte) :=
  match r.node with
  | some i => if i < r.nodes.length then some (i, r.nodes.getD i []) else none
  | none => none

/-- Control passes to a node; 0xFFFF ends the run. -/
def GRun.goTo (r : GRun) (n : Nat) : GRun :=
  { r with node := if n == 0xFFFF then none else some n, steps := r.steps + 1, plan := none, waitFor := none }

/-- NEXT of a node. -/
def nodeNext (b : List Byte) : Nat := fieldAt b 2 2

/-- A SIGNAL with FINAL = 1. -/
def nodeFinal (b : List Byte) : Bool := fieldAt b 0 1 == 7 && bit (fieldAt b 16 8) 3

/-- The run of a stream stands at a node of a kind: `k` performs it, unless it is passed over (R214). -/
def State.atNode (s : State) (st kind : Nat) (k : GRun → Nat → List Byte → Out) : Out :=
  match (s.stream st).run with
  | none => .fault .notEnabled
  | some r =>
    match r.at? with
    | none => .fault .notEnabled
    | some (i, b) =>
      if fieldAt b 0 1 != kind || 65536 ≤ r.steps || r.plan.isSome || r.relax.isSome then .fault .notEnabled
      else if r.status != 0 && !nodeFinal b && r.waitFor.isNone then .next (s.setRun st (r.goTo (nodeNext b)))
      else k r i b

/-- Launches of a run: all of them, or only those of ASYNC nodes, have completed. -/
def State.runDrained (s : State) (id : Nat) (asyncOnly : Bool) : Bool :=
  s.launches.all fun p => p.2.run != some id || p.2.finished || (asyncOnly && !p.2.async)

/-! ## Load shedding and replay (R423, R223) -/

/-- FE_STR_s.REPLAY. -/
def State.replaying (s : State) (st : Nat) : Bool := bit (s.feStr st) 17

/-- The records of FE_RLOG_s in log order: the ring from FE_RLOG_POS_s on. -/
def replayLog (s : State) (st : Nat) : Except Stop (List (List Byte)) :=
  let v := s.rget (oFeStr st + 0x30) 0
  let n := ringSize v
  match rdSpans s (feAgent (s.streamCtx st)) (cutSpan (n / 8 + 2) (bits v 51 12 * 4096) (32 * n)) with
  | .error e => .error e
  | .ok bs =>
    let rs := chunksOf 32 n bs
    let p := s.rget (oFeStr st + 0x38) 0 % n
    .ok (rs.drop p ++ rs.take p)

/-- FE_RLOG_POS_s moves past `k` records (R216). -/
def State.rlogSkip (s : State) (st k : Nat) : State :=
  s.rset (oFeStr st + 0x38) ((s.rget (oFeStr st + 0x38) 0 + k) % 2 ^ 32)

/-- The run of a trigger with argument `arg` is shed; a replayed SHED record has been applied. -/
def State.shedRun (s : State) (st : Nat) (arg : Word) : Except Stop (State × Bool) :=
  let v := s.rget (oRAS + 0x70) 0
  if s.replaying st then
    match replayLog s st with
    | .error (.miss wh c w) => .error (.miss wh c w)
    | .error (.flt f) => .ok (s.noted f, false)
    | .ok rs =>
      match rs.findIdx? fun b => fieldAt b 8 1 == 7 && fieldAt b 0 8 == arg.toNat with
      | some i => .ok (s.rlogSkip st (i + 1), true)
      | none => .ok (s, false)
  else .ok (s, bit v 0 && bits v 2 1 ≤ bits (s.feStr st) 1 0 && (s.stream st).shed % max (bits v 15 8) 1 != 0)

/-- A run of stream `st` starts with the trigger at the head of its queue; a shed run appends its SHED record. -/
def State.startRun (s : State) (st : Nat) (t : Trig) (ts : List Trig) (shed : Bool) : Except EStop State :=
  let x := s.stream st
  let g := s.rget (oFeStr st + 8) 0
  let id := s.clock + 1
  let r : GRun :=
    { id := id, seq := x.runs + 1, node := none, nodes := if bit g 8 then tget [] s.graphs (bits g 7 0) else [], arg := t.arg, dec := t.dec
      status := b2n shed, snode := m32, counts := [], steps := 0, cmu := 0, plan := none, relax := none, waitFor := none
      nj0 := s.rget (oEAU + 0x2000 + 16 * st) 0 }
  let r := { r with node := if r.nodes.isEmpty then none else some 0 }
  let n := if bit (s.rget (oRAS + 0x70) 0) 0 then x.shed + 1 else x.shed
  let bufs := x.busyBufs.map fun p => if t.dec && p.1 == t.arg.toNat && p.2 == 0 then (p.1, id) else p
  let s := { s with clock := id }.setStream st { x with trigq := ts, run := some r, runs := x.runs + 1, shed := n, busyBufs := bufs }
  let s := if t.dec then s.rset (oCmuS st 0x28) t.arg.toNat else s
  if shed then
    match logAppend s st (logRec t.arg.toNat 7 0 0 0 0 0 0) with
    | .error (.owl s st f) => (match owlStopped s st f with | .ok s => .ok s | .error e => .error e.engine)
    | r => r
  else .ok s

/-- GRAPH_RUN_START: a trigger waits while firmware decides nothing (R416). -/
def execGraphRunStart (st : Nat) (s : State) : Out :=
  let x := s.stream st
  let busy := match x.run with | some r => r.node.isSome || r.relax.isSome | none => false
  match x.trigq with
  | [] => .fault .notEnabled
  | t :: ts =>
    evWhen (s.feOn && !busy && !s.hoWaits 1)
      (match s.shedRun st t.arg with
       | .error e => evOut s (.error e)
       | .ok (u, b) => evEM s (u.startRun st t ts b))

/-! ## The planner (R223) -/

/-- What the planner decides. -/
inductive Plan where
  | grant (cost : Nat)
  | skip (n : Nat)
  | wait (cost n : Nat)
  | fail (status : Nat)
  deriving DecidableEq, Repr, Inhabited

/-- The number of the operation that the run of stream `st` makes at its node (R183). -/
def GRun.opNum (r : GRun) : Nat := r.id * 2 ^ 17 + r.steps + 1

/-- An operation that the run of stream `st` asks of Owl. -/
def State.owlKey (s : State) (st : Nat) : Nat × Nat := (1000 + st, match (s.stream st).run with | some r => r.id | none => 0)

/-- An operation that has its turn at Owl: a miss keeps it. -/
def atOwl {α : Type} : Except EStop α → Except EStop α
  | .error (.miss wh c v) => .error (.begun wh c v)
  | r => r

/-- cm.thr, then the CMU node again, which is charged: the state, and its status; both wait for their turn at Owl (R160, R218, R222). -/
def rescale (s : State) (st l li scale : Nat) : Except EStop (State × Nat) :=
  let ctx := s.streamCtx st
  if !s.owlMay (s.owlKey st) then .error .wait
  else
    atOwl (match cmOutcome s (cmThr s st l scale ctx) with
      | .error e => .error e
      | .ok (s, 0) => (cmOutcome s (cmEval s st l li ctx)).map fun p => (p.1.charge 7 0 ctx (some st) none none, p.2)
      | .ok (s, c) => .ok (s, c))

/-- What the planner comes to: it waits for Owl, keeps its turn there (R218), or is done with it. -/
def evPlan (s0 : State) (st : Nat) : Except EStop State → Out
  | .ok s => evDecided s0 1 (s.owlLeave (s0.owlKey st))
  | .error .wait => .next (s0.owlJoin (s0.owlKey st))
  | .error (.logFull op k rs) => .next ((s0.logStall op k rs).owlJoin (s0.owlKey st))
  | .error (.begun wh c v) => .next ((s0.missed wh c v).owlJoin (s0.owlKey st))
  | .error e => .next (evStop s0 e)

/-- NSCALE of a layer. -/
def nscaleOf (s : State) (st l : Nat) : Except EStop (State × Nat) :=
  match readLayer s st l with
  | .ok (s, b) => .ok (s, lsNscale b)
  | .error (.owl t st f) => (match owlStopped t st f with | .ok t => .ok (t, 0) | .error e => .error e.engine)
  | .error e => .error e

/-- COUNT_R of the launch's list. -/
def listCount (s : State) (l : Launch) (h : Handle) : Except EStop (Option Nat) :=
  match listCounts s l h.base with
  | .ok (r, _) => .ok (some r)
  | .error (.miss wh c v) => .error (.miss wh c v)
  | .error (.flt _) => .ok none

/-- The planner's loop. -/
def planLoop (st ly li : Nat) (e : LayerE) (l : Launch) (h : Handle) : Nat → State → Except EStop (State × Plan)
  | 0, s => .ok (s, .fail 2)
  | k + 1, s =>
    match listCount s l h with
    | .error x => .error x
    | .ok none => .ok (s, .fail 9)
    | .ok (some n) =>
      let cost := n * e.ept
      if (cost : Int) ≤ s.credit st then .ok (s, .grant cost)
      else
        match nscaleOf s st ly with
        | .error x => .error x
        | .ok (s, ns) =>
          if e.esc && ns < e.esmax then
            match rescale s st ly li (min e.esmax (ns + 0x40)) with
            | .error x => .error x
            | .ok (s, 0) => planLoop st ly li e l h k s
            | .ok (s, c) => .ok (s, .fail c)
          else .ok (s, .wait cost n)

/-- The records of a replayed log from number `i` on applied in order, and FE_RLOG_POS_s moved past the last of them: `k` records
(R216, R223). -/
def replayPlan (st ly li frame : Nat) : List (List Byte) → Nat → Nat → Bool → State → Except EStop (State × Plan)
  | [], _, k, defer, s => .ok (s.rlogSkip st k, if defer then .skip 0 else .grant 0)
  | b :: bs, i, k, defer, s =>
    if fieldAt b 0 8 != frame || fieldAt b 9 1 % 64 != ly then replayPlan st ly li frame bs (i + 1) k defer s
    else if fieldAt b 8 1 == 4 then
      match rescale s st ly li (fieldAt b 10 2) with
      | .error x => .error x
      | .ok (s, 0) => replayPlan st ly li frame bs (i + 1) (i + 1) defer s
      | .ok (s, c) => .ok (s.rlogSkip st (i + 1), .fail c)
    else if fieldAt b 8 1 == 6 then replayPlan st ly li frame bs (i + 1) (i + 1) true s
    else replayPlan st ly li frame bs (i + 1) k defer s

/-- The CMU node that CMUN names when it produced the launch's recompute list: its layer and list handle. -/
def GRun.producer (r : GRun) (b : List Byte) (l : Launch) : Option (Nat × Nat) :=
  let n := r.nodes.getD (fieldAt b 26 2) []
  let li := bits (fieldAt n 10 2) 11 0
  if fieldAt n 0 1 == 2 && l.isList && !l.section1 && l.listH == li then some (bits (fieldAt n 8 2) 5 0, li) else none

/-- The planner's decision on a launch. -/
def planLaunch (s : State) (st ly li : Nat) (l : Launch) : Except EStop (State × Plan) :=
  if s.replaying st then
    match replayLog s st with
    | .error (.miss wh c v) => .error (.miss wh c v)
    | .error (.flt _) => .ok (s, .fail 9)
    | .ok rs => replayPlan st ly li (s.cmuFrame st) rs 0 0 false s
  else
    match s.heldLayer st ly, launchList s l with
    | _, .error (.miss wh c v) => .error (.miss wh c v)
    | some e, .ok (some h) => planLoop st ly li e l h 1100 s
    | _, _ => .ok (s, .fail 2)

/-- The launch of a node accepted: with ASYNC = 0 the run waits for it. -/
def State.nodeAccept (s : State) (st : Nat) (r : GRun) (b rcd : List Byte) : Except Stop State :=
  let async := bit (fieldAt b 24 2) 6
  let u : Submit := ⟨s.streamCtx st, some st, fieldAt b 16 8, none, 0, async, some r.id, r.node.getD 0⟩
  match s.acceptLaunch u rcd with
  | .error e => .error e
  | .ok (s, lid) =>
    let r := (s.stream st).run.getD r
    .ok (s.setRun st (if async then r.goTo (nodeNext b) else { r with plan := none, waitFor := some lid }))

/-- The launch accepted after an admission; the factor is to be lowered again when the credit allows (R223). -/
def State.nodeAdmitted (s : State) (st ly cost : Nat) (r : GRun) (b rcd : List Byte) : Except EStop State :=
  match s.nodeAccept st r b rcd with
  | .error e => .error e.engine
  | .ok s =>
    match (s.stream st).run with
    | some q => .ok (if s.replaying st || s.credit st < 2 * (cost : Int) then s else s.setRun st { q with relax := some ly })
    | none => .ok s

/-- The factor of a layer lowered after an admission, when it is above 1 (R223). -/
def State.nodeRelax (s : State) (st ly : Nat) (r : GRun) : Except EStop State :=
  match nscaleOf s st ly with
  | .error e => .error e
  | .ok (s, ns) =>
    if ns ≤ 0x100 then .ok (s.setRun st { r with relax := none })
    else if !s.owlMay (s.owlKey st) then .error .wait
    else (atOwl (cmOutcome s (cmThr s st ly (ns - 0x40) (s.streamCtx st)))).map fun p => p.1.setRun st { r with relax := none }

/-- The run skips at node `i`: the DEFER record of a layer with `n` tiles (R223). -/
def State.nodeSkip (s : State) (st ly n i : Nat) (r : GRun) (b : List Byte) (defer : Bool) : Except EStop State :=
  let s := s.setRun st ((r.fail i 1).goTo (nodeNext b))
  if !defer then .ok s
  else
    match readLayer s st ly with
    | .error (.owl t st f) => (match owlStopped t st f with | .ok t => .ok t | .error e => .error e.engine)
    | .error e => .error e
    | .ok (s, ls) => (cmOutcome s (logAppend s st (logRec (s.cmuFrame st) 6 ly 0 n 0 0 (lsGen ls)))).map Prod.fst

/-- The record of a LAUNCH node with its relocation (R214). -/
def nodeRecord (r : GRun) (b rcd : List Byte) : List Byte :=
  let c := fieldAt b 24 2
  if bit c 4 then
    let o := 128 + 8 * bits c 3 0
    rcd.take o ++ leBytes 8 ((fieldAt rcd o 8 + r.arg.toNat % (fieldAt b 40 2 + 1) * fieldAt b 32 8) % 2 ^ 64) ++ rcd.drop (o + 8)
  else rcd

/-- NODE_LAUNCH: the launch is made, or the wait for it ends. An admission is the planner's, which waits in the pause of a hand-over
(R403, R416). -/
def execNodeLaunch (st : Nat) (s : State) : Out :=
  s.atNode st 1 fun r i b =>
    let next := nodeNext b
    match r.waitFor with
    | some lid =>
      let l := s.launch lid
      evWhen l.finished (.next (s.setRun st (r.goTo next)))
    | none =>
      let ctx := s.streamCtx st
      match rdBytes s (feAgent ctx) .engRead (fieldAt b 8 8) 256 with
      | .error (.miss wh c v) => .next (s.missed wh c v)
      | .error (.flt f) =>
        evOut s (((s.noted f).refuseLaunch ⟨ctx, some st, fieldAt b 16 8, none, 0, false, some r.id, i⟩ [] 2 0 (some f)).map fun p =>
          p.1.setRun st ((r.fail i 2).goTo next))
      | .ok rcd =>
        let rcd := nodeRecord r b rcd
        let l : Launch := { Launch.none with bytes := rcd, ctx := ctx, stream := some st }
        if !bit (fieldAt b 24 2) 5 then evOut s (s.nodeAccept st r b rcd)
        else if s.hoWaits 1 then .fault .notEnabled
        else
          match r.producer b l with
          | none => .next (s.setRun st ((r.fail i 2).goTo next))
          | some (ly, li) =>
            match planLaunch (s.operation r.opNum) st ly li l with
            | .error e => evPlan s st (.error e)
            | .ok (t, .grant cost) => evPlan s st (t.nodeAdmitted st ly cost r b rcd)
            | .ok (t, .skip n) => evPlan s st (t.nodeSkip st ly n i r b false)
            | .ok (t, .fail c) => evPlan s st (.ok (t.setRun st (({ r with cmu := c }.fail i 2).goTo next)))
            | .ok (t, .wait cost n) => evPlan s st (.ok (t.setRun st { r with plan := some ⟨cost, (t.stream st).credited, ly, n, rcd⟩ }))

/-- PLANNER_WAIT_END: the credit suffices, or a trigger was credited after the wait began and it does not; or the factor is lowered
after an admission (R223, R224). -/
def execPlannerWaitEnd (st : Nat) (s : State) : Out :=
  match (s.stream st).run with
  | none => .fault .notEnabled
  | some r =>
    if s.hoWaits 1 then .fault .notEnabled else
    match r.relax, r.plan, r.at? with
    | some ly, _, _ => evPlan s st ((s.operation r.opNum).nodeRelax st ly r)
    | none, some p, some (i, b) =>
      if (p.cost : Int) ≤ s.credit st then evPlan s st (s.nodeAdmitted st p.layer p.cost r b p.rcd)
      else if (s.stream st).credited != p.trigs then evPlan s st ((s.operation r.opNum).nodeSkip st p.layer p.count i r b true)
      else .fault .notEnabled
    | _, _, _ => .fault .notEnabled

/-! ## The other nodes (R214) -/

/-- NODE_CMU: it waits for its turn at Owl (R160, R218). -/
def execNodeCmu (st : Nat) (s : State) : Out :=
  s.atNode st 2 fun r i b =>
    let ctx := s.streamCtx st
    let k := s.owlKey st
    if !s.owlMay k then .next (s.owlJoin k)
    else
      let u := s.operation r.opNum
      match cmOutcome u (cmEval u st (bits (fieldAt b 8 2) 5 0) (bits (fieldAt b 10 2) 11 0) ctx) with
      | .error e => .next ((evStop s e).owlJoin k)
      | .ok (t, c) =>
        let r := { r with cmu := c }
        .next ((((t.charge 7 0 ctx (some st) none none).setRun st ((if c == 0 then r else r.fail i 2).goTo (nodeNext b))).owlLeave k).tookWalk
          .part)

/-- Bytes copied source piece by source piece, up to a fault. -/
def copySpans (ag : Agent) (d : Nat) : Spans → State → Except Stop (State × Bool)
  | [], s => .ok (s, true)
  | x :: xs, s =>
    match rdBytes s ag .engRead x.1 x.2 with
    | .error (.miss wh c v) => .error (.miss wh c v)
    | .error (.flt f) => .ok (s.noted f, false)
    | .ok bs =>
      match writeRangeP s ag d bs with
      | (_, _, some (.miss wh c v)) => .error (.miss wh c v)
      | (s, _, some (.fault _ _ (some f))) => .ok (s.noted f, false)
      | (s, _, some _) => .ok (s, false)
      | (s, _, none) => copySpans ag ((d + x.2) % 2 ^ 64) xs s

/-- NODE_COPY. -/
def execNodeCopy (st : Nat) (s : State) : Out :=
  s.atNode st 3 fun r i b =>
    let ctx := s.streamCtx st
    let n := fieldAt b 24 4
    match copySpans (feAgent ctx) (fieldAt b 16 8) (cutSpan (n / 256 + 2) (fieldAt b 8 8) n) s with
    | .error e => evOut s (.error e)
    | .ok (t, ok) => .next (((t.charge 2 0 ctx (some st) none none).setRun st ((if ok then r else r.fail i 2).goTo (nodeNext b))).tookWalk .part)

/-- An 8-byte value that the executor reads; none when the read faults. -/
def runValue (s : State) (st a : Nat) : Except Stop (Option Nat) :=
  match rdBytes s (feAgent (s.streamCtx st)) .engRead a 8 with
  | .ok bs => .ok (some (leNat bs))
  | .error (.miss wh c v) => .error (.miss wh c v)
  | .error (.flt _) => .ok none

/-- NODE_WAIT. -/
def execNodeWait (st : Nat) (s : State) : Out :=
  s.atNode st 4 fun r i b =>
    let next := nodeNext b
    if !bit (fieldAt b 8 8) 0 then evWhen (s.runDrained r.id true) (.next (s.setRun st (r.goTo next)))
    else
      match runValue s st (fieldAt b 16 8) with
      | .error e => evOut s (.error e)
      | .ok none => .next ((s.setRun st ((r.fail i 2).goTo next)).tookWalk .part)
      | .ok (some v) => if fieldAt b 24 8 ≤ v then .next ((s.setRun st (r.goTo next)).tookWalk .part) else .next (s.tookWalk .part)

/-- OP of a COND node; none for a reserved code. -/
def condOp (op x v : Nat) : Option Bool :=
  match op with | 0 => some (x == v) | 1 => some (x != v) | 2 => some (x < v) | 3 => some (v ≤ x) | _ => none

/-- NODE_COND. -/
def execNodeCond (st : Nat) (s : State) : Out :=
  s.atNode st 5 fun r i b =>
    let x : Except Stop (Option Nat) :=
      match fieldAt b 8 2 with
      | 0 => .ok (some r.arg.toNat)
      | 1 => .ok (some (tget 0 r.counts (fieldAt b 10 2)))
      | 2 => runValue s st (fieldAt b 16 8)
      | 3 => .ok (some r.cmu)
      | _ => .ok none
    match x with
    | .error e => evOut s (.error e)
    | .ok v =>
      let r' := match v.bind fun v => condOp (fieldAt b 12 2) v (fieldAt b 24 8) with
        | none => (r.fail i 2).goTo (nodeNext b)
        | some true => r.goTo (fieldAt b 14 2)
        | some false => r.goTo (nodeNext b)
      .next ((s.setRun st r').tookWalk .part)

/-- NODE_LOOP. -/
def execNodeLoop (st : Nat) (s : State) : Out :=
  s.atNode st 6 fun r i b =>
    let n := tget 0 r.counts i + 1
    let r' := if n < fieldAt b 8 2 then { r with counts := tset r.counts i n }.goTo (fieldAt b 10 2)
      else { r with counts := tset r.counts i 0 }.goTo (nodeNext b)
    .next (s.setRun st r')

/-- The run record. -/
def runRecord (s : State) (st : Nat) (r : GRun) : List Byte :=
  leBytes 8 r.arg.toNat ++ leBytes 4 r.status ++ leBytes 4 r.snode ++ leBytes 8 (s.rget (oEAU + 0x2000 + 16 * st) 0 - r.nj0) ++ leBytes 8 r.seq

/-- NODE_SIGNAL: it waits for every launch that the run has made (R146, R441). -/
def execNodeSignal (st : Nat) (s : State) : Out :=
  s.atNode st 7 fun r _ b =>
    evWhen (s.runDrained r.id false)
      (evOut s ((s.feWrite (s.streamCtx st) (fieldAt b 8 8) (runRecord s st r)).map fun p => p.1.setRun st (r.goTo (nodeNext b))))

/-- RUN_NODE_LIMIT. -/
def execRunNodeLimit (st : Nat) (s : State) : Out :=
  match (s.stream st).run with
  | none => .fault .notEnabled
  | some r =>
    match r.node with
    | none => .fault .notEnabled
    | some i => evWhen (65536 ≤ r.steps) (.next (s.setRun st { r with status := 2, snode := i, node := none, plan := none, waitFor := none }))

/-! ## Loading a graph (R213) -/

def execGraphLoad (cmd : BitVec 32) (s : State) : Out := .next (s.graphLoad (cmd.toNat &&& fm 16 0))

def execGraphLoadComplete (s : State) : Out :=
  match s.gload with
  | some cmd => .next (s.graphDone cmd.toNat)
  | none => .fault .notEnabled

end Sys2Proof.Machine
end

