-- ==== Sys2Proof/Machine/Streams.lean ====
section
/-! DEFINITION. Events of the streams: triggers (R28, R212), opening and closing (R161, R216), the record queues (R211),
binding (R217), and the decode engines (R155 to R159, R218). -/

namespace Sys2Proof.Machine

/-! ## Triggers (R28, R212) -/

/-- A hart of context `ctx` outside any core's turn, at the trigger window (R28). -/
def trigReq (ctx : Nat) (mMode : Bool) (acc : Acc) (va : Word) : Req :=
  ⟨⟨.fe, 8, 0, if mMode then .m else .u, ctx, 0, reachHart0⟩, acc, va.toNat, 8, true, true⟩

/-- The access answers a fault, or goes on at its trigger register. -/
def State.atTrigger (s : State) (r : Req) (k : Nat → Nat → Out) : Out :=
  if r.va < trigBase then .fault .notEnabled
  else
    match plan s r anyFmt with
    | .error (.miss wh c v) => .next (s.missed wh c v)
    | .error (.flt f) => .next { s.noted f with reply := ⟨[], some f⟩ }
    | .ok [p] => (match p.tgt with | .trig st off => k st off | _ => .fault .notEnabled)
    | .ok _ => .fault .notEnabled

/-- TRIGGER_STORE; a store that finds the queue full is not performed yet. -/
def execTriggerStore (ctx : Nat) (mMode : Bool) (va arg : Word) (s : State) : Out :=
  s.atTrigger (trigReq ctx mMode .store va) fun st off =>
    match trigWrite s st off arg with
    | some t => .next { t with reply := ⟨[], none⟩ }
    | none => .fault .notEnabled

/-- TRIGGER_COUNT_LOAD. -/
def execTriggerCountLoad (ctx : Nat) (mMode : Bool) (va : Word) (s : State) : Out :=
  s.atTrigger (trigReq ctx mMode .load va) fun st off => .next { s with reply := ⟨leBytes 8 (trigRead s st off 8), none⟩ }

/-- TRIGGER_ACCEPT. -/
def execTriggerAccept (st : Nat) (s : State) : Out := evWhen (!(s.stream st).sent.isEmpty) (.next (s.acceptTrig st))

/-! ## Opening and closing (R161, R216) -/

/-- STREAM_OPEN. -/
def execStreamOpen (st : Nat) (v : BitVec 32) (s : State) : Out :=
  evWhen (!s.isOpen st && bit v.toNat 16) (evOut s (s.openStream st v.toNat))

/-- STREAM_CLOSE. -/
def execStreamClose (st : Nat) (s : State) : Out := evWhen (s.isOpen st) (.next (s.closeStream st))

/-! ## The record queue (R210, R211) -/

/-- The head record of a stream's queue. -/
def State.headRec (s : State) (st : Nat) : Option (List Byte) := (s.stream st).hw.head?

/-- A head record discarded and counted. -/
def State.badRec (s : State) (st : Nat) : Out := evOut s ((s.qpop st).map fun s => s.rinc32 (oFeStr st + 0x28))

/-- QUEUE_BITS_RECORD: it goes to the decode engine, or is discarded when the stream is stopped (R159). -/
def execQueueBitsRecord (st : Nat) (s : State) : Out :=
  match s.headRec st with
  | none => .fault .notEnabled
  | some b =>
    if !isBits b then .fault .notEnabled
    else if s.isStopped st then s.badRec st
    else
      let x := s.stream st
      evWhen (x.bits.length + x.taken.length < 8)
        (evOut s ((s.qpop st).map fun s =>
          let x := s.stream st
          s.setStream st { x with bits := x.bits ++ [⟨recAddr b, recLen b, bit (recFlags b) 0, BitVec.ofNat 64 (recAux b)⟩] }))

/-- QUEUE_LAUNCH_RECORD: a launch whose record was read when a ring record was taken is accepted from that copy (R392). -/
def execQueueLaunchRecord (st : Nat) (s : State) : Out :=
  match s.headRec st with
  | none => .fault .notEnabled
  | some b =>
    if !isLaunchRec b then .fault .notEnabled
    else
      let x := s.stream st
      let u : Submit := ⟨s.streamCtx st, some st, recAux b, none, 0, false, none, 0⟩
      match s.qpop st with
      | .error e => evOut s (.error e)
      | .ok t =>
        let r := match lookupT x.copies x.popped with | some c => t.acceptCopy u c | none => t.acceptAt u (recAddr b)
        evOut s (r.map Prod.fst)

/-- QUEUE_BAD_RECORD. -/
def execQueueBadRecord (st : Nat) (s : State) : Out :=
  match s.headRec st with
  | some b => evWhen (!recOk b) (s.badRec st)
  | none => .fault .notEnabled

/-! ## Binding and ageing (R217) -/

/-- BINDING_OPPORTUNITY at a core. -/
def execBindingOpportunity (core : Nat) (s : State) : Out :=
  if !s.feOn then .fault .notEnabled
  else
    match s.opportunity core with
    | .error e => evOut s (.error e)
    | .ok none => .fault .notEnabled
    | .ok (some t) => evDecided s 1 t

/-- STREAM_AGING: 50 ms have passed. -/
def execStreamAging (st : Nat) (s : State) : Out :=
  let x := s.stream st
  evWhen (s.isReady st && !x.aged) (.next (s.setStream st { x with aged := true, ready := true }))

/-! ## Decode engines (R155 to R159, R218) -/

/-- Streams of engine `e` with a BITS record to take. -/
def State.decWants (s : State) (e : Nat) : List Nat :=
  (List.range 128).filter fun st => s.isOpen st && s.strEng st == e && !s.isStopped st && !(s.stream st).bits.isEmpty

/-- Decode engine `e` is in service. -/
def State.decUp (s : State) (e : Nat) : Bool := bit (s.rget (oRAS + 0x40) 0xFFF) e

/-- DECODE_TAKE_BITS: smallest effective class first, cyclically within it. -/
def execDecodeTakeBits (eng : Nat) (s : State) : Out :=
  let ws := s.decWants eng
  let c := ws.foldl (fun c st => min c (s.effClass st)) 3
  let cl := ws.filter fun st => s.effClass st == c
  let p := tget 0 s.decPtr (4 * eng + c)
  match cl.filter (p ≤ ·) ++ cl.filter (· < p) with
  | [] => .fault .notEnabled
  | st :: _ =>
    let x := s.stream st
    evWhen (bit (s.rget (oDEC + 0x20000 * eng) 0) 0 && s.decUp eng)
      (.next ({ s with decPtr := tset s.decPtr (4 * eng + c) (st + 1) }.setStream st
        { x with bits := x.bits.drop 1, taken := x.taken ++ x.bits.take 1 }))

/-- The graph run that an output picture started has finished, with every launch that it accepted (R155). -/
def State.runFinished (s : State) (st id : Nat) : Bool :=
  id != 0 && s.runDrained id false && (match (s.stream st).run with | some r => r.id != id || r.node.isNone | none => true)

/-- The buffer of frame `f` may be written (R155). -/
def State.bufFree (s : State) (st f : Nat) : Bool :=
  let n := bits (s.rget (oCmuS st 0x10) 0) 54 51 + 1
  (s.stream st).busyBufs.all fun p => p.1 % n != f % n || s.runFinished st p.2

/-- Sample (x, y) of a picture. -/
def sampleAt (ps : List Nat) (w x y : Nat) : Nat := ps.getD (y * w + x) 0

/-- A picture of the same size and depth. -/
def picAlike (p q : Picture) : Bool := p.width == q.width && p.height == q.height && p.tenBit == q.tenBit

/-- The samples of a picture with those of its damaged blocks taken from the previous output picture (R159); with none of the same
size and depth they stay as they come (log 11). -/
def concealed (p : Picture) (prev : Option Picture) : Picture :=
  match prev with
  | none => p
  | some q =>
    if !picAlike p q then p
    else
      let bw := ceilDiv p.width 8
      let cw := ceilDiv p.width 2
      let hurt (x y : Nat) : Bool := p.damaged.contains (y / 8 * bw + x / 8)
      let pick (h : Nat → Bool) (a b : List Nat) : List Nat := a.zipIdx.map fun z => if h z.2 then b.getD z.2 z.1 else z.1
      { p with
        luma := pick (fun i => hurt (i % p.width) (i / p.width)) p.luma q.luma
        chroma := pick (fun i => hurt (i / 2 % cw * 2) (i / 2 / cw * 2)) p.chroma q.chroma }

/-- The energy of a key frame's block: the exact sum over its samples, rounded and capped (R157, R158). -/
def keyEnergy (p q : Picture) (bx bY : Nat) : Nat :=
  let xs := (List.range 8).map (8 * bx + ·) |>.filter (· < p.width)
  let ys := (List.range 8).map (8 * bY + ·) |>.filter (· < p.height)
  let n := (ys.map fun y => (xs.map fun x =>
    (((sampleAt p.luma p.width x y : Int) - (sampleAt q.luma p.width x y : Int)).natAbs) ^ 2).sum).sum
  min ((fmtF16.round .rne false (.fin false n (if p.tenBit then -4 else 0))).1) 0x7BFF

/-- The energy of a block's transforms: the sum of the normalised squares, of a larger transform the block's share, rounded and
capped (R157). -/
def blockEnergy (rs : List Residue) (tenBit : Bool) : Nat :=
  let one (r : Residue) : Dy := (Fv.fin false (r.coef.map fun c => c.natAbs ^ 2).sum (-((r.gain + r.area : Nat) : Int) - (if tenBit then 4 else 0))).dy
  min ((fmtF16.round .rne false ((dySum (rs.map one)).fv false)).1) 0x7BFF

/-- The prediction that gives a block its vector: one of the previous output picture, else that of list 0, else that of list 1
(R156). -/
def chosenPred : Option BlockPred × Option BlockPred → Option BlockPred
  | (some a, some b) => some (if a.prev || !b.prev then a else b)
  | (some a, none) => some a
  | (none, b) => b

/-- A component of a prediction's vector in block (bx, by), scaled by the distances of the pictures unless it references the
previous output picture, rounded with ties away from zero; none where the distance of its reference is 0, of which R156 says
nothing. -/
def predPart (q : BlockPred) (cur prev : Int) (bx bY : Nat) (c : Int × Int × Int) : Option Int :=
  let v := c.1 + c.2.1 * (8 * bx + 4 : Nat) + c.2.2 * (8 * bY + 4 : Nat)
  if q.prev then some (roundAway v (2 ^ q.shift))
  else
    let d := q.poc - cur
    if d == 0 then none else some (roundAway (v * (prev - cur) * d.sign) (2 ^ q.shift * d.natAbs))

/-- The block is written as intra (R156, R158, R159). -/
def picIntra (p : Picture) (first : Bool) (i : Nat) : Bool :=
  first || p.damaged.contains i || (!p.key && (chosenPred (p.pred.getD i (none, none))).isNone)

/-- Two bytes of a vector component, clipped (R156); a free value where R156 states none (log 11). -/
def motionBytes (s : State) : Option Int → State × List Byte
  | some v => (s, leBytes 2 (wrapW 16 (sat v (-32767) 32767)))
  | none => let r := s.draw; (r.2, leBytes 2 (wrapW 16 (sat (sext r.1.toNat 16) (-32767) 32767)))

/-- Vector and energy of block `i`; the energy of a key frame after one of another size is a free value (log 28). -/
def picBlock (p : Picture) (prev : Option Picture) (i : Nat) (s : State) : State × List Byte × List Byte :=
  let w := ceilDiv p.width 8
  match prev with
  | none => (s, leBytes 2 0x8000 ++ leBytes 2 0x8000, leBytes 2 (fmtF16.infBits false))
  | some q =>
    if picIntra p false i then (s, leBytes 2 0x8000 ++ leBytes 2 0x8000, leBytes 2 (fmtF16.infBits false))
    else if p.key then
      if picAlike p q then (s, leBytes 4 0, leBytes 2 (keyEnergy p q (i % w) (i / w)))
      else let r := s.draw; (r.2, leBytes 4 0, leBytes 2 r.1.toNat)
    else
      let m := (chosenPred (p.pred.getD i (none, none))).getD default
      let (s, x) := motionBytes s (predPart m p.poc q.poc (i % w) (i / w) m.horiz)
      let (s, y) := motionBytes s (predPart m p.poc q.poc (i % w) (i / w) m.vert)
      (s, x ++ y, leBytes 2 (blockEnergy (p.resid.getD i []) p.tenBit))

/-- `n` rows of samples written through a view, each by `f`, as far as that goes: what is written before a fault stays (R118). -/
def writeRows (v : View) (f : Nat → List Int × List Byte) (n : Nat) (s : State) : State × Option EStop :=
  let r := units (fun s i => (v.writeRow s 0 (f i).1 (f i).2).map Prod.fst) n 0 s
  (r.1, r.2.2)

/-- Motion and residual of the blocks from number `i`, as far as that goes. -/
def writeBlocks (p : Picture) (prev : Option Picture) (x : Exports) (b : Nat) : Nat → Nat → State → State × Option EStop
  | 0, _, s => (s, none)
  | n + 1, i, s =>
    let w := ceilDiv p.width 8
    let (s, m, e) := picBlock p prev i s
    match x.motion.writeRow s 0 [(i % w : Nat), (i / w : Nat), (b : Nat)] m with
    | .error z => (s, some z)
    | .ok (s, _) =>
      match x.residual.writeRow s (i % w : Nat) [(i / w : Nat), (b : Nat)] e with
      | .error z => (s, some z)
      | .ok (s, _) => writeBlocks p prev x b n (i + 1) s

/-- The four tensors of a picture; a handle that breaks the alignment rules of R80 faults its writes. -/
def writeExports (p : Picture) (prev : Option Picture) (x : Exports) (s : State) : State × Option EStop :=
  let b := p.frame % x.nbuf
  let e := if p.tenBit then 2 else 1
  let lumaRow (y : Nat) : List Int × List Byte :=
    ([(y : Nat), (b : Nat)], (List.range p.width).flatMap fun i => leBytes e (sampleAt p.luma p.width i y))
  let cw := ceilDiv p.width 2
  let ch := ceilDiv p.height 2
  let mid := if p.tenBit then 512 else 128
  let chromaRow (i : Nat) : List Int × List Byte :=
    ([(i % cw : Nat), (i / cw : Nat), (b : Nat)], leBytes e (p.chroma.getD (2 * i) mid) ++ leBytes e (p.chroma.getD (2 * i + 1) mid))
  if let some v := [x.luma, x.chroma, x.motion, x.residual].find? fun v => !v.aligned 0 v.step then (s, some (v.fmtStop .engWrite)) else
  match writeRows x.luma lumaRow p.height s with
  | (s, some z) => (s, some z)
  | (s, none) =>
    match writeRows x.chroma chromaRow (cw * ch) s with
    | (s, some z) => (s, some z)
    | (s, none) => writeBlocks p prev x b (ceilDiv p.width 8 * ceilDiv p.height 8) 0 s

/-- A decode engine stops its stream with an error record (R159), and with DEC_ERR when an access of its own has faulted (R440). -/
def State.decStop (s : State) (e st frame code : Nat) (f : Option MemFault) : Except Stop State :=
  let s := match f with | some f => s.noted f | none => s
  let s := if code == 4 then s.cmuStat st 4 else s
  ((s.stopStream st).radd (oDEC + 0x20000 * e + 0x20) 1).errRecord (decAgent e (s.streamCtx st)) st frame code f

/-- The picture is output: its counts, its buffer, and the trigger. `none` while the trigger finds no room. -/
def State.pictureOut (s : State) (e st : Nat) (p : Picture) : Except Stop (Option State) :=
  let d : Except Stop State :=
    if !p.damaged.isEmpty then
      ((s.cmuStat st 4).radd (oDEC + 0x20000 * e + 0x20) 1).errRecord (decAgent e (s.streamCtx st)) st p.frame 1 none
    else .ok s
  match d with
  | .error x => .error x
  | .ok s =>
    let x := s.stream st
    let n := bits (s.rget (oCmuS st 0x10) 0) 54 51 + 1
    let x := { x with
      taken := x.taken.drop 1, frames := x.frames + 1
      busyBufs := (x.busyBufs.filter fun q => q.1 % n != p.frame % n) ++ [(p.frame, 0)]
      sizes := tset x.sizes p.frame (p.width, p.height, p.tenBit)
      prev := some p }
    let s := ((s.setStream st x).radd (oDEC + 0x20000 * e + 0x18) 1).radd (oDEC + 0x20000 * e + 0x10) (p.width * p.height)
    .ok ((s.charge 6 0 (s.streamCtx st) (some st) none none).sendTrig st (BitVec.ofNat 64 p.frame) true)

/-- The picture decoded by engine `e`: the bitstream is read, the exports checked and written (R155 to R159). -/
def State.decodePicture (s : State) (e st : Nat) (p : Picture) (b : BitsRec) : Except Stop (Option State) :=
  let ag := decAgent e (s.streamCtx st)
  let stop (code : Nat) (f : Option MemFault) : Except Stop (Option State) := (s.decStop e st p.frame code f).map some
  match rdSpans s ag (cutSpan (b.len / 256 + 2) b.addr b.len) with
  | .error (.miss wh c v) => .error (.miss wh c v)
  | .error (.flt f) => stop 4 (some f)
  | .ok _ =>
    if p.unsupported || 8192 < p.width || 4320 < p.height then stop 2 none
    else
      match exportViews s ag st with
      | .error (.miss wh c v) => .error (.miss wh c v)
      | .error (.flt f) => stop 4 (some f)
      | .ok none => stop 3 none
      | .ok (some x) =>
        let p := concealed p (s.stream st).prev
        if !x.fit p.width p.height (if p.tenBit then 8 else 7) then stop 3 none
        else
          match writeExports p (s.stream st).prev x s with
          | (_, some (.miss wh c v)) => .error (.miss wh c v)
          | (t, some (.fault _ _ (some f))) => (t.decStop e st p.frame 4 (some f)).map some
          | (_, some _) => stop 3 none
          | (t, none) => t.pictureOut e st p

/-- DECODE_PICTURE_OUTPUT. -/
def execDecodePictureOutput (st : Nat) (pic : Picture) (s : State) : Out :=
  let x := s.stream st
  let e := s.strEng st
  match x.taken with
  | [] => .fault .notEnabled
  | b :: _ =>
    if !s.isOpen st || s.isStopped st || !s.decUp e || pic.frame != x.frames || !s.bufFree st pic.frame then .fault .notEnabled
    else
      match s.decodePicture e st pic b with
      | .error r => evOut s (.error r)
      | .ok none => .fault .notEnabled
      | .ok (some t) => .next (t.tookWalk .part)

/-! ## The frame log (R183) -/

/-- CMU_LOG_TAIL_WRITE: commands that wait for room go on at their next turn. -/
def execCmuLogTailWrite (st : Nat) (v : BitVec 32) (s : State) : Out := .next (s.rset (oCmuS st 0x24) v.toNat)

end Sys2Proof.Machine
end

