-- ==== Sys2Proof/Machine/Units.lean ====
section
/-! DEFINITION. Events of the units of the part: page walks and invalidations (R46 to R51), Squirrel's pool (R119), the ramp
limiter and the EAU (R221, R222), power and temperature (R424), errors and scrubbing (R417 to R420, R184). -/

namespace Sys2Proof.Machine

/-! ## Page walks (R46 to R48) -/

/-- Walkers of a die; 2 is the hub die. -/
def walkersOf (die : Nat) : Nat := if die == 2 then 16 else 64

/-- The first miss of a die, and the others. -/
def takeMiss (die : Nat) : List Miss → Option (Miss × List Miss)
  | [] => none
  | m :: ms => if m.die == die then some (m, ms) else (takeMiss die ms).map fun p => (p.1, m :: p.2)

/-- PAGE_WALK_START: a free walker takes its die's oldest miss; a compute die counts it. -/
def execPageWalkStart (die : Nat) (s : State) : Out :=
  match takeMiss die s.missq with
  | none => .fault .notEnabled
  | some (m, q) =>
    let t := { s with missq := q, walks := s.walks ++ [m] }
    evWhen ((s.walks.filter fun x => x.die == die).length < walkersOf die)
      (.next (if die < 2 then t.radd (oMMU + 0xD0 + die * 0x1000000) 1 else t))

/-- Walk `w` of a die, and the others. -/
def takeWalk (die : Nat) : Nat → List Miss → Option (Miss × List Miss)
  | _, [] => none
  | w, m :: ms =>
    if m.die != die then (takeWalk die w ms).map fun p => (p.1, m :: p.2)
    else match w with
      | 0 => some (m, ms)
      | w + 1 => (takeWalk die w ms).map fun p => (p.1, m :: p.2)

/-- A table pointer enters a die's page-walk cache, which holds 256; a full cache loses an entry that a free value names (R46). -/
def State.fillWalk (s : State) (e : WalkEntry) : State :=
  if s.walkCache.contains e then s
  else
    let own := s.walkCache.filter fun x => x.die == e.die
    if own.length < 256 then { s with walkCache := e :: s.walkCache }
    else
      let (r, s) := s.draw
      { s with walkCache := e :: s.walkCache.erase (own.getD (r.toNat % 256) e) }

/-- PAGE_WALK_COMPLETE: a leaf is cached for every requester of its page that waits, and the pointers that led to it in the die's
page-walk cache; a fault is kept for the requesters and cached nowhere (R46 to R48). The entries are read at this step, one
after another: the spec fixes no moment within the walk (DESIGN CHOICE, log 17). -/
def execPageWalkComplete (die w : Nat) (s : State) : Out :=
  match takeWalk die w s.walks with
  | none => .fault .notEnabled
  | some (m, ws) =>
    match walk s die m.ctx (m.vpn * 65536) with
    | .leaf l via =>
      let took (x : Miss) : Bool := x.ctx == m.ctx && covers ⟨0, m.ctx, m.vpn, l⟩ x.vpn
      let who := m.who ++ (s.missq.filter took).flatMap Miss.who
      let t := { s with walks := ws, missq := s.missq.filter fun x => !took x }
      .next (who.foldl (fun t x => t.fillFor m.ctx m.vpn l x) (via.foldl State.fillWalk t))
    | .fail c lvl pte d =>
      .next { s with walks := ws, walkFault := s.walkFault ++ m.who.map fun who => ⟨who, m.ctx, m.vpn, c, lvl, pte, d⟩ }

/-! ## Writers of the register window (R26) -/

/-- The agent may reach the window: the host, or a hart in M mode. -/
def State.regMay (s : State) : RegAgent → Bool
  | .host => true
  | .hart h => (s.hart h).mode == .m

/-- The agent as a requester of `n` bytes at offset `off` of the window. -/
def State.regReq (s : State) (ag : RegAgent) (acc : Acc) (off n : Nat) : Req :=
  let a : Agent := match ag with
    | .host => ⟨.host 0, 12, 0, .m, 0, 0, ⟨false, true, false, true, true⟩⟩
    | .hart h => hartAgent s h
  ⟨a, acc, winBase + off, n, false, true⟩

/-- An access answered with a fault; nothing else changes. -/
def State.answer (s : State) (f : MemFault) : Out := .next { s with reply := ⟨[], some f⟩ }

/-- A register access by an agent that may make it; any other faults PRIV. -/
def State.asWriter (s : State) (ag : RegAgent) (k : Out) : Out :=
  if s.regMay ag then k else s.answer ((s.regReq ag .store 0 4).fault winBase .priv 7 0 0)

/-- A write of MMU_INV_CMD, held while 64 invalidations are pending (R50). -/
def State.invWrite (s : State) (ag : RegAgent) (op : Nat) : Out :=
  s.asWriter ag (evWhen (s.invals.length < 64) (.next (s.invalidate op)))

def execMmuInvContext (ag : RegAgent) (s : State) : Out := s.invWrite ag 0
def execMmuInvPage (ag : RegAgent) (s : State) : Out := s.invWrite ag 1
def execMmuInvAll (ag : RegAgent) (s : State) : Out := s.invWrite ag 2

/-- INVALIDATION_COMPLETE: it waits for a store group that holds a store translated with a covered entry. -/
def execInvalidationComplete (s : State) : Out := evWhen s.invalReady (.next s.invalDone)

/-- MMU_ILV_LOCK_WRITE: a write of 0 changes nothing (R8). -/
def execMmuIlvLockWrite (v : BitVec 32) (s : State) : Out := .next (if bit v.toNat 0 then s.ilvLock else s)

/-- CSM_POOL_ADD. -/
def execCsmPoolAdd (die : Nat) (v : Word) (s : State) : Out := .next (s.poolAdd die v.toNat)

/-- RAS_SHED_WRITE. -/
def execRasShedWrite (v : BitVec 32) (s : State) : Out := .next (s.shedWrite v.toNat)

/-! ## Power (R221, R222, R424) -/

/-- Offsets of a die's ramp registers. -/
def oRamp (die : Nat) : Nat := 0x01800000 + die * 0x1000000

/-- RAMP_WINDOW: a window of 1 µs with this demand for matrix issues. The issue ceiling moves by one step; with EN the count
changes by at most one step; the rest of the demand is empty slots, and a shortfall is filled with dummies, whose energy is
unattributed. -/
def execRampWindow (die demand : Nat) (s : State) : Out :=
  let r := s.rget (oRamp die + 0x10) 0
  let step := s.rget (oRamp die + 8) 12600
  let en := bit (s.rget (oRamp die) 1) 0
  let c0 := s.ceiling.getD die 201600
  let c := if s.throttling then c0 - step else min 201600 (c0 + step)
  let want := min demand 201600
  let real := min (if en then min want (r + step) else want) c
  let dummy := if en then (r - step) - real else 0
  let s := { s with ceiling := s.ceiling.set die c }
  let s := ((s.rset (oRamp die + 0x10) (real + dummy)).radd (oRamp die + 0x18) (want - real)).radd (oRamp die + 0x20) dummy
  let s := if dummy == 0 then s else let (s, e) := s.tableEnergy 8 0 dummy; (s.eauAdd (oEAU + 0x18) e).1
  .next (if s.throttling && die == 0 then s.radd (oEAU + 0x6020) 1 else s)

/-- a / b rounded to the nearest integer, ties to even; `b` is not zero. -/
def divRne (a b : Nat) : Nat :=
  let q := a / b
  let r := a % b
  if 2 * r < b then q else if b < 2 * r then q + 1 else q + q % 2

/-- EAU_INTERVAL: the energy of hart 1 and of the hub die, a free value (log 12), goes to EAU_SYS_NJ; the rail energy of the interval,
in nJ, is counted, and with RECON its ratio to the table energy, limited to 0.5 to 2.0, becomes the factor: a free value within
those limits when there was no table energy. -/
def execEauInterval (rail : Nat) (s : State) : Out :=
  let (w, s) := s.draw
  let t := s.eauSum + w.toNat
  let s := (s.eauAdd (oEAU + 0x18) (w.toNat * s.rget (oEAU + 8) 0x10000)).1
  let s := { s with eauSum := 0 }.radd (oEAU + 0x10) rail
  if !bit (s.rget oEAU 1) 0 then .next s
  else if t = 0 then
    let (x, s) := s.draw
    .next (s.rset (oEAU + 8) (0x8000 + x.toNat % 0x18001))
  else .next (s.rset (oEAU + 8) (max 0x8000 (min 0x20000 (divRne (rail * 1000 * 2 ^ 16) t))))

/-- Measured power, in 0.1 W, and temperature. -/
def State.measured (s : State) (power temp : Nat) : State :=
  (s.rset (oEAU + 0x6008) (min power 0xFFFF)).rset (oEAU + 0x6010) (min temp 0xFF)

/-- The condition of R424 under which the part throttles. -/
def State.overLimit (s : State) (power temp : Nat) : Bool := 10 * s.rget (oEAU + 0x6000) 550 < power || 100 ≤ temp

/-- POWER_LIMIT_THROTTLE. -/
def execPowerLimitThrottle (power temp : Nat) (s : State) : Out :=
  evWhen (s.overLimit power temp) (.next { (s.measured power temp).ror (oRAS + 0x78) 4 with throttling := true })

/-- THROTTLE_CONDITION_CLEAR: THROTTLE stays until it is cleared by a write. -/
def execThrottleConditionClear (power temp : Nat) (s : State) : Out :=
  evWhen (s.throttling && !s.overLimit power temp) (.next { s.measured power temp with throttling := false })

/-- THERMAL_TRIP: 110 °C has been held for 1 ms. -/
def execThermalTrip (s : State) : Out :=
  evWhen (110 ≤ s.rget (oEAU + 0x6010) 0) (.next { (s.logRecord 8 0 0).replaceReq 8 with halted := true })

/-! ## Errors (R417 to R419) -/

/-- Where register-space bytes are named: byte `o` of vector run `r` (log 6). -/
def regLoc (r o : Nat) : Nat := 2 ^ 64 + r * 2 ^ 16 + o

/-- The core whose store holds a location, with the number of its counters: 0 slice, 1 register space, 2 accumulator store, 3
weight buffer. -/
def State.storeOf (s : State) (loc : Nat) : Option (Nat × Nat) :=
  if apBase ≤ loc && loc < apEnd then some ((loc - apBase) / 0x400000, 0)
  else if regLoc 0 0 ≤ loc then ((s.cont (s.vrun ((loc - regLoc 0 0) / 2 ^ 16)).cid).core).map fun n => (n, 1)
  else if accLoc 0 0 0 ≤ loc && loc < accLoc 192 0 0 then some ((loc - accLoc 0 0 0) / 2 ^ 20, 2)
  else ((List.range 192).find? fun n => wbLoc n 0 ≤ loc && loc < wbLoc n 16384).map fun n => (n, 3)

/-- An error counted in the total. -/
def State.countTotal (s : State) (fatal : Bool) : State := s.radd (oRAS + if fatal then 0x60 else 0x58) 1

/-- A location of flash. -/
def inFlash (loc : Nat) : Bool := flashLoc 0 ≤ loc && loc < 2 ^ 64

/-- An error counted: in the core's saturating counter, and in the total; one of flash is not. -/
def State.countErr (s : State) (loc : Nat) (fatal : Bool) : State :=
  if inFlash loc then s
  else
    (match s.storeOf loc with
     | some (n, i) => s.rinc32 (oCore n + (if fatal then 0x7020 else 0x7000) + 8 * i)
     | none => s).countTotal fatal

/-- The continuation that a location of a register space or of the accumulator store belongs to. -/
def State.ownerOf (s : State) (loc : Nat) : Option Nat :=
  if regLoc 0 0 ≤ loc then some (s.vrun ((loc - regLoc 0 0) / 2 ^ 16)).cid
  else if accLoc 0 0 0 ≤ loc && loc < accLoc 192 0 0 then
    let o := loc - accLoc 0 0 0
    let r := o % 2 ^ 20 / 512 / 32
    let a := (s.core (o / 2 ^ 20)).accs
    if thas a r then some (tget 0 a r) else none
  else none

/-- The fault of an abandoned continuation whose register space or accumulator tile was lost. -/
def lostFault (s : State) (cid : Nat) : MemFault :=
  ⟨0, .memUe, .load, 7, false, 9, (s.cont cid).core.getD 0, (s.cont cid).ctx, 0, 0⟩

/-- The 8-byte words of the ECC word that holds a location (R417). -/
def eccWords (loc : Nat) : List Nat :=
  let b := eccBase loc
  if eccBase (b + 8) == b then [b, b + 8, b + 16, b + 24] else [b]

/-- An error arises at a location (R417, R419); flash has no ECC, and what stands there becomes a free value, which the CRC of a marker
and the signatures of an image find. -/
def State.upset (s : State) (loc : Nat) (fatal : Bool) : State :=
  let s := s.countErr loc fatal
  if !fatal then s
  else if inFlash loc then (let (w, s) := s.draw; { s with mem := msets s.mem loc [w.setWidth 8] })
  else
    match s.ownerOf loc with
    | some cid => if (s.cont cid).alive then s.abandonCont cid (some (lostFault s cid)) else s
    | none =>
      { s with ue := (eccWords loc).filter (fun u => !s.ue.contains u) ++ s.ue }

/-- An entry of a translation cache with a parity error is discarded, and counted (R417, R419). -/
def State.parity (s : State) (c ctx va : Nat) : Out :=
  let hit (e : TlbEntry) : Bool := e.cache == c && e.ctx == ctx && covers e (va / 65536)
  evWhen (s.tlb.any hit) (.next ({ s with tlb := s.tlb.filter fun e => !hit e }.countTotal true))

/-- An entry of a page-walk cache with a parity error. -/
def State.parityWalk (s : State) (die ctx va : Nat) : Out :=
  let hit (e : WalkEntry) : Bool := e.die == die && e.ctx == ctx && e.idx == walkIdx va e.level
  evWhen (s.walkCache.any hit) (.next ({ s with walkCache := s.walkCache.filter fun e => !hit e }.countTotal true))

/-! ## The scrub (R418, R184) -/

/-- Where `n` bytes at a virtual address of a context stand in memory, each place with its length; for a transformed page, the sectors of
the block, its extent and its companion (R105, R106). -/
def State.placesAt (s : State) (ctx va n : Nat) : List (Nat × Nat) :=
  match walk s 2 ctx va with
  | .leaf l _ =>
    (match leafTgt s l va with
     | .hbm pa =>
       if l.xf then let b := blockLoc l va pa; (b.comp, 32) :: b.places s.mem (b.hdr s.mem) else [(pa, n)]
     | t => [(t.loc, n)])
  | .fail .. => []

/-- Row (x, y) of a slot covers a location. -/
def rowCovers (s : State) (v : View) (loc : Nat) (x y slot : Int) : Bool :=
  match v.rowSpots s true [x, y, slot] ((v.h.extOf 0 + 1) / v.step) 0 with
  | .error _ => false
  | .ok ps => (spansOf v.e ps).any fun a => (s.placesAt v.ag.ctx a.1 a.2).any fun p => p.1 ≤ loc && loc < p.1 + p.2

/-- The tiles of a layer that hold a location. -/
def tilesHolding (s : State) (y : Layer) (v : View) (loc : Nat) : List Nat :=
  (List.range (y.gw * y.gh)).filter fun t =>
    let xs := (List.range y.t).map (t % y.gw * y.t + ·) |>.filter (· < y.w)
    let ys := (List.range y.t).map (t / y.gw * y.t + ·) |>.filter (· < y.hgt)
    ys.any fun j => xs.any fun i => rowCovers s v loc i j 0 || rowCovers s v loc i j 1

/-- The tiles of open streams' layers that hold a location: stream, layer, tile. -/
def State.reuseTiles (s : State) (loc : Nat) : List (Nat × Nat × Nat) :=
  ((List.range 128).filter s.isOpen).flatMap fun st =>
    (List.range 64).flatMap fun l =>
      match getLayer s st l with
      | .error _ => []
      | .ok y =>
        match openView s (s.owl st) y.h with
        | .error _ => []
        | .ok v => (tilesHolding s y v loc).map fun t => (st, l, t)

/-- REQ.ERR of the tile and its UE record. -/
def State.scrubTile (s : State) (st l t : Nat) : EM State :=
  match readLayer s st l with
  | .error e => .error e
  | .ok (s, ls) =>
    match setReq s st l t (lsGen ls) 1 with
    | .error e => .error e
    | .ok s => logAppend s st (logRec (s.cmuFrame st) 5 l 0 t 0 0 (lsGen ls))

/-- BACKGROUND_SCRUB at a location, whose error is every tile's that it belongs to: `weak` says that its row has had three corrected errors in 24 h. -/
def execBackgroundScrub (loc : Nat) (weak : Bool) (s : State) : Out :=
  let s1 := if weak && loc < hbmEnd then s.logRecord 2 (channelOf s loc) (loc + 2 ^ 63) else s
  if ueIn s.ue loc 1 then
    match foldE (fun u x => u.scrubTile x.1 x.2.1 x.2.2) (s1.reuseTiles loc) (s1.operation (2 ^ 128 + loc)) with
    | .error (.owl u k f) => evOut s (owlStopped u k f)
    | .error e => .next (evStop s e)
    | .ok u => .next (u.tookWalk .part)
  else .next s1

/-- Number of a unit among all, by which units that fail in one clk are ordered (R427). -/
def unitOrder (u : UnitKind × Nat) : Nat := fenceReason u.1 * 256 + u.2

/-- Units fail in one clk: each is fenced and logged, in unit order, so that RAS_REPLACE keeps the lowest reason (R427). -/
def State.fences : List (UnitKind × Nat) → Nat → State → Except Stop (Option State)
  | [], _, s => .ok (some s)
  | u :: us, k, s =>
    if unitOrder u < k || !s.unitUp u.1 u.2 then .ok none
    else
      match s.fence u.1 u.2 (fenceReason u.1) with
      | .error e => .error e
      | .ok t => State.fences us (unitOrder u + 1) t

/-- The turn of management firmware that fences them. -/
def State.fencesTurn (s : State) (us : List (UnitKind × Nat)) : Out :=
  if (List.range 4).all (s.hoPaused 0) then .fault .notEnabled
  else
    match State.fences us 0 s with
    | .error e => evOut s (.error e)
    | .ok none => .fault .notEnabled
    | .ok (some t) => evDecided s 0 t

/-- UNIT_FENCE, a decision of management firmware (R420, R403). -/
def execUnitFence (kind : UnitKind) (n : Nat) (reason : BitVec 8) (s : State) : Out :=
  evWhen (s.unitUp kind n && reason.toNat == fenceReason kind && !((List.range 4).all (s.hoPaused 0))) (match s.fence kind n reason.toNat with
      | .error e => evOut s (.error e)
      | .ok t => evDecided s 0 t)

end Sys2Proof.Machine
end

