-- ==== Sys2Proof/Machine/Boot.lean ====
section
/-! DEFINITION. Events of resets (R401, R402, R426), heartbeats and hand-overs (R403 to R410), keys and measurements (R411 to
R413). -/

namespace Sys2Proof.Machine

/-! ## Resets -/

/-- COLD_RESET. -/
def execColdReset (inp : BootInputs) (s : State) : Out := .next (s.coldReset inp)

/-- The link is trained: up to 16 lanes and the mode's rate (R385). -/
def State.train (s : State) (cxl : Bool) (rate width : Nat) : Out :=
  evWhen (s.rget (oHL + 0x200) 0 == 0 && 1 ≤ width && width ≤ 16 && 1 ≤ rate && rate ≤ (if cxl then 64 else 128)) (.next (s.linkUp cxl rate width))

/-- POWER_LOSS: only flash is kept, and the part is stopped until it is reset (R402, R425). -/
def execPowerLoss (s : State) : Out := .next { s.flashOnly with halted := true }

/-- BOOT_PROBATION_TIMEOUT: Jay resets the part (R401). -/
def execBootProbationTimeout (k : Nat) (inp : BootInputs) (s : State) : Out :=
  evWhen (bit (s.rget (oHo k + 0x28) 0) 1) (.next (s.coldReset inp))

/-- The rings of function `f` disabled (R389). -/
def ringsOff (f : Nat) : List Nat → State → Except Stop State
  | [], s => .ok s
  | r :: rs, s =>
    match s.ringCtlWrite f r (setBits (s.ringCtl f r) 0 0 0) with
    | .error e => .error e
    | .ok s => ringsOff f rs s

/-- FUNCTION_LEVEL_RESET of virtual function `f`, which serves tenant f - 1. -/
def execFunctionLevelReset (f : Nat) (s : State) : Out :=
  let t := f - 1
  let cs := (s.conts.filter fun p => p.2.alive && s.tenantOf p.2.ctx == t).map Prod.fst
  let s1 := cs.foldl (fun (s : State) k => if (s.cont k).alive then s.abandonCont k none else s) s
  let s2 := ((List.range 128).filter fun st => s1.isOpen st && s1.streamTenant st == t).foldl State.closeStream s1
  evOut s (ringsOff f (List.range 8) s2)

/-! ## Heartbeats (R408) -/

def execHbwBeat (k : Nat) (s : State) : Out := .next (s.beat k)
def execHbwNack (k : Nat) (s : State) : Out := .next (s.nack k)

/-- HEARTBEAT_PERIOD_END. -/
def execHeartbeatPeriodEnd (k : Nat) (inp : BootInputs) (s : State) : Out :=
  evWhen (bit (s.rget oHBW 1) 0) (.next (s.beatPeriod k inp))

/-! ## Hand-over (R403, R404) -/

def execHoPrepare (k : Nat) (s : State) : Out := .next (s.hoPrepare k)
def execHoStart (k : Nat) (s : State) : Out := .next ((s.hoStart k).hoGathered k)
def execHoAbort (k : Nat) (s : State) : Out := .next (s.hoAbort k)

/-- HO_VERIFY_DONE: the staged image has been copied, and its slot verifies or does not (R400, R403). The event reports `ok` and the
image's `version`; it exists only with the report that the slot's bytes give. -/
def execHoVerifyDone (k : Nat) (ok : Bool) (version : BitVec 32) (s : State) : Out :=
  let sl := 1 - s.bootSlot k
  evWhen (s.hoState k == 1 && !(s.handOver k).verified && (s.handOver k).todo.isEmpty && ok == s.slotVerifies k sl &&
      (!ok || version == BitVec.ofNat 32 (s.imageHead k sl).version))
    (if ok then evOut s ((s.hoVerified k).map fun s => s.hoGathered k) else .next (s.hoAborted k 1))

/-- HO_BARRIER_ARRIVE. -/
def execHoBarrierArrive (k unit : Nat) (s : State) : Out :=
  evWhen (s.hoState k == 2 && (s.hoUnits k).contains unit && !(s.handOver k).arrived.contains unit) (.next (s.hoArrive k unit))

def execHoQuiesceTimeout (k : Nat) (s : State) : Out := evWhen (s.hoState k == 2) (.next (s.hoAborted k 2))
def execHoExportDone (k : Nat) (s : State) : Out := evWhen (s.hoState k == 3) (.next (s.hoExported k))
def execHoExportTimeout (k : Nat) (s : State) : Out := evWhen (s.hoState k == 3) (.next (s.hoAborted k 3))
def execHoActivateTimeout (k : Nat) (s : State) : Out := evWhen (s.hoState k == 4) (.next (s.hoFallback k 4))

/-- HO_PROBATION_END: COMMIT; without a hand-over, the end of a boot probation (R401). -/
def execHoProbationEnd (k : Nat) (s : State) : Out :=
  if s.hoState k == 5 then .next (s.hoCommitting k)
  else evWhen (s.hoState k == 0 && bit (s.rget (oHo k + 0x28) 0) 1 && (s.handOver k).todo.isEmpty) (.next (s.bootConfirm k))

/-- The firmware of kind `k` does the next thing that its hand-over or its boot probation has it do. -/
def State.fwTurn (s : State) (k : Nat) : Out :=
  match (s.handOver k).todo with
  | [] => .fault .notEnabled
  | w :: ws => evWhen (k < 3) (evOut s (s.hoStep k w ws))

/-- 60 ms after FALLBACK without a decision of the old image: Jay resets the part (R403). -/
def State.fallbackLate (s : State) (k : Nat) (inp : BootInputs) : Out := evWhen (k < 3 && s.hoState k == 7) (.next (s.coldReset inp))

/-! ## Keys and measurements (R411 to R413) -/

def execFwKeyLoad (s : State) : Out := .next s.keyLoad
def execFwKeyClear (s : State) : Out := .next s.keyClear

/-- GET_MEASUREMENTS by a tenant's verifier, which thereby has retrieved block 5 (R412). -/
def execGetMeasurements (tenant : Nat) (s : State) : Out :=
  .next { s with reply := ⟨s.measurements, none⟩, attested := if s.attested.contains tenant then s.attested else s.attested ++ [tenant] }

end Sys2Proof.Machine
end

