-- ==== Sys2Proof/Machine/Gather.lean ====
section
/-! DEFINITION. The gather-scatter engine (R358 to R363). -/

namespace Sys2Proof.Machine

/-! ## The data area (R358) -/

/-- The data area [d, d + n) lies within one slice. -/
def areaCheck (s : State) (acc : Acc) (d n : Nat) : EM Unit :=
  let stop (a : Nat) (c : Cause) : EM Unit := .error (memStop s.eng acc a c)
  if !inSlices d then stop d .priv
  else
    let last := d + n - 1
    if alBase ≤ d then (if last < alBase + 0x400000 then .ok () else stop (alBase + 0x400000) .priv)
    else
      let next := apBase + ((d - apBase) / 0x400000 + 1) * 0x400000
      if last < next then .ok () else if apEnd ≤ last then stop apEnd .priv else stop next .sliceCross

/-! ## Rows (R358, R359) -/

/-- What a GSX command works with: its view, the reuse layer that it reads, and its data pitch. -/
structure GsWork where
  st : State
  v  : View
  rc : Option Reuse
  n  : Nat          -- units of a row
  d  : Nat
  deriving DecidableEq, Repr, Inhabited

/-- Stored bytes of a row, and the pitch of the data area. -/
def GsWork.rb (g : GsWork) : Nat := g.n * g.v.e
def GsWork.gp (g : GsWork) : Nat := roundUp g.rb 4

/-- Page format of the elements of an ordered form (R358). -/
def scElem : ScT → ElemT | .f32 => .f32 | .f16 => .f16 | .bf16 => .bf16 | .i32 => .i32

/-- Handle and area checks of a GSX word; `plain` asks for a PLAIN handle, `ty` for a page format. -/
def State.gsOpen (s : State) (m : Gsx) (plain : Bool) (ty : Option Nat) : EM GsWork :=
  let ag := s.eng
  match getHandle s ag m.h.toNat with
  | .error e => .error e
  | .ok h =>
    if plain && h.kind != 0 then .error (.fault 2 2 none)
    else
      match openView s ag h with
      | .error e => .error e
      | .ok v =>
        let acc : Acc := if plain then .engWrite else .engRead
        if (match ty with | some f => v.fmt != f | none => false) then .error (v.fmtStop acc)
        else
          match alignedOr v acc 0 (h.extOf 0 + 1) with
          | .error e => .error e
          | .ok _ =>
            let n := (h.extOf 0 + 1) / v.step
            if 8192 < n * v.e then .error (.fault 2 3 none)
            else
              let d := bits s.cur.ent.sc1.toNat 51 0
              match areaCheck s (if plain then .engRead else .engWrite) d ((m.cnt1.toNat + 1) * roundUp (n * v.e) 4) with
              | .error e => .error e
              | .ok _ =>
                match (if h.kind == 4 then openReuse s h else .ok (s, none)) with
                | .error e => .error e
                | .ok (s, rc) => .ok ⟨s, v, rc, n, d⟩

/-- Coordinates 1 to 8 of list entry `k`; those at or beyond NDIM are ignored. -/
def gsIndex (s : State) (h : Handle) (k : Nat) : EM (List Int) :=
  match eRead s s.eng (s.cur.ent.sc0.toNat + 16 * k) 16 with
  | .error e => .error e
  | .ok b => .ok ((List.range 8).map fun i => if i + 1 < h.ndim then (fieldAt b (2 * i) 2 : Nat) else 0)

/-- Row `k` gathered. -/
def gathRow (g : GsWork) (s : State) (k : Nat) : EM (State × Nat) :=
  match gsIndex s g.v.h k with
  | .error e => .error e
  | .ok x =>
    match viewRow s g.v g.rc 0 g.n x with
    | .error e => .error e
    | .ok (s, b) => (writeRange s g.v.ag (g.d + k * g.gp) b).map fun s => (s, b.length)

/-- Row `k` scattered. -/
def scatRow (g : GsWork) (s : State) (k : Nat) : EM (State × Nat) :=
  match gsIndex s g.v.h k with
  | .error e => .error e
  | .ok x =>
    match readRange s g.v.ag (g.d + k * g.gp) g.rb with
    | .error e => .error e
    | .ok b => g.v.writeRow s 0 x b

/-- Updates of the elements of a row in ascending order: one address may come twice. -/
def applyUpdates (f : Nat → Nat → Nat) : List (Spot × Nat × Nat) → Tbl Nat → List Nat
  | [], _ => []
  | (.pad, o, _) :: us, t => o :: applyUpdates f us t
  | (.here a, o, v) :: us, t =>
    let x := f ((lookupT t a).getD o) v
    x :: applyUpdates f us ((a, x) :: t)

/-- Row `k` of an ordered form with update `f` on elements of `e` bytes (R359). -/
def updRow (f : Nat → Nat → Nat) (g : GsWork) (s : State) (k : Nat) : EM (State × Nat) :=
  match gsIndex s g.v.h k with
  | .error e => .error e
  | .ok x =>
    match readRange s g.v.ag (g.d + k * g.gp) g.rb with
    | .error e => .error e
    | .ok b =>
      match g.v.rowSpots s false x g.n 0 with
      | .error e => .error e
      | .ok ps =>
        match g.v.readSpots s ps with
        | .error e => .error e
        | .ok old =>
          let e := g.v.e
          let us := ps.zip ((elemsOf e g.n old).zip (elemsOf e g.n b))
          g.v.writeSpots s ps ((applyUpdates f us []).flatMap (leBytes e))

/-- Rows `k`, `k + 1`, … as far as they go; PROGRESS is the row that stopped (R362). -/
def gsRows (row : State → Nat → EM (State × Nat)) : Nat → Nat → State → Nat → ERes
  | 0, _, s, tx => .done s tx
  | m + 1, k, s, tx =>
    match row s k with
    | .error e => ⟨s, tx, k, some e⟩
    | .ok (s, n) => gsRows row m (k + 1) s (tx + n)

/-- A GSX word: rows from S, or from where a restart resumes, with the bytes that were moved before (R349). -/
def State.gsWord (s : State) (m : Gsx) (plain : Bool) (ty : Option Nat) (row : GsWork → State → Nat → EM (State × Nat)) : ERes :=
  match s.gsOpen m plain ty with
  | .error e => .refuse s e
  | .ok g =>
    let k := max (bits s.cur.ent.sc1.toNat 63 52) s.cur.ent.start
    gsRows (row g) (m.cnt1.toNat + 1 - k) k g.st s.cur.ent.moved

/-- add of R359. -/
def scAdd (t : ScT) (rm : Rm) (a b : Nat) : Nat :=
  match (scElem t).fmt? with
  | some f => (f.round rm false (fvAdd rm (f.dec a) (f.dec b)).1).1
  | none => (a + b) % 2 ^ 32

/-- max of R359. -/
def scMax (t : ScT) (a b : Nat) : Nat :=
  match (scElem t).fmt? with
  | some f => f.maxBits false false a b
  | none => if sext a 32 < sext b 32 then b else a

def execGath (_h : Hdr) (m : Gsx) (s : State) : Out := s.engRun 3 (s.gsWord m false none gathRow)
def execScat (_h : Hdr) (m : Gsx) (s : State) : Out := s.engRun 3 (s.gsWord m true none scatRow)
def execScatAdd (_h : Hdr) (t : ScT) (m : Gsx) (s : State) : Out :=
  s.engRun 3 (s.gsWord m true (some (elemFmt (scElem t))) (updRow (scAdd t s.fp.rm)))
def execScatMax (_h : Hdr) (t : ScT) (m : Gsx) (s : State) : Out :=
  s.engRun 3 (s.gsWord m true (some (elemFmt (scElem t))) (updRow (scMax t)))

/-! ## Tile gather and scatter (R363) -/

/-- The page of the REUSE handle has FMT 1 to 9. -/
def plainFmt (v : View) (acc : Acc) : EM Unit := if 1 ≤ v.fmt && v.fmt ≤ 9 then .ok () else .error (v.fmtStop acc)

/-- Channel row (x, y) of a region gathered; outside the extents it reads as 0. -/
def gathCell (v : View) (rc : Option Reuse) (d wr : Nat) (x0 y0 : Int) (s : State) (c : Nat) : EM State :=
  let n := v.h.extOf 0 + 1
  let x : Int := x0 + (c % wr : Nat)
  let y : Int := y0 + (c / wr : Nat)
  let row : EM (State × List Byte) :=
    if x < 0 || v.h.extOf 1 < x || y < 0 || v.h.extOf 2 < y then .ok (s, List.replicate (n * v.e) 0)
    else reuseRow s v rc 0 n x y none
  match row with
  | .error e => .error e
  | .ok (s, b) => writeRange s v.ag (d + c * n * v.e) b

/-- gath.tl. -/
def State.gathTile (s : State) (h : Nat) : ERes :=
  let c0 := s.cur.ent.sc0.toNat
  let d := bits s.cur.ent.sc1.toNat 51 0
  match s.tileWork h (bits c0 27 16) (bits c0 15 0) 0 false with
  | .error e => .refuse s e
  | .ok k =>
    match plainFmt k.v .engRead, alignedOr k.v .engRead 0 (k.v.h.extOf 0 + 1) with
    | .error e, _ => .refuse s e
    | _, .error e => .refuse s e
    | .ok _, .ok _ =>
      let halo := bits c0 31 28
      let t := k.y.t * 2 ^ bits c0 33 32
      let wr := t + 2 * halo
      let size := wr * wr * (k.v.h.extOf 0 + 1) * k.v.e
      if 262144 < size then .refuse s (.fault 7 0 none)
      else
        match areaCheck s .engWrite d size with
        | .error e => .refuse s e
        | .ok _ =>
          let x0 : Int := (fieldAt k.b 0 2 * t : Nat) - (halo : Nat)
          let y0 : Int := (fieldAt k.b 2 2 * t : Nat) - (halo : Nat)
          let row := (k.v.h.extOf 0 + 1) * k.v.e
          match units (gathCell k.v k.rc d wr x0 y0) (wr * wr) 0 k.st with
          | (u, i, some e) => ⟨u, i * row, 0, some e⟩
          | (u, _, none) => .done u size

/-- Channel row of a tile written from the slice into its pending slot. -/
def scatCell (v : View) (g : Target) (d : Nat) (s : State) (x : Nat × Nat) : EM State :=
  let n := v.h.extOf 0 + 1
  let i := (x.2 - g.ty * g.y.t) * g.y.t + (x.1 - g.tx * g.y.t)
  match readRange s v.ag (d + i * n * v.e) (n * v.e) with
  | .error e => .error e
  | .ok b => (v.writeRow s 0 [x.1, x.2, g.slot] b).map Prod.fst

/-- scat.tl. -/
def State.scatTile (s : State) (h : Nat) : ERes :=
  let c0 := s.cur.ent.sc0.toNat
  let d := bits s.cur.ent.sc1.toNat 51 0
  match s.tileWork h (bits c0 27 16) (bits c0 15 0) 1 true with
  | .error e => .refuse s e
  | .ok k =>
    match plainFmt k.v .engWrite, alignedOr k.v .engWrite 0 (k.v.h.extOf 0 + 1) with
    | .error e, _ => .refuse s e
    | _, .error e => .refuse s e
    | .ok _, .ok _ =>
      let row := (k.v.h.extOf 0 + 1) * k.v.e
      match areaCheck s .engRead d (k.y.t * k.y.t * row) with
      | .error e => .refuse s e
      | .ok _ =>
        match pendingOf k.st k.y k.b with
        | .error e => .refuse s e
        | .ok (t, g) =>
          let cells := tileCells g
          match units (fun u i => scatCell k.v g d u (cells.getD i (0, 0))) cells.length 0 t with
          | (u, i, some e) => ⟨u, i * row, 0, some e⟩
          | (u, i, none) => (ERes.done u (i * row)).mark g

def execGathTl (_h : Hdr) (hnd : BitVec 12) (_cl : BitVec 4) (s : State) : Out := s.engRun 3 (s.gathTile hnd.toNat)
def execScatTl (_h : Hdr) (hnd : BitVec 12) (_cl : BitVec 4) (s : State) : Out := s.engRun 3 (s.scatTile hnd.toNat)

end Sys2Proof.Machine
end

