-- ==== Sys2Proof/Machine/Rv.lean ====
section
/-! DEFINITION. RV64 on the harts of the part (R225, R226, R127, R144): integer operations, scalar memory
accesses, atomics, fences and CSRs. What the RISC-V specifications state and the spec does not repeat is
as log 8 says. -/

namespace Sys2Proof

open Machine

/-! ## Integer operations -/

/-- Sign-extend the low 32 bits. -/
def sx32 (v : Word) : Word := (v.truncate 32).signExtend 64
/-- Zero-extend the low 32 bits. -/
def zx32 (v : Word) : Word := (v.truncate 32).zeroExtend 64

/-- Quotient and remainder of the M extension: by zero, all ones and the dividend; signed overflow wraps. -/
def divS {n : Nat} (a b : BitVec n) : BitVec n := if b = 0 then -1 else BitVec.sdiv a b
def divU {n : Nat} (a b : BitVec n) : BitVec n := if b = 0 then -1 else a / b
def remS {n : Nat} (a b : BitVec n) : BitVec n := if b = 0 then a else BitVec.srem a b
def remU {n : Nat} (a b : BitVec n) : BitVec n := if b = 0 then a else a % b

/-- High half of a product given as an integer. -/
def mulHigh (p : Int) : Word := BitVec.ofInt 64 (p / 2 ^ 64)

/-- A 32-bit operation on the low words, sign-extended. -/
def onW (f : BitVec 32 → BitVec 32 → BitVec 32) (a b : Word) : Word := (f (a.truncate 32) (b.truncate 32)).signExtend 64

/-- Operations of two registers. -/
def RegOp.eval (o : RegOp) (a b : Word) : Word :=
  let sh := b.toNat % 64
  let shw := b.toNat % 32
  match o with
  | .add => a + b
  | .sub => a - b
  | .sll => a <<< sh
  | .slt => if a.slt b then 1 else 0
  | .sltu => if a < b then 1 else 0
  | .xor => a ^^^ b
  | .srl => a >>> sh
  | .sra => a.sshiftRight sh
  | .or => a ||| b
  | .and => a &&& b
  | .addw => onW (· + ·) a b
  | .subw => onW (· - ·) a b
  | .sllw => onW (fun x _ => x <<< shw) a b
  | .srlw => onW (fun x _ => x >>> shw) a b
  | .sraw => onW (fun x _ => x.sshiftRight shw) a b
  | .mul => a * b
  | .mulh => mulHigh (a.toInt * b.toInt)
  | .mulhsu => mulHigh (a.toInt * b.toNat)
  | .mulhu => mulHigh ((a.toNat : Int) * b.toNat)
  | .div => divS a b
  | .divu => divU a b
  | .rem => remS a b
  | .remu => remU a b
  | .mulw => onW (· * ·) a b
  | .divw => onW divS a b
  | .divuw => onW divU a b
  | .remw => onW remS a b
  | .remuw => onW remU a b
  | .addUw => zx32 a + b
  | .sh1add => (a <<< 1) + b
  | .sh2add => (a <<< 2) + b
  | .sh3add => (a <<< 3) + b
  | .sh1addUw => (zx32 a <<< 1) + b
  | .sh2addUw => (zx32 a <<< 2) + b
  | .sh3addUw => (zx32 a <<< 3) + b
  | .andn => a &&& ~~~b
  | .orn => a ||| ~~~b
  | .xnor => ~~~(a ^^^ b)
  | .max => if a.slt b then b else a
  | .maxu => if a < b then b else a
  | .min => if a.slt b then a else b
  | .minu => if a < b then a else b
  | .rol => a.rotateLeft sh
  | .ror => a.rotateRight sh
  | .rolw => onW (fun x _ => x.rotateLeft shw) a b
  | .rorw => onW (fun x _ => x.rotateRight shw) a b
  | .czeroEqz => if b = 0 then 0 else a
  | .czeroNez => if b = 0 then a else 0

/-- Leading zeros of an `n`-bit number. -/
def clzOf (n v : Nat) : Nat := n - bitLen v
/-- Trailing zeros. -/
def ctzOf (n v : Nat) : Nat := ((List.range n).find? fun i => v.testBit i).getD n
/-- One bits. -/
def popOf (n v : Nat) : Nat := ((List.range n).filter fun i => v.testBit i).length

/-- Operations of one register. -/
def UnOp.eval (o : UnOp) (a : Word) : Word :=
  let w := a.toNat % 2 ^ 32
  let bs := leBytes 8 a.toNat
  match o with
  | .clz => BitVec.ofNat 64 (clzOf 64 a.toNat)
  | .ctz => BitVec.ofNat 64 (ctzOf 64 a.toNat)
  | .cpop => BitVec.ofNat 64 (popOf 64 a.toNat)
  | .clzw => BitVec.ofNat 64 (clzOf 32 w)
  | .ctzw => BitVec.ofNat 64 (ctzOf 32 w)
  | .cpopw => BitVec.ofNat 64 (popOf 32 w)
  | .sextB => (a.truncate 8).signExtend 64
  | .sextH => (a.truncate 16).signExtend 64
  | .zextH => (a.truncate 16).zeroExtend 64
  | .orcB => BitVec.ofNat 64 (leNat (bs.map fun b => if b = 0 then 0 else 0xFF))
  | .rev8 => BitVec.ofNat 64 (leNat bs.reverse)

/-- Operations with an immediate. -/
def ImmOp.eval (o : ImmOp) (a : Word) (imm : BitVec 12) : Word :=
  let i : Word := imm.signExtend 64
  match o with
  | .addi => a + i
  | .slti => if a.slt i then 1 else 0
  | .sltiu => if a < i then 1 else 0
  | .xori => a ^^^ i
  | .ori => a ||| i
  | .andi => a &&& i
  | .addiw => sx32 (a + i)

/-- Shifts by an immediate. -/
def ShOp.eval (o : ShOp) (a : Word) (sh : Nat) : Word :=
  match o with
  | .slli => a <<< sh
  | .srli => a >>> sh
  | .srai => a.sshiftRight sh
  | .rori => a.rotateRight sh
  | .slliUw => zx32 a <<< sh
  | .slliw => onW (fun x _ => x <<< sh) a a
  | .srliw => onW (fun x _ => x >>> sh) a a
  | .sraiw => onW (fun x _ => x.sshiftRight sh) a a
  | .roriw => onW (fun x _ => x.rotateRight sh) a a

/-- Branch conditions. -/
def BrCond.eval (c : BrCond) (a b : Word) : Bool :=
  match c with
  | .eq => a == b
  | .ne => a != b
  | .lt => a.slt b
  | .ge => !a.slt b
  | .ltu => a < b
  | .geu => !(a < b)

/-- The result of an AMO on `n`-bit operands. -/
def AmoOp.eval {n : Nat} (o : AmoOp) (a b : BitVec n) : BitVec n :=
  match o with
  | .swap => b
  | .add => a + b
  | .xor => a ^^^ b
  | .and => a &&& b
  | .or => a ||| b
  | .min => if a.slt b then a else b
  | .max => if a.slt b then b else a
  | .minu => if a < b then a else b
  | .maxu => if a < b then b else a

/-- PCIe AtomicOps carry swaps and additions only. -/
def AmoOp.pcie : AmoOp → Bool | .swap => true | .add => true | _ => false

end Sys2Proof

namespace Sys2Proof.Machine

/-- Return from an S-mode trap without a frame. -/
def Hart.sret (h : Hart) : Hart :=
  let st := h.csrGet 0x100
  let md : Mode := if bit st 8 then .s else .u
  let st := setBits (setBits (setBits st 1 1 (bits st 5 5)) 5 5 1) 8 8 0
  { h.csrSet 0x100 st with mode := md, pc := BitVec.ofNat 64 (h.csrGet 0x141) }

/-- Return from an M-mode trap. -/
def Hart.mret (h : Hart) : Hart :=
  let st := h.csrGet 0x300
  { h.csrSet 0x300 (setBits (setBits st 3 3 (bits st 7 7)) 7 7 1) with pc := BitVec.ofNat 64 (h.csrGet 0x341) }

/-- RV_INTEGER_OP (R225). -/
def execRvIntegerOp (c : Bool) (op : RvOp) (s : State) : Out :=
  let h := s.me
  let n := if c then 2 else 4
  let len : Word := BitVec.ofNat 64 n
  let out (rd : Reg) (v : Word) : Out := .next (s.retire n (h.wx rd v))
  match op with
  | .lui rd imm => out rd ((imm ++ (0 : BitVec 12)).signExtend 64)
  | .auipc rd imm => out rd (h.pc + (imm ++ (0 : BitVec 12)).signExtend 64)
  | .jal rd off => .next (s.jump (h.pc + (off ++ (0 : BitVec 1)).signExtend 64) (h.wx rd (h.pc + len)))
  | .jalr rd rs1 imm => .next (s.jump ((h.rx rs1 + imm.signExtend 64) &&& ~~~1) (h.wx rd (h.pc + len)))
  | .branch b rs1 rs2 off =>
    if b.eval (h.rx rs1) (h.rx rs2) then .next (s.jump (h.pc + (off ++ (0 : BitVec 1)).signExtend 64) h) else .next (s.retire n h)
  | .opImm o rd rs1 imm => out rd (o.eval (h.rx rs1) imm)
  | .shImm o rd rs1 sh => out rd (o.eval (h.rx rs1) sh.toNat)
  | .unary o rd rs1 => out rd (o.eval (h.rx rs1))
  | .op o rd rs1 rs2 => out rd (o.eval (h.rx rs1) (h.rx rs2))
  | .ebreak => .next (s.trap s.hn 3 0 none none)
  | .sret =>
    if isHart0 s.hn && h.mode == .s then
      let h := h.sret
      .next (s.jump h.pc h)
    else .next (s.illegal 0x10200073)
  | .mret =>
    if h.mode == .m then
      let h := h.mret
      .next (s.jump h.pc h)
    else .next (s.illegal 0x30200073)

/-! ## Scalar accesses -/

/-- RV_LOAD (R226, R123). -/
def execRvLoad (c : Bool) (wd : LoadW) (rd rs1 : Reg) (imm : BitVec 12) (s : State) : Out :=
  let n := wd.bytes
  s.load (s.me.rx rs1 + imm.signExtend 64).toNat n false fun s v =>
    let r : Word := if wd.signed then BitVec.ofInt 64 (sext v (8 * n)) else BitVec.ofNat 64 v
    .next (s.retire (if c then 2 else 4) (s.me.wx rd r))

/-- RV_STORE (R226, R123). -/
def execRvStore (c : Bool) (wd : AccW) (rs1 rs2 : Reg) (imm : BitVec 12) (s : State) : Out :=
  s.store (s.me.rx rs1 + imm.signExtend 64).toNat (leBytes wd.bytes (s.me.rx rs2).toNat) false fun s =>
    .next (s.retire (if c then 2 else 4) s.me)

/-! ## Atomics (R144, R127) -/

/-- The link is in CXL mode (R385). -/
def State.cxlMode (s : State) : Bool := bit (s.rget (oHL + 0x200) 0) 0

/-- The request reaches the host window in PCIe mode. -/
def toPcieHost (s : State) (ps : List Piece) : Bool :=
  !s.cxlMode && ps.any fun p => match p.tgt with | .host _ => true | _ => false

/-- RV_AMO. -/
def execRvAmo (op : AmoOp) (dbl _aq _rl : Bool) (rd rs1 rs2 : Reg) (s : State) : Out :=
  let s := s.groupIllegal
  let n := if dbl then 8 else 4
  let r := hartReq s .atomic (s.me.rx rs1).toNat n true
  match plan s r anyFmt with
  | .error e => .next (s.hartStop e true)
  | .ok ps =>
    if toPcieHost s ps && !op.pcie then .next (s.hartStop (r.stop .hostAbort) true)
    else
      match readPieces s r ps with
      | .error e => .next (s.hartStop e true)
      | .ok bs =>
        let b := s.me.rx rs2
        let (old, new) : Word × Nat :=
          if dbl then (BitVec.ofNat 64 (leNat bs), (op.eval (BitVec.ofNat 64 (leNat bs)) b).toNat)
          else (BitVec.ofInt 64 (sext (leNat bs) 32), (op.eval (BitVec.ofNat 32 (leNat bs)) (b.truncate 32)).toNat)
        match writePieces r s ps (leBytes n new) with
        | .error e => .next (s.hartStop e true)
        | .ok s => s.wrote4 rd old

/-- The kind of access of an LR or SC: no such access may be made in the register windows (R28). -/
def lrscAcc (va : Nat) (a : Acc) : Acc := if winBase ≤ va && va < resvBase then .atomic else a

/-- The line of a planned access (R144). -/
def lineOf (ps : List Piece) : Nat := match ps with | p :: _ => p.key / 64 | [] => 0

/-- RV_LR. -/
def execRvLr (dbl _aq _rl : Bool) (rd rs1 : Reg) (s : State) : Out :=
  let s := s.groupIllegal
  let n := if dbl then 8 else 4
  let va := (s.me.rx rs1).toNat
  let r := hartReq s (lrscAcc va .load) va n true
  match plan s r anyFmt with
  | .error e => .next (s.hartStop e false)
  | .ok ps =>
    if toPcieHost s ps then .next (s.hartStop (r.stop .hostAbort) false)
    else
      match readPieces s r ps with
      | .error e => .next (s.hartStop e false)
      | .ok bs => .next (s.retire 4 ({ s.me with resv := some (lineOf ps) }.wx rd (BitVec.ofInt 64 (sext (leNat bs) (8 * n)))))

/-- RV_SC. -/
def execRvSc (dbl _aq _rl : Bool) (rd rs1 rs2 : Reg) (s : State) : Out :=
  let s := s.groupIllegal
  let n := if dbl then 8 else 4
  let va := (s.me.rx rs1).toNat
  let r := hartReq s (lrscAcc va .store) va n true
  match plan s r anyFmt with
  | .error e => .next (s.hartStop e true)
  | .ok ps =>
    if toPcieHost s ps then .next (s.hartStop (r.stop .hostAbort) true)
    else if s.me.resv == some (lineOf ps) then
      match writePieces r s ps (leBytes n (s.me.rx rs2).toNat) with
      | .error e => .next (s.hartStop e true)
      | .ok s => .next (s.retire 4 ({ s.me with resv := none }.wx rd 0))
    else .next (s.retire 4 ({ s.me with resv := none }.wx rd 1))

/-! ## Fences and hints (R127) -/

/-- RV_FENCE: fence.c over every class at SYS. -/
def execRvFence (_fm _pred _succ : BitVec 4) (_rd _rs1 : Reg) (s : State) : Out := s.fenceOver fun _ => true

/-- RV_FENCE_I: fetches read memory at every step, so that nothing remains to order. -/
def execRvFenceI (_imm : BitVec 12) (_rd _rs1 : Reg) (s : State) : Out := s.groupIllegal.done4

/-- RV_PAUSE: a hint. -/
def execRvPause (s : State) : Out := s.done4

/-- RV_ECALL: cause 8 from U mode, 9 from S mode, 11 from M mode. -/
def execRvEcall (s : State) : Out :=
  let s := s.groupIllegal
  .next (s.trap s.hn (match s.me.mode with | .u => 8 | .s => 9 | .m => 11) 0 none none)

/-- An interrupt is pending and locally enabled, whether or not the hart would take it: what ends a WFI. -/
def Hart.wakeUp (h : Hart) : Bool := h.csrGet 0x144 &&& h.csrGet 0x104 != 0

/-- RV_WFI: illegal in U mode; elsewhere it waits for an interrupt (R226). One that the model does not deliver may come at any
time: a free value says whether one ends the wait (log 8). -/
def execRvWfi (s : State) : Out :=
  if s.me.mode == .u then .next (s.illegal 0x10500073)
  else if s.me.wakeUp then s.done4
  else
    let (v, t) := s.draw
    if v.getLsbD 0 then t.done4 else .next t.stall

/-- RV_SFENCE_VMA: a no-op in S mode, illegal in U mode and on harts without S mode. -/
def execRvSfenceVma (rs1 rs2 : Reg) (s : State) : Out :=
  if s.me.mode == .s then s.done4 else s.illegalI (.rvSfenceVma rs1 rs2)

/-! ## CSRs (R13, R92, R122, R192, R226, R235) -/

/-- Privilege level of a mode. -/
def Mode.level : Mode → Nat | .u => 0 | .s => 1 | .m => 3

/-- Bits of the standard CSRs that a write reaches (log 8). -/
def csrMask (k : Nat) : Option Nat :=
  match k with
  | 0x100 => some (fm 1 1 + fm 5 5 + fm 8 8 + fm 19 19)
  | 0x104 => some 0x222
  | 0x105 => some (m64 - 2)
  | 0x106 => some m32
  | 0x10A => some 1
  | 0x140 => some m64
  | 0x141 => some (m64 - 1)
  | 0x142 => some m64
  | 0x143 => some m64
  | 0x144 => some 2
  | 0x180 => some 0
  | 0x300 => some (fm 3 3 + fm 7 7)
  | 0x304 => some 0x888
  | 0x305 => some (m64 - 2)
  | 0x320 => some 0
  | 0x340 => some m64
  | 0x341 => some (m64 - 1)
  | 0x342 => some m64
  | 0x343 => some m64
  | 0x344 => some 0
  | _ => if (0x323 ≤ k && k < 0x340) || (0xB03 ≤ k && k < 0xB20) then some 0 else none

/-- misa: RV64 with A, C, I and M, and on hart 0 S and U (R225). -/
def misaOf (h0 : Bool) : Nat := 2 ^ 63 + 0x1105 + (if h0 then 0x140000 else 0)

/-- dcore (R13). -/
def State.dcore (s : State) (n : Nat) : Nat :=
  n + instOf 4 n * 2 ^ 8 + instOf 3 n * 2 ^ 16 + instOf 2 n * 2 ^ 24 + s.selfPeer.getD 0 * 2 ^ 32

/-- Privilege level that a standard CSR asks for. -/
def csrLevel (k : Nat) : Nat := bits k 9 8

/-- The value of CSR `k` at the acting hart, none when an access is illegal. dcore of a management hart, which has no core, is illegal
(DESIGN CHOICE, log 8); scounteren governs the U-mode reads of hpmcounter3 to 31, but not those of cycle, time and instret, which
R226 makes readable. -/
def State.csrRead (s : State) (k : Nat) : Option (Word × State) :=
  let h := s.me
  let h0 := isHart0 s.hn
  let w (v : Nat) : Option (Word × State) := some (BitVec.ofNat 64 v, s)
  let c := (h.cont.map s.cont).getD Cont.fresh
  if h.mode.level < csrLevel k then none
  else if csrLevel k == 1 && !h0 then none
  else if k == 0x800 then (if h0 then some (h.dfcsr, s) else none)
  else if k == 0x801 then some (h.dclass, s)
  else if k == 0x802 then (if h0 then w h.dviewV else none)
  else if k == 0x803 then (if h0 then w h.dviewM else none)
  else if k == 0x804 then (if h0 then w h.dviewC else none)
  else if k == 0xCC0 then (if s.hn < 384 then w (s.dcore (coreOf s.hn)) else none)
  else if k == 0xCC1 then (if h0 then w (c.ordinal % 2 ^ 24 + c.lid % 2 ^ 16 * 2 ^ 24 + c.slot * 2 ^ 40) else none)
  else if 0xCD0 ≤ k && k < 0xCE0 then (if h0 then w ((s.launch c.lid).rel (k - 0xCD0)) else none)
  else if k == 0xC00 || k == 0xC01 || k == 0xB00 then some s.draw
  else if k == 0xC02 || k == 0xB02 then some (h.instret, s)
  else if 0xC03 ≤ k && k < 0xC20 then (if h.mode == .u && !bit (h.csrGet 0x106) (k - 0xC00) then none else w 0)
  else if k == 0x301 then w (misaOf h0)
  else if k == 0xF14 then w s.hn
  else if k == 0xF11 || k == 0xF12 || k == 0xF13 || k == 0xF15 then w 0
  else if k == 0x100 then w (h.csrGet k + 2 ^ 33)
  else if k == 0x300 then w (setBits (h.csrGet k) 12 11 3)
  else if (csrMask k).isSome then w (h.csrGet k)
  else none

/-- A write to a CSR that `csrRead` accepts; none when it is illegal. A write of minstret takes the place of the count of its own
instruction, so that the next one reads the value written. -/
def State.csrWrite (s : State) (k : Nat) (v : Word) : Option State :=
  let h := s.me
  let put (h : Hart) : Option State := some (s.setHart s.hn h)
  if bits k 11 10 == 3 || (0x802 ≤ k && k ≤ 0x804) then none
  else if k == 0x800 then put { h with dfcsr := dfcsrMask v }
  else if k == 0x801 then
    let sc := if 6 ≤ bits v.toNat 6 4 then bits h.dclass.toNat 6 4 else bits v.toNat 6 4
    put { h with dclass := BitVec.ofNat 64 (bits v.toNat 3 0 + sc * 16) }
  else if k == 0xB02 then put { h with instret := v - 1 }
  else
    match csrMask k with
    | some m => put (h.csrSet k ((v.toNat &&& m) + (h.csrGet k - (h.csrGet k &&& m))))
    | none => some s

/-- RV_CSR_ACCESS (R226). -/
def execRvCsrAccess (op : CsrOp) (csr : BitVec 12) (rd src : Reg) (s : State) : Out :=
  let i := Instr.rvCsrAccess op csr rd src
  let k := csr.toNat
  let a : Word := match op with
    | .rw => s.me.rx src | .rs => s.me.rx src | .rc => s.me.rx src | _ => src.zeroExtend 64
  match s.csrRead k with
  | none => s.illegalI i
  | some (old, s1) =>
    let wr (new : Word) : Out :=
      match s1.csrWrite k new with
      | none => s.illegalI i
      | some s2 => s2.wrote4 rd old
    match op with
    | .rw => wr a
    | .rwi => wr a
    | .rs => if src == 0 then s1.wrote4 rd old else wr (old ||| a)
    | .rsi => if src == 0 then s1.wrote4 rd old else wr (old ||| a)
    | .rc => if src == 0 then s1.wrote4 rd old else wr (old &&& ~~~a)
    | .rci => if src == 0 then s1.wrote4 rd old else wr (old &&& ~~~a)

end Sys2Proof.Machine
end

