-- ==== Sys2Proof/Machine/HostLink.lean ====
section
/-! DEFINITION. Accesses from outside the part: the host's windows and CXL.mem (R386, R387), the submission rings (R388 to R394),
peers (R395, R396), and writes of device registers (R26, R27). -/

namespace Sys2Proof.Machine

/-! ## Answers -/

/-- An access of the host or a peer as a request. -/
def busReq (op : BusOp) (ag : Agent) (va : Nat) : Req :=
  match op with
  | .read n => ⟨ag, .load, va, n, false, true⟩
  | .write bs => ⟨ag, .store, va, bs.length, false, true⟩
  | .atomic _ n _ _ => ⟨ag, .atomic, va, n, true, true⟩

/-- The value that a read-modify-write stores over `old`, in `n` bytes (R144, R359, R385). -/
def atomicEval (k : BusAtomic) (n old x y : Nat) : Nat :=
  let w := 2 ^ (8 * n)
  match k with
  | .fetchAdd => (old + x) % w
  | .swap => x % w
  | .cas => if old == x % w then y % w else old
  | .amo o => (o.eval (BitVec.ofNat (8 * n) old) (BitVec.ofNat (8 * n) x)).toNat
  | .upd false t rm => scAdd t (Rm.of rm.toNat) old (x % w)
  | .upd true t _ => scMax t old (x % w)

/-- A planned access performed on memory: the answer's bytes and the state. -/
def busMove (s : State) (op : BusOp) (r : Req) (ps : List Piece) : Except Stop (List Byte × State) :=
  match op with
  | .read _ => (readPieces s r ps).map fun bs => (bs, s)
  | .write bs => (writePieces r s ps bs).map fun t => ([], t)
  | .atomic k n x y =>
    match readPieces s r ps with
    | .error e => .error e
    | .ok bs => (writePieces r s ps (leBytes n (atomicEval k n (leNat bs) x.toNat y.toNat))).map fun t => (bs, t)

/-- A read answered with its bytes, a write performed; a fault performs nothing and is the answer (R387). A trigger store waits
while the queue is full (R212). -/
def State.perform (s : State) (op : BusOp) (ag : Agent) (va : Nat) : Out :=
  let r := busReq op ag va
  let done (t : State) (bs : List Byte) : Out := .next ({ t with reply := ⟨bs, none⟩ }.tookWalk .part)
  let stop (e : Stop) : Out :=
    match e with
    | .miss wh c v => .next (s.missed wh c v)
    | .flt f => .next ({ s.noted f with reply := ⟨[], some f⟩ }.tookWalk .part)
  match plan s r anyFmt with
  | .error e => stop e
  | .ok ps =>
    match ps.map Piece.tgt, op with
    | [.trig st o], .read n => done s (leBytes n (trigRead s st o n))
    | [.trig st o], .write bs => (match trigWrite s st o (BitVec.ofNat 64 (leNat bs)) with | some t => done t [] | none => .fault .notEnabled)
    | _, _ => (match busMove s op r ps with | .ok (bs, t) => done t bs | .error e => stop e)

/-- Function `f` acting in its context with S-mode checks: a virtual function names the general region and its tenant's triggers,
the physical function the aperture and every stream's trigger too (R33, R387). UNIT is the function's number, and of a peer's request
the peer's, which R54 does not give (DESIGN CHOICE, log 18). -/
def fnAgent (s : State) (f : Nat) : Agent := ⟨.host f, 12, f, .s, s.fnCtx f, 0, ⟨true, f == 0, false, false, true⟩⟩

/-- A fault of an access through BAR2 logged in the RAS block: a record of its log, whose REASON is a free value, since R422 has none for
it, with the function and the address (log 35). -/
def State.busLog (s : State) (f : Nat) (m : MemFault) : State := let (w, s) := s.draw; s.logRecord (w.toNat % 256) f m.faddr

/-- A fault that has become the answer is logged. -/
def logFaults (f : Nat) : Out → Out
  | .next t => .next (match t.reply.fault with | some m => t.busLog f m | none => t)
  | o => o

/-- Completer Abort: the answer to a BAR access before step 7 of bring-up (R426, log 36). -/
def State.barAbort (s : State) (f off : Nat) (op : BusOp) : Out := s.answer ((busReq op (fnAgent s f) off).fault off .notMapped 7 0 0)

/-- HOST_BAR2_ACCESS at offset `off` of a function's 64 GiB window. A function without a valid context answers Completer Abort. -/
def execHostBar2Access (f off : Nat) (op : BusOp) (s : State) : Out :=
  if 2 ^ 36 ≤ off then .fault .notEnabled
  else if !s.barsOpen then s.barAbort f off op
  else
    let va := bits (s.rget (oHL + 16 * f + 8) 0) 51 36 * 2 ^ 36 + off
    let s := { s with reply := ⟨[], none⟩ }
    logFaults f (if !bit (s.rget (oHL + 16 * f) 0) 8 then s.answer ((busReq op (fnAgent s f) va).fault va .notMapped 7 0 0)
      else s.perform op (fnAgent s f) va)

/-- An access to HBM by physical address: as stored for CXL.mem, and with the attributes of the sender's page for a peer. -/
def State.rawAccess (s : State) (op : BusOp) (ag : Agent) (p : Piece) (pa : Nat) : Out :=
  let r := { busReq op ag pa with ord := false }
  if r.acc == .atomic && pa % r.n != 0 then s.answer (r.fault pa .misalign 7 0 0)
  else
    match tgtFault s r p with
    | some (c, d) => s.answer (r.fault pa c 7 (p.ptFor c) d)
    | none =>
      if p.leaf.isNone && r.acc.isRead && ueIn s.ue pa r.n then s.answer (r.fault pa .memUe 7 0 (ueAt s.ue pa r.n))
      else
        match busMove s op r [p] with
        | .ok (bs, t) => .next { t with reply := ⟨bs, none⟩ }
        | .error (.flt f) => (s.noted f).answer f
        | .error (.miss ..) => .fault .notEnabled

/-- CXL_MEM_ACCESS in the exposed range, in CXL mode. -/
def execCxlMemAccess (pa : Nat) (op : BusOp) (s : State) : Out :=
  let base := bits (s.rget (oHL + 0x210) 0) 37 30 * 2 ^ 30
  let len := bits (s.rget (oHL + 0x218) 0) 38 30 * 2 ^ 30
  let ag : Agent := ⟨.host 0, 12, 0, .m, 0, 0, ⟨true, false, false, false, false⟩⟩
  let n := (busReq op ag pa).n
  evWhen (bits (s.rget (oHL + 0x200) 0) 1 0 == 1 && base ≤ pa && pa + n ≤ min (base + len) hbmEnd && (busReq op ag pa).acc != .atomic)
    (s.rawAccess op ag ⟨pa, n, .hbm pa, none⟩ pa)

/-! ## Rings (R388 to R394) -/

/-! A write of a ring's registers comes from the host, whose accesses are aborted before step 7 of bring-up (R426). -/

def execHlRingEnable (f r : Nat) (v : BitVec 32) (s : State) : Out :=
  evWhen (bit v.toNat 0 && s.barsOpen) (evOut s (s.ringCtlWrite f r v.toNat))

def execHlRingDisable (f r : Nat) (v : BitVec 32) (s : State) : Out :=
  evWhen (!bit v.toNat 0 && s.barsOpen) (evOut s (s.ringCtlWrite f r v.toNat))

def execHlRingTailWrite (f r : Nat) (v : BitVec 32) (s : State) : Out := evWhen s.barsOpen (.next (s.ringTailWrite f r v.toNat))

/-- The ring holds published records. -/
def State.ringBusy (s : State) (f r : Nat) : Bool := s.ringOn f r && s.ringHead f r != s.ringTail f r

/-- What taking from a ring comes to. -/
def State.ringOut (s : State) (f r : Nat) (x : Except Stop (Option State)) : Out :=
  if !s.ringBusy f r then .fault .notEnabled
  else
    match x with
    | .error e => evOut s (.error e)
    | .ok none => .fault .notEnabled
    | .ok (some t) => .next (t.tookWalk .part)

def execRingRecordTake (f r : Nat) (s : State) : Out := s.ringOut f r (s.ringTake f r)
def execBatchValidate (f r : Nat) (s : State) : Out := s.ringOut f r (s.batch f r)

/-! ## Peers (R395, R396) -/

/-- The peer whose HL_PEER entry holds a requester ID. -/
def State.peerOf (s : State) (id : Nat) : Option Nat :=
  (List.range 16).find? fun k => s.peerValid k && bits (s.rget (oHL + 0x400 + 8 * k) 0) 31 16 == id

/-- The bytes of a page of the sender's at `pa`, as the owner takes them: with the page's format and key, and its ILV checked against
the owner's map (R44, R108, R109). How the owner learns the format and the key the spec does not say: the sender's page word travels
with the request (DESIGN CHOICE, log 91). -/
def peerPiece (g : PeerPage) (pa n : Nat) : Piece :=
  let size := pageSize g.level
  ⟨pa % size + b2n g.half * size, n, .hbm pa, some ⟨g.level, setBits g.w0.toNat 3 2 1, pa / size * (size / 65536)⟩⟩

/-- PEER_REQUEST for the part's own HBM, within one page of the sender's. An unregistered requester is answered Unsupported Request,
which its own part reports as PEER_ABSENT. -/
def execPeerRequest (requester : BitVec 16) (at_ : PeerAddr) (op : BusOp) (s : State) : Out :=
  let page := at_.page
  let pa := at_.pa
  let ag (k : Nat) : Agent := ⟨.peer k, 12, k, .m, 0, 0, ⟨true, false, false, false, false⟩⟩
  let r := busReq op (ag 0) pa
  match s.selfPeer, s.peerOf requester.toNat with
  | some me, some k =>
    if hbmEnd < pa + r.n then s.answer (r.fault pa .peerRange 7 0 me)
    else evWhen (pa % pageSize page.level + r.n ≤ pageSize page.level) (s.rawAccess op (ag k) (peerPiece page pa r.n) pa)
  | me, _ => s.answer (r.fault pa .peerAbsent 7 0 (me.getD 0))

/-- PEER_DEPART: later requests to the peer fault PEER_ABSENT. -/
def execPeerDepart (k : Nat) (s : State) : Out :=
  let o := oHL + 0x400 + 8 * k
  evWhen (s.peerValid k) (.next (s.rset o (setBits (s.rget o 0) 0 0 0)))

/-! ## Device registers (R26, R27) -/

/-- REGISTER_WRITE: below 2^32 an offset of the privileged window, above it BAR0 of function (off - 2^32) / 2^16, which only the
host reaches. A write that is held is not performed yet, and one of the host's before step 7 of bring-up is aborted (R426, log 36). -/
def execRegisterWrite (ag : RegAgent) (off width : Nat) (v : Word) (s : State) : Out :=
  let done (s : State) : State := { s with reply := ⟨[], none⟩ }
  let r := s.regReq ag .store off width
  if ag == .host && !s.barsOpen then s.answer (r.fault r.va .notMapped 7 0 0)
  else if 2 ^ 32 ≤ off then
    if ag != .host then .fault .notEnabled
    else if off % width != 0 || 17 ≤ (off - 2 ^ 32) / 2 ^ 16 then .next (done s)
    else evOut s ((ringWrite s ((off - 2 ^ 32) / 2 ^ 16) (off % 2 ^ 16) width v.toNat).map done)
  else
    match plan s r anyFmt with
    | .error (.miss wh c p) => .next (s.missed wh c p)
    | .error (.flt f) => s.answer f
    | .ok _ =>
      if !s.regMay ag then s.answer (r.fault r.va .priv 7 0 0)
      else
        match regWrite s ag off width v.toNat with
        | .error e => evOut s (.error e)
        | .ok none => .fault .notEnabled
        | .ok (some t) => .next ((done t).tookWalk .part)

/-! ## The host's other accesses (R33, R387, R388) -/

/-- A register of BAR0 as 4 bytes. -/
def barReg4 (s : State) (f o : Nat) : Nat :=
  match ringRow (o % 0x100) with
  | none => 0
  | some (b, _) => (if b == o % 0x100 then s.rget (oRing f (o / 0x100) + b) 0 else s.rget (oRing f (o / 0x100) + b) 0 / 2 ^ 32) % 2 ^ 32

/-- A read in BAR0 of function `f`; one of another size reads as zero (R388). -/
def barReg (s : State) (f o n : Nat) : Nat :=
  if 0x800 ≤ o || o % n != 0 then 0
  else if n == 4 then barReg4 s f o
  else if n == 8 then barReg4 s f o + 2 ^ 32 * barReg4 s f (o + 4)
  else 0

/-- An access to BAR0: other sizes than 4 and 8 are dropped. -/
def State.bar0 (s : State) (f off : Nat) (op : BusOp) : Out :=
  match op with
  | .read n => .next { s with reply := ⟨leBytes n (barReg s f off n), none⟩ }
  | .write bs =>
    if (bs.length == 4 || bs.length == 8) && off < 65536 then
      execRegisterWrite .host (2 ^ 32 + f * 2 ^ 16 + off) bs.length (BitVec.ofNat 64 (leNat bs)) s
    else .next { s with reply := ⟨[], none⟩ }
  | .atomic _ n _ _ => .next { s with reply := ⟨leBytes n 0, none⟩ }

/-- An access to BAR4: the privileged window, then the global scratch aperture; at a peer window the host is no peer (R395). -/
def State.bar4 (s : State) (off : Nat) (op : BusOp) : Out :=
  let ag := (s.regReq .host .load 0 4).ag
  if off < 2 ^ 29 then
    match op with
    | .write bs => execRegisterWrite .host off bs.length (BitVec.ofNat 64 (leNat bs)) s
    | .atomic _ n _ _ => s.answer ((s.regReq .host .atomic off n).fault (winBase + off) .regSize 7 0 0)
    | .read n =>
      match plan s (s.regReq .host .load off n) anyFmt with
      | .error (.flt f) => s.answer f
      | .error (.miss _ _ _) => .fault .notEnabled
      | .ok _ => .next { s with reply := ⟨leBytes n (regRead s false off n), none⟩ }
  else if off < 2 ^ 29 + (apEnd - apBase) then s.perform op ag (apBase + off - 2 ^ 29)
  else if 2 ^ 39 ≤ off && off < 2 ^ 40 then s.answer ((busReq op ag off).fault off .peerAbsent 7 0 0)
  else .fault .notEnabled

/-- The host accesses a BAR of a function; before step 7 of bring-up every access completes with Completer Abort (R426, log 36). -/
def State.barAccess (s : State) (f b off : Nat) (op : BusOp) : Out :=
  if 17 ≤ f || !op.hostOk then .fault .notEnabled
  else if !s.barsOpen then s.barAbort f off op
  else if b == 0 then s.bar0 f off op
  else if b == 2 then execHostBar2Access f off op s
  else if b == 4 && f == 0 then s.bar4 off op
  else .fault .notEnabled

/-- The host writes its own memory (R30, R151). -/
def State.hostStore (s : State) (pa : Nat) (bs : List Byte) : Out :=
  if pa + bs.length ≤ hostBase then .next (s.putLoc .part (hostBase + pa) bs) else .fault .notEnabled

end Sys2Proof.Machine
end

