-- ==== Sys2Proof/Machine/Preempt.lean ====
section
/-! DEFINITION. Pre-emption: its request, the drain of a loop, the capture with its parked words, and the limit (R208,
R374, R375, R379, R380). -/

namespace Sys2Proof.Machine

/-- The continuation that hart 0 of core `n` runs in U mode. -/
def State.runningU (s : State) (n : Nat) : Option Nat :=
  let h := s.hart (2 * n)
  if h.mode == .u && !h.serving then h.cont else none

/-- A drain taken back: the body cannot be completed because hart 0 has stopped. -/
def Loop.undrain (l : Loop) : Loop := { l with n := l.n + l.left, left := 0, drain := false }

/-- PREEMPT_REQUEST: hart 0 stops at its present boundary (R208, R379). -/
def execPreemptRequest (core : Nat) (s : State) : Out :=
  let n := core
  match s.runningU n with
  | none => .fault .notEnabled
  | some cid =>
    let co := s.core n
    let v := s.vrun (s.frameRun cid)
    let v := match v.loop with | some l => { v with loop := some l.drainAt } | none => v
    evWhen (co.preempt == .none && !(s.readyOn n).isEmpty && s.coreOk n && !s.hoPaused 1 n)
      (evDecided s 1 ((s.setVrun (s.frameRun cid) v).setCore n { co with preempt := .asked }))

/-- The head of the V queue is a vsync whose WAIT holds. -/
def State.vsyncAtHead (s : State) (n : Nat) : Bool :=
  match (s.core n).queues.headD [] with
  | .word e :: _ => (match engineOp e.word with | some (.vsync _) => s.waitHolds e.cid e | _ => false)
  | _ => false

/-- KIND of the capture that may be made now on core `n` for continuation `cid` (R375, R379, R380); the
latches are cleared at a drain point (R246). -/
def State.captureKind (s : State) (n cid : Nat) : Option (Nat × Bool) :=
  let run := s.frameRun cid
  let v := s.vrun run
  let q := (s.core n).queues.headD []
  let others := s.runs.any fun p => (s.cont p.2.cid).core == some n && p.1 != run && p.2.busy && (s.cont p.2.cid).frame.isNone
  match v.loop with
  | some l =>
    if l.drained then some (1, false)
    else if (headWord q).isNone && l.partly && l.w == l.body.length && !l.atExit && v.idle == 0 then some (2, false)
    else none
  | none =>
    let still := v.idle == 0 && !others
    if still && v.fly.isEmpty && ((headWord q).isNone || s.vsyncAtHead n) then some (1, true)
    else if (s.core n).preempt == .force then some (2, false)
    else if still && !v.fly.isEmpty && q.isEmpty then some (2, false)
    else none

/-- PREEMPT_FORCE_TIMEOUT: no drain point within 4,096 clk, nor now; a loop goes on draining (R375, R379). -/
def execPreemptForceTimeout (core : Nat) (s : State) : Out :=
  match s.runningU core with
  | none => .fault .notEnabled
  | some cid =>
    let co := s.core core
    evWhen (co.preempt == .asked && (s.vrun (s.frameRun cid)).loop.isNone && s.captureKind core cid != some (1, true)) (.next (s.setCore core { co with preempt := .force }))

/-- The run of the captured continuation: generators stopped, an ended loop gone, latches cleared when asked. -/
def VRun.captured (v : VRun) (clear : Bool) : VRun :=
  { v with
    latch := if clear then [] else v.latch
    fq := v.fq.map fun p => (p.1, { p.2 with ahead := [] })
    loop := match v.loop with
      | some l => if !l.drained then some l.undrain else if l.left == 0 then none else some l
      | none => none }

/-- Insert a word by push order. -/
def insertSeq (x : Nat × QEntry) : List (Nat × QEntry) → List (Nat × QEntry)
  | [] => [x]
  | y :: ys => if x.2.seq < y.2.seq then x :: y :: ys else y :: insertSeq x ys

/-- Words in one push order across the queues. -/
def sortSeq : List (Nat × QEntry) → List (Nat × QEntry)
  | [] => []
  | x :: xs => insertSeq x (sortSeq xs)

/-- Settles of a queue, by their place in push order. -/
def marksOf (q : List QItem) : List Nat := q.filterMap fun i => match i with | .settle k => some k | .word _ => none

/-- The S commands of a continuation that have acted complete (R379). -/
def State.finishS (s : State) (cid : Nat) : State :=
  ((s.cont cid).live.filter fun l => l.eng == 4 && l.fault.isNone).foldl (fun (s : State) l => s.finish cid l) s

/-- The capture and the frame; the continuation is READY on its core (R374, R379). -/
def State.capture (s0 : State) (n cid kind : Nat) (clear : Bool) : State :=
  let s := s0.finishS cid
  let run := s.frameRun cid
  let s := s.captureV run
  let s := s.setVrun run ((s.vrun run).captured clear)
  let h := s.hart (2 * n)
  let h := { h with group := h.group.struck, resv := none }
  let words := sortSeq (s.queued n cid)
  let co := s.core n
  let own := words.any fun p => p.1 == 0
  let marks := if own then marksOf (co.queues.headD []) else []
  let c := s.cont cid
  let c := { c with seq := c.seq + 1 }
  let img := frameImage h c (s.vrun run) words (frameAddr s c.ctx n c.slot) 0x8010 kind 0 none none
  match writeFrame s n c.ctx c.slot img false with
  | .error (.miss wh k v) => s0.missed wh k v
  | .error (.flt f) => ((s.noted f).abandonCont cid (some f)).tookWalk (.hart (2 * n))
  | .ok s =>
    let c := { c with stat := .ready, wait := .none, pc := h.pc, a := h.args, dfcsr := h.dfcsr, dclass := h.dclass,
                      frame := some ⟨0x8010, kind, n, img, words, none, marks, h, run⟩, flagsIn := 0, restAt := s.clock, waited := 0 }
    let s := ({ s with clock := s.clock + 1 }.setCont cid c).setHart (2 * n) h.free
    let q := co.queues.map (dropWords cid)
    let q := if own then q.set 0 ((q.headD []).filter fun i => match i with | .word _ => true | .settle _ => false) else q
    ((s.setCore n { s.core n with queues := q, preempt := .none }).forgetWalks n).tookWalk (.hart (2 * n))

/-- PREEMPT_CAPTURE: it waits while more than 2,048 words have not started, and for an S command to complete. -/
def execPreemptCapture (core : Nat) (s : State) : Out :=
  match s.runningU core with
  | none => .fault .notEnabled
  | some cid =>
    match s.captureKind core cid with
    | none => .fault .notEnabled
    | some (kind, clear) =>
      evWhen ((s.core core).preempt != .none && (s.queued core cid).length ≤ 2048 && (s.cont cid).bred.isNone) (.next (s.capture core cid kind clear))

end Sys2Proof.Machine
end

