-- ==== Sys2Proof/Machine/Push.lean ====
section
/-! DEFINITION. The push of an engine word by hart 0 (R220, R234 to R237, R311, R327, R347). -/

namespace Sys2Proof.Machine

/-! ## Checks at push -/

/-- Class of an engine word. -/
def clsOf (w : BitVec 64) : Nat := bits w.toNat 47 44

/-- Engine of a class: V, M, C, G, S, X (R231). -/
def engOfCls (c : Nat) : Nat := c - 1

/-- The capture slots of a tmma form: sc1 carries the tile and the output offset (R327). -/
def mxSc1Ok (m : Mxt) (sc1 : Nat) (outOk : Bool) : Bool :=
  bits sc1 63 32 == 0 && (if m.cx then bits sc1 15 10 == 0 else bits sc1 15 0 == 0) &&
    (if outOk && m.ep != 0 then bits sc1 31 16 % 4 == 0 else bits sc1 31 16 == 0)

/-- sc0 of a tmma form whose word reads `n` directory entries (R327). -/
def mxSc0Ok (sc0 n : Nat) : Bool := bits sc0 63 14 == 0 && sc0 + n ≤ 16384

/-- Directory entries that a tmma of type `t` reads (R322, R324). -/
def mxEntries (t : MxT) (nk : Nat) : Nat := if t == .bs8 then 4 * nk + 4 else 4 * nk

/-- Register-space bytes of an accumulator move lie below 64 KiB (R327). -/
def mxaFits (m : Mxa) (mb : Nat) : Bool := mb + 2048 * m.ma.toNat + 512 * (m.n1.toNat + 1) ≤ 65536

/-- sc0 and sc1 of a GSX word (R347). -/
def gsxOk (m : Gsx) (sc0 sc1 : Nat) : Bool := sc0 % 16 == 0 && bits sc1 63 52 ≤ m.cnt1.toNat && bits sc1 1 0 == 0

/-- What a word asks of its capture slots and views at push (R311, R327, R347). -/
def slotsOk (i : Instr) (sc0 sc1 mb : Nat) : Bool :=
  match i with
  | .vloop .. => sc0 < 2 ^ 32
  | .tmma _ t m => mxSc0Ok sc0 (mxEntries t (m.nk1.toNat + 1)) && mxSc1Ok m sc1 true
  | .tmmaSp _ _ m => mxSc0Ok sc0 (4 * (m.nk1.toNat + 1)) && mxSc1Ok m sc1 true
  | .tmmaBp _ _ m => bits sc0 63 14 == 0 && mxSc1Ok m sc1 true
  | .tmmaGrp _ _ m => sc0 % 16 == 0 && mxSc1Ok m sc1 false
  | .taccRd _ m => mxaFits m mb
  | .taccWr _ m => mxaFits m mb
  | .ttr _ m => mxaFits m mb
  | .tmov _ m => mxaFits m mb
  | .tepiSet .. => sc0 % 64 == 0
  | .tlutLd .. => sc0 % 64 == 0
  | .wbInv _ => 1 ≤ sc1 && sc0 + sc1 ≤ 16384
  | .tcpy _ _ => sc0 % 64 == 0 && sc1 == 0
  | .cpyPerm _ _ => sc0 % 64 == 0 && sc1 == 0
  | .tcpyMc .. => sc0 % 8 == 0 && sc1 == 0
  | .cpyXf .. => sc0 % 64 == 0 && sc1 % 64 == 0
  | .cpyWb .. => sc0 % 64 == 0 && sc1 == 0
  | .gath _ m => gsxOk m sc0 sc1
  | .scat _ m => gsxOk m sc0 sc1
  | .scatAdd _ _ m => gsxOk m sc0 sc1
  | .scatMax _ _ m => gsxOk m sc0 sc1
  | .gathTl .. => bits sc0 63 34 == 0 && bits sc0 33 32 ≤ 2 && bits sc1 63 52 == 0 && bits sc1 1 0 == 0
  | .scatTl .. => bits sc0 63 28 == 0 && bits sc1 63 52 == 0 && bits sc1 1 0 == 0
  | .cmMeas .. => bits sc0 63 16 == 0
  | .cmForce .. => bits sc0 63 16 == 0
  | _ => true

/-- A word may not stand in a loop body (R311). -/
def notInBody : Instr → Bool
  | .vloop .. => true
  | .vsync .. => true
  | .fqOpen .. => true
  | .fqClose .. => true
  | _ => false

/-- The predicate register that a word writes. -/
def predDest : Instr → Option Nat
  | .vcmp _ _ _ kd _ _ _ => some kd.toNat
  | .vfcmp _ _ _ kd _ _ _ => some kd.toNat
  | .kand _ kd _ _ => some kd.toNat
  | .kor _ kd _ _ => some kd.toNat
  | .kxor _ kd _ _ => some kd.toNat
  | .knot _ kd _ => some kd.toNat
  | .kmov _ kd _ => some kd.toNat
  | _ => none

/-- A word may stand in a loop body. -/
def bodyOk (i : Instr) (w : BitVec 64) : Bool :=
  !notInBody i && waitOf w == 0 && (match predDest i with | some k => k < 8 | none => true)

/-- Fetch queues open at push (R308): the list afterwards, or none for an illegal use. -/
def fqPush (i : Instr) (qs : List Nat) : Option (List Nat) :=
  match i with
  | .fqOpen _ q _ => if qs.contains q.toNat then none else some (q.toNat :: qs)
  | .fqClose _ q => if qs.contains q.toNat then some (qs.erase q.toNat) else none
  | .vpop _ _ _ q _ => if qs.contains q.toNat then some qs else none
  | _ => some qs

/-- A barrier that WAIT or SIG names belongs to the continuation (R263). -/
def barOk (c : Cont) (code : Nat) : Bool := code < 0x80 || code - 0x80 < c.barNames

/-- Every check that hart 0 makes at push beyond the word's own fields. -/
def pushOk (h : Hart) (c : Cont) (i : Instr) (w : BitVec 64) : Bool :=
  let v := clsOf w ≤ 1
  !(h.mode == .s && v) && (!v || h.loopLeft == 0 || bodyOk i w) && slotsOk i h.sc0.toNat h.sc1.toNat h.dviewM &&
    (fqPush i h.fqOpen).isSome && barOk c (waitOf w) && barOk c (sigOf w)

/-! ## The push -/

/-- Words that queue `e` of core `n` can hold (R220, log 14). -/
def State.queueCap (s : State) (n e : Nat) : Nat := 32 + 2 ^ (bits (s.rget (oCore n + 0x2000 + 16 * e) 0) 25 22 + 5)

/-- Words in queue `e` of core `n`. -/
def State.queueLen (s : State) (n e : Nat) : Nat :=
  (((s.core n).queues.getD e []).filter fun i => match i with | .word _ => true | .settle _ => false).length

/-- A vst that may be a store of the open group (R139). -/
def isGroupVst (h : Hart) (i : Instr) (w : BitVec 64) : Bool :=
  h.group.opened && (match i with | .vst .. => true | _ => false) && sigOf w == 0

/-- The group with a vst pushed as its next store of 512 bytes. -/
def Group.pushVst (g : Group) (num : Nat) : Group :=
  if g.code != 0 then g
  else { g with vsts := g.vsts ++ [(num, g.count, 16 ≤ g.count || 1024 < g.total + 512)],
                count := g.count + 1, total := g.total + 512 }

/-- The entry that a push makes. -/
def pushEntry (h : Hart) (c : Cont) (cid seq num ph : Nat) (w : BitVec 64) (grp : Bool) : QEntry where
  word := w
  sc0 := h.sc0
  sc1 := h.sc1
  cid := cid
  num := num
  seq := seq
  run := c.run
  dfcsr := h.dfcsr
  vb := h.dviewV
  mb := h.dviewM
  cb := h.dviewC
  mode := h.mode
  ctx := h.ctx
  hbPh := ph
  start := 0
  moved := 0
  group := grp

/-- The hart after a push: slots cleared, loop and fetch queues tracked, the group's vst counted. -/
def Hart.afterPush (h : Hart) (i : Instr) (w : BitVec 64) (num : Nat) (grp : Bool) : Hart :=
  { h with
    sc0 := 0
    sc1 := 0
    loopLeft := match i with | .vloop _ nb _ _ => nb.toNat + 1 | _ => if clsOf w ≤ 1 then h.loopLeft - 1 else h.loopLeft
    fqOpen := (fqPush i h.fqOpen).getD h.fqOpen
    group := if grp then h.group.pushVst num else h.group }

/-- The legal word `w` of the continuation goes into its queue, with PH of the barrier that its WAIT names (R268), and pins the
continuation (R200). -/
def State.pushWord (s : State) (cid : Nat) (i : Instr) (w : BitVec 64) (grp : Bool) : State :=
  let n := coreOf s.hn
  let e := engOfCls (max (clsOf w) 1)
  let s := if 2 ≤ clsOf w && waitOf w != 0 then s.settle else s
  let c := s.cont cid
  let co := s.core n
  let num := nth c.pushed e + 1
  let ph := if 0x80 ≤ waitOf w then (s.bar (s.cellOf cid (waitOf w - 0x80))).ph else 0
  let ent := pushEntry s.me c cid co.seq num ph w grp
  let c := { c with pushed := c.pushed.set e num, pin := true, outst := c.outst ++ [⟨e, num, co.seq⟩] }
  let c := if 0x80 ≤ sigOf w then c.contribute (sigOf w - 0x80) (s.bar (s.cellOf cid (sigOf w - 0x80))).ph else c
  let q := co.queues.getD e [] ++ ([.word ent] : List QItem)
  let s := (s.setCont cid c).setCore n { co with queues := co.queues.set e q, seq := co.seq + 1 }
  s.retire 8 (s.me.afterPush i w num grp)

/-- engine word push (R234): an illegal word traps; with its queue full hart 0 stalls (R220). -/
def execEngineWordPush (w : BitVec 64) (s : State) : Out :=
  let x := Instr.engineWordPush w
  s.onHart0Span x fun cid =>
    match decodeEngine w with
    | .error _ => s.groupIllegal.illegalI x
    | .ok i =>
      let grp := isGroupVst s.me i w
      let t := if grp then s else s.groupIllegal
      if !pushOk t.me (t.cont cid) i w then t.illegalI x
      else
        let e := engOfCls (max (clsOf w) 1)
        if t.queueCap (coreOf t.hn) e ≤ t.queueLen (coreOf t.hn) e then .next t.stall
        else .next (t.pushWord cid i w grp)

end Sys2Proof.Machine
end

