-- ==== Sys2Proof/Machine/Vector.lean ====
section
/-! DEFINITION. The VA words and vcfix (R286 to R302, R318). -/

namespace Sys2Proof.Machine

/-! ## Shapes -/

/-- A masking word of one source, element by element of width `w`. -/
def State.vMap1 (s : State) (pp : Pipe) (w : Nat) (d a : BitVec 6) (p : Pred) (f : State → Nat → Nat × Flags) : Out :=
  s.vMasked pp d p (fun s =>
    let rs := (elems w (s.vsrc a)).map (f s)
    (packV w (rs.map Prod.fst), flagsOf (s.active p) (32 / w) (rs.map Prod.snd))) fun s => [s.vsrc a]

/-- A masking word of two sources. -/
def State.vMap2 (s : State) (pp : Pipe) (w : Nat) (d a b : BitVec 6) (p : Pred) (f : State → Nat → Nat → Nat × Flags) : Out :=
  s.vMasked pp d p (fun s =>
    let rs := List.zipWith (f s) (elems w (s.vsrc a)) (elems w (s.vsrc b))
    (packV w (rs.map Prod.fst), flagsOf (s.active p) (32 / w) (rs.map Prod.snd))) fun s => [s.vsrc a, s.vsrc b]

/-- A masking word of three sources. -/
def State.vMap3 (s : State) (pp : Pipe) (w : Nat) (d a b c : BitVec 6) (p : Pred)
    (f : State → Nat → Nat → Nat → Nat × Flags) : Out :=
  s.vMasked pp d p (fun s =>
    let rs := List.zipWith (fun x yz => f s x yz.1 yz.2) (elems w (s.vsrc a)) ((elems w (s.vsrc b)).zip (elems w (s.vsrc c)))
    (packV w (rs.map Prod.fst), flagsOf (s.active p) (32 / w) (rs.map Prod.snd))) fun s => [s.vsrc a, s.vsrc b, s.vsrc c]

/-- A masking word over whole vectors. -/
def State.vLanes2 (s : State) (pp : Pipe) (d a b : BitVec 6) (p : Pred) (f : Vec → Vec → Vec) : Out :=
  s.vMasked pp d p (fun s => (f (s.vsrc a) (s.vsrc b), fNone)) fun s => [s.vsrc a, s.vsrc b]

/-- Lane `i` of a vector. -/
def laneAt (v : Vec) (i : Nat) : Lane := v.getD i 0

/-- A vector given lane by lane. -/
def mkLanes (f : Nat → Lane) : Vec := (List.range 128).map f

/-! ## Integer arithmetic (R286) -/

/-- An exact integer result wrapped into the type. -/
def wrapT (t : IntT) (x : Int) : Nat × Flags := (wrapW t.elem.w x, fNone)

/-- An exact integer result saturated, with SAT. -/
def satT (t : IntT) (x : Int) : Nat × Flags :=
  let y := sat x t.elem.lo t.elem.hi
  (wrapW t.elem.w y, fIf (y != x) fSAT)

/-- A two-source integer form over the values of the elements. -/
def State.vInt2 (s : State) (pp : Pipe) (t : IntT) (d a b : BitVec 6) (p : Pred) (f : Int → Int → Nat × Flags) : Out :=
  s.vMap2 pp t.elem.w d a b p fun _ x y => f (t.elem.int x) (t.elem.int y)

/-- A one-source integer form. -/
def State.vInt1 (s : State) (pp : Pipe) (t : IntT) (d a : BitVec 6) (p : Pred) (f : Int → Nat × Flags) : Out :=
  s.vMap1 pp t.elem.w d a p fun _ x => f (t.elem.int x)

def execVadd (_h : Hdr) (t : IntT) (d a b : BitVec 6) (p : Pred) (s : State) : Out :=
  s.vInt2 pAlu t d a b p fun x y => wrapT t (x + y)
def execVsub (_h : Hdr) (t : IntT) (d a b : BitVec 6) (p : Pred) (s : State) : Out :=
  s.vInt2 pAlu t d a b p fun x y => wrapT t (x - y)
def execVmul (_h : Hdr) (t : IntT) (d a b : BitVec 6) (p : Pred) (s : State) : Out :=
  s.vInt2 pMul t d a b p fun x y => wrapT t (x * y)
def execVmulh (_h : Hdr) (t : IntT) (d a b : BitVec 6) (p : Pred) (s : State) : Out :=
  s.vInt2 pMul t d a b p fun x y => wrapT t (x * y / 2 ^ t.elem.w)
def execVmac (_h : Hdr) (t : IntT) (d a b c : BitVec 6) (p : Pred) (s : State) : Out :=
  s.vMap3 pMul t.elem.w d a b c p fun _ x y z => wrapT t (t.elem.int x * t.elem.int y + t.elem.int z)
def execVmin (_h : Hdr) (t : IntT) (d a b : BitVec 6) (p : Pred) (s : State) : Out :=
  s.vInt2 pAlu t d a b p fun x y => wrapT t (min x y)
def execVmax (_h : Hdr) (t : IntT) (d a b : BitVec 6) (p : Pred) (s : State) : Out :=
  s.vInt2 pAlu t d a b p fun x y => wrapT t (max x y)
def execVabs (_h : Hdr) (t : IntT) (d a : BitVec 6) (p : Pred) (s : State) : Out :=
  s.vInt1 pAlu t d a p fun x => wrapT t x.natAbs
def execVneg (_h : Hdr) (t : IntT) (d a : BitVec 6) (p : Pred) (s : State) : Out :=
  s.vInt1 pAlu t d a p fun x => wrapT t (-x)
def execVadds (_h : Hdr) (t : IntT) (d a b : BitVec 6) (p : Pred) (s : State) : Out :=
  s.vInt2 pAlu t d a b p fun x y => satT t (x + y)
def execVsubs (_h : Hdr) (t : IntT) (d a b : BitVec 6) (p : Pred) (s : State) : Out :=
  s.vInt2 pAlu t d a b p fun x y => satT t (x - y)
/-- vclip: A value, B low, C high. -/
def execVclip (_h : Hdr) (t : IntT) (d a b c : BitVec 6) (p : Pred) (s : State) : Out :=
  s.vMap3 pAlu t.elem.w d a b c p fun _ x y z =>
    let r := min (max (t.elem.int x) (t.elem.int y)) (t.elem.int z)
    (wrapW t.elem.w r, fIf (r != t.elem.int x) fSAT)
/-- vshl: the count is an unsigned element of B. -/
def execVshl (_h : Hdr) (t : IntT) (d a b : BitVec 6) (p : Pred) (s : State) : Out :=
  s.vMap2 pAlu t.elem.w d a b p fun _ x n => (if t.elem.w ≤ n then 0 else x * 2 ^ n % 2 ^ t.elem.w, fNone)
def execVshr (_h : Hdr) (t : IntT) (d a b : BitVec 6) (p : Pred) (s : State) : Out :=
  s.vMap2 pAlu t.elem.w d a b p fun _ x n => (x >>> n, fNone)
def execVsra (_h : Hdr) (t : IntT) (d a b : BitVec 6) (p : Pred) (s : State) : Out :=
  s.vMap2 pAlu t.elem.w d a b p fun _ x n => wrapT t (sext x t.elem.w / 2 ^ min n t.elem.w)
def execVpopc (_h : Hdr) (t : IntT) (d a : BitVec 6) (p : Pred) (s : State) : Out :=
  s.vMap1 pAlu t.elem.w d a p fun _ x => (popN x t.elem.w, fNone)
def execVclz (_h : Hdr) (t : IntT) (d a : BitVec 6) (p : Pred) (s : State) : Out :=
  s.vMap1 pAlu t.elem.w d a p fun _ x => (t.elem.w - bitLen x, fNone)

/-! ## Compares (R287, R290) -/

/-- Bits of the lanes that are active and whose every element satisfies a condition. -/
def laneBits (m : BitVec 128) (per : Nat) (bs : List Bool) : BitVec 128 :=
  predOf (mkLanes fun l => if m.getLsbD l && ((bs.drop (per * l)).take per).all id then 1 else 0)

/-- A compare of elements. -/
def State.vCmp (s : State) (w : Nat) (kd : BitVec 4) (a b : BitVec 6) (p : Pred) (f : State → Nat → Nat → Bool) : Out :=
  s.vPred kd (fun s => s.active p)
    (fun s => laneBits (s.active p) (32 / w) (List.zipWith (f s) (elems w (s.vsrc a)) (elems w (s.vsrc b))))
    fun s => [s.vsrc a, s.vsrc b]

/-- An integer condition. -/
def Cond.holds (c : Cond) (x y : Int) : Bool :=
  match c with | .eq => x == y | .ne => x != y | .lt => x < y | .le => x ≤ y | .gt => y < x | .ge => y ≤ x

/-- An IEEE condition. -/
def FCond.holds (c : FCond) (x y : Fv) : Bool :=
  let u := x.isNan || y.isNan
  match c with
  | .eq => fvEq x y
  | .ne => !fvEq x y
  | .lt => fvLt x y
  | .le => fvLt x y || fvEq x y
  | .gt => fvLt y x
  | .ge => fvLt y x || fvEq x y
  | .unord => u

def execVcmp (_h : Hdr) (t : IntT) (cnd : Cond) (kd : BitVec 4) (a b : BitVec 6) (p : Pred) (s : State) : Out :=
  s.vCmp t.elem.w kd a b p fun _ x y => Cond.holds cnd (t.elem.int x) (t.elem.int y)

def execVfcmp (_h : Hdr) (t : FpT) (cnd : FCond) (kd : BitVec 4) (a b : BitVec 6) (p : Pred) (s : State) : Out :=
  s.vCmp t.fmt.w kd a b p fun s x y =>
    FCond.holds cnd (t.fmt.daz s.fp.daz (t.fmt.dec x)) (t.fmt.daz s.fp.daz (t.fmt.dec y))

/-! ## Bits and moves (R288) -/

def execVand (_h : Hdr) (d a b : BitVec 6) (p : Pred) (s : State) : Out :=
  s.vLanes2 pAlu d a b p fun x y => List.zipWith (fun u v => u &&& v) x y
def execVor (_h : Hdr) (d a b : BitVec 6) (p : Pred) (s : State) : Out :=
  s.vLanes2 pAlu d a b p fun x y => List.zipWith (fun u v => u ||| v) x y
def execVxor (_h : Hdr) (d a b : BitVec 6) (p : Pred) (s : State) : Out :=
  s.vLanes2 pAlu d a b p fun x y => List.zipWith (fun u v => u ^^^ v) x y
def execVnot (_h : Hdr) (d a : BitVec 6) (p : Pred) (s : State) : Out :=
  s.vMasked pAlu d p (fun s => ((s.vsrc a).map fun x => ~~~x, fNone)) fun s => [s.vsrc a]
def execVmov (_h : Hdr) (d a : BitVec 6) (p : Pred) (s : State) : Out :=
  s.vMasked pAlu d p (fun s => (s.vsrc a, fNone)) fun s => [s.vsrc a]
/-- vsel: the predicate selects A where active, else B. -/
def execVsel (_h : Hdr) (d a b : BitVec 6) (p : Pred) (s : State) : Out :=
  s.vSelect pAlu d p (fun s => (mergeLanes (s.active p) (s.vsrc a) (s.vsrc b), fNone)) fun s => [s.vsrc a, s.vsrc b]
def execVbcst (_h : Hdr) (d a : BitVec 6) (lane : BitVec 7) (p : Pred) (s : State) : Out :=
  s.vMasked pAlu d p (fun s => (List.replicate 128 (laneAt (s.vsrc a) lane.toNat), fNone)) fun s => [s.vsrc a]
def execVmovi (_h : Hdr) (d : BitVec 6) (imm : BitVec 18) (p : Pred) (s : State) : Out :=
  s.vMasked pAlu d p (fun _ => (List.replicate 128 (imm.signExtend 32), fNone)) fun _ => [vzero]

/-! ## Floating point (R289) -/

/-- The value of an operand under DAZ. -/
def fpIn (f : Fmt) (c : FpCtl) (x : Nat) : Fv := f.daz c.daz (f.dec x)

/-- An exact result with its flags, rounded once. -/
def fpOut (f : Fmt) (c : FpCtl) (r : Fv × Flags) : Nat × Flags :=
  let (x, g) := f.round c.rm c.ftz r.1
  (x, r.2 ||| g)

def execVfadd (_h : Hdr) (t : FpT) (d a b : BitVec 6) (p : Pred) (s : State) : Out :=
  s.vMap2 pFma t.fmt.w d a b p fun s x y =>
    fpOut t.fmt s.fp (fvAdd s.fp.rm (fpIn t.fmt s.fp x) (fpIn t.fmt s.fp y))
/-- vfsub: a - b is the exact sum of a and -b, so that of two zeros of different signs the difference has the sign of a (R91, log 16). -/
def execVfsub (_h : Hdr) (t : FpT) (d a b : BitVec 6) (p : Pred) (s : State) : Out :=
  s.vMap2 pFma t.fmt.w d a b p fun s x y =>
    fpOut t.fmt s.fp (fvAdd s.fp.rm (fpIn t.fmt s.fp x) (fpIn t.fmt s.fp y).neg)
def execVfmul (_h : Hdr) (t : FpT) (d a b : BitVec 6) (p : Pred) (s : State) : Out :=
  s.vMap2 pFma t.fmt.w d a b p fun s x y => fpOut t.fmt s.fp (fvMul (fpIn t.fmt s.fp x) (fpIn t.fmt s.fp y))
/-- vfma: a * b + c. -/
def execVfma (_h : Hdr) (t : FpT) (d a b c : BitVec 6) (p : Pred) (s : State) : Out :=
  s.vMap3 pFma t.fmt.w d a b c p fun s x y z =>
    fpOut t.fmt s.fp (fvFma s.fp.rm (fpIn t.fmt s.fp x) (fpIn t.fmt s.fp y) (fpIn t.fmt s.fp z))
/-- vfms: a * b - c. -/
def execVfms (_h : Hdr) (t : FpT) (d a b c : BitVec 6) (p : Pred) (s : State) : Out :=
  s.vMap3 pFma t.fmt.w d a b c p fun s x y z =>
    fpOut t.fmt s.fp (fvFma s.fp.rm (fpIn t.fmt s.fp x) (fpIn t.fmt s.fp y) (fpIn t.fmt s.fp z).neg)
/-- vfnma: c - a * b. -/
def execVfnma (_h : Hdr) (t : FpT) (d a b c : BitVec 6) (p : Pred) (s : State) : Out :=
  s.vMap3 pFma t.fmt.w d a b c p fun s x y z =>
    fpOut t.fmt s.fp (fvFma s.fp.rm (fpIn t.fmt s.fp x).neg (fpIn t.fmt s.fp y) (fpIn t.fmt s.fp z))
/-- vfmin: no rounding and no flags; FTZ flushes its result all the same (R283, log 16). -/
def execVfmin (_h : Hdr) (t : FpT) (d a b : BitVec 6) (p : Pred) (s : State) : Out :=
  s.vMap2 pAlu t.fmt.w d a b p fun s x y => (t.fmt.minBits s.fp.daz s.fp.ftz x y, fNone)
def execVfmax (_h : Hdr) (t : FpT) (d a b : BitVec 6) (p : Pred) (s : State) : Out :=
  s.vMap2 pAlu t.fmt.w d a b p fun s x y => (t.fmt.maxBits s.fp.daz s.fp.ftz x y, fNone)
def execVfabs (_h : Hdr) (t : FpT) (d a : BitVec 6) (p : Pred) (s : State) : Out :=
  s.vMap1 pAlu t.fmt.w d a p fun _ x => (x % 2 ^ (t.fmt.w - 1), fNone)
def execVfneg (_h : Hdr) (t : FpT) (d a : BitVec 6) (p : Pred) (s : State) : Out :=
  s.vMap1 pAlu t.fmt.w d a p fun _ x => (x ^^^ 2 ^ (t.fmt.w - 1), fNone)
def execVfrcp (_h : Hdr) (t : FpT) (d a : BitVec 6) (p : Pred) (s : State) : Out :=
  s.vMap1 pSfu t.fmt.w d a p fun s x => fvRcp t.fmt s.fp (fpIn t.fmt s.fp x)
def execVfrsq (_h : Hdr) (t : FpT) (d a : BitVec 6) (p : Pred) (s : State) : Out :=
  s.vMap1 pSfu t.fmt.w d a p fun s x => fvRsq t.fmt s.fp (fpIn t.fmt s.fp x)
def execVfexp2 (_h : Hdr) (t : FpT) (d a : BitVec 6) (p : Pred) (s : State) : Out :=
  s.vMap1 pSfu t.fmt.w d a p fun s x => fvExp2 t.fmt s.fp (fpIn t.fmt s.fp x) x
def execVflog2 (_h : Hdr) (t : FpT) (d a : BitVec 6) (p : Pred) (s : State) : Out :=
  s.vMap1 pSfu t.fmt.w d a p fun s x => fvLog2 t.fmt s.fp (fpIn t.fmt s.fp x) x

/-- The class bit of R291. -/
def classBit (f : Fmt) (x : Nat) : Nat :=
  match f.dec x with
  | .nan => 8
  | .inf n => if n then 0 else 7
  | .fin n m _ =>
    let sub := bits x (f.w - 2) f.mb == 0
    if m == 0 then (if n then 3 else 4)
    else if sub then (if n then 2 else 5) else if n then 1 else 6

/-- vfclass. -/
def execVfclass (_h : Hdr) (t : FpT) (d a : BitVec 6) (p : Pred) (s : State) : Out :=
  s.vMap1 pAlu t.fmt.w d a p fun _ x => (2 ^ classBit t.fmt x, fNone)

/-! ## Conversions (R292) -/

/-- Source elements 0 to n - 1 into destination elements, zeros beyond. -/
def State.vConv (s : State) (dt st : ElemT) (d a : BitVec 6) (p : Pred) : Out :=
  s.vMasked pCvt d p (fun s =>
    let n := 128 * min dt.per st.per
    let rs := ((elems st.w (s.vsrc a)).take n).map (convElem s.fp st dt)
    (packV dt.w (rs.map Prod.fst), flagsOf (s.active p) dt.per (rs.map Prod.snd))) fun s => [s.vsrc a]

def execVcvt (_h : Hdr) (dt st : ElemT) (d a : BitVec 6) (p : Pred) (s : State) : Out := s.vConv dt st d a p
def execVf2i (_h : Hdr) (dt st : ElemT) (d a : BitVec 6) (p : Pred) (s : State) : Out := s.vConv dt st d a p
def execVi2f (_h : Hdr) (dt st : ElemT) (d a : BitVec 6) (p : Pred) (s : State) : Out := s.vConv dt st d a p

/-! ## Reductions (R293, R100) -/

/-- The active lanes of a vector. -/
def activeLanes (m : BitVec 128) (v : Vec) : List Nat :=
  ((List.range 128).filter fun l => m.getLsbD l).map fun l => (laneAt v l).toNat

/-- A vector with `x` in lane 0 and zero elsewhere. -/
def lane0 (x : Nat) : Vec := mkLanes fun l => if l = 0 then BitVec.ofNat 32 x else 0

/-- An integer reduction of the active lanes. -/
def State.vReduce (s : State) (d a : BitVec 6) (p : Pred) (f : List Nat → Nat) : Out :=
  s.vSelect pReduce d p (fun s => (lane0 (f (activeLanes (s.active p) (s.vsrc a))), fNone)) fun s => [s.vsrc a]

/-- The four bytes of each lane. -/
def laneBytes (xs : List Nat) : List Nat := xs.flatMap fun x => [x % 256, x / 256 % 256, x / 65536 % 256, x / 16777216 % 256]

def execVrsumI32 (_h : Hdr) (d a : BitVec 6) (p : Pred) (s : State) : Out :=
  s.vReduce d a p fun xs => xs.foldl (fun u x => (u + x) % 2 ^ 32) 0
def execVrsumI8 (_h : Hdr) (d a : BitVec 6) (p : Pred) (s : State) : Out :=
  s.vReduce d a p fun xs => wrapW 32 ((laneBytes xs).foldl (fun u x => u + sext x 8) 0)
def execVrmaxI32 (_h : Hdr) (d a : BitVec 6) (p : Pred) (s : State) : Out :=
  s.vReduce d a p fun xs => wrapW 32 (xs.foldl (fun u x => max u (sext x 32)) (-2147483648))
def execVrmaxU8 (_h : Hdr) (d a : BitVec 6) (p : Pred) (s : State) : Out :=
  s.vReduce d a p fun xs => (laneBytes xs).foldl max 0
def execVrminI32 (_h : Hdr) (d a : BitVec 6) (p : Pred) (s : State) : Out :=
  s.vReduce d a p fun xs => wrapW 32 (xs.foldl (fun u x => min u (sext x 32)) 2147483647)
def execVrminU8 (_h : Hdr) (d a : BitVec 6) (p : Pred) (s : State) : Out :=
  s.vReduce d a p fun xs => (laneBytes xs).foldl min 255

/-- One level of the tree of R100, with the flags of its nodes. -/
def treeLevel (op : Fv → Fv → Fv × Flags) : List (Option Fv) → List (Option Fv) × Flags
  | x :: y :: r =>
    let (zs, f) := treeLevel op r
    match x, y with
    | some u, some v => let (w, g) := op u v; (some w :: zs, f ||| g)
    | none, v => (v :: zs, f)
    | u, none => (u :: zs, f)
  | xs => (xs, fNone)

/-- The tree of R100: `k` levels. -/
def reduceTree (op : Fv → Fv → Fv × Flags) : Nat → List (Option Fv) → Option Fv × Flags
  | 0, xs => (xs.headD none, fNone)
  | k + 1, xs =>
    let (ys, f) := treeLevel op xs
    let (r, g) := reduceTree op k ys
    (r, f ||| g)

/-- A node of vfrsum: the sum rounded into FP32. -/
def sumNode (c : FpCtl) (x y : Fv) : Fv × Flags :=
  let (z, f) := fpOut fmtF32 c (fvAdd c.rm x y)
  (fmtF32.dec z, f)

/-- A node of vfrmax: FTZ flushes it, and it raises no flag (R293, log 16). -/
def maxNode (c : FpCtl) (x y : Fv) : Fv × Flags := (fmtF32.dec (fmtF32.round .rne c.ftz (fvMax x y)).1, fNone)

/-- A floating reduction; a BF16 lane is first the node of its two elements. -/
def State.vfReduce (s : State) (t : FbT) (d a : BitVec 6) (p : Pred) (op : FpCtl → Fv → Fv → Fv × Flags) (empty : Nat) : Out :=
  s.vSelect pReduce d p (fun s =>
    let c := s.fp
    let lane (x : Lane) : Fv × Flags :=
      match t with
      | .f32 => (fpIn fmtF32 c x.toNat, fNone)
      | .bf16 => op c (fpIn fmtBf16 c (x.toNat % 65536)) (fpIn fmtBf16 c (x.toNat / 65536))
    let xs := (List.range 128).map fun l => if (s.active p).getLsbD l then some (lane (laneAt (s.vsrc a) l)) else none
    let (r, f) := reduceTree (op c) 7 (xs.map fun x => x.map Prod.fst)
    let g := orFlags (xs.map fun x => match x with | some y => y.2 | none => fNone)
    (lane0 (match r with | some v => (fmtF32.round .rne false v).1 | none => empty), f ||| g)) fun s => [s.vsrc a]

def execVfrsum (_h : Hdr) (t : FbT) (d a : BitVec 6) (p : Pred) (s : State) : Out := s.vfReduce t d a p sumNode 0
def execVfrmax (_h : Hdr) (t : FbT) (d a : BitVec 6) (p : Pred) (s : State) : Out :=
  s.vfReduce t d a p maxNode (fmtF32.infBits true)

/-! ## Permutation and lookup (R294 to R297) -/

def execVperm (_h : Hdr) (d a b : BitVec 6) (p : Pred) (s : State) : Out :=
  s.vLanes2 pPerm d a b p fun x y => mkLanes fun l => laneAt x ((laneAt y l).toNat % 128)
def execVslup (_h : Hdr) (d a b cnt : BitVec 6) (p : Pred) (s : State) : Out :=
  s.vLanes2 pPerm d a b p fun x y => mkLanes fun l =>
    if cnt.toNat ≤ l then laneAt x (l - cnt.toNat) else laneAt y (128 - cnt.toNat + l)
def execVsldn (_h : Hdr) (d a b cnt : BitVec 6) (p : Pred) (s : State) : Out :=
  s.vLanes2 pPerm d a b p fun x y => mkLanes fun l =>
    if l + cnt.toNat < 128 then laneAt x (l + cnt.toNat) else laneAt y (l + cnt.toNat - 128)
def execVzip (_h : Hdr) (d a b : BitVec 6) (p : Pred) (s : State) : Out :=
  s.vLanes2 pPerm d a b p fun x y => mkLanes fun l => if l % 2 = 0 then laneAt x (l / 2) else laneAt y (l / 2)
def execVunzip (_h : Hdr) (d a b : BitVec 6) (p : Pred) (s : State) : Out :=
  s.vLanes2 pPerm d a b p fun x y => mkLanes fun l => if l < 64 then laneAt x (2 * l) else laneAt y (2 * (l - 64))
def execVlut (_h : Hdr) (d a b : BitVec 6) (p : Pred) (s : State) : Out :=
  s.vLanes2 pLut d a b p fun x y => let t := elems 8 y; packV 8 ((elems 8 x).map fun i => t.getD i 0)

/-! ## Block scales and bit planes (R298 to R300) -/

/-- The vector block that holds element `e`, as the numbers of its elements. -/
def vblock (e : Nat) : List Nat := (List.range 16).map fun i => e / 16 * 16 + i

/-- vbmax. -/
def execVbmax (_h : Hdr) (t : FbT) (d a : BitVec 6) (p : Pred) (s : State) : Out :=
  s.vMasked pBlock d p (fun s =>
    let per := t.elem.per
    let vs := (elems t.fmt.w (s.vsrc a)).map (fpIn t.fmt s.fp)
    let code (b : Nat) : Nat := e8Of (maxFinite (((vblock b).filter fun e => activeElem (s.active p) per e).map fun e => vs.getD e .nan))
    let cs := (List.range (8 * per)).map fun b => code (16 * b)
    (mkLanes fun l => BitVec.ofNat 32 (cs.getD (per * l / 16) 0), fNone)) fun s => [s.vsrc a]

/-- vbqnt. -/
def execVbqnt (_h : Hdr) (t : FbT) (d a b : BitVec 6) (p : Pred) (s : State) : Out :=
  s.vMasked pBlock d p (fun s =>
    let per := t.elem.per
    let sc := s.vsrc b
    let rs := (elems t.fmt.w (s.vsrc a)).zipIdx.map fun (x, e) =>
      let c := (laneAt sc (e / per)).toNat % 256
      if c = 255 then ((-128 : Int), fNV) else quantElem s.fp.rm c (fpIn t.fmt s.fp x)
    (packV t.fmt.w (rs.map fun r => wrapW t.fmt.w r.1), flagsOf (s.active p) per (rs.map Prod.snd))) fun s => [s.vsrc a, s.vsrc b]

/-- vbdqnt: FTZ does not apply. -/
def execVbdqnt (_h : Hdr) (t : FbT) (d a b : BitVec 6) (p : Pred) (s : State) : Out :=
  s.vMasked pBlock d p (fun s =>
    let per := t.elem.per
    let sc := s.vsrc b
    let rs := (elems t.fmt.w (s.vsrc a)).zipIdx.map fun (k, e) =>
      t.fmt.round s.fp.rm false (e8Value ((laneAt sc (e / per)).toNat % 256) (k % 256))
    (packV t.fmt.w (rs.map Prod.fst), flagsOf (s.active p) per (rs.map Prod.snd))) fun s => [s.vsrc a, s.vsrc b]

/-- Bytes of a vector. -/
def vecBytes (v : Vec) : List Byte := lanesBytes v

/-- Groups of bytes as vectors of 512 bytes, zero beyond. -/
def bytesVec (bs : List Byte) : Vec := bytesLanes (bs ++ List.replicate (512 - bs.length) 0) 128

/-- vbpack. -/
def execVbpack (_h : Hdr) (d a b : BitVec 6) (p : Pred) (s : State) : Out :=
  s.vMasked pBlock d p (fun s =>
    let q := (laneAt (s.vsrc b) 0).toNat % 16
    if q < 2 || 8 < q then (vzero, fNV)
    else
      let es := elems 8 (s.vsrc a)
      (bytesVec ((List.range 8).flatMap fun g => bpnEncode ((es.drop (64 * g)).take 64) q), fNone)) fun s => [s.vsrc a, s.vsrc b]

/-- vbunpk. -/
def execVbunpk (_h : Hdr) (d a b : BitVec 6) (p : Pred) (s : State) : Out :=
  s.vMasked pBlock d p (fun s =>
    let x := (laneAt (s.vsrc b) 0).toNat
    let q := x % 16
    let pl := x / 16 % 16
    if q < 2 || 8 < q || pl < 2 || q < pl then (vzero, fNV)
    else
      let bs := vecBytes (s.vsrc a)
      (bytesVec ((List.range 8).flatMap fun g =>
        (bpnDecode (bs.drop (8 * q * g)) pl).map fun v => BitVec.ofInt 8 v), fNone)) fun s => [s.vsrc a, s.vsrc b]

/-! ## Mailbox and predicates (R301, R302) -/

def execVtos (_h : Hdr) (a : BitVec 6) (lane : BitVec 7) (s : State) : Out :=
  s.vMbox (fun s => (laneAt (s.vsrc a) lane.toNat).signExtend 64) fun s => [s.vsrc a]
/-- A predicate as a captured operand: its 16 bytes at the start of the operand's (DESIGN CHOICE, log 88). -/
def predOpnd (p : BitVec 128) : Vec := mkLanes fun l => if l < 4 then BitVec.ofNat 32 (bits p.toNat (32 * l + 31) (32 * l)) else 0

def execKpopc (_h : Hdr) (ka : BitVec 4) (s : State) : Out :=
  s.vMbox (fun s => BitVec.ofNat 64 (popN (s.vr.predReg ka.toNat).toNat 128)) fun s => [predOpnd (s.vr.predReg ka.toNat)]

/-- A predicate word over one or two predicate registers. -/
def State.vPred2 (s : State) (kd : BitVec 4) (ks : List (BitVec 4)) (f : BitVec 128 → BitVec 128 → BitVec 128) : Out :=
  let k (s : State) (i : Nat) : BitVec 128 := s.vr.predReg (ks.getD i 0).toNat
  s.vPred kd (fun _ => BitVec.allOnes 128) (fun s => f (k s 0) (k s 1)) fun s => ks.map fun i => predOpnd (s.vr.predReg i.toNat)

def execKand (_h : Hdr) (kd ka kb : BitVec 4) (s : State) : Out := s.vPred2 kd [ka, kb] fun x y => x &&& y
def execKor (_h : Hdr) (kd ka kb : BitVec 4) (s : State) : Out := s.vPred2 kd [ka, kb] fun x y => x ||| y
def execKxor (_h : Hdr) (kd ka kb : BitVec 4) (s : State) : Out := s.vPred2 kd [ka, kb] fun x y => x ^^^ y
def execKnot (_h : Hdr) (kd ka : BitVec 4) (s : State) : Out := s.vPred2 kd [ka] fun x _ => ~~~x
def execKmov (_h : Hdr) (kd ka : BitVec 4) (s : State) : Out := s.vPred2 kd [ka] fun x _ => x

/-! ## Carry fix-up (R318) -/

/-- Lanes added from lane `l` up with the carry of the row. -/
def carryRow (m : BitVec 128) : Nat → Nat → List Lane → List Lane → Vec
  | l, c, x :: xs, y :: ys =>
    let c := if m.getLsbD l then c else 0
    let z := x.toNat + y.toNat + c
    BitVec.ofNat 32 z :: carryRow m (l + 1) (z / 2 ^ 32) xs ys
  | _, _, _, _ => []

/-- vcfix. -/
def execVcfix (_h : Hdr) (d a b : BitVec 6) (p : Pred) (s : State) : Out :=
  s.vSelect pAlu d p (fun s => (carryRow (s.active p) 0 0 (s.vsrc a) (s.vsrc b), fNone)) fun s => [s.vsrc a, s.vsrc b]

end Sys2Proof.Machine
end

