-- ==== Sys2Proof/Machine/Xform.lean ====
section
/-! DEFINITION. Transform chains: cpy.xf with its job card (R114 to R116, R356). -/

namespace Sys2Proof.Machine

/-! ## The job card (R114, R115) -/

/-- A stage: its identifier and parameter. -/
structure Stg where
  id  : Nat
  prm : Nat
  deriving DecidableEq, Repr, Inhabited

/-- The stages of a card. -/
def cardStages (b : List Byte) : List Stg :=
  let w := fieldAt b 0 8
  (List.range (bits w 2 0)).map fun i => ⟨bits w (4 * i + 11) (4 * i + 8), fieldAt b (8 + 8 * i) 8⟩

def cardRawIn (b : List Byte) : Bool := bit (fieldAt b 0 8) 3
def cardRawOut (b : List Byte) : Bool := bit (fieldAt b 0 8) 4

/-- The card itself breaks R114. -/
def badCard (b : List Byte) : Bool :=
  let w := fieldAt b 0 8
  let n := bits w 2 0
  n == 0 || n == 7 || bits w 7 5 != 0 || bits w 63 32 != 0 || !zeroAt b 56 8 ||
    (List.range 6).any fun i => n ≤ i && (bits w (4 * i + 11) (4 * i + 8) != 0 || !zeroAt b (8 + 8 * i) 8)

/-- A transfer descriptor that breaks R356. -/
def badXfer (b : List Byte) : Bool :=
  let ok (n : Nat) : Bool := 1 ≤ n && n ≤ 2 ^ 24
  !ok (fieldAt b 16 4) || !ok (fieldAt b 20 4) || !zeroAt b 28 36

/-- An illegal card or descriptor at a stage. -/
def xfIllegal {α : Type} (d : Nat) : EM α := .error (.fault 4 d none)

/-! ## States of the stream (R115) -/

/-- E, C, P with its format, or P of block-scaled elements; a format of none is that of expanded blocks whose
page is not known. -/
inductive XKind where
  | e
  | c
  | p (fmt : Option Nat)
  | bs (geo : Nat)
  deriving DecidableEq, Repr, Inhabited

/-- A stage's unnamed parameter bits are zero. -/
def prmOk (g : Stg) : Bool :=
  let p := g.prm
  match g.id with
  | 1 => p == 0
  | 2 => p < 16
  | 3 => bits p 63 48 == 0
  | 4 => bits p 63 48 == 0
  | 5 => p < 2 ^ 10 && 1 ≤ bits p 3 0 && bits p 3 0 ≤ 9 && 1 ≤ bits p 7 4 && bits p 7 4 ≤ 9
  | 6 => p < 2 ^ 12
  | 7 => p < 2 ^ 8 && bits p 1 0 ≤ 2 && 1 ≤ bits p 5 2 && bits p 5 2 ≤ 3
  | 8 => p < 2 ^ 6 && bits p 1 0 ≤ 2 && 1 ≤ bits p 5 2 && bits p 5 2 ≤ 3
  | 9 => true
  | _ => false

/-- A format agrees with the current one, which may be open. -/
def fmtIs (c : Option Nat) (f : Nat) : Bool := match c with | some x => x == f | none => true

/-- The state after a stage, or none when its input state or format does not agree (R116, R356). -/
def stageTo (g : Stg) (k : XKind) : Option XKind :=
  match g.id, k with
  | 1, .c => some (.p none)
  | 2, .p _ => some .c
  | 3, .e => some .c
  | 4, .c => some .e
  | 5, .p f => if fmtIs f (bits g.prm 3 0) then some (.p (some (bits g.prm 7 4))) else none
  | 6, .p f => some (.p f)
  | 7, .p f => if fmtIs f (bits g.prm 5 2) then some (.bs (bits g.prm 1 0)) else none
  | 8, .bs q => if q == bits g.prm 1 0 then some (.p (some (bits g.prm 5 2))) else none
  | 9, .p f => some (.p f)
  | _, _ => none

/-- The stages are legal from a state: the final state, or the index of the first that is not. -/
def legalFrom : Nat → List Nat → List Stg → XKind → Except Nat XKind
  | _, _, [], k => .ok k
  | i, seen, g :: gs, k =>
    if !prmOk g || seen.contains g.id then .error i
    else
      match stageTo g k with
      | none => .error i
      | some k => legalFrom (i + 1) (g.id :: seen) gs k

/-- The state and format that a page gives, and that its destination must have. -/
def pageKind (fmt geo : Nat) : XKind := if fmt == 10 then .p (some 6) else if fmt == 11 then .bs geo else .p (some fmt)

/-- The final state fits the destination: serialised on a raw card, else the format of its page. -/
def endOk (rawOut : Bool) (k : XKind) (fmt geo : Nat) : Bool :=
  if rawOut then k == .e || k == .c
  else
    match k with
    | .p (some f) => f == fmt
    | .p none => true
    | .bs g => fmt == 11 && geo == g
    | _ => false

/-! ## The stream -/

/-- A serialised block: header, tag when encrypted, stored sectors. -/
structure XBlock where
  hdr : Nat
  tag : List Byte
  dat : List Byte
  deriving DecidableEq, Repr, Inhabited

/-- What stands between two stages. -/
inductive XData where
  | blocks (bs : List XBlock)
  | elems (fmt geo : Nat) (bytes : List Byte)
  deriving DecidableEq, Repr, Inhabited

/-- A header that cannot stand by itself (R104); what a SPARSE12 header says of its masks is known once its sectors are plain. -/
def hdrBad (h : Nat) : Bool :=
  bits h 31 21 != 0 || hEsz h == 3 ||
    (match hMeth h with
     | 0 => hNsec h != 0
     | 1 => hNsec h != 1
     | 2 => hNsec h != popN (hPmask h) 8 || hNsec h == 0 || 7 < hNsec h
     | 3 => hNsec h == 0 || 8 < hNsec h
     | 4 => hNsec h != 8
     | _ => true)

/-- Serialised blocks read until the bytes are used up; none when one is corrupt. -/
def parseBlocks (enc : Bool) : Nat → List Byte → Option (List XBlock)
  | 0, bs => if bs.isEmpty then some [] else none
  | k + 1, bs =>
    if bs.isEmpty then some []
    else
      let h := fieldAt bs 0 8
      let t := if enc then 16 else 0
      let n := 8 + t + 32 * hNsec h
      if bs.length < n || hdrBad h || hEnc h != enc || (!enc && (expand h ((bs.drop 8).take (32 * hNsec h))).isNone) then none
      else (parseBlocks enc k (bs.drop n)).map fun r => ⟨h, (bs.drop 8).take t, (bs.drop (8 + t)).take (32 * hNsec h)⟩ :: r

/-- Blocks as bytes. -/
def XData.bytes : XData → List Byte
  | .blocks bs => bs.flatMap fun b => leBytes 8 b.hdr ++ b.tag ++ b.dat
  | .elems _ _ b => b

/-- The format of expanded blocks: the one that the next stages or the destination name. -/
def laterFmt (dst : Nat) : List Stg → Nat
  | [] => dst
  | g :: gs => if g.id == 5 then bits g.prm 3 0 else if g.id == 7 then bits g.prm 5 2 else laterFmt dst gs

/-- A GCM failure of a command (R356). -/
def xfMem (ag : Agent) (va : Nat) (c : Cause) : EStop := memStop ag .engRead va c

/-- One block decrypted or encrypted under the key of a slot (R110, R115). -/
def cryptBlock (s : State) (ag : Agent) (va prm : Nat) (dec : Bool) (i : Nat) (b : XBlock) : EM XBlock :=
  let slot := bits prm 7 0
  match keyOf s slot (s.tenantOf ag.ctx) with
  | none => .error (xfMem ag va .keyInvalid)
  | some k =>
    let iv := ivOf prm i slot (s.tenantOf ag.ctx)
    if dec then
      if gcmTag k iv (leBytes 8 b.hdr) b.dat != b.tag then .error (xfMem ag va .gcmTag)
      else .ok ⟨b.hdr - 2 ^ 7, [], gcmCrypt k iv b.dat⟩
    else
      let h := b.hdr + 2 ^ 7
      let ct := gcmCrypt k iv b.dat
      .ok ⟨h, gcmTag k iv (leBytes 8 h) ct, ct⟩

/-- Bytes as 256-byte logical blocks, the last completed with zeros. -/
def logicalBlocks (bs : List Byte) : List (List Byte) :=
  chunksOf 256 (ceilDiv bs.length 256) (bs ++ List.replicate (roundUp bs.length 256 - bs.length) 0)

/-- A run of elements quantised into one stored block (R89), in a rounding mode. -/
def quantBlock (rm : Rm) (vs : List Fv) : List Byte :=
  let c := e8Of (maxFinite vs)
  [BitVec.ofNat 8 c, 0, 0, 0] ++ vs.map fun v => BitVec.ofInt 8 (quantElem rm c v).1

/-- Elements reordered by a table, row by row of its length (R90); an entry beyond the row, or an element beyond
the stream, reads as zero. -/
def permRows (t : List Nat) (xs : List Nat) : List Nat :=
  let n := t.length
  (chunksOf' n (ceilDiv xs.length n) xs).flatMap fun r => t.map fun j => r.getD j 0
where
  chunksOf' (n : Nat) : Nat → List Nat → List (List Nat)
    | 0, _ => []
    | k + 1, ys => ys.take n :: chunksOf' n k (ys.drop n)

/-- A permutation table of its own length. -/
def wholeTable (s : State) (ag : Agent) (pt : Nat) : EM (List Nat) :=
  match formHandle s ag pt with
  | .error (.fault 2 1 none) => .error (.fault 2 4 none)
  | .error x => .error x
  | .ok h =>
    if h.kind != 0 || h.ndim != 1 then .error (.fault 2 4 none)
    else
      mapE (fun i : Nat =>
        let a : Int := h.base + i * h.strOf 0
        if a < 0 || 2 ^ 52 ≤ a then .error (memStop ag .engRead (wrapW 64 a) .noncanon)
        else (eRead s ag a.toNat 2).map leNat) (List.range (h.extOf 0 + 1))

/-- Blocks that a DECRYPT stage delivers: one that turns out corrupt is as R356 says. -/
def plainBlocks (bs : List XBlock) : EM XData :=
  if bs.any fun b => (expand b.hdr b.dat).isNone then xfIllegal 0xFE else .ok (.blocks bs)

/-- One stage applied (R115). PAD pads the whole stream once, at its start and its end: the stream has no rows, and what "along
dimension 0" adds R115 does not say (DESIGN CHOICE, log 53). QUANT completes its last block with zeros, which R115 does not say
either (DESIGN CHOICE, log 53). WCNT of the headers that COMP and ENCRYPT write is 0, and the ordinal that takes its place stands in the
IV alone (DESIGN CHOICE, log 53). -/
def runStage (s : State) (ag : Agent) (va dstFmt : Nat) (g : Stg) (rest : List Stg) (x : XData) : EM XData :=
  match x with
  | .blocks bs =>
    match g.id with
    | 1 =>
      match mapE (fun b : XBlock => match expand b.hdr b.dat with | some y => .ok y | none => xfIllegal 0xFE) bs with
      | .error e => .error e
      | .ok ys => .ok (.elems (laterFmt dstFmt rest) 0 ys.flatten)
    | 3 => (mapE (fun p : XBlock × Nat => cryptBlock s ag va g.prm true p.2 p.1) bs.zipIdx).bind plainBlocks
    | _ => (mapE (fun p : XBlock × Nat => cryptBlock s ag va g.prm false p.2 p.1) bs.zipIdx).map .blocks
  | .elems fmt geo y =>
    let e := fmtSize fmt geo
    let es := elemsOf e (y.length / e) y
    match g.id with
    | 2 =>
      .ok (.blocks ((logicalBlocks y).map fun b =>
        let p := compress (bits g.prm 3 0) (eszOf fmt) (byteElems fmt) b
        ⟨header p false false 0, [], p.data⟩))
    | 5 =>
      match fmtElem (bits g.prm 3 0), fmtElem (bits g.prm 7 4) with
      | some a, some b =>
        let c : FpCtl := ⟨Rm.of (bits g.prm 9 8), false, false⟩
        .ok (.elems (bits g.prm 7 4) 0 ((elemsOf a.bytes (y.length / a.bytes) y).flatMap fun v => leBytes b.bytes (convElem c a b v).1))
      | _, _ => xfIllegal 0xFF
    | 6 =>
      match wholeTable s ag (bits g.prm 11 0) with
      | .error e => .error e
      | .ok t => .ok (.elems fmt geo ((permRows t es).flatMap (leBytes e)))
    | 7 =>
      let f := bits g.prm 5 2
      let q := bits g.prm 1 0
      let l := blockLen 11 q
      let vs := es.map (storedVal f)
      let vs := vs ++ List.replicate (roundUp vs.length l - vs.length) (.fin false 0 0)
      .ok (.elems 11 q ((List.range (vs.length / l)).flatMap fun i => quantBlock (Rm.of (bits g.prm 7 6)) ((vs.drop (l * i)).take l)))
    | 8 =>
      let f := bits g.prm 5 2
      match fmtElem f with
      | some t => .ok (.elems f 0 ((chunksOf e (y.length / e) y).flatMap fun b => (blockDecode 11 0 t b).flatMap (leBytes t.bytes)))
      | none => xfIllegal 0xFF
    | _ =>
      let pad (n : Nat) : List Byte := (List.replicate n (leBytes e (bits g.prm 31 0))).flatten
      .ok (.elems fmt geo (pad (bits g.prm 47 32) ++ y ++ pad (bits g.prm 63 48)))

/-- Every stage in turn. -/
def runStages (s : State) (ag : Agent) (va dstFmt : Nat) : List Stg → XData → EM XData
  | [], x => .ok x
  | g :: gs, x => match runStage s ag va dstFmt g gs x with | .error e => .error e | .ok x => runStages s ag va dstFmt gs x

/-! ## The command (R356) -/

/-- FMT and GEO of the page at an address, whether a page of the range is transformed, and whether one has another FMT or GEO. -/
def rangeFmt (s : State) (ag : Agent) (acc : Acc) (a n : Nat) : EM (Nat × Nat × Bool × Bool) :=
  if apBase ≤ a then .ok (0, 0, false, false)
  else
    let as := a :: ((List.range (n / 65536 + 1)).map fun i => (a / 65536 + 1 + i) * 65536).filter (· < a + n)
    match mapE (fun p => match liftE (plan s ⟨ag, acc, p, 1, false, false⟩ anyFmt) with
      | .error e => .error e
      | .ok ps => .ok (match ps with | x :: _ => (x.fmt, x.geo, x.leaf.any Leaf.xf) | [] => (0, 0, false))) as with
    | .error e => .error e
    | .ok ls =>
      let (f, g, _) := ls.headD (0, 0, false)
      .ok (f, g, ls.any fun l => l.2.2, ls.any fun l => l.1 != f || l.2.1 != g)

/-- Elements at the start of the chain: a BPN page is read with all its planes as INT8. -/
def elemsIn (fmt geo : Nat) (y : List Byte) : XData :=
  if fmt == 10 then
    let e := fmtSize fmt geo
    .elems 6 0 ((chunksOf e (y.length / e) y).flatMap fun b => (bpnDecode b (geoPlanes geo)).map fun v => BitVec.ofInt 8 v)
  else .elems fmt geo y

/-- Bytes read in 256-byte pieces from pages of one format. -/
def readTyped (s : State) (ag : Agent) (ty : Nat → Nat → Bool) : Spans → EM (List Byte)
  | [] => .ok []
  | x :: xs =>
    match liftE (memRead s ⟨ag, .engRead, x.1, x.2, false, true⟩ ty) with
    | .error e => .error e
    | .ok b => match readTyped s ag ty xs with | .error e => .error e | .ok bs => .ok (b ++ bs)

/-- Whether the pages that the output reaches fit it: of one format, and of no transformed page on a raw card (R116). A page that
cannot be translated is left to the write, which faults there. -/
def xfDstOk (s : State) (ag : Agent) (raw : Bool) (dst n : Nat) : EM Bool :=
  match rangeFmt s ag .engWrite dst n with
  | .ok (_, _, x, mix) => .ok (!mix && !(raw && x))
  | .error (.fault ..) => .ok true
  | .error e => .error e

/-- The stream written out: PROGRESS counts destination bytes; DLEN at the end. -/
def xfOut (s : State) (ag : Agent) (raw : Bool) (desc dst cap : Nat) (y : List Byte) : ERes :=
  if cap < y.length then .refuse s (.fault 5 0 none)
  else
    match xfDstOk s ag raw dst y.length with
    | .error e => .refuse s e
    | .ok false => .refuse s (.fault 4 0xFF none)
    | .ok true =>
      match writeRangeP s ag dst y with
      | (t, n, some e) => ⟨t, n, n, some e⟩
      | (t, n, none) =>
        match eWrite t ag (desc + 24) (leBytes 4 n) with
        | .error e => ⟨t, n, n, some e⟩
        | .ok t => .done t n

/-- The source as the chain takes it: its state and its data. -/
def xfSource (s : State) (ag : Agent) (raw : Bool) (src n fmt geo : Nat) (enc : Bool) : EM XData :=
  match readTyped s ag (fun f g => f == fmt && g == geo) (spansAt src n) with
  | .error e => .error e
  | .ok y =>
    if raw then match parseBlocks enc (n + 1) y with | some bs => .ok (.blocks bs) | none => xfIllegal 0xFE
    else .ok (elemsIn fmt geo y)

/-- The state in which the source must stand for the chain: a serialised one is E before DECRYPT, else C (R116). -/
def xfStart (raw : Bool) (gs : List Stg) (fmt geo : Nat) : XKind :=
  if raw then (match gs with | g :: _ => if g.id == 3 then .e else .c | [] => .c) else pageKind fmt geo

/-- The first serialised header agrees with the state that the chain takes. -/
def headFits (s : State) (ag : Agent) (raw : Bool) (src n : Nat) (k : XKind) : EM Bool :=
  if raw && 8 ≤ n then (eRead s ag src 8).map fun h => hEnc (leNat h) == (k == .e) else .ok true

/-- The states in which a source may stand, whatever its pages are (R116). -/
def xfStarts (raw : Bool) (gs : List Stg) : List XKind :=
  if raw then [xfStart true gs 0 0] else (List.range 12).flatMap fun f => (List.range 3).map fun g => pageKind f g

/-- What a card breaks of R115 and R116 by itself, whatever its pages are: the first stage that is never legal, or its final state. -/
def cardFault (card : List Byte) : Option Nat :=
  let gs := cardStages card
  let ends (k : XKind) : Bool := match k with | .e => cardRawOut card | .c => cardRawOut card | _ => !cardRawOut card
  let rs := (xfStarts (cardRawIn card) gs).map (legalFrom 0 [] gs)
  if rs.any fun r => match r with | .ok k => ends k | .error _ => false then none
  else if rs.any fun r => match r with | .ok _ => true | .error _ => false then some 0xFF
  else some (rs.foldl (fun a r => match r with | .error i => max a i | .ok _ => a) 0)

/-- cpy.xf: the descriptor and the card are checked by themselves before a page is looked at (R356). -/
def State.xfWord (s : State) : ERes :=
  let ag := s.eng
  let desc := s.cur.ent.sc1.toNat
  match eRead s ag s.cur.ent.sc0.toNat 64, eRead s ag desc 64 with
  | .error e, _ => .refuse s e
  | _, .error e => .refuse s e
  | .ok card, .ok x =>
    if badCard card || badXfer x then .refuse s (.fault 4 0xFF none)
    else if let some i := cardFault card then .refuse s (.fault 4 i none)
    else
      let src := fieldAt x 0 8
      let dst := fieldAt x 8 8
      let n := fieldAt x 16 4
      match rangeFmt s ag .engRead src n, rangeFmt s ag .engWrite dst 1 with
      | .error e, _ => .refuse s e
      | _, .error e => .refuse s e
      | .ok (sf, sg, sx, sm), .ok (df, dg, dx, _) =>
        if (cardRawIn card && (sf != 0 || sx || sm)) || (cardRawOut card && (df != 0 || dx)) ||
            (!cardRawIn card && n % fmtSize sf sg != 0) then .refuse s (.fault 4 0xFF none)
        else
          let k := xfStart (cardRawIn card) (cardStages card) sf sg
          match legalFrom 0 [] (cardStages card) k with
          | .error i => .refuse s (.fault 4 i none)
          | .ok fin =>
            if !endOk (cardRawOut card) fin df dg then .refuse s (.fault 4 0xFF none)
            else
              match headFits s ag (cardRawIn card) src n k with
              | .error e => .refuse s e
              | .ok false => .refuse s (.fault 4 0 none)
              | .ok true =>
                match xfSource s ag (cardRawIn card) src n sf sg (k == .e) with
                | .error e => .refuse s e
                | .ok d =>
                  match runStages s ag src (if cardRawOut card then 0 else df) (cardStages card) d with
                  | .error e => .refuse s e
                  | .ok d => xfOut s ag (cardRawOut card) desc dst (fieldAt x 20 4) d.bytes

def execCpyXf (_h : Hdr) (_cl : BitVec 4) (s : State) : Out := s.engRun 2 s.xfWord

end Sys2Proof.Machine
end

