-- ==== Sys2Proof/Machine/Dispatch.lean ====
section
/-! DEFINITION. exec: one arm for every constructor of Instr, each one direct call of its meaning. -/

namespace Sys2Proof.Machine

/-- What an operation does at a state. -/
def exec (i : Instr) (s : State) : Host.Outcome State Fault Refusal :=
  match i with
  | .cap rs1 rs2 => Sys2Proof.Machine.execCap rs1 rs2 s
  | .qpush rd rs1 rs2 => Sys2Proof.Machine.execQpush rd rs1 rs2 s
  | .launch rd rs1 => Sys2Proof.Machine.execLaunch rd rs1 s
  | .launchWait e rd rs1 rs2 => Sys2Proof.Machine.execLaunchWait e rd rs1 rs2 s
  | .exit => Sys2Proof.Machine.execExit s
  | .yield => Sys2Proof.Machine.execYield s
  | .hbInit rs1 rs2 => Sys2Proof.Machine.execHbInit rs1 rs2 s
  | .hbArrive rs1 => Sys2Proof.Machine.execHbArrive rs1 s
  | .hbWait rs1 => Sys2Proof.Machine.execHbWait rs1 s
  | .hbTxadd rs1 rs2 => Sys2Proof.Machine.execHbTxadd rs1 rs2 s
  | .tlRead e rd => Sys2Proof.Machine.execTlRead e rd s
  | .tlWait scope e rs1 => Sys2Proof.Machine.execTlWait scope e rs1 s
  | .tagWany rd rs1 => Sys2Proof.Machine.execTagWany rd rs1 s
  | .tagWall rs1 => Sys2Proof.Machine.execTagWall rs1 s
  | .tagFfr rd rs1 => Sys2Proof.Machine.execTagFfr rd rs1 s
  | .tagClr rs1 => Sys2Proof.Machine.execTagClr rs1 s
  | .mfence mask => Sys2Proof.Machine.execMfence mask s
  | .mjoin => Sys2Proof.Machine.execMjoin s
  | .sgBegin scope => Sys2Proof.Machine.execSgBegin scope s
  | .sgEnd rd => Sys2Proof.Machine.execSgEnd rd s
  | .sgAbort rs1 => Sys2Proof.Machine.execSgAbort rs1 s
  | .waddr rs1 rs2 => Sys2Proof.Machine.execWaddr rs1 rs2 s
  | .engStat e rd rs1 => Sys2Proof.Machine.execEngStat e rd rs1 s
  | .vmbPop rd => Sys2Proof.Machine.execVmbPop rd s
  | .vwsetV rs1 => Sys2Proof.Machine.execVwsetV rs1 s
  | .vwsetM rs1 => Sys2Proof.Machine.execVwsetM rs1 s
  | .vwsetC rs1 => Sys2Proof.Machine.execVwsetC rs1 s
  | .tret => Sys2Proof.Machine.execTret s
  | .fenceC mask scope => Sys2Proof.Machine.execFenceC mask scope s
  | .ldAcqB m scope rd rs1 => Sys2Proof.Machine.execLdAcqB m scope rd rs1 s
  | .ldAcqH m scope rd rs1 => Sys2Proof.Machine.execLdAcqH m scope rd rs1 s
  | .ldAcqW m scope rd rs1 => Sys2Proof.Machine.execLdAcqW m scope rd rs1 s
  | .ldAcqD m scope rd rs1 => Sys2Proof.Machine.execLdAcqD m scope rd rs1 s
  | .stRelB m scope rs1 rs2 => Sys2Proof.Machine.execStRelB m scope rs1 rs2 s
  | .stRelH m scope rs1 rs2 => Sys2Proof.Machine.execStRelH m scope rs1 rs2 s
  | .stRelW m scope rs1 rs2 => Sys2Proof.Machine.execStRelW m scope rs1 rs2 s
  | .stRelD m scope rs1 rs2 => Sys2Proof.Machine.execStRelD m scope rs1 rs2 s
  | .rvIntegerOp c op => Sys2Proof.Machine.execRvIntegerOp c op s
  | .rvLoad c w rd rs1 imm => Sys2Proof.Machine.execRvLoad c w rd rs1 imm s
  | .rvStore c w rs1 rs2 imm => Sys2Proof.Machine.execRvStore c w rs1 rs2 imm s
  | .rvAmo op dbl aq rl rd rs1 rs2 => Sys2Proof.Machine.execRvAmo op dbl aq rl rd rs1 rs2 s
  | .rvLr dbl aq rl rd rs1 => Sys2Proof.Machine.execRvLr dbl aq rl rd rs1 s
  | .rvSc dbl aq rl rd rs1 rs2 => Sys2Proof.Machine.execRvSc dbl aq rl rd rs1 rs2 s
  | .rvFence fm pred succ rd rs1 => Sys2Proof.Machine.execRvFence fm pred succ rd rs1 s
  | .rvFenceI imm rd rs1 => Sys2Proof.Machine.execRvFenceI imm rd rs1 s
  | .rvPause => Sys2Proof.Machine.execRvPause s
  | .rvEcall => Sys2Proof.Machine.execRvEcall s
  | .rvWfi => Sys2Proof.Machine.execRvWfi s
  | .rvSfenceVma rs1 rs2 => Sys2Proof.Machine.execRvSfenceVma rs1 rs2 s
  | .rvCsrAccess op csr rd src => Sys2Proof.Machine.execRvCsrAccess op csr rd src s
  | .pageWalkStart die => Sys2Proof.Machine.execPageWalkStart die s
  | .pageWalkComplete die w => Sys2Proof.Machine.execPageWalkComplete die w s
  | .engineWordPush w => Sys2Proof.Machine.execEngineWordPush w s
  | .vadd h t d a b p => Sys2Proof.Machine.execVadd h t d a b p s
  | .vsub h t d a b p => Sys2Proof.Machine.execVsub h t d a b p s
  | .vmul h t d a b p => Sys2Proof.Machine.execVmul h t d a b p s
  | .vmulh h t d a b p => Sys2Proof.Machine.execVmulh h t d a b p s
  | .vmac h t d a b c p => Sys2Proof.Machine.execVmac h t d a b c p s
  | .vmin h t d a b p => Sys2Proof.Machine.execVmin h t d a b p s
  | .vmax h t d a b p => Sys2Proof.Machine.execVmax h t d a b p s
  | .vabs h t d a p => Sys2Proof.Machine.execVabs h t d a p s
  | .vneg h t d a p => Sys2Proof.Machine.execVneg h t d a p s
  | .vadds h t d a b p => Sys2Proof.Machine.execVadds h t d a b p s
  | .vsubs h t d a b p => Sys2Proof.Machine.execVsubs h t d a b p s
  | .vclip h t d a b c p => Sys2Proof.Machine.execVclip h t d a b c p s
  | .vshl h t d a b p => Sys2Proof.Machine.execVshl h t d a b p s
  | .vshr h t d a b p => Sys2Proof.Machine.execVshr h t d a b p s
  | .vsra h t d a b p => Sys2Proof.Machine.execVsra h t d a b p s
  | .vpopc h t d a p => Sys2Proof.Machine.execVpopc h t d a p s
  | .vclz h t d a p => Sys2Proof.Machine.execVclz h t d a p s
  | .vcmp h t cnd kd a b p => Sys2Proof.Machine.execVcmp h t cnd kd a b p s
  | .vand h d a b p => Sys2Proof.Machine.execVand h d a b p s
  | .vor h d a b p => Sys2Proof.Machine.execVor h d a b p s
  | .vxor h d a b p => Sys2Proof.Machine.execVxor h d a b p s
  | .vnot h d a p => Sys2Proof.Machine.execVnot h d a p s
  | .vmov h d a p => Sys2Proof.Machine.execVmov h d a p s
  | .vsel h d a b p => Sys2Proof.Machine.execVsel h d a b p s
  | .vbcst h d a lane p => Sys2Proof.Machine.execVbcst h d a lane p s
  | .vmovi h d imm p => Sys2Proof.Machine.execVmovi h d imm p s
  | .vfadd h t d a b p => Sys2Proof.Machine.execVfadd h t d a b p s
  | .vfsub h t d a b p => Sys2Proof.Machine.execVfsub h t d a b p s
  | .vfmul h t d a b p => Sys2Proof.Machine.execVfmul h t d a b p s
  | .vfma h t d a b c p => Sys2Proof.Machine.execVfma h t d a b c p s
  | .vfms h t d a b c p => Sys2Proof.Machine.execVfms h t d a b c p s
  | .vfnma h t d a b c p => Sys2Proof.Machine.execVfnma h t d a b c p s
  | .vfmin h t d a b p => Sys2Proof.Machine.execVfmin h t d a b p s
  | .vfmax h t d a b p => Sys2Proof.Machine.execVfmax h t d a b p s
  | .vfabs h t d a p => Sys2Proof.Machine.execVfabs h t d a p s
  | .vfneg h t d a p => Sys2Proof.Machine.execVfneg h t d a p s
  | .vfrcp h t d a p => Sys2Proof.Machine.execVfrcp h t d a p s
  | .vfrsq h t d a p => Sys2Proof.Machine.execVfrsq h t d a p s
  | .vfexp2 h t d a p => Sys2Proof.Machine.execVfexp2 h t d a p s
  | .vflog2 h t d a p => Sys2Proof.Machine.execVflog2 h t d a p s
  | .vfcmp h t cnd kd a b p => Sys2Proof.Machine.execVfcmp h t cnd kd a b p s
  | .vfclass h t d a p => Sys2Proof.Machine.execVfclass h t d a p s
  | .vcvt h dt st d a p => Sys2Proof.Machine.execVcvt h dt st d a p s
  | .vf2i h dt st d a p => Sys2Proof.Machine.execVf2i h dt st d a p s
  | .vi2f h dt st d a p => Sys2Proof.Machine.execVi2f h dt st d a p s
  | .vrsumI32 h d a p => Sys2Proof.Machine.execVrsumI32 h d a p s
  | .vrsumI8 h d a p => Sys2Proof.Machine.execVrsumI8 h d a p s
  | .vrmaxI32 h d a p => Sys2Proof.Machine.execVrmaxI32 h d a p s
  | .vrmaxU8 h d a p => Sys2Proof.Machine.execVrmaxU8 h d a p s
  | .vrminI32 h d a p => Sys2Proof.Machine.execVrminI32 h d a p s
  | .vrminU8 h d a p => Sys2Proof.Machine.execVrminU8 h d a p s
  | .vfrsum h t d a p => Sys2Proof.Machine.execVfrsum h t d a p s
  | .vfrmax h t d a p => Sys2Proof.Machine.execVfrmax h t d a p s
  | .vperm h d a b p => Sys2Proof.Machine.execVperm h d a b p s
  | .vslup h d a b cnt p => Sys2Proof.Machine.execVslup h d a b cnt p s
  | .vsldn h d a b cnt p => Sys2Proof.Machine.execVsldn h d a b cnt p s
  | .vzip h d a b p => Sys2Proof.Machine.execVzip h d a b p s
  | .vunzip h d a b p => Sys2Proof.Machine.execVunzip h d a b p s
  | .vlut h d a b p => Sys2Proof.Machine.execVlut h d a b p s
  | .vbmax h t d a p => Sys2Proof.Machine.execVbmax h t d a p s
  | .vbqnt h t d a b p => Sys2Proof.Machine.execVbqnt h t d a b p s
  | .vbdqnt h t d a b p => Sys2Proof.Machine.execVbdqnt h t d a b p s
  | .vbpack h d a b p => Sys2Proof.Machine.execVbpack h d a b p s
  | .vbunpk h d a b p => Sys2Proof.Machine.execVbunpk h d a b p s
  | .vtos h a lane => Sys2Proof.Machine.execVtos h a lane s
  | .kand h kd ka kb => Sys2Proof.Machine.execKand h kd ka kb s
  | .kor h kd ka kb => Sys2Proof.Machine.execKor h kd ka kb s
  | .kxor h kd ka kb => Sys2Proof.Machine.execKxor h kd ka kb s
  | .knot h kd ka => Sys2Proof.Machine.execKnot h kd ka s
  | .kmov h kd ka => Sys2Proof.Machine.execKmov h kd ka s
  | .kpopc h ka => Sys2Proof.Machine.execKpopc h ka s
  | .vld h t m => Sys2Proof.Machine.execVld h t m s
  | .vlds h t m => Sys2Proof.Machine.execVlds h t m s
  | .vldx h t m => Sys2Proof.Machine.execVldx h t m s
  | .vst h t m => Sys2Proof.Machine.execVst h t m s
  | .vsts h t m => Sys2Proof.Machine.execVsts h t m s
  | .vstx h t m => Sys2Proof.Machine.execVstx h t m s
  | .vldb h planes m => Sys2Proof.Machine.execVldb h planes m s
  | .vmLoadDataArrive core => Sys2Proof.Machine.execVmLoadDataArrive core s
  | .vectorResultLand core => Sys2Proof.Machine.execVectorResultLand core s
  | .vpop h t d q p => Sys2Proof.Machine.execVpop h t d q p s
  | .fqOpen h q cl => Sys2Proof.Machine.execFqOpen h q cl s
  | .fqClose h q => Sys2Proof.Machine.execFqClose h q s
  | .fetchQueueRead core q => Sys2Proof.Machine.execFetchQueueRead core q s
  | .vloop h nb1 rot st1 => Sys2Proof.Machine.execVloop h nb1 rot st1 s
  | .vsync h => Sys2Proof.Machine.execVsync h s
  | .vnop h n1 => Sys2Proof.Machine.execVnop h n1 s
  | .vdefer h m => Sys2Proof.Machine.execVdefer h m s
  | .vdtake h m => Sys2Proof.Machine.execVdtake h m s
  | .vdret h m => Sys2Proof.Machine.execVdret h m s
  | .vdcnt h path => Sys2Proof.Machine.execVdcnt h path s
  | .vcfix h d a b p => Sys2Proof.Machine.execVcfix h d a b p s
  | .tmma h t m => Sys2Proof.Machine.execTmma h t m s
  | .tmmaSp h t m => Sys2Proof.Machine.execTmmaSp h t m s
  | .tmmaBp h planes m => Sys2Proof.Machine.execTmmaBp h planes m s
  | .tmmaGrp h t m => Sys2Proof.Machine.execTmmaGrp h t m s
  | .taccClr h ct n1 => Sys2Proof.Machine.execTaccClr h ct n1 s
  | .taccRd h m => Sys2Proof.Machine.execTaccRd h m s
  | .taccWr h m => Sys2Proof.Machine.execTaccWr h m s
  | .ttr h m => Sys2Proof.Machine.execTtr h m s
  | .tmov h m => Sys2Proof.Machine.execTmov h m s
  | .tepiSet h ix cl => Sys2Proof.Machine.execTepiSet h ix cl s
  | .tlutLd h ix cl => Sys2Proof.Machine.execTlutLd h ix cl s
  | .wbInv h => Sys2Proof.Machine.execWbInv h s
  | .weightBlockReload core entry => Sys2Proof.Machine.execWeightBlockReload core entry s
  | .cpy h len1 cl ro => Sys2Proof.Machine.execCpy h len1 cl ro s
  | .cpyFill h len1 cl => Sys2Proof.Machine.execCpyFill h len1 cl s
  | .tcpy h m => Sys2Proof.Machine.execTcpy h m s
  | .cpyPerm h m => Sys2Proof.Machine.execCpyPerm h m s
  | .tcpyMc h hs cl => Sys2Proof.Machine.execTcpyMc h hs cl s
  | .cpyXf h cl => Sys2Proof.Machine.execCpyXf h cl s
  | .cpyWb h cl ro => Sys2Proof.Machine.execCpyWb h cl ro s
  | .gath h m => Sys2Proof.Machine.execGath h m s
  | .scat h m => Sys2Proof.Machine.execScat h m s
  | .scatAdd h t m => Sys2Proof.Machine.execScatAdd h t m s
  | .scatMax h t m => Sys2Proof.Machine.execScatMax h t m s
  | .gathTl h hnd cl => Sys2Proof.Machine.execGathTl h hnd cl s
  | .scatTl h hnd cl => Sys2Proof.Machine.execScatTl h hnd cl s
  | .sigCfg h cl => Sys2Proof.Machine.execSigCfg h cl s
  | .sigHash h t m => Sys2Proof.Machine.execSigHash h t m s
  | .sigKey h m => Sys2Proof.Machine.execSigKey h m s
  | .sigGroup h m => Sys2Proof.Machine.execSigGroup h m s
  | .sigScat h m => Sys2Proof.Machine.execSigScat h m s
  | .sigBexp h m => Sys2Proof.Machine.execSigBexp h m s
  | .sigBred h t m => Sys2Proof.Machine.execSigBred h t m s
  | .cmEval h layer stream list => Sys2Proof.Machine.execCmEval h layer stream list s
  | .cmMeas h layer stream => Sys2Proof.Machine.execCmMeas h layer stream s
  | .cmCommit h layer stream => Sys2Proof.Machine.execCmCommit h layer stream s
  | .cmForce h layer stream => Sys2Proof.Machine.execCmForce h layer stream s
  | .cmThr h layer stream nscale => Sys2Proof.Machine.execCmThr h layer stream nscale s
  | .commandComplete cid e num => Sys2Proof.Machine.execCommandComplete cid e num s
  | .waitSatisfied cid => Sys2Proof.Machine.execWaitSatisfied cid s
  | .waddrRecheck cid => Sys2Proof.Machine.execWaddrRecheck cid s
  | .continuationChoice core => Sys2Proof.Machine.execContinuationChoice core s
  | .continuationRetire cid => Sys2Proof.Machine.execContinuationRetire cid s
  | .preemptRequest core => Sys2Proof.Machine.execPreemptRequest core s
  | .preemptCapture core => Sys2Proof.Machine.execPreemptCapture core s
  | .preemptForceTimeout core => Sys2Proof.Machine.execPreemptForceTimeout core s
  | .sgTimeout hart => Sys2Proof.Machine.execSgTimeout hart s
  | .triggerStore ctx mMode va arg => Sys2Proof.Machine.execTriggerStore ctx mMode va arg s
  | .triggerCountLoad ctx mMode va => Sys2Proof.Machine.execTriggerCountLoad ctx mMode va s
  | .triggerAccept st => Sys2Proof.Machine.execTriggerAccept st s
  | .graphRunStart st => Sys2Proof.Machine.execGraphRunStart st s
  | .nodeLaunch st => Sys2Proof.Machine.execNodeLaunch st s
  | .plannerWaitEnd st => Sys2Proof.Machine.execPlannerWaitEnd st s
  | .nodeCmu st => Sys2Proof.Machine.execNodeCmu st s
  | .nodeCopy st => Sys2Proof.Machine.execNodeCopy st s
  | .nodeWait st => Sys2Proof.Machine.execNodeWait st s
  | .nodeCond st => Sys2Proof.Machine.execNodeCond st s
  | .nodeLoop st => Sys2Proof.Machine.execNodeLoop st s
  | .nodeSignal st => Sys2Proof.Machine.execNodeSignal st s
  | .runNodeLimit st => Sys2Proof.Machine.execRunNodeLimit st s
  | .graphLoad cmd => Sys2Proof.Machine.execGraphLoad cmd s
  | .graphLoadComplete => Sys2Proof.Machine.execGraphLoadComplete s
  | .streamOpen st v => Sys2Proof.Machine.execStreamOpen st v s
  | .streamClose st => Sys2Proof.Machine.execStreamClose st s
  | .queueBitsRecord st => Sys2Proof.Machine.execQueueBitsRecord st s
  | .queueLaunchRecord st => Sys2Proof.Machine.execQueueLaunchRecord st s
  | .queueBadRecord st => Sys2Proof.Machine.execQueueBadRecord st s
  | .bindingOpportunity core => Sys2Proof.Machine.execBindingOpportunity core s
  | .streamAging st => Sys2Proof.Machine.execStreamAging st s
  | .decodeTakeBits eng => Sys2Proof.Machine.execDecodeTakeBits eng s
  | .decodePictureOutput st pic => Sys2Proof.Machine.execDecodePictureOutput st pic s
  | .cmuLogTailWrite st v => Sys2Proof.Machine.execCmuLogTailWrite st v s
  | .mmuInvContext ag => Sys2Proof.Machine.execMmuInvContext ag s
  | .mmuInvPage ag => Sys2Proof.Machine.execMmuInvPage ag s
  | .mmuInvAll ag => Sys2Proof.Machine.execMmuInvAll ag s
  | .invalidationComplete => Sys2Proof.Machine.execInvalidationComplete s
  | .mmuIlvLockWrite v => Sys2Proof.Machine.execMmuIlvLockWrite v s
  | .csmPoolAdd die v => Sys2Proof.Machine.execCsmPoolAdd die v s
  | .rampWindow die demand => Sys2Proof.Machine.execRampWindow die demand s
  | .eauInterval rail => Sys2Proof.Machine.execEauInterval rail s
  | .powerLimitThrottle power temp => Sys2Proof.Machine.execPowerLimitThrottle power temp s
  | .thermalTrip => Sys2Proof.Machine.execThermalTrip s
  | .backgroundScrub loc weak => Sys2Proof.Machine.execBackgroundScrub loc weak s
  | .unitFence kind n reason => Sys2Proof.Machine.execUnitFence kind n reason s
  | .rasShedWrite v => Sys2Proof.Machine.execRasShedWrite v s
  | .coldReset inp => Sys2Proof.Machine.execColdReset inp s
  | .functionLevelReset f => Sys2Proof.Machine.execFunctionLevelReset f s
  | .powerLoss => Sys2Proof.Machine.execPowerLoss s
  | .bootProbationTimeout k inp => Sys2Proof.Machine.execBootProbationTimeout k inp s
  | .hbwBeat k => Sys2Proof.Machine.execHbwBeat k s
  | .hbwNack k => Sys2Proof.Machine.execHbwNack k s
  | .heartbeatPeriodEnd k inp => Sys2Proof.Machine.execHeartbeatPeriodEnd k inp s
  | .hoPrepare k => Sys2Proof.Machine.execHoPrepare k s
  | .hoStart k => Sys2Proof.Machine.execHoStart k s
  | .hoAbort k => Sys2Proof.Machine.execHoAbort k s
  | .hoVerifyDone k ok version => Sys2Proof.Machine.execHoVerifyDone k ok version s
  | .hoBarrierArrive k unit => Sys2Proof.Machine.execHoBarrierArrive k unit s
  | .hoQuiesceTimeout k => Sys2Proof.Machine.execHoQuiesceTimeout k s
  | .hoExportDone k => Sys2Proof.Machine.execHoExportDone k s
  | .hoExportTimeout k => Sys2Proof.Machine.execHoExportTimeout k s
  | .hoActivateTimeout k => Sys2Proof.Machine.execHoActivateTimeout k s
  | .hoProbationEnd k => Sys2Proof.Machine.execHoProbationEnd k s
  | .fwKeyLoad => Sys2Proof.Machine.execFwKeyLoad s
  | .fwKeyClear => Sys2Proof.Machine.execFwKeyClear s
  | .getMeasurements tenant => Sys2Proof.Machine.execGetMeasurements tenant s
  | .hostBar2Access f off op => Sys2Proof.Machine.execHostBar2Access f off op s
  | .cxlMemAccess pa op => Sys2Proof.Machine.execCxlMemAccess pa op s
  | .hlRingEnable f r v => Sys2Proof.Machine.execHlRingEnable f r v s
  | .hlRingDisable f r v => Sys2Proof.Machine.execHlRingDisable f r v s
  | .hlRingTailWrite f r v => Sys2Proof.Machine.execHlRingTailWrite f r v s
  | .ringRecordTake f r => Sys2Proof.Machine.execRingRecordTake f r s
  | .batchValidate f r => Sys2Proof.Machine.execBatchValidate f r s
  | .peerRequest requester pa op => Sys2Proof.Machine.execPeerRequest requester pa op s
  | .peerDepart k => Sys2Proof.Machine.execPeerDepart k s
  | .registerWrite ag off width v => Sys2Proof.Machine.execRegisterWrite ag off width v s
  | .commandFault cid e num => Sys2Proof.Machine.execCommandFault cid e num s
  | .throttleConditionClear power temp => Sys2Proof.Machine.execThrottleConditionClear power temp s

end Sys2Proof.Machine
end

