-- ==== Sys2Proof/Machine/Turns.lean ====
section
/-! DEFINITION. Which agent moves next (log 3), and how a hart fetches an instruction (R227, R226). -/

namespace Sys2Proof.Machine

/-! ## Fetch -/

/-- Read bytes at the pc of the acting hart. -/
def fetchAt (s : State) (va n : Nat) : Except Stop (List Byte) :=
  memRead s ⟨hartAgent s s.hn, .fetch, va, n, false, true⟩ anyFmt

/-- What a fetch gives: an instruction, an illegal encoding with its first bytes, or a stop. -/
inductive Fetched where
  | instr (i : Instr)
  | illegal (w : Nat)
  | stop (e : Stop)
  deriving DecidableEq, Repr

/-- The instruction at the pc of the acting hart: its first 2 bytes give its length (R227). -/
def State.fetch (s : State) : Fetched :=
  let pc := s.me.pc.toNat
  match fetchAt s pc 2 with
  | .error e => .stop e
  | .ok b2 =>
    match lengthOf (BitVec.ofNat 16 (leNat b2)) with
    | .error _ => .illegal (leNat b2)
    | .ok n =>
      match (if n == 2 then .ok b2 else fetchAt s pc n) with
      | .error e => .stop e
      | .ok bs =>
        match decode bs with
        | .ok (i, _) => .instr i
        | .error _ => .illegal (leNat bs)

/-- A leaf of 64 KiB at page `ppn` that a U-mode fetch of context `ctx` may use (R37). -/
def fetchLeaf (s : State) (ctx ppn : Nat) : Leaf :=
  ⟨2, 0xD3 + s.ilv 0 * 2 ^ 16 + s.tenantOf ctx * 2 ^ 32, ppn⟩

/-- The bytes of an instruction placed where the acting hart 0 of core 0 fetches next, with the page that
holds them cached as executable and a running continuation on the hart (log 3). -/
def State.placeWord (s : State) (bs : List Byte) : State :=
  let h := s.hart 0
  let v := h.pc.toNat / 65536
  let tlb : List TlbEntry := ⟨0, h.ctx, v, fetchLeaf s h.ctx 0⟩ :: ⟨0, h.ctx, v + 1, fetchLeaf s h.ctx 1⟩ :: s.tlb
  let (c, k) := match h.cont with
    | some k => (s.cont k, k)
    | none => ({ Cont.fresh with stat := .running, core := some 0 }, s.nextCid)
  { s with
    mem := msets s.mem (h.pc.toNat % 65536) bs
    tlb := tlb
    harts := tset s.harts 0 { h with cont := some k, mode := .u, stalled := false }
    conts := tset s.conts k c
    nextCid := if h.cont.isSome then s.nextCid else k + 1
    agenda := .hart 0 :: s.agenda
    halted := false }

/-- The rows that are steps of the part's other agents, not instructions of a hart or an engine. -/
def eventRow : Instr → Bool
  | .commandComplete .. => true
  | .waitSatisfied .. => true
  | .waddrRecheck .. => true
  | .continuationChoice .. => true
  | .continuationRetire .. => true
  | .preemptRequest .. => true
  | .preemptCapture .. => true
  | .preemptForceTimeout .. => true
  | .sgTimeout .. => true
  | .triggerStore .. => true
  | .triggerCountLoad .. => true
  | .triggerAccept .. => true
  | .graphRunStart .. => true
  | .nodeLaunch .. => true
  | .plannerWaitEnd .. => true
  | .nodeCmu .. => true
  | .nodeCopy .. => true
  | .nodeWait .. => true
  | .nodeCond .. => true
  | .nodeLoop .. => true
  | .nodeSignal .. => true
  | .runNodeLimit .. => true
  | .graphLoad .. => true
  | .graphLoadComplete => true
  | .streamOpen .. => true
  | .streamClose .. => true
  | .queueBitsRecord .. => true
  | .queueLaunchRecord .. => true
  | .queueBadRecord .. => true
  | .bindingOpportunity .. => true
  | .streamAging .. => true
  | .decodeTakeBits .. => true
  | .decodePictureOutput .. => true
  | .cmuLogTailWrite .. => true
  | .mmuInvContext .. => true
  | .mmuInvPage .. => true
  | .mmuInvAll .. => true
  | .invalidationComplete => true
  | .mmuIlvLockWrite .. => true
  | .csmPoolAdd .. => true
  | .rampWindow .. => true
  | .eauInterval .. => true
  | .powerLimitThrottle .. => true
  | .thermalTrip => true
  | .backgroundScrub .. => true
  | .unitFence .. => true
  | .rasShedWrite .. => true
  | .coldReset .. => true
  | .functionLevelReset .. => true
  | .powerLoss => true
  | .bootProbationTimeout .. => true
  | .hbwBeat .. => true
  | .hbwNack .. => true
  | .heartbeatPeriodEnd .. => true
  | .hoPrepare .. => true
  | .hoStart .. => true
  | .hoAbort .. => true
  | .hoVerifyDone .. => true
  | .hoBarrierArrive .. => true
  | .hoQuiesceTimeout .. => true
  | .hoExportDone .. => true
  | .hoExportTimeout .. => true
  | .hoActivateTimeout .. => true
  | .hoProbationEnd .. => true
  | .fwKeyLoad => true
  | .fwKeyClear => true
  | .getMeasurements .. => true
  | .hostBar2Access .. => true
  | .cxlMemAccess .. => true
  | .hlRingEnable .. => true
  | .hlRingDisable .. => true
  | .hlRingTailWrite .. => true
  | .ringRecordTake .. => true
  | .batchValidate .. => true
  | .peerRequest .. => true
  | .peerDepart .. => true
  | .registerWrite .. => true
  | .commandFault .. => true
  | .throttleConditionClear .. => true
  | .pageWalkStart .. => true
  | .pageWalkComplete .. => true
  | .vmLoadDataArrive .. => true
  | .vectorResultLand .. => true
  | .fetchQueueRead .. => true
  | .weightBlockReload .. => true
  | _ => false

/-- An interrupt is due at the acting hart. -/
def State.interrupted (s : State) : Bool := isHart0 s.hn && s.me.ssiDue

/-! ## The state in which an agent acts -/

/-- The state in which a hart acts. -/
def State.asHart (s : State) (n : Nat) : State := { s with cur := ⟨.hart n, n, n / 2, QEntry.zero, false⟩ }
/-- The state in which an agent of the hub die acts. -/
def State.asPart (s : State) : State := { s with cur := Cursor.zero }
/-- The state in which engine `e` of core `n` performs a word. -/
def State.asEngine (s : State) (n e : Nat) (x : QEntry) (body : Bool) : State := { s with cur := ⟨.engine n e, 2 * n, n, x, body⟩ }

/-- Every hart that waits tries again. -/
def State.wake (s : State) : State :=
  { s with harts := s.harts.map fun p => (p.1, { p.2 with stalled := false }) }

/-- What an agent's move gives, after which every waiting hart tries again. -/
def wakes : Out → Out
  | .next t => .next t.wake
  | r => r

/-- A hart 0 takes a turn while it runs a continuation and is not stopped for pre-emption (R379); any other hart while
its core is in service and its image runs (R22, R410). -/
def State.hartRuns (s : State) (n : Nat) : Bool :=
  if 384 ≤ n then n < 388 && s.fwRuns 0 (n - 384)
  else s.coreOk (n / 2) && (if isHart0 n then (s.hart n).cont.isSome && (s.core (n / 2)).preempt == .none else s.fwRuns 1 (n / 2))

/-! ## The engines (R220, R137, R247, R248, R312, R439) -/

/-- The word `x` is performed by engine `e` of core `n`. -/
def State.issue (s : State) (n e : Nat) (x : QEntry) (body : Bool) : Out :=
  match engineOp x.word with
  | some i => exec i (s.asEngine n e x body)
  | none => .fault .notEnabled

/-- Engine `e` holds the words of a continuation: one of its commands there has faulted (R137). -/
def Cont.held (c : Cont) (e : Nat) : Bool := (c.faultOn e).isSome || c.live.any fun l => l.eng == e && l.fault.isSome

/-- Commands of engine `e` in flight on core `n`. -/
def State.engLive (s : State) (n e : Nat) : Nat :=
  (s.conts.map fun p => if p.2.core == some n then (p.2.live.filter fun l => l.eng == e && l.fault.isNone).length else 0).sum

/-- How many commands an engine holds in flight: M and S perform theirs one at a time, in queue order (R320, R338, R346). -/
def engHolds : Nat → Nat | 1 => 1 | 2 => 48 | 3 => 32 | 4 => 1 | _ => 2 ^ 64

/-- The continuation is being pre-empted on core `n` and its unstarted words can be parked: until then its engines go on (R379). -/
def State.parking (s : State) (n cid : Nat) : Bool := s.runningU n == some cid && (s.queued n cid).length ≤ 2048

/-- A turn of engine M, C, G, S or X: the word at the head of its queue. A fenced FI starts none (R420). -/
def State.engTurn (s : State) (n e : Nat) : Out :=
  match (s.core n).queues.getD e [] with
  | .word x :: _ =>
    if (e == 3 && !s.unitUp .fi (fiOf n)) || (s.cont x.cid).held e || !s.waitHolds x.cid x || engHolds e ≤ s.engLive n e || (e == 1 && (s.core n).preempt != .none && s.parking n x.cid) then .fault .notEnabled
    else s.issue n e x false
  | _ => .fault .notEnabled

/-- What the vector unit of a core does next. -/
inductive VAct where
  | frozen
  | arrive                       -- the data of a late load
  | read (q : Nat)               -- an entry of a fetch queue that a vpop waits for
  | tick (run : Nat)             -- a vector issue cycle without issue
  | settled                      -- the settle at the head is over
  | skip (x : QEntry)            -- a body word of a loop with no iterations
  | issue (x : QEntry) (body : Bool)
  deriving DecidableEq, Repr, Inhabited

/-- The fetch queue whose entry a vpop waits for (R309, R310). -/
def State.popWaits (s : State) (x : QEntry) : Option Nat :=
  match engineOp x.word with
  | some (.vpop _ t _ q p) =>
    let v := s.vrun x.run
    let f := v.fqOf q.toNat
    let m := ((s.asEngine 0 0 x false).active p)
    if m != 0 && !patBad f.pattern && patType f.pattern == some t && f.next < patTotal f.pattern && f.ahead.isEmpty && f.faultNow.isNone
    then some q.toNat else none
  | _ => none

/-- A word goes on to issue, or its fetch queue is read first. -/
def State.vIssue (s : State) (x : QEntry) (body : Bool) : VAct :=
  match s.popWaits x with
  | some q => .read q
  | none => .issue x body

/-- The V queue of core `n` outside a loop of run `r`. -/
def State.vQueue (s : State) (n r : Nat) : VAct :=
  let v := s.vrun r
  match (s.core n).queues.headD [] with
  | [] => .frozen
  | .settle _ :: _ => if v.busy then .tick r else .settled
  | .word x :: _ =>
    if x.run != r then .tick r
    else if !s.waitHolds x.cid x then (if waitOf x.word == 0x08 && !v.fly.isEmpty then .tick r else .frozen)
    else s.vIssue x false

/-- Inside a loop of run `r`: a collected word, or the next that hart 0 has pushed. -/
def State.vLoop (s : State) (n r : Nat) (l : Loop) : VAct :=
  let next (k : QEntry → VAct) : VAct :=
    match headWord ((s.core n).queues.headD []) with
    | some x => if x.run == r then k x else .frozen
    | none => .frozen
  if l.drained then .frozen
  else if l.atExit then .tick r
  else if l.n == 0 then next .skip
  else
    match l.body[l.w]? with
    | some x => s.vIssue x true
    | none => next fun x => s.vIssue x true

/-- The choice of the vector unit of core `n`. -/
def State.vAct (s : State) (n : Nat) : VAct :=
  match s.vRunOf n with
  | none => (match (s.core n).queues.headD [] with | .settle _ :: _ => .settled | _ => .frozen)
  | some r =>
    let v := s.vrun r
    let c := s.cont v.cid
    if v.stopped || c.frame.isSome || c.held 0 || ((s.core n).preempt == .force && s.parking n v.cid) then .frozen
    else if v.fly.any (fun x => x.due ≤ v.cyc && !x.arrived) then .arrive
    else if v.idle != 0 then .tick r
    else
      match v.loop with
      | some l => s.vLoop n r l
      | none => s.vQueue n r

/-- The V queue without the settles at its head. -/
def State.dropSettle (s : State) (n : Nat) : State :=
  let c := s.core n
  s.setCore n { c with queues := c.queues.set 0 ((c.queues.headD []).dropWhile fun i => match i with | .settle _ => true | .word _ => false) }

/-- A body word of a loop with N = 0 never issues; with the last of them the loop exits (R312, R313). -/
def State.vSkip (s0 : State) (n : Nat) (x : QEntry) : State :=
  let s := (s0.asEngine n 0 x true).popWord 0
  let s := s.setCont x.cid ((s.cont x.cid).inFlight 0 x 0 0)
  let v := (s.vrun x.run).collect x
  s.setVrun x.run { v with loop := v.loop.bind fun l => if l.body.length < l.nb then some { l with w := l.w + 1 } else none }

/-- A turn of the vector unit of core `n`. -/
def State.vTurn (s : State) (n : Nat) : Out :=
  match s.vAct n with
  | .frozen => .fault .notEnabled
  | .arrive => execVmLoadDataArrive n s
  | .read q => execFetchQueueRead n q s
  | .tick r => .next (s.vTick r)
  | .settled => .next (s.dropSettle n)
  | .skip x => .next (s.vSkip n x)
  | .issue x b => s.issue n 0 x b

/-- A turn of an engine of a core, after which every waiting hart tries again. -/
def State.engineTurn (s : State) (n e : Nat) : Out :=
  if 192 ≤ n || 6 ≤ e || !s.coreOk n then .fault .notEnabled
  else
    wakes (if e == 0 then s.vTurn n else s.engTurn n e)

/-! ## Whose turn it is (log 3) -/

/-- The first hart 0 that runs a continuation and does not wait. -/
def readyHart (s : State) : Tbl Hart → Option Nat
  | [] => none
  | (n, h) :: t => if isHart0 n && s.hartRuns n && !h.stalled then some n else readyHart s t

/-- An outcome that changes the state, the cursor apart. -/
def moves (s : State) : Out → Bool
  | .next t => { t with cur := s.cur }.wake != s.wake
  | _ => false

/-- The first engine with something to do. -/
def State.readyEngine (s : State) : Option Turn :=
  (s.cores.map Prod.fst).findSome? fun n =>
    ((List.range 6).find? fun e => moves s (s.engineTurn n e)).map fun e => .engine n e

/-- Events of the continuations that may be due. -/
def contEvents (k : Nat) (c : Cont) : List Instr :=
  c.live.map (fun l => if l.fault.isSome then .commandFault k l.eng l.ent.num else .commandComplete k l.eng l.ent.num) ++
    (match c.stat, c.wait with
     | .suspended, .addr .. => [.waddrRecheck k]
     | .suspended, .exit => [.waitSatisfied k, .continuationRetire k]
     | .suspended, _ => [.waitSatisfied k]
     | .faulted, _ => if c.ending then [.continuationRetire k] else []
     | _, _ => [])

/-- Events of the streams that may be due. -/
def strEvents (k : Nat) : List Instr :=
  [.triggerAccept k, .graphRunStart k, .nodeLaunch k, .plannerWaitEnd k, .nodeCmu k, .nodeCopy k, .nodeWait k, .nodeCond k, .nodeLoop k,
   .nodeSignal k, .runNodeLimit k, .queueBitsRecord k, .queueLaunchRecord k, .queueBadRecord k]

/-- Weight-buffer entries to reload (R74). -/
def State.reloads (s : State) : List Instr :=
  s.ue.filterMap fun u =>
    match s.storeOf u with
    | some (n, 3) => some (.weightBlockReload n ((u - wbLoc n 0) / 256))
    | _ => none

/-- Every event that the part may make by itself, whatever the time. -/
def State.ownEvents (s : State) : List Instr :=
  s.conts.flatMap (fun p => contEvents p.1 p.2) ++ s.reloads ++ s.cores.map (fun p => .preemptCapture p.1) ++
    s.cores.map (fun p => .continuationChoice p.1) ++ s.streams.flatMap (fun p => strEvents p.1) ++
    (if s.invals.isEmpty then [] else [.invalidationComplete]) ++ (if s.gload.isSome then [.graphLoadComplete] else []) ++
    (List.range 17).flatMap (fun f => (List.range 8).flatMap fun r => if s.ringBusy f r then [.ringRecordTake f r, .batchValidate f r] else []) ++
    (List.range 8).map .decodeTakeBits ++
    (if s.launches.any (fun p => p.2.held && !p.2.finished) then (List.range 192).map .bindingOpportunity else [])

/-- A turn that makes progress when the agenda is empty: walks, the part's own events, engines, then harts, so that a hart that
polls keeps nothing else from moving. -/
def State.autoTurn (s : State) : Option Turn :=
  match s.walks with
  | m :: _ => some (.event (.pageWalkComplete m.die 0))
  | [] =>
    match s.missq with
    | m :: _ => some (.event (.pageWalkStart m.die))
    | [] =>
      match (List.range 3).find? fun k => !(s.handOver k).todo.isEmpty with
      | some k => some (.firmware k)
      | none =>
      match s.conts.find? fun p => p.2.unsaved.any fun n => !s.hoPaused 1 n with
      | some p => some (.record p.1)
      | none =>
      match s.launches.find? fun p => s.feOn && s.canStart p.1 with
      | some p => some (.walker p.1)
      | none =>
        match s.ownEvents.find? fun i => moves s (exec i s.asPart) with
        | some i => some (.event i)
        | none =>
          match s.readyEngine with
          | some t => some t
          | none => (readyHart s s.harts).map .hart

/-- The turn of the next step, and the state without it on the agenda. -/
def State.takeTurn (s : State) : Option Turn × State :=
  match s.agenda with
  | t :: ts => (some t, { s with agenda := ts })
  | [] => (s.autoTurn, s)

/-- What a stopped part still does: only a cold reset (R424). -/
def startsAgain : Option Turn → Bool
  | some (.event (.coldReset _)) => true
  | _ => false

/-- A translation cache drops what covers an address (R46). -/
def State.evict (s : State) (c ctx va : Nat) : State :=
  { s with tlb := s.tlb.filter fun e => !(e.cache == c && e.ctx == ctx && covers e (va / 65536)) }

/-- A die's page-walk cache drops what lies on the path to an address (R46). -/
def State.evictWalk (s : State) (die ctx va : Nat) : State :=
  { s with walkCache := s.walkCache.filter fun e => !(e.die == die && e.ctx == ctx && e.idx == walkIdx va e.level) }

end Sys2Proof.Machine
end

