-- ==== Sys2Proof/Machine/Step.lean ====
section
/-! DEFINITION. One step of the part: the next turn's agent acts (log 3). -/

namespace Sys2Proof.Machine

/-- A hart takes its turn: it takes the interrupt that is due, or fetches and runs one instruction, or takes the exception of the
fetch. -/
def stepHart (s : State) : Host.Outcome State Fault Refusal :=
  if s.interrupted then .next s.takeSsi else
  match s.fetch with
  | .instr i => exec i s
  | .illegal w => .next (s.illegal w)
  | .stop e => .next (s.hartStop e false)

/-- An event of the part, after which every waiting hart tries again. -/
def stepEvent (i : Instr) (s : State) : Host.Outcome State Fault Refusal :=
  if i.wf && eventRow i then
    wakes (exec i s.asPart)
  else .fault .notEnabled

/-- One step. -/
def step (s : State) : Host.Outcome State Fault Refusal :=
  let (t, u) := s.takeTurn
  if s.halted && !startsAgain t then .fault .stopped
  else
    match t with
    | none => .next u.wake
    | some (.hart n) => if u.hartRuns n then stepHart (u.asHart n) else .fault .notEnabled
    | some (.engine n e) => u.engineTurn n e
    | some (.event i) => stepEvent i u
    | some (.claimWeight n w) => wakes (u.asPart.weightClaim n w)
    | some (.record k) => wakes (u.asPart.writeRecord k)
    | some (.walker k) => wakes (u.asPart.walkerStart k)
    | some (.train c r w) => wakes (u.train c r w)
    | some (.elapse t) => .next (u.elapse t).wake
    | some (.evict c k va) => .next (u.evict c k va)
    | some (.evictWalk d k va) => .next (u.evictWalk d k va)
    | some (.upset l f) => .next (u.upset l f).wake
    | some (.upsetHub f) => .next (u.countTotal f).wake
    | some (.parity c k va) => u.parity c k va
    | some (.parityWalk d k va) => u.parityWalk d k va
    | some (.fences us) => wakes (u.asPart.fencesTurn us)
    | some (.firmware k) => wakes (u.asPart.fwTurn k)
    | some (.fallbackTimeout k i) => wakes (u.fallbackLate k i)
    | some (.bar f b o op) => wakes (u.asPart.barAccess f b o op)
    | some (.hostStore pa bs) => wakes (u.hostStore pa bs)

/-- `s` with an instruction stored where the next step fetches: hart 0 of core 0 moves next, in U mode,
running a continuation (log 3). -/
def State.withFetchWord (s : State) (nbits w : Nat) : State := s.placeWord (leBytes 8 (w % 2 ^ nbits))

end Sys2Proof.Machine
end

