-- ==== Sys2Proof/Certificates/Slice0/Obligations.lean ====
section
/-! DEFINITION. The statements for the provers: what an instruction or an event does (its next state given whole, so that
everything a statement does not name is unchanged), what it leaves unchanged, and what holds of every step. -/

namespace Sys2Proof.Machine

/-! ## What the statements say of a state -/

/-- A hart has completed an instruction of `len` bytes with its registers as in `h`: the pc has moved on, one more
instruction is retired, and what a wait, a walk or Owl kept for it to retry with is forgotten (R48, R183). Nothing else of `s` is
changed. -/
def completed (s : State) (len : Nat) (h : Hart) : State :=
  { s with
    harts := tset s.harts s.hn { h with pc := h.pc + BitVec.ofNat 64 len, instret := h.instret + 1, stalled := false, again := h.onward }
    walkFault := s.walkFault.filter fun w => w.who != .hart s.hn
    owlOp := { OwlOp.none with held := s.owlOp.held.filter fun p => p.1 != s.opKey } }

/-- A hart has completed an instruction that goes to `pc`. -/
def transferred (s : State) (pc : Word) (h : Hart) : State :=
  { s with
    harts := tset s.harts s.hn { h with pc := pc, instret := h.instret + 1, stalled := false, again := h.onward }
    walkFault := s.walkFault.filter fun w => w.who != .hart s.hn
    owlOp := { OwlOp.none with held := s.owlOp.held.filter fun p => p.1 != s.opKey } }

/-- Hart 0 owes no body word of a hardware loop: in U mode its control instructions other than cap and the pushes are legal (R311). -/
def outsideBody (s : State) : Prop := s.me.mode = .u → s.me.loopLeft = 0

/-- The acting hart is a hart 0 in U mode, or in S mode where `sOk` allows it, and runs continuation `cid` (R229, R256). -/
def runsAs (s : State) (sOk : Bool) (cid : Nat) : Prop :=
  isHart0 s.hn = true ∧ (s.me.mode = .u ∨ (sOk = true ∧ s.me.mode = .s)) ∧ s.me.cont = some cid

/-- It does, and owes no body word of a loop. -/
def controls (s : State) (sOk : Bool) (cid : Nat) : Prop := runsAs s sOk cid ∧ outsideBody s

/-- Only memory, and what a write of it disturbs (R140, R144, R417), differs. -/
def onlyStored (s u : State) : Prop := u = { s with mem := u.mem, harts := u.harts, ue := u.ue }

/-- Writes turn `s` into `u`: besides that, no word has an error that had none. -/
def moved (s u : State) : Prop := onlyStored s u ∧ ∀ x ∈ u.ue, x ∈ s.ue

/-- Each of some requests passes every check of R56, on pages that are not transformed; a read then finds its bytes without error, and
a write is performed. -/
def allows (s : State) (ag : Agent) (acc : Acc) (xs : Spans) : Prop :=
  ∀ x ∈ xs, ∃ ps, plan s ⟨ag, acc, x.1, x.2, false, true⟩ anyFmt = .ok ps ∧ ∀ p ∈ ps, xfOf p = none

end Sys2Proof.Machine

open Sys2Proof Sys2Proof.Machine

/-! ## RV64 (R225, R226) -/

/-- Every integer operation of RV64 completes in every state and mode with the value its RISC-V definition gives in rd
(discarded for x0), the pc moved on by the instruction's length, and nothing else changed; jumps and branches go to their
targets; ebreak takes the breakpoint exception, and sret in S mode of hart 0 and mret in M mode return to the pc and the mode saved.
The RISC-V specifications give the values (R225, log 8). Writing a register changes that register and no other, and x0 reads as zero
before and after. -/
def Obligations.IntegerOpsComplete : Prop :=
  (∀ (h : Hart) (rd r : Reg) (v : Word),
    (h.wx rd v).rx r = (if r = 0 then 0 else if r = rd then v else h.rx r) ∧
    h.wx rd v = { h with x := (h.wx rd v).x }) ∧
  ∀ (c : Bool) (s : State),
    let n := if c then 2 else 4
    let h := s.me
    let link : Word := h.pc + BitVec.ofNat 64 n
    (∀ rd imm, exec (.rvIntegerOp c (.lui rd imm)) s = .next (completed s n (h.wx rd ((imm ++ (0 : BitVec 12)).signExtend 64)))) ∧
    (∀ rd imm, exec (.rvIntegerOp c (.auipc rd imm)) s =
      .next (completed s n (h.wx rd (h.pc + (imm ++ (0 : BitVec 12)).signExtend 64)))) ∧
    (∀ o rd rs1 imm, exec (.rvIntegerOp c (.opImm o rd rs1 imm)) s = .next (completed s n (h.wx rd (o.eval (h.rx rs1) imm)))) ∧
    (∀ o rd rs1 sh, exec (.rvIntegerOp c (.shImm o rd rs1 sh)) s = .next (completed s n (h.wx rd (o.eval (h.rx rs1) sh.toNat)))) ∧
    (∀ o rd rs1, exec (.rvIntegerOp c (.unary o rd rs1)) s = .next (completed s n (h.wx rd (o.eval (h.rx rs1))))) ∧
    (∀ o rd rs1 rs2, exec (.rvIntegerOp c (.op o rd rs1 rs2)) s = .next (completed s n (h.wx rd (o.eval (h.rx rs1) (h.rx rs2))))) ∧
    (∀ rd off, exec (.rvIntegerOp c (.jal rd off)) s =
      .next (transferred s (h.pc + (off ++ (0 : BitVec 1)).signExtend 64) (h.wx rd link))) ∧
    (∀ rd rs1 imm, exec (.rvIntegerOp c (.jalr rd rs1 imm)) s =
      .next (transferred s ((h.rx rs1 + imm.signExtend 64) &&& ~~~1) (h.wx rd link))) ∧
    (∀ b rs1 rs2 off, exec (.rvIntegerOp c (.branch b rs1 rs2 off)) s =
      .next (if b.eval (h.rx rs1) (h.rx rs2) then transferred s (h.pc + (off ++ (0 : BitVec 1)).signExtend 64) h
        else completed s n h)) ∧
    exec (.rvIntegerOp c .ebreak) s = .next (s.trap s.hn 3 0 none none) ∧
    (isHart0 s.hn = true → h.mode = .s → ∃ t, exec (.rvIntegerOp c .sret) s = .next t ∧ t.me.pc = BitVec.ofNat 64 (h.csrGet 0x141) ∧
      t.me.mode = (if bit (h.csrGet 0x100) 8 then .s else .u) ∧ bit (t.me.csrGet 0x100) 1 = bit (h.csrGet 0x100) 5 ∧ t.me.x = h.x ∧
      t.mem = s.mem ∧ t.conts = s.conts) ∧
    (h.mode = .m → ∃ t, exec (.rvIntegerOp c .mret) s = .next t ∧ t.me.pc = BitVec.ofNat 64 (h.csrGet 0x341) ∧ t.me.mode = .m ∧
      bit (t.me.csrGet 0x300) 3 = bit (h.csrGet 0x300) 7 ∧ t.me.x = h.x ∧ t.mem = s.mem ∧ t.conts = s.conts)

/-- The bytes that a hart's request of `n` bytes reads, outside a store group: the request passes every check of R56 and
its target's data is sound. -/
def Sys2Proof.Machine.readable (s : State) (va n : Nat) (ord : Bool) (bs : List Byte) : Prop :=
  s.me.group.opened = false ∧ s.trigHeld (hartReq s .load va n ord) = false ∧ hartRead s (hartReq s .load va n ord) = .ok bs

/-- A plain load writes its value to rd, sign-extended or zero-extended as its form says, and an ld.acq sign-extends it;
a load that its request's checks refuse takes that fault's exception, and one that misses waits. -/
def Obligations.LoadsWriteTheBytesRead : Prop :=
  (∀ (c : Bool) (w : LoadW) (rd rs1 : Reg) (imm : BitVec 12) (s : State) (bs : List Byte),
    readable s (s.me.rx rs1 + imm.signExtend 64).toNat w.bytes false bs →
    exec (.rvLoad c w rd rs1 imm) s = .next (completed s (if c then 2 else 4) (s.me.wx rd
      (if w.signed then BitVec.ofInt 64 (sext (leNat bs) (8 * w.bytes)) else BitVec.ofNat 64 (leNat bs))))) ∧
  (∀ (m : BitVec 5) (sc : BitVec 3) (rd rs1 : Reg) (s : State) (bs : List Byte),
    let va := (s.me.rx rs1).toNat
    let out (n : Nat) : Out := .next (completed s 4 (s.me.wx rd (BitVec.ofInt 64 (sext (leNat bs) (8 * n)))))
    outsideBody s →
    (readable s va 1 true bs → exec (.ldAcqB m sc rd rs1) s = out 1) ∧
    (readable s va 2 true bs → exec (.ldAcqH m sc rd rs1) s = out 2) ∧
    (readable s va 4 true bs → exec (.ldAcqW m sc rd rs1) s = out 4) ∧
    (readable s va 8 true bs → exec (.ldAcqD m sc rd rs1) s = out 8)) ∧
  (∀ (c : Bool) (w : LoadW) (rd rs1 : Reg) (imm : BitVec 12) (s : State) (e : Stop),
    let r := hartReq s .load (s.me.rx rs1 + imm.signExtend 64).toNat w.bytes false
    s.me.group.opened = false → s.trigHeld r = false → hartRead s r = .error e →
    exec (.rvLoad c w rd rs1 imm) s = .next (match e with
      | .miss k c v => s.hartMiss k c v
      | .flt f => s.memFault f false))

/-- A request of any agent at an address with a bit of [63:52] set faults with NONCANON at that address, before any part of it
is performed; a plain load or store there, outside a store group, takes that fault's exception (R14). -/
def Obligations.NoncanonicalAddressesFault : Prop :=
  (∀ (s : State) (r : Req) (ty : Nat → Nat → Bool), 2 ^ 52 ≤ r.va →
    (∃ f, plan s r ty = .error (.flt f) ∧ f.cause = .noncanon ∧ f.faddr = r.va) ∧
    (∃ f, memRead s r ty = .error (.flt f) ∧ f.cause = .noncanon) ∧
    (∀ bs, ∃ f, memWrite s r ty bs = .error (.flt f) ∧ f.cause = .noncanon)) ∧
  (∀ (c : Bool) (rd rs1 rs2 : Reg) (imm : BitVec 12) (s : State),
    let va := (s.me.rx rs1 + imm.signExtend 64).toNat
    let fault (acc : Acc) : MemFault := (⟨hartAgent s s.hn, acc, va, 0, false, true⟩ : Req).fault va .noncanon 7 0 0
    2 ^ 52 ≤ va → s.me.group.opened = false →
    (∀ w : LoadW, exec (.rvLoad c w rd rs1 imm) s = .next (s.memFault (fault .load) false)) ∧
    (∀ w : AccW, exec (.rvStore c w rs1 rs2 imm) s = .next (s.memFault (fault .store) true)))

/-- A request of `bs.length` bytes at `va` that the acting hart may store, outside a store group, to plain storage: it
passes the checks of R56, all of it lies on one page or in one slice, and that page is neither transformed nor a register. -/
def Sys2Proof.Machine.storesAt (s : State) (va : Nat) (bs : List Byte) (ord : Bool) (p : Piece) : Prop :=
  s.me.group.opened = false ∧ plan s (hartReq s .store va bs.length ord) anyFmt = .ok [p] ∧ p.n = bs.length ∧
  (match p.tgt, p.leaf with
   | .hbm _, some l => l.xf = false
   | .reg _, _ => False
   | .trig _ _, _ => False
   | _, _ => True)

/-- A plain store and a st.rel put the low bytes of rs2 at the location of their address, lowest byte first, and complete;
every byte outside them reads as before, in every memory that is in canonical form. -/
def Obligations.StoresPutTheirBytes : Prop :=
  (∀ (c : Bool) (w : AccW) (rs1 rs2 : Reg) (imm : BitVec 12) (s : State) (p : Piece),
    let bs := leBytes w.bytes (s.me.rx rs2).toNat
    storesAt s (s.me.rx rs1 + imm.signExtend 64).toNat bs false p →
    let u := s.putLoc (.hart s.hn) p.tgt.loc bs
    exec (.rvStore c w rs1 rs2 imm) s = .next (completed u (if c then 2 else 4) u.me) ∧
    (s.mem.wf = true → (∀ a, a < p.tgt.loc ∨ p.tgt.loc + w.bytes ≤ a → mget u.mem a = mget s.mem a) ∧
      mgets u.mem p.tgt.loc w.bytes = bs)) ∧
  (∀ (m : BitVec 5) (sc : BitVec 3) (rs1 rs2 : Reg) (s : State) (p : Piece),
    let va := (s.me.rx rs1).toNat
    let v := (s.me.rx rs2).toNat
    let out (n : Nat) : Out :=
      let u := s.putLoc (.hart s.hn) p.tgt.loc (leBytes n v)
      .next (completed u 4 u.me)
    outsideBody s →
    (storesAt s va (leBytes 1 v) true p → exec (.stRelB m sc rs1 rs2) s = out 1) ∧
    (storesAt s va (leBytes 2 v) true p → exec (.stRelH m sc rs1 rs2) s = out 2) ∧
    (storesAt s va (leBytes 4 v) true p → exec (.stRelW m sc rs1 rs2) s = out 4) ∧
    (storesAt s va (leBytes 8 v) true p → exec (.stRelD m sc rs1 rs2) s = out 8))

/-- Bytes put at a location change those bytes of memory, end the reservations of other harts on the lines that they touch and abort
with CONFLICT their groups that have accessed such a line, and make the words they wholly cover sound again; every other byte, word,
reservation and group, every other field of every hart, and every other field of the state is unchanged. -/
def Obligations.PutBytesChangeNothingElse : Prop :=
  ∀ (s : State) (who : Who) (a : Nat) (bs : List Byte),
    let u := s.putLoc who a bs
    let hit (l : Nat) : Prop := a < 64 * l + 64 ∧ 64 * l < a + bs.length
    let grp (n : Nat) : Group := (s.hart n).group
    u = { s with mem := u.mem, harts := u.harts, ue := u.ue } ∧
    (s.mem.wf = true → mgets u.mem a bs.length = bs ∧ ∀ b, b < a ∨ a + bs.length ≤ b → mget u.mem b = mget s.mem b) ∧
    (∀ n, u.hart n = { s.hart n with resv := (u.hart n).resv, group := (u.hart n).group }) ∧
    (∀ n, who = .hart n → u.hart n = s.hart n) ∧
    (bs ≠ [] → ∀ n, who ≠ .hart n →
      (∀ l, (s.hart n).resv = some l → (hit l → (u.hart n).resv = none) ∧ (¬ hit l → (u.hart n).resv = some l)) ∧
      ((s.hart n).resv = none → (u.hart n).resv = none) ∧
      ((grp n).opened = true → (grp n).code = 0 → (∃ l ∈ (grp n).touched, hit l) →
        (u.hart n).group = { grp n with code := 1, detail := 0, idx := 0, ld := false }) ∧
      ((∀ l ∈ (grp n).touched, ¬ hit l) → (u.hart n).group = grp n)) ∧
    (∀ w, w ∈ u.ue ↔ w ∈ s.ue ∧ ¬ (a ≤ w ∧ w + 8 ≤ a + bs.length))

/-- The piece of an atomic access of `n` bytes, outside a store group: naturally aligned, allowed, and plain. -/
def Sys2Proof.Machine.atomicAt (s : State) (acc : Acc) (va n : Nat) (p : Piece) (bs : List Byte) : Prop :=
  plan s (hartReq s acc va n true) anyFmt = .ok [p] ∧ p.n = n ∧ mgets s.mem p.tgt.loc n = bs ∧
  (match p.tgt, p.leaf with
   | .hbm _, some l => l.xf = false
   | .host _, _ => s.cxlMode = true
   | .reg _, _ => False
   | .trig _ _, _ => False
   | _, _ => True)

/-- AMOs, LR and SC on HBM and slices: an AMO writes the operation's result to memory and the old value, sign-extended, to
rd; LR reserves the 64-byte line it reads; SC stores and writes 0 when that line is reserved, else writes 1 and stores
nothing; either SC ends the reservation. The hart's open group, if any, has aborted first (R139, R144). -/
def Obligations.AtomicsReadModifyWrite : Prop :=
  ∀ (s : State) (rd rs1 rs2 : Reg) (aq rl : Bool) (p : Piece) (bs : List Byte),
    let u := s.groupIllegal
    let va := (s.me.rx rs1).toNat
    let b := s.me.rx rs2
    let line := p.tgt.loc / 64
    (∀ op : AmoOp,
      (atomicAt u .atomic va 8 p bs → exec (.rvAmo op true aq rl rd rs1 rs2) s =
        (let t := u.putLoc (.hart s.hn) p.tgt.loc (leBytes 8 (op.eval (BitVec.ofNat 64 (leNat bs)) b).toNat)
         .next (completed t 4 (t.me.wx rd (BitVec.ofNat 64 (leNat bs)))))) ∧
      (atomicAt u .atomic va 4 p bs → exec (.rvAmo op false aq rl rd rs1 rs2) s =
        (let t := u.putLoc (.hart s.hn) p.tgt.loc (leBytes 4 (op.eval (BitVec.ofNat 32 (leNat bs)) (b.truncate 32)).toNat)
         .next (completed t 4 (t.me.wx rd (BitVec.ofInt 64 (sext (leNat bs) 32))))))) ∧
    (∀ dbl : Bool,
      let n := if dbl then 8 else 4
      (atomicAt u .load va n p bs → exec (.rvLr dbl aq rl rd rs1) s =
        .next (completed u 4 ((({ u.me with resv := some line } : Hart)).wx rd (BitVec.ofInt 64 (sext (leNat bs) (8 * n)))))) ∧
      (atomicAt u .store va n p bs → u.me.resv = some line → exec (.rvSc dbl aq rl rd rs1 rs2) s =
        (let t := u.putLoc (.hart s.hn) p.tgt.loc (leBytes n b.toNat)
         .next (completed t 4 ((({ t.me with resv := none } : Hart)).wx rd 0)))) ∧
      (atomicAt u .store va n p bs → u.me.resv ≠ some line → exec (.rvSc dbl aq rl rd rs1 rs2) s =
        .next (completed u 4 ((({ u.me with resv := none } : Hart)).wx rd 1))))

/-- No command of the hart's continuation that has not completed, queued, in flight or faulted, has a class of `mask` (R126, R239,
R272). -/
def Sys2Proof.Machine.classesQuiet (s : State) (mask : Nat → Bool) : Prop :=
  ∀ cid, s.me.cont = some cid → s.classBusy cid mask = false

/-- Fences, hints and waits. pause completes. fence and fence.c place a settle and complete when no command of their classes is
outstanding, and else wait; a fence.c of mask 0 completes at once. fence.i completes. wfi completes in S and M mode when an enabled
interrupt is pending; when none is, one that the model does not deliver may end the wait, which a free value decides (log 8); it is
illegal in U mode. sfence.vma completes in S mode and is illegal elsewhere. A fence may not stand in a store group (R127, R139, R226,
R272, R439). -/
def Obligations.FencesAndHintsComplete : Prop :=
  ∀ s : State,
    let u := s.groupIllegal.settle
    exec .rvPause s = .next (completed s 4 s.me) ∧
    (∀ imm rd rs1, exec (.rvFenceI imm rd rs1) s = .next (completed s.groupIllegal 4 s.groupIllegal.me)) ∧
    (∀ fm pr su rd rs1,
      (classesQuiet u (fun _ => true) → exec (.rvFence fm pr su rd rs1) s = .next (completed u 4 u.me)) ∧
      (¬ classesQuiet u (fun _ => true) → exec (.rvFence fm pr su rd rs1) s = .next u.stall)) ∧
    (∀ (mask : BitVec 16) sc, outsideBody s →
      (classesQuiet u (fun k => mask.getLsbD k) → exec (.fenceC mask sc) s = .next (completed u 4 u.me)) ∧
      (¬ classesQuiet u (fun k => mask.getLsbD k) → exec (.fenceC mask sc) s = .next u.stall)) ∧
    (∀ sc, outsideBody s → exec (.fenceC 0 sc) s = .next (completed u 4 u.me)) ∧
    (s.me.mode ≠ .u → s.me.csrGet 0x144 &&& s.me.csrGet 0x104 ≠ 0 → exec .rvWfi s = .next (completed s 4 s.me)) ∧
    (s.me.mode ≠ .u → s.me.csrGet 0x144 &&& s.me.csrGet 0x104 = 0 → exec .rvWfi s = .next
      (let t := { s with fresh := s.fresh + 1 }
       if (Config.freeWord s.fresh).getLsbD 0 then completed t 4 t.me else t.stall)) ∧
    (s.me.mode = .u → exec .rvWfi s = .next (s.trap s.hn 2 0x10500073 none none)) ∧
    (∀ rs1 rs2, s.me.mode = .s → exec (.rvSfenceVma rs1 rs2) s = .next (completed s 4 s.me)) ∧
    (∀ rs1 rs2, s.me.mode ≠ .s → exec (.rvSfenceVma rs1 rs2) s = .next (s.trap s.hn 2 (instrWord (.rvSfenceVma rs1 rs2)) none none))

/-- What a CSR instruction writes, from the old value and its operand; none when a set or clear names x0 or 0. -/
def Sys2Proof.Machine.csrNew (op : CsrOp) (src : Reg) (old a : Word) : Option Word :=
  match op with
  | .rw => some a
  | .rwi => some a
  | .rs => if src = 0 then none else some (old ||| a)
  | .rsi => if src = 0 then none else some (old ||| a)
  | .rc => if src = 0 then none else some (old &&& ~~~a)
  | .rci => if src = 0 then none else some (old &&& ~~~a)

/-- The CSR instructions, register and immediate, complete with the old value in rd. On hart 0, dfcsr keeps its defined bits, a reserved
SCOPE of dclass is not taken, sscratch in S mode takes all of the value, a view can be read and not written, and cycle, time and
instret can be read in every mode, the first two as free values (log 5); minstret reads back what an M-mode write puts there; an
access to a CSR of a higher mode, or a write of a read-only one, is illegal (R92, R122, R226, R235). -/
def Obligations.CsrAccessReadsThenWrites : Prop :=
  ∀ (s : State) (op : CsrOp) (rd src : Reg),
    let h := s.me
    let a : Word := match op with | .rw | .rs | .rc => h.rx src | .rwi | .rsi | .rci => src.zeroExtend 64
    let at_ (k : BitVec 12) : Out := exec (.rvCsrAccess op k rd src) s
    let ill (k : BitVec 12) : Out := .next (s.trap s.hn 2 (instrWord (.rvCsrAccess op k rd src)) none none)
    (isHart0 s.hn = true →
      at_ 0x800 = .next (completed s 4 ((({ h with
        dfcsr := match csrNew op src h.dfcsr a with | some v => v &&& 0x7F0F | none => h.dfcsr } : Hart)).wx rd h.dfcsr)) ∧
      (h.mode = .s → at_ 0x140 = .next (completed s 4 (((match csrNew op src (BitVec.ofNat 64 (h.csrGet 0x140)) a with
        | some v => h.csrSet 0x140 v.toNat | none => h) : Hart).wx rd (BitVec.ofNat 64 (h.csrGet 0x140))))) ∧
      (h.mode = .u → at_ 0x140 = ill 0x140) ∧
      (∀ k v, (k = 0x802 ∧ v = h.dviewV ∨ k = 0x803 ∧ v = h.dviewM ∨ k = 0x804 ∧ v = h.dviewC) →
        at_ k = (if csrNew op src (BitVec.ofNat 64 v) a = none then .next (completed s 4 (h.wx rd (BitVec.ofNat 64 v))) else ill k))) ∧
    (isHart0 s.hn = false → at_ 0x800 = ill 0x800 ∧ at_ 0x802 = ill 0x802) ∧
    at_ 0x801 = .next (completed s 4 ((({ h with dclass := match csrNew op src h.dclass a with
      | some v => BitVec.ofNat 64 (bits v.toNat 3 0 + 16 * (if 6 ≤ bits v.toNat 6 4 then bits h.dclass.toNat 6 4 else bits v.toNat 6 4))
      | none => h.dclass } : Hart)).wx rd h.dclass)) ∧
    at_ 0xC02 = (if csrNew op src h.instret a = none then .next (completed s 4 (h.wx rd h.instret)) else ill 0xC02) ∧
    (∀ k, k = 0xC00 ∨ k = 0xC01 → csrNew op src 0 a = none →
      at_ k = .next (completed { s with fresh := s.fresh + 1 } 4 (h.wx rd (Config.freeWord s.fresh)))) ∧
    (h.mode = .m → at_ 0xB02 = .next (completed s 4 ((({ h with instret := match csrNew op src h.instret a with
      | some v => v - 1 | none => h.instret } : Hart)).wx rd h.instret)))

/-- What an M-mode hart's standard trap entry saves: mepc, mcause and mtval as given, MPIE from MIE, MIE clear, MPP 3, and
the pc at mtvec's base; an ecall of hart 0 in U mode takes cause 8 and in M mode cause 11 (R226). -/
def Obligations.EcallTakesItsException : Prop :=
  ∀ s : State,
    let u := s.groupIllegal
    exec .rvEcall s = .next (u.trap s.hn (match s.me.mode with | .u => 8 | .s => 9 | .m => 11) 0 none none) ∧
    (s.me.mode = .m →
      let t := u.trap s.hn 11 0 none none
      let h := t.hart s.hn
      h.mode = .m ∧ h.csrGet 0x341 = s.me.pc.toNat ∧ h.csrGet 0x342 = 11 ∧ h.csrGet 0x343 = 0 ∧
      h.pc = BitVec.ofNat 64 (s.me.csrGet 0x305 / 4 * 4) ∧ h.x = s.me.x ∧ t.mem = s.mem ∧ t.regs = s.regs ∧
      bits (h.csrGet 0x300) 12 11 = 3 ∧ bit (h.csrGet 0x300) 3 = false ∧ bit (h.csrGet 0x300) 7 = bit (s.me.csrGet 0x300) 3)

/-! ## Control instructions of hart 0 (R256 to R280) -/

/-- The register-only control instructions complete on hart 0 in U and S mode: cap fills both capture slots, a vwset takes
every base that R70 allows, tl.read gives TL_e, tag.ffr the lowest masked tag or −1, tag.clr clears the masked tags, and
eng.stat gives 1, 2 or 0 for a command completed, faulted or busy; mfence places a marker behind every word pushed so
far, and mjoin completes once each has been reached. Nothing else changes but a settle that tl.read, tag.ffr and eng.stat
place (R439). -/
def Obligations.RegisterOnlyControlComplete : Prop :=
  ∀ (s : State) (cid : Nat) (rd rs1 rs2 : Reg), runsAs s true cid →
    let h := s.me
    let v := (h.rx rs1).toNat
    let u := s.settle
    exec (.cap rs1 rs2) s = .next (completed s 4 { h with sc0 := h.rx rs1, sc1 := h.rx rs2 }) ∧ (outsideBody s →
    (v % 512 = 0 → v ≤ 49152 → exec (.vwsetV rs1) s = .next (completed s 4 { h with dviewV := v })) ∧
    (v % 2048 = 0 → v ≤ 32768 → exec (.vwsetM rs1) s = .next (completed s 4 { h with dviewM := v })) ∧
    (v % 32 = 0 → v ≤ 768 → exec (.vwsetC rs1) s = .next (completed s 4 { h with dviewC := v })) ∧
    (∀ e : BitVec 3, exec (.tlRead e rd) s = .next (completed u 4 (u.me.wx rd (BitVec.ofNat 64 (((s.cont cid).tl.getD e.toNat 0)))))) ∧
    (∀ t : Nat, t < 64 → ((s.cont cid).tags &&& h.rx rs1).getLsbD t = true →
      (∀ j < t, ((s.cont cid).tags &&& h.rx rs1).getLsbD j = false) →
      exec (.tagFfr rd rs1) s = .next (completed u 4 (u.me.wx rd (BitVec.ofNat 64 t)))) ∧
    ((s.cont cid).tags &&& h.rx rs1 = 0 → exec (.tagFfr rd rs1) s = .next (completed u 4 (u.me.wx rd (-1)))) ∧
    exec (.tagClr rs1) s =
      (let c := s.setCont cid { s.cont cid with tags := (s.cont cid).tags &&& ~~~(h.rx rs1) }
       .next (completed c 4 h)) ∧
    (∀ e : BitVec 3, v ≤ (s.cont cid).pushed.getD e.toNat 0 → exec (.engStat e rd rs1) s = .next (completed u 4 (u.me.wx rd
      (if v ≤ (s.cont cid).tl.getD e.toNat 0 then 1
       else if (s.cont cid).faulted.any (fun l => l.eng == e.toNat && l.ent.num ≤ v) then 2 else 0)))) ∧
    (∀ m : BitVec 6, exec (.mfence m) s = .next (completed s 4 { h with
      markers := h.markers ++ ((List.range 6).filter fun e => m.getLsbD e).map fun e => (e, (s.core (coreOf s.hn)).seq) })) ∧
    ((∀ m ∈ h.markers, s.reached (coreOf s.hn) m = true) → exec .mjoin s = .next (completed s 4 { h with markers := [] })) ∧
    ((∃ m ∈ h.markers, s.reached (coreOf s.hn) m = false) → exec .mjoin s = .next s.stall))

/-- The control instructions that only hart 0 executes (R229, R256). -/
def Sys2Proof.Machine.hart0Only : Instr → Bool
  | .cap .. | .vwsetV .. | .vwsetM .. | .vwsetC .. | .launch .. | .launchWait .. | .exit | .yield | .hbInit .. | .hbArrive .. | .hbWait ..
  | .hbTxadd .. | .tlRead .. | .tlWait .. | .tagWany .. | .tagWall .. | .tagFfr .. | .tagClr .. | .mfence .. | .mjoin | .engStat ..
  | .vmbPop .. | .tret | .engineWordPush .. => true
  | _ => false

/-- The control instructions that may not stand among the pushes of a loop body (R311). -/
def Sys2Proof.Machine.bodyIllegal : Instr → Bool
  | .cap .. | .engineWordPush .. => false
  | .qpush .. | .fenceC .. | .ldAcqB .. | .ldAcqH .. | .ldAcqW .. | .ldAcqD .. | .stRelB .. | .stRelH .. | .stRelW .. | .stRelD ..
  | .sgBegin .. | .sgEnd .. | .sgAbort .. | .waddr .. => true
  | i => hart0Only i

/-- A vwset whose base breaks a limit, and an eng.stat or a tl.wait beyond PUSHED_e take the illegal-instruction exception with the word
as its trap value; so do, whatever their operands, the control instructions of hart 0 on any other hart, in M mode and on a hart that
runs no continuation, tret in U mode, exit, yield and the barrier instructions in S mode, and every control instruction other than cap
and the pushes while hart 0 owes body words of a loop in U mode (R229, R256, R269, R276, R278, R311). -/
def Obligations.ControlLimitsTrap : Prop :=
  ∀ (s : State) (cid : Nat) (rd rs1 : Reg),
    let v := (s.me.rx rs1).toNat
    let ill (i : Instr) : Out := .next (s.trap s.hn 2 (instrWord i) none none)
    (runsAs s true cid → (v % 512 ≠ 0 ∨ 49152 < v) → exec (.vwsetV rs1) s = ill (.vwsetV rs1)) ∧
    (runsAs s true cid → (v % 2048 ≠ 0 ∨ 32768 < v) → exec (.vwsetM rs1) s = ill (.vwsetM rs1)) ∧
    (runsAs s true cid → (v % 32 ≠ 0 ∨ 768 < v) → exec (.vwsetC rs1) s = ill (.vwsetC rs1)) ∧
    (controls s true cid → ∀ e : BitVec 3, (s.cont cid).pushed.getD e.toNat 0 < v → exec (.engStat e rd rs1) s =
      .next (s.settle.trap s.hn 2 (instrWord (.engStat e rd rs1)) none none)) ∧
    (controls s true cid → s.me.again = .none → ∀ sc e : BitVec 3, (s.cont cid).pushed.getD e.toNat 0 < v → exec (.tlWait sc e rs1) s =
      .next (s.atPoint.trap s.hn 2 (instrWord (.tlWait sc e rs1)) none none)) ∧
    (∀ i, hart0Only i = true → (isHart0 s.hn = false ∨ s.me.mode = .m ∨ s.me.cont = none) → exec i s = ill i) ∧
    (s.me.mode = .u → exec .tret s = ill .tret) ∧
    (s.me.mode = .s → exec .exit s = ill .exit ∧ exec .yield s = ill .yield ∧ exec (.hbArrive rs1) s = ill (.hbArrive rs1) ∧
      exec (.hbWait rs1) s = ill (.hbWait rs1) ∧ ∀ rs2, exec (.hbInit rs1 rs2) s = ill (.hbInit rs1 rs2) ∧
      exec (.hbTxadd rs1 rs2) s = ill (.hbTxadd rs1 rs2)) ∧
    (∀ i, bodyIllegal i = true → s.me.mode = .u → s.me.loopLeft ≠ 0 → exec i s = ill i)

/-- The barrier instructions on a barrier of a continuation with a home core: hb.init sets ARR, hb.arrive counts an arrival
and hb.txadd adds to PEND, each then completing the phase when CNT has reached ARR and PEND is zero; hb.wait goes on when
 the phase it waits for is over, and else suspends, unless faulted commands that would complete the phase stand for it (R137,
log 87). An open group has aborted with ILLEGAL first (R139, R264 to R267). -/
def Obligations.BarrierInstructionsComplete : Prop :=
  ∀ (s : State) (cid : Nat) (rs1 rs2 : Reg), controls s false cid →
    (s.cont cid).homed = true → (s.me.rx rs1).toNat < (s.cont cid).barNames →
    let u := s.groupIllegal
    let h := (s.me.rx rs1).toNat
    let k := s.cellOf cid h
    let b := s.bar k
    let made (v : State) : State := v.setCont cid ((s.cont cid).contribute h b.ph)
    let test (x : Bar) : Bar := if x.arr ≤ x.cnt ∧ x.pend = 0 then { x with cnt := x.cnt - x.arr, ph := x.ph + 1 } else x
    (1 ≤ (s.me.rx rs2).toNat → (s.me.rx rs2).toNat ≤ 65535 → b.cnt = 0 → b.pend = 0 → exec (.hbInit rs1 rs2) s =
      (let v := u.setBar k { b with arr := (s.me.rx rs2).toNat }
       .next (completed v 4 v.me))) ∧
    exec (.hbArrive rs1) s =
      (let v := (made u).setBar k (test { b with cnt := (b.cnt + 1) % 2 ^ 32 })
       .next (completed v 4 v.me)) ∧
    exec (.hbTxadd rs1 rs2) s =
      (let v := (made u).setBar k (test { b with pend := b.pend + s.me.rx rs2 })
       .next (completed v 4 v.me)) ∧
    (let w := s.atPoint
     let ph := (s.cont cid).waitPh h b
     s.me.again = .none →
     (ph < b.ph → exec (.hbWait rs1) s = (let v := w.setCont cid ((s.cont cid).waited1 h); .next (completed v 4 v.me))) ∧
     (b.ph ≤ ph → w.barFaults cid h = [] → s.me.mode = .u →
       exec (.hbWait rs1) s = .next (w.suspend cid .suspended (.hb h ph) s.me.pc)))

/-- The suspension points: tl.wait, tag.wany, tag.wall and waddr complete when their condition holds already, and else
suspend the continuation at the instruction; yield suspends it READY behind the instruction; exit suspends it until its
commands have drained. The continuation keeps PC, a0 to a5, dfcsr, dclass, counters, timelines, tags and an aborted group, and its
record is to be written back; hart 0 is left without a continuation, its views at base 0, its slots, fetch queues, markers and group
gone; the continuation keeps its core and slot until its record is written, and PIN says whether it has commands outstanding (R197 to
R201, R261, R262, R269, R270, R275). That a waiting continuation keeps the address of the waiting instruction, where R197 has the address
at which it resumes, is the model's choice (log 75). -/
def Obligations.SuspensionPointsCompleteOrSuspend : Prop :=
  (∀ (s : State) (cid : Nat) (rd rs1 rs2 : Reg), controls s false cid → s.me.again = .none →
     let u := s.atPoint
     let c := s.cont cid
     let v := s.me.rx rs1
     (∀ sc e : BitVec 3, v.toNat ≤ c.pushed.getD e.toNat 0 →
       (v.toNat ≤ c.tl.getD e.toNat 0 → exec (.tlWait sc e rs1) s = .next (completed u 4 u.me)) ∧
       (c.tl.getD e.toNat 0 < v.toNat → lowestFault (fun l => l.eng == e.toNat && l.ent.num ≤ v.toNat) c = none →
         exec (.tlWait sc e rs1) s = .next (u.suspend cid .suspended (.tl e.toNat v.toNat sc.toNat) s.me.pc))) ∧
     (v ≠ 0 → suspReg rd = true →
       (∀ t, lowestBit (c.tags &&& v) = some t → exec (.tagWany rd rs1) s = .next (completed u 4 (u.me.wx rd (BitVec.ofNat 64 t)))) ∧
       (lowestBit (c.tags &&& v) = none → tagFault c v = none →
         exec (.tagWany rd rs1) s = .next (u.suspend cid .suspended (.tagAny v rd) s.me.pc))) ∧
     (c.tags &&& v = v → exec (.tagWall rs1) s = .next (completed u 4 u.me)) ∧
     (c.tags &&& v ≠ v → tagFault c v = none → exec (.tagWall rs1) s = .next (u.suspend cid .suspended (.tagAll v) s.me.pc)) ∧
     (∀ bs, let u := s.groupIllegal.atPoint
       hartRead u (hartReq u .load v.toNat 8 true) = .ok bs →
       (BitVec.ofNat 64 (leNat bs) ≠ s.me.rx rs2 → exec (.waddr rs1 rs2) s = .next (completed u 4 u.me)) ∧
       (BitVec.ofNat 64 (leNat bs) = s.me.rx rs2 →
         exec (.waddr rs1 rs2) s = .next (u.suspend cid .suspended (.addr v (s.me.rx rs2)) s.me.pc))) ∧
     exec .yield s = .next (u.suspend cid .ready .none (s.me.pc + 4)) ∧
     (c.faulted = [] → exec .exit s = .next (u.suspend cid .suspended .exit s.me.pc))) ∧
  (∀ (s : State) (cid : Nat) (st : Stat) (w : Wait) (pc : Word), s.me.cont = some cid →
     let t := s.suspend cid st w pc
     let c := s.cont cid
     let d := t.cont cid
     let h := t.hart s.hn
     d.stat = st ∧ d.wait = w ∧ d.pc = pc ∧ d.a = [10, 11, 12, 13, 14, 15].map s.me.rx ∧ d.dfcsr = s.me.dfcsr ∧
     d.dclass = s.me.dclass ∧ d.pushed = c.pushed ∧ d.tl = c.tl ∧ d.tags = c.tags ∧ d.outst = c.outst ∧ d.slabs = c.slabs ∧
     d.accs = c.accs ∧ h.cont = none ∧ h.dviewV = 0 ∧ h.dviewM = 0 ∧ h.dviewC = 0 ∧ h.sc0 = 0 ∧ h.sc1 = 0 ∧ h.fqOpen = [] ∧
     h.markers = [] ∧ h.group = Group.none ∧ d.unsaved = some (coreOf s.hn) ∧ d.group.opened = s.me.group.opened ∧ d.group.code = s.me.group.code ∧ t.mem = s.mem ∧ t.regs = s.regs ∧ t.runs = s.runs ∧
     d.core = c.core ∧ d.slot = c.slot ∧ (d.pin = true ↔ c.outst ≠ []) ∧ t.cores = s.cores ∧
     (∀ k, k ≠ cid → t.cont k = s.cont k) ∧ (∀ k, k ≠ s.hn → t.hart k = s.hart k))


/-- Store groups: sg.begin opens one (a nested one aborts it with ILLEGAL), sg.end of a group that has not aborted and has
no vst outstanding performs its stores in order and gives status 0, or with a store that faults performs none of them and gives FAULT
with the cause and the store's ordinal; sg.end of an aborted group performs none of them and gives its code, and sg.abort aborts with ABORTED and the low byte of rs1 as DETAIL (R139 to R142, R274). -/
def Obligations.StoreGroupInstructionsComplete : Prop :=
  ∀ (s : State) (rd rs1 : Reg), outsideBody s →
    let g := s.me.group
    let u := s.settle
    (∀ sc : BitVec 3, g.opened = false → exec (.sgBegin sc) s =
      .next (completed s 4 { s.me with group := { Group.none with opened := true, scope := sc.toNat } })) ∧
    (∀ sc : BitVec 3, g.opened = true → exec (.sgBegin sc) s = .next (completed s.groupIllegal 4 s.groupIllegal.me)) ∧
    (g.opened = true → g.vsts = [] → g.code = 0 → ∀ t, commitStores (hartReq u .store 0 1 false) g.stores u = .ok t →
      exec (.sgEnd rd) s = .next (completed t 4 ((({ t.me with group := Group.none } : Hart)).wx rd (BitVec.ofNat 64 g.status)))) ∧
    (g.opened = true → g.vsts = [] → g.code = 0 → ∀ i f, commitStores (hartReq u .store 0 1 false) g.stores u = .error (i, f) →
      exec (.sgEnd rd) s = .next (let v := u.noted f
        completed v 4 ((({ v.me with group := Group.none } : Hart)).wx rd (BitVec.ofNat 64 (3 + f.cause.code * 2 ^ 8 + i * 2 ^ 16))))) ∧
    (g.opened = true → g.vsts = [] → g.code ≠ 0 →
      exec (.sgEnd rd) s = .next (completed u 4 ((({ u.me with group := Group.none } : Hart)).wx rd (BitVec.ofNat 64 g.status)))) ∧
    (g.opened = true → g.vsts ≠ [] → exec (.sgEnd rd) s = .next u.stall) ∧
    (g.opened = false → exec (.sgEnd rd) s = .next (u.trap s.hn 2 (instrWord (.sgEnd rd)) none none)) ∧
    exec (.sgAbort rs1) s = .next (completed s 4 { s.me with group :=
      if g.opened = true ∧ g.code = 0 then { g with code := 4, detail := (s.me.rx rs1).toNat % 256, idx := 0, ld := false } else g })

/-- Pushing an engine word: with room in its queue, a word that passes every check of the push becomes the last entry of
its engine's queue, with the next number of that engine, both capture slots, dfcsr and the view bases of the moment;
PUSHED_e counts it, both slots are cleared and the pc moves on by 8 (R220, R234 to R237). A reserved word is illegal, and
with its queue full hart 0 waits. -/
def Obligations.EngineWordPushQueuesTheWord : Prop :=
  ∀ (s : State) (cid : Nat) (w : BitVec 64) (i : Instr), runsAs s true cid → decodeEngine w = .ok i →
    let grp := isGroupVst s.me i w
    let u := if grp then s else s.groupIllegal
    let e := engOfCls (max (clsOf w) 1)
    pushOk u.me (u.cont cid) i w = true →
    (u.queueLen (coreOf s.hn) e < u.queueCap (coreOf s.hn) e →
      exec (.engineWordPush w) s = .next (u.pushWord cid i w grp) ∧
      (clsOf w ≤ 6 → let t := u.pushWord cid i w grp
       let n := nth (s.cont cid).pushed e + 1
       (t.hart s.hn).pc = s.me.pc + 8 ∧ (t.hart s.hn).sc0 = 0 ∧ (t.hart s.hn).sc1 = 0 ∧ (t.hart s.hn).x = s.me.x ∧
       t.mem = s.mem ∧ t.regs = s.regs ∧ t.runs = s.runs ∧
       (∀ k, k ≠ cid → t.cont k = s.cont k) ∧ (t.cont cid).pushed = (s.cont cid).pushed.set e n ∧
       ((s.core (coreOf s.hn)).queues.length = 6 →
         ∃ x, ((t.core (coreOf s.hn)).queues.getD e []).getLast? = some (.word x) ∧ x.word = w ∧ x.sc0 = s.me.sc0 ∧
           x.sc1 = s.me.sc1 ∧ x.cid = cid ∧ x.num = n ∧ x.dfcsr = s.me.dfcsr ∧ x.vb = s.me.dviewV ∧ x.mb = s.me.dviewM ∧
           x.cb = s.me.dviewC))) ∧
    (u.queueCap (coreOf s.hn) e ≤ u.queueLen (coreOf s.hn) e → exec (.engineWordPush w) s = .next u.stall)

/-- qpush answers 0 when the stream's queue takes the record, 1 when it refuses it, 2 for a stream that
is not open, 3 for a stream of another tenant, and 4 for a number above 127; the record must be readable (R259). -/
def Obligations.QpushAnswersItsStatus : Prop :=
  ∀ (s : State) (rd rs1 rs2 : Reg) (rcd : List Byte), outsideBody s →
    let u := s.groupIllegal
    let st := (s.me.rx rs1).toNat
    let own := s.me.mode = .m ∨ s.streamTenant st = s.tenantOf s.me.ctx
    hartRead u (hartReq u .load (s.me.rx rs2).toNat 64 true) = .ok rcd →
    (127 < st → exec (.qpush rd rs1 rs2) s = .next (completed u 4 (u.me.wx rd 4))) ∧
    (st ≤ 127 → ¬ own → exec (.qpush rd rs1 rs2) s = .next (completed u 4 (u.me.wx rd 3))) ∧
    (st ≤ 127 → own → s.isOpen st = false → exec (.qpush rd rs1 rs2) s = .next (completed u 4 (u.me.wx rd 2))) ∧
    (st ≤ 127 → own → s.isOpen st = true →
      (∀ t, u.qappend st rcd = .ok (t, true) → exec (.qpush rd rs1 rs2) s = .next (completed t 4 (t.me.wx rd 0))) ∧
      (∀ t, u.qappend st rcd = .ok (t, false) → exec (.qpush rd rs1 rs2) s = .next (completed t 4 (t.me.wx rd 1))))

/-- A launch record passes every check of R191; `a` is BASE of its tile list, 0 for a loop nest. -/
def Sys2Proof.Machine.legalLaunch (s : State) (l : Launch) (a : Nat) : Prop :=
  l.versionOk = true ∧ l.levelsOk = true ∧ l.sourceOk = true ∧ slotResident s l.slot l.ctx = true ∧ l.entryOk s = true ∧
    l.gangOk (if l.isList then 0 else l.space) = true ∧ l.resourceOk = true ∧ l.depth ≤ 8 ∧
    ((l.isList = false ∧ a = 0) ∨ (l.isList = true ∧ ∃ h, getHandle s (feAgent l.ctx) l.listH = .ok h ∧ h.kind = 5 ∧ h.base = a))

/-- The state with the launch accepted: it takes the next number and waits for a walker, its iterations counted (R191, R217). -/
def Sys2Proof.Machine.withLaunch (s : State) (u : Submit) (bs : List Byte) (a : Nat) : State :=
  let l := u.launch bs
  (({ s with nextLid := s.nextLid + 1 } : State).setLaunch s.nextLid
    { l with begun := !l.isList, count := if l.isList then 0 else l.space, listAt := a }).reholdAll

/-- A child launch whose record can be read and passes the checks of R191 is accepted and gives its launch number in rd; one whose
record cannot be accepted still gives a number, its completion record saying why (R191, R204). A record not aligned to 64 bytes faults
MISALIGN, and a wait operand beyond PUSHED_e is illegal (R260). vmb.pop gives the oldest mailbox entry and takes it; with no entry
and none on its way it is illegal (R277). -/
def Obligations.LaunchesAndMailboxComplete : Prop :=
  ∀ (s : State) (cid : Nat) (rd rs1 rs2 : Reg) (e : BitVec 3), controls s true cid →
    let u := s.groupIllegal.settle
    let va := (s.me.rx rs1).toNat
    let n := (s.me.rx rs2).toNat
    let p := s.launch (s.cont cid).lid
    let sub (w : Option (Nat × Nat × Nat)) : Submit := ⟨s.me.ctx, p.stream, va + 256, w, p.depth + 1, false, none, 0⟩
    let w := some (cid, e.toNat, n)
    (∀ bs, va % 64 = 0 → hartRead u (hartReq u .load va 256 false) = .ok bs →
      (∀ a, legalLaunch u ((sub none).launch bs) a → exec (.launch rd rs1) s =
        (let t := withLaunch u (sub none) bs a
         .next (completed t 4 (t.me.wx rd (BitVec.ofNat 64 s.nextLid))))) ∧
      (∀ t lid, u.acceptLaunch (sub none) bs = .ok (t, lid) →
        exec (.launch rd rs1) s = .next (completed t 4 (t.me.wx rd (BitVec.ofNat 64 lid)))) ∧
      (n ≤ nth (s.cont cid).pushed e.toNat →
        (∀ a, legalLaunch u ((sub w).launch bs) a → exec (.launchWait e rd rs1 rs2) s =
          (let t := withLaunch u (sub w) bs a
           .next (completed t 4 (t.me.wx rd (BitVec.ofNat 64 s.nextLid))))) ∧
        (∀ t lid, u.acceptLaunch (sub w) bs = .ok (t, lid) →
          exec (.launchWait e rd rs1 rs2) s = .next (completed t 4 (t.me.wx rd (BitVec.ofNat 64 lid))))) ∧
      (nth (s.cont cid).pushed e.toNat < n →
        exec (.launchWait e rd rs1 rs2) s = .next (u.trap s.hn 2 (instrWord (.launchWait e rd rs1 rs2)) none none))) ∧
    (va % 64 ≠ 0 → va < 2 ^ 47 → exec (.launch rd rs1) s = .next (u.memFault ((hartReq u .load va 64 true).fault va .misalign 7 0 0) false)) ∧
    (∀ w ws, (s.vrun (s.cont cid).run).mbox = w :: ws → exec (.vmbPop rd) s =
      (let t := s.settle.setVrun (s.cont cid).run { s.vrun (s.cont cid).run with mbox := ws }
       .next (completed t 4 (t.me.wx rd w)))) ∧
    ((s.vrun (s.cont cid).run).mbox = [] → s.settle.mboxDue (coreOf s.hn) cid = false →
      exec (.vmbPop rd) s = .next (s.settle.trap s.hn 2 (instrWord (.vmbPop rd)) none none))

/-- What taking an exception in U mode does on hart 0: the hart goes to S mode at stvec's base with sepc, scause and stval
set, SPP clear and SIE saved in SPIE; its frame is written and kept, its sequence number goes up, and its open group, if it has made
an access, aborts. This is so whenever the frame's pages can be written (R142, R226, R368, R371, R372). -/
def Obligations.TrapEntersTheHandler : Prop :=
  ∀ (s : State) (n cid cause tval : Nat), (s.hart n).mode = .u → (s.hart n).cont = some cid → bit cause 15 = false →
    let run := s.frameRun cid
    let v := s.captureV run
    let h : Hart := { s.hart n with group := (s.hart n).group.struck, resv := none }
    let c := { v.cont cid with seq := (v.cont cid).seq + 1 }
    let img := frameImage h c (v.vrun run) [] (frameAddr v c.ctx (coreOf n) c.slot) cause (if cause = 25 then 3 else 0) tval none none
    ∀ w, writeFrame v (coreOf n) c.ctx c.slot img true = .ok w →
      let t := s.trap n cause tval none none
      let g := t.hart n
      g.mode = .s ∧ g.serving = true ∧ g.cont = some cid ∧ g.csrGet 0x141 = (s.hart n).pc.toNat ∧ g.csrGet 0x142 = cause % 2 ^ 64 ∧
      g.csrGet 0x143 = tval % 2 ^ 64 ∧ g.pc = BitVec.ofNat 64 ((s.hart n).csrGet 0x105 / 4 * 4) ∧ bit (g.csrGet 0x100) 8 = false ∧
      bit (g.csrGet 0x100) 1 = false ∧ bit (g.csrGet 0x100) 5 = bit ((s.hart n).csrGet 0x100) 1 ∧ g.group = Group.none ∧
      t.mem = w.mem ∧ (t.cont cid).seq = (s.cont cid).seq + 1 ∧ ∃ f, (t.cont cid).frame = some f ∧ f.cause = cause ∧ f.image = img

/-- The frame of continuation `cid` can be read: `m` holds its cells below 0x20000, `top` those from 0x30000, `rs` its register-space
image (R371). -/
def Sys2Proof.Machine.frameReads (s : State) (cid : Nat) (m top rs : Memory) : Prop :=
  let core := coreOf s.hn
  let ag := frameAgent s core
  let fa := frameAddr s (s.cont cid).ctx core (s.cont cid).slot
  ∃ m0 m1, readFramePage s ag fa 0 = .ok m0 ∧ readFramePage s ag (fa + 0x10000) 0x10000 = .ok m1 ∧ m = m0 ++ m1 ∧
    readFramePage s ag (fa + 0x30000) 0x30000 = .ok top ∧ readFramePage s ag (fa + 0x20000) 0 = .ok rs

/-- tret returns from a frame that the handler was serving, once the V unit holds no word of another continuation. With RSPTR as it
was, ACTION and RESTART 0, no change beyond the permitted edits, and no result in flight that carries a fault or is dropped, hart 0
goes back to U mode at the frame's PC, with its registers, slots, flags and aborted group, and the vector unit has the frame's
register space, predicates, latches and mailbox, and its results in flight; memory and every other hart and continuation are
unchanged. With ACTION not 0 the continuation is abandoned (R279, R376, R377). -/
def Obligations.TretRestoresTheFrame : Prop :=
  ∀ (s : State) (cid : Nat) (fr : Frame) (m top rs : Memory), isHart0 s.hn = true → s.me.mode = .s → s.me.cont = some cid →
    s.me.serving = true → (s.cont cid).frame = some fr → s.vAlone (coreOf s.hn) cid = true → frameReads s cid m top rs →
    let v := s.vrun fr.run
    let fa := frameAddr s (s.cont cid).ctx (coreOf s.hn) (s.cont cid).slot
    let f (o n : Nat) : Nat := mnum m o n
    (mget m 13 = 0 → mget m 14 = 0 → f 24 8 = fa + 0x20000 → fa % 0x10000 = 0 → (∀ r ∈ v.fly, r.pfm = none ∧ r.reissue = false ∧ r.gone = false) →
      frameKept v.fly (fr.image.filter fun x => x.1 < 0x20000) (m ++ top) = true →
      ∃ t, exec .tret s = .next t ∧ t.me.mode = .u ∧ t.me.serving = false ∧ t.me.cont = some cid ∧ t.me.pc = BitVec.ofNat 64 (f 0 8) ∧
        (∀ r : Reg, r ≠ 0 → t.me.rx r = BitVec.ofNat 64 (f (0xF8 + 8 * r.toNat) 8)) ∧
        t.me.dfcsr = (BitVec.ofNat 64 (f 0x200 8) &&& 0x7F0F) ||| ((s.cont cid).flagsIn.zeroExtend 64 <<< 8) ∧
        t.me.sc0 = BitVec.ofNat 64 (f 0x228 8) ∧ t.me.sc1 = BitVec.ofNat 64 (f 0x230 8) ∧ t.me.dviewV = f 0x210 8 ∧
        t.me.dviewM = f 0x218 8 ∧ t.me.dviewC = f 0x220 8 ∧ t.me.group.opened = (f 0xA40 1 == 1) ∧ t.me.group.code = f 0xA41 1 ∧
        t.me.instret = s.me.instret + 1 ∧ (t.vrun fr.run).rs = rs ∧ (t.vrun fr.run).fly = v.fly ∧
        (t.vrun fr.run).mbox = ((List.range (f 0x480 8)).map fun k => BitVec.ofNat 64 (f (0x400 + 8 * k) 8)) ∧
        (t.vrun fr.run).latch = ((List.range 4).map fun k => lanesAt m (0x2800 + 512 * k) 128) ∧
        (t.cont cid).frame = none ∧ (t.cont cid).stat = .running ∧ t.mem = s.mem ∧ t.regs = s.regs ∧
        (∀ n, n ≠ s.hn → t.hart n = s.hart n) ∧ (∀ k, k ≠ cid → t.cont k = s.cont k) ∧ (∀ k, k ≠ fr.run → t.vrun k = s.vrun k)) ∧
    (mget m 13 ≠ 0 → exec .tret s = .next ((s.abandonCont cid fr.mfr).tookWalk (.hart s.hn)))
/-! ## The vector unit (R244 to R248, R281 to R319) -/

namespace Sys2Proof.Machine

/-- No result of the run is due whose data has not arrived: the vector unit is not frozen (R60). -/
def notFrozen (s : State) : Prop := ∀ r ∈ s.vr.fly, s.vr.cyc < r.due ∨ r.arrived = true

/-- The state in which the acting V word reads: what is due has landed (R245). -/
def due (s : State) : State := s.landUpTo s.cur.ent.run s.vr.cyc

/-- A result lands `lat` cycles after its word's issue in the destination given, through latch `latch`: in the lanes that `p` makes
active, or in every lane when it is `whole`. -/
def landsAs (l : State) (r : Res) (lat latch : Nat) (dst : Dest) (p : Pred) (whole : Bool) (data : Vec) : Prop :=
  r.due = l.vr.cyc + lat ∧ r.pipe = some latch ∧ r.dest = dst ∧ r.mask = l.active p ∧ r.full = whole ∧ r.data = data ∧
  r.arrived = true ∧ r.pfm = none ∧ r.ent = l.cur.ent

/-- `i` issues as a masking word: with no active lane it has no result; else it has one, in the active lanes. -/
def issuesMasked (s : State) (i : Instr) (lat latch : Nat) (d : BitVec 6) (p : Pred) (data : State → Vec) (fl : State → Flags) : Prop :=
  notFrozen s →
    let l := due s
    (l.active p = 0 → exec i s = .next (l.vIssued [] 0 fNone)) ∧
    (l.active p ≠ 0 → ∃ r, exec i s = .next (l.vIssued [r] 0 (fl l)) ∧ landsAs l r lat latch (l.vdst d) p false (data l))

/-- `i` issues as a selecting word: every lane of its destination is written. -/
def issuesWhole (s : State) (i : Instr) (lat latch : Nat) (d : BitVec 6) (p : Pred) (data : State → Vec) (fl : State → Flags) : Prop :=
  notFrozen s →
    let l := due s
    ∃ r, exec i s = .next (l.vIssued [r] 0 (fl l)) ∧ landsAs l r lat latch (l.vdst d) p true (data l)

/-- `i` issues with a predicate register as its destination, after 2 cycles. -/
def issuesPred (s : State) (i : Instr) (kd : BitVec 4) (bits : State → BitVec 128) : Prop :=
  notFrozen s →
    let l := due s
    ∃ r, exec i s = .next (l.vIssued [r] 0 fNone) ∧ r.due = l.vr.cyc + 2 ∧ r.dest = .pred kd.toNat ∧ predOf r.data = bits l

/-- Elements made from those of two sources, as a vector. -/
def map2 (w : Nat) (f : Nat → Nat → Nat) (x y : Vec) : Vec := packV w (List.zipWith f (elems w x) (elems w y))
/-- Elements made from those of one source. -/
def map1 (w : Nat) (f : Nat → Nat) (x : Vec) : Vec := packV w ((elems w x).map f)
/-- Elements made from those of three sources. -/
def map3 (w : Nat) (f : Nat → Nat → Nat → Nat) (x y z : Vec) : Vec :=
  packV w (List.zipWith (fun a bc => f a bc.1 bc.2) (elems w x) ((elems w y).zip (elems w z)))
/-- SAT is raised when an element of an active lane leaves the range of its type. -/
def satFlag (l : State) (t : IntT) (p : Pred) (rs : List Int) : Flags :=
  if rs.zipIdx.any (fun x => activeElem (l.active p) t.elem.per x.2 && (x.1 < t.elem.lo || t.elem.hi < x.1)) then fSAT else fNone
/-- Flags of the elements of width `w`, each made from those of three sources: those of the elements in active lanes (R93, R283). -/
def flags3 (l : State) (w : Nat) (p : Pred) (f : Nat → Nat → Nat → Flags) (x y z : Vec) : Flags :=
  flagsOf (l.active p) (32 / w) (List.zipWith (fun a bc => f a bc.1 bc.2) (elems w x) ((elems w y).zip (elems w z)))
/-- Flags of the elements made from those of two sources. -/
def flags2 (l : State) (w : Nat) (p : Pred) (f : Nat → Nat → Flags) (x y : Vec) : Flags :=
  flagsOf (l.active p) (32 / w) (List.zipWith f (elems w x) (elems w y))
/-- Flags of the elements made from those of one source. -/
def flags1 (l : State) (w : Nat) (p : Pred) (f : Nat → Flags) (x : Vec) : Flags :=
  flagsOf (l.active p) (32 / w) ((elems w x).map f)
/-- The leaf of a lane in the tree of R100, when it is active: its value, or the node of its two elements. -/
def treeLeaf (l : State) (t : FbT) (op : Fv → Fv → Fv × Flags) (p : Pred) (v : Vec) (k : Nat) : Option (Fv × Flags) :=
  let x := (v.getD k 0).toNat
  let dz (f : Fmt) (y : Nat) : Fv := f.daz l.fp.daz (f.dec y)
  if (l.active p).getLsbD k then
    some (match t with | .f32 => (dz fmtF32 x, fNone) | .bf16 => op (dz fmtBf16 (x % 65536)) (dz fmtBf16 (x / 65536)))
  else none

/-- Every request of a word can be read: each passes the checks of R56 and its data is sound, and together they lie in one slice where
they are one access (R20, R305). -/
def readsAll (s : State) (ag : Agent) (ty : Nat → Nat → Bool) (each : Bool) (rs : List Spans) : Prop :=
  wordCross s ag .engRead ty each rs = none ∧ ∀ r ∈ rs, ∃ bs, reqRead s ag .engRead ty each r = .ok bs

/-- The requests that some writes of a word make, lowest address first (R305). -/
def runsOfWrites (each : Bool) (ws : List Write) : List Spans :=
  (sortReqs lowWrite (if each then ws.map fun w => [w] else pieceRuns Prod.fst ws)).map fun r => r.map fun w => (w.1, w.2.length)

/-- Every request of some writes passes the checks of R56, on pages that are not transformed and in one slice where they are one
access. -/
def writesAll (s : State) (ag : Agent) (ty : Nat → Nat → Bool) (each : Bool) (ws : List Write) : Prop :=
  wordCross s ag .engWrite ty each (runsOfWrites each ws) = none ∧
    ∀ r ∈ runsOfWrites each ws, ∃ ps, plan s ⟨ag, .engWrite, (lowSpan r).1, (lowSpan r).2, false, true⟩ ty = .ok ps ∧ ∀ p ∈ ps, xfOf p = none

/-- The requests of a load word at `a`. -/
def loadRuns (f : Form) (t : ElemT) (m : BitVec 128) (a : Nat) (jel stride : Int) (x : Vec) (fmt geo : Nat) : List Spans :=
  sortReqs (fun r => (lowSpan r).1) (requestsOf (f.each fmt) (layoutOf f t m a jel stride x fmt geo))

/-- A load word at `a` can be read: its page's format is one that the form takes, and so can all of its requests. -/
def loads (s : State) (ag : Agent) (f : Form) (t : ElemT) (m : BitVec 128) (a : Nat) (jel stride : Int) (x : Vec) : Prop :=
  ∃ fmt geo, vmPage s ag .engRead a = .ok (fmt, geo) ∧ readsAll s ag (f.on t fmt geo) (f.each fmt) (loadRuns f t m a jel stride x fmt geo)

end Sys2Proof.Machine

/-- What issuing a V word changes: a vector issue cycle passes, its results are in flight behind the others, it leaves the
queue and its command is in flight, and its flags are raised in dfcsr, the hart's that runs its continuation or the carried one;
memory, device registers and every hart's registers but dfcsr are as before, outside a hardware loop (R244, R248, R93). -/
def Obligations.IssueAddsResultsAndTakesACycle : Prop :=
  ∀ (s : State) (rs : List Res) (tx : Nat) (fl : Flags), s.cur.body = false →
    let t := s.vIssued rs tx fl
    let v := t.vrun s.cur.ent.run
    v.cyc = s.vr.cyc + 1 ∧ v.fly = s.vr.fly ++ rs ∧ v.rs = s.vr.rs ∧ v.pred = s.vr.pred ∧ v.latch = s.vr.latch ∧
    v.mbox = s.vr.mbox ∧ v.loop = s.vr.loop ∧ t.mem = s.mem ∧ t.regs = s.regs ∧
    (∀ k, k ≠ s.cur.ent.run → t.vrun k = s.vrun k) ∧
    (∀ n, (t.hart n).x = (s.hart n).x ∧ (t.hart n).pc = (s.hart n).pc ∧ (t.hart n).csr = (s.hart n).csr ∧
      (t.hart n).mode = (s.hart n).mode) ∧
    (∀ e, e ≠ 0 → (t.core s.cur.core).queues[e]? = (s.core s.cur.core).queues[e]?) ∧
    (t.core s.cur.core).queues[0]? = (s.core s.cur.core).queues[0]?.map (unqueue s.cur.ent.seq) ∧
    (∃ l ∈ (t.cont s.cur.ent.cid).live, l.eng = 0 ∧ l.ent.num = s.cur.ent.num) ∧
    (∀ l : Live, l.eng ≠ 0 ∨ l.ent.num ≠ s.cur.ent.num → (l ∈ (t.cont s.cur.ent.cid).live ↔ l ∈ (s.cont s.cur.ent.cid).live)) ∧
    (∀ n, s.runner s.cur.ent.cid = some n → (t.hart n).dfcsr = dfcsrOr (s.hart n).dfcsr fl) ∧
    (∀ n, s.runner s.cur.ent.cid ≠ some n → (t.hart n).dfcsr = (s.hart n).dfcsr) ∧
    (s.runner s.cur.ent.cid = none → (s.cont s.cur.ent.cid).frame = none →
      (t.cont s.cur.ent.cid).dfcsr = dfcsrOr (s.cont s.cur.ent.cid).dfcsr fl) ∧
    (∀ n, n ≠ s.cur.core → t.core n = s.core n) ∧
    (∀ k, k ≠ s.cur.ent.cid → t.cont k = s.cont k) ∧
    (t.cont s.cur.ent.cid).outst = (s.cont s.cur.ent.cid).outst

/-- A result lands in the active lanes of its register, a whole one in every lane, and leaves the other lanes, every other register-space byte,
the predicates and the mailbox as they were; its latch receives the merged vector (R282, R245). The elements of a packed vector are those
that it was made of, reduced into their width, for every element width (R240). -/
def Obligations.ResultLandsInItsActiveLanes : Prop :=
  (∀ (w : Nat) (es : List Nat), (w = 8 ∨ w = 16 ∨ w = 32) → es.length = 128 * (32 / w) →
    elems w (packV w es) = es.map (· % 2 ^ w)) ∧
  ∀ (v : VRun) (r : Res) (o : Nat), r.dest = .reg o → v.rs.wf = true → r.data.length = 128 →
    let t := v.land r
    (∀ l < 128, lanesAt t.rs (o + 4 * l) 1 =
      [if r.full ∨ r.mask.getLsbD l then r.data.getD l 0 else (lanesAt v.rs (o + 4 * l) 1).getD 0 0]) ∧
    (∀ k < 4, (r.pipe = some k → t.latchOf k = lanesAt t.rs o 128) ∧ (r.pipe ≠ some k → t.latchOf k = v.latchOf k)) ∧
    (∀ a, (a < o ∨ o + 512 ≤ a) → mget t.rs a = mget v.rs a) ∧ t.pred = v.pred ∧ t.mbox = v.mbox ∧ t.cyc = v.cyc ∧ t.loop = v.loop

/-- The integer forms: wrapping sums, differences, products, high halves, minima and maxima, saturating
sums and differences with SAT, shifts by an element's unsigned count, multiply-accumulate, absolute value, negation, clipping with SAT,
counts of one bits and of leading zeros, at their latencies (R286, R244). -/
def Obligations.IntegerWordsIssue : Prop :=
  ∀ (h : Hdr) (t : IntT) (d a b c : BitVec 6) (p : Pred) (s : State),
    let w := t.elem.w
    let A (l : State) := l.vsrc a
    let B (l : State) := l.vsrc b
    let val (x : Nat) : Int := t.elem.int x
    let z := fun (_ : State) => fNone
    let two (f : Int → Int → Int) (l : State) : Vec := map2 w (fun x y => wrapW w (f (val x) (val y))) (A l) (B l)
    let exact (f : Int → Int → Int) (l : State) : List Int := List.zipWith (fun x y => f (val x) (val y)) (elems w (A l)) (elems w (B l))
    let clamp (x : Int) : Int := max t.elem.lo (min x t.elem.hi)
    issuesMasked s (.vadd h t d a b p) 2 0 d p (two (· + ·)) z ∧
    issuesMasked s (.vsub h t d a b p) 2 0 d p (two (· - ·)) z ∧
    issuesMasked s (.vmul h t d a b p) 3 1 d p (two (· * ·)) z ∧
    issuesMasked s (.vmulh h t d a b p) 3 1 d p (two fun x y => x * y / 2 ^ w) z ∧
    issuesMasked s (.vmin h t d a b p) 2 0 d p (two min) z ∧
    issuesMasked s (.vmax h t d a b p) 2 0 d p (two max) z ∧
    issuesMasked s (.vadds h t d a b p) 2 0 d p (two fun x y => clamp (x + y)) (fun l => satFlag l t p (exact (· + ·) l)) ∧
    issuesMasked s (.vsubs h t d a b p) 2 0 d p (two fun x y => clamp (x - y)) (fun l => satFlag l t p (exact (· - ·) l)) ∧
    issuesMasked s (.vshl h t d a b p) 2 0 d p (fun l => map2 w (fun x n => if w ≤ n then 0 else x * 2 ^ n % 2 ^ w) (A l) (B l)) z ∧
    issuesMasked s (.vshr h t d a b p) 2 0 d p (fun l => map2 w (fun x n => x / 2 ^ n) (A l) (B l)) z ∧
    issuesMasked s (.vsra h t d a b p) 2 0 d p (fun l => map2 w (fun x n => wrapW w (sext x w / 2 ^ min n w)) (A l) (B l)) z ∧
    issuesMasked s (.vmac h t d a b c p) 3 1 d p
      (fun l => map3 w (fun x y u => wrapW w (val x * val y + val u)) (l.vsrc a) (l.vsrc b) (l.vsrc c)) z ∧
    issuesMasked s (.vabs h t d a p) 2 0 d p (fun l => map1 w (fun x => wrapW w (val x).natAbs) (l.vsrc a)) z ∧
    issuesMasked s (.vneg h t d a p) 2 0 d p (fun l => map1 w (fun x => wrapW w (-(val x))) (l.vsrc a)) z ∧
    issuesMasked s (.vclip h t d a b c p) 2 0 d p
      (fun l => map3 w (fun x lo hi => wrapW w (min (max (val x) (val lo)) (val hi))) (l.vsrc a) (l.vsrc b) (l.vsrc c))
      (fun l => flags3 l w p (fun x lo hi => if min (max (val x) (val lo)) (val hi) = val x then fNone else fSAT)
        (l.vsrc a) (l.vsrc b) (l.vsrc c)) ∧
    issuesMasked s (.vpopc h t d a p) 2 0 d p (fun l => map1 w (fun x => ((List.range w).filter fun i => x.testBit i).length) (l.vsrc a)) z ∧
    issuesMasked s (.vclz h t d a p) 2 0 d p (fun l => map1 w (fun x => w - bitLen x) (l.vsrc a)) z

/-- The bit operations and moves, lane by lane; vsel takes A in active lanes and B elsewhere and writes every lane (R288). Permutations
move lanes as their tables say: vperm by B's lane numbers modulo 128, vslup and vsldn by the count across
two sources, vzip and vunzip interleave and split, vlut looks bytes up (R294 to R297); vcfix adds lanes with the carry of
active lanes and writes every lane (R318). Each result lands after its latency (R244). -/
def Obligations.LogicMoveAndPermutationWordsIssue : Prop :=
  ∀ (h : Hdr) (d a b cnt : BitVec 6) (p : Pred) (s : State),
    let z := fun (_ : State) => fNone
    let two (f : Lane → Lane → Lane) (l : State) : Vec := List.zipWith f (l.vsrc a) (l.vsrc b)
    issuesMasked s (.vand h d a b p) 2 0 d p (two (· &&& ·)) z ∧
    issuesMasked s (.vor h d a b p) 2 0 d p (two (· ||| ·)) z ∧
    issuesMasked s (.vxor h d a b p) 2 0 d p (two (· ^^^ ·)) z ∧
    issuesMasked s (.vnot h d a p) 2 0 d p (fun l => (l.vsrc a).map (~~~·)) z ∧
    issuesMasked s (.vmov h d a p) 2 0 d p (fun l => l.vsrc a) z ∧
    issuesWhole s (.vsel h d a b p) 2 0 d p (fun l => mergeLanes (l.active p) (l.vsrc a) (l.vsrc b)) z ∧
    (∀ lane : BitVec 7, issuesMasked s (.vbcst h d a lane p) 2 0 d p (fun l => List.replicate 128 ((l.vsrc a).getD lane.toNat 0)) z) ∧
    (∀ imm : BitVec 18, issuesMasked s (.vmovi h d imm p) 2 0 d p (fun _ => List.replicate 128 (imm.signExtend 32)) z) ∧
    (let n := cnt.toNat
     let lanes (f : Vec → Vec → Nat → Lane) (l : State) : Vec := (List.range 128).map (f (l.vsrc a) (l.vsrc b))
     issuesMasked s (.vperm h d a b p) 3 3 d p (lanes fun x y k => x.getD ((y.getD k 0).toNat % 128) 0) z ∧
     issuesMasked s (.vslup h d a b cnt p) 3 3 d p (lanes fun x y k => if n ≤ k then x.getD (k - n) 0 else y.getD (128 - n + k) 0) z ∧
     issuesMasked s (.vsldn h d a b cnt p) 3 3 d p (lanes fun x y k => if k + n < 128 then x.getD (k + n) 0 else y.getD (k + n - 128) 0) z ∧
     issuesMasked s (.vzip h d a b p) 3 3 d p (lanes fun x y k => if k % 2 = 0 then x.getD (k / 2) 0 else y.getD (k / 2) 0) z ∧
     issuesMasked s (.vunzip h d a b p) 3 3 d p (lanes fun x y k => if k < 64 then x.getD (2 * k) 0 else y.getD (2 * (k - 64)) 0) z ∧
     issuesMasked s (.vlut h d a b p) 4 3 d p (fun l => map1 8 (fun i => (elems 8 (l.vsrc b)).getD i 0) (l.vsrc a)) z ∧
     issuesWhole s (.vcfix h d a b p) 2 0 d p (fun l => carryRow (l.active p) 0 0 (l.vsrc a) (l.vsrc b)) z)

/-- The floating-point forms: each element is the exact result of its operands under DAZ, rounded once by dfcsr's RM and
FTZ as the format says, and a reciprocal, a root, an exponential or a logarithm is correctly rounded; the flags of the elements in
active lanes are raised (R289 to R291, R92 to R95). That FTZ flushes what vfmin and vfmax give, and the sign of a zero that vfsub
gives, are the model's choices (log 16), and so is how vfexp2 and vflog2 are rounded (log 13). -/
def Obligations.FloatingPointWordsIssue : Prop :=
  ∀ (h : Hdr) (t : FpT) (d a b c : BitVec 6) (p : Pred) (s : State),
    let f := t.fmt
    let x (l : State) (v : Nat) : Fv := f.daz l.fp.daz (f.dec v)
    let rnd (l : State) (r : Fv × Flags) : Nat × Flags :=
      ((f.round l.fp.rm l.fp.ftz r.1).1, r.2 ||| (f.round l.fp.rm l.fp.ftz r.1).2)
    let z := fun (_ : State) => fNone
    let made3 (i : Instr) (g : State → Nat → Nat → Nat → Nat × Flags) : Prop :=
      issuesMasked s i 4 1 d p (fun l => map3 f.w (fun u v w => (g l u v w).1) (l.vsrc a) (l.vsrc b) (l.vsrc c))
        (fun l => flags3 l f.w p (fun u v w => (g l u v w).2) (l.vsrc a) (l.vsrc b) (l.vsrc c))
    let made2 (i : Instr) (g : State → Nat → Nat → Nat × Flags) : Prop :=
      issuesMasked s i 4 1 d p (fun l => map2 f.w (fun u v => (g l u v).1) (l.vsrc a) (l.vsrc b))
        (fun l => flags2 l f.w p (fun u v => (g l u v).2) (l.vsrc a) (l.vsrc b))
    let made1 (i : Instr) (g : State → Nat → Nat × Flags) : Prop :=
      issuesMasked s i 6 1 d p (fun l => map1 f.w (fun u => (g l u).1) (l.vsrc a)) (fun l => flags1 l f.w p (fun u => (g l u).2) (l.vsrc a))
    made2 (.vfadd h t d a b p) (fun l u v => rnd l (fvAdd l.fp.rm (x l u) (x l v))) ∧
    made2 (.vfsub h t d a b p) (fun l u v => rnd l (fvAdd l.fp.rm (x l u) (x l v).neg)) ∧
    made2 (.vfmul h t d a b p) (fun l u v => rnd l (fvMul (x l u) (x l v))) ∧
    made3 (.vfma h t d a b c p) (fun l u v w => rnd l (fvFma l.fp.rm (x l u) (x l v) (x l w))) ∧
    made3 (.vfms h t d a b c p) (fun l u v w => rnd l (fvFma l.fp.rm (x l u) (x l v) (x l w).neg)) ∧
    made3 (.vfnma h t d a b c p) (fun l u v w => rnd l (fvFma l.fp.rm (x l u).neg (x l v) (x l w))) ∧
    issuesMasked s (.vfmin h t d a b p) 2 0 d p (fun l => map2 f.w (f.minBits l.fp.daz l.fp.ftz) (l.vsrc a) (l.vsrc b)) z ∧
    issuesMasked s (.vfmax h t d a b p) 2 0 d p (fun l => map2 f.w (f.maxBits l.fp.daz l.fp.ftz) (l.vsrc a) (l.vsrc b)) z ∧
    issuesMasked s (.vfabs h t d a p) 2 0 d p (fun l => map1 f.w (· % 2 ^ (f.w - 1)) (l.vsrc a)) z ∧
    issuesMasked s (.vfneg h t d a p) 2 0 d p (fun l => map1 f.w (· ^^^ 2 ^ (f.w - 1)) (l.vsrc a)) z ∧
    made1 (.vfrcp h t d a p) (fun l u => fvRcp f l.fp (x l u)) ∧
    made1 (.vfrsq h t d a p) (fun l u => fvRsq f l.fp (x l u)) ∧
    made1 (.vfexp2 h t d a p) (fun l u => fvExp2 f l.fp (x l u) u) ∧
    made1 (.vflog2 h t d a p) (fun l u => fvLog2 f l.fp (x l u) u) ∧
    issuesMasked s (.vfclass h t d a p) 2 0 d p (fun l => map1 f.w (fun u => 2 ^ classBit f u) (l.vsrc a)) z

/-- Conversions take source elements 0 to n − 1 of the narrower count into the destination's elements, zeros beyond (R292),
and block words make scale codes, block-quantised elements, and bit planes (R298 to R300), with the flags of the elements in active
lanes. That FTZ does not apply to what vbdqnt gives is the model's reading (log 44). -/
def Obligations.ConversionAndBlockWordsIssue : Prop :=
  ∀ (h : Hdr) (d a b : BitVec 6) (p : Pred) (s : State),
    (∀ (dt st : ElemT),
      let es (l : State) : List (Nat × Flags) := ((elems st.w (l.vsrc a)).take (128 * min dt.per st.per)).map (convElem l.fp st dt)
      let conv (l : State) : Vec := packV dt.w ((es l).map Prod.fst)
      let fl (l : State) : Flags := flagsOf (l.active p) dt.per ((es l).map Prod.snd)
      issuesMasked s (.vcvt h dt st d a p) 3 3 d p conv fl ∧ issuesMasked s (.vf2i h dt st d a p) 3 3 d p conv fl ∧
      issuesMasked s (.vi2f h dt st d a p) 3 3 d p conv fl) ∧
    (∀ t : FbT,
      let per := t.elem.per
      let w := t.fmt.w
      let dz (l : State) (x : Nat) : Fv := t.fmt.daz l.fp.daz (t.fmt.dec x)
      let code (l : State) (e : Nat) : Nat := ((l.vsrc b).getD (e / per) 0).toNat % 256
      let each (l : State) (f : Nat → Nat → Nat × Flags) : List (Nat × Flags) := (elems w (l.vsrc a)).zipIdx.map fun x => f x.1 x.2
      let made (i : Instr) (f : State → Nat → Nat → Nat × Flags) : Prop :=
        issuesMasked s i 3 3 d p (fun l => packV w ((each l (f l)).map Prod.fst)) (fun l => flagsOf (l.active p) per ((each l (f l)).map Prod.snd))
      issuesMasked s (.vbmax h t d a p) 3 3 d p (fun l => (List.range 128).map fun k =>
        let block := (List.range 16).map fun i => per * k / 16 * 16 + i
        BitVec.ofNat 32 (e8Of (maxFinite ((block.filter fun e => activeElem (l.active p) per e).map fun e =>
          ((elems w (l.vsrc a)).map (dz l)).getD e .nan)))) (fun _ => fNone) ∧
      made (.vbqnt h t d a b p) (fun l x e =>
        if code l e = 255 then (wrapW w (-128), fNV)
        else (wrapW w (quantElem l.fp.rm (code l e) (dz l x)).1, (quantElem l.fp.rm (code l e) (dz l x)).2)) ∧
      made (.vbdqnt h t d a b p) (fun l k e => t.fmt.round l.fp.rm false (e8Value (code l e) (k % 256)))) ∧
    (let q (l : State) : Nat := ((l.vsrc b).getD 0 0).toNat % 16
     let pl (l : State) : Nat := ((l.vsrc b).getD 0 0).toNat / 16 % 16
     let badQ (l : State) : Prop := q l < 2 ∨ 8 < q l
     let badPl (l : State) : Prop := badQ l ∨ pl l < 2 ∨ q l < pl l
     let packed (l : State) : Vec :=
       bytesVec ((List.range 8).flatMap fun g => bpnEncode (((elems 8 (l.vsrc a)).drop (64 * g)).take 64) (q l))
     let unpacked (l : State) : Vec := bytesVec ((List.range 8).flatMap fun g =>
       (bpnDecode ((lanesBytes (l.vsrc a)).drop (8 * q l * g)) (pl l)).map fun v => BitVec.ofInt 8 v)
     (∃ data fl, issuesMasked s (.vbpack h d a b p) 3 3 d p data fl ∧
       ∀ l, (badQ l → data l = vzero ∧ fl l = fNV) ∧ (¬ badQ l → data l = packed l ∧ fl l = fNone)) ∧
     (∃ data fl, issuesMasked s (.vbunpk h d a b p) 3 3 d p data fl ∧
       ∀ l, (badPl l → data l = vzero ∧ fl l = fNV) ∧ (¬ badPl l → data l = unpacked l ∧ fl l = fNone)))

/-- Reductions put the result of the active lanes into lane 0 and zero elsewhere, whatever the predicate: integer sums and
extremes with their identities, and the floating tree of R100, whose nodes are the rounded sum, with its flags, and the maximum, of
which FTZ flushes a subnormal one (R293, log 16). -/
def Obligations.ReductionWordsIssue : Prop :=
  ∀ (h : Hdr) (d a : BitVec 6) (p : Pred) (s : State),
    let z := fun (_ : State) => fNone
    let xs (l : State) : List Nat := ((List.range 128).filter fun k => (l.active p).getLsbD k).map fun k => ((l.vsrc a).getD k 0).toNat
    let bytes (l : State) : List Nat := (xs l).flatMap fun x => [x % 256, x / 256 % 256, x / 65536 % 256, x / 16777216 % 256]
    let only (x : Nat) : Vec := (List.range 128).map fun k => if k = 0 then BitVec.ofNat 32 x else 0
    issuesWhole s (.vrsumI32 h d a p) 6 3 d p (fun l => only ((xs l).foldl (fun u x => (u + x) % 2 ^ 32) 0)) z ∧
    issuesWhole s (.vrsumI8 h d a p) 6 3 d p (fun l => only (wrapW 32 ((bytes l).foldl (fun u x => u + sext x 8) 0))) z ∧
    issuesWhole s (.vrmaxI32 h d a p) 6 3 d p (fun l => only (wrapW 32 ((xs l).foldl (fun u x => max u (sext x 32)) (-2147483648)))) z ∧
    issuesWhole s (.vrmaxU8 h d a p) 6 3 d p (fun l => only ((bytes l).foldl max 0)) z ∧
    issuesWhole s (.vrminI32 h d a p) 6 3 d p (fun l => only (wrapW 32 ((xs l).foldl (fun u x => min u (sext x 32)) 2147483647))) z ∧
    issuesWhole s (.vrminU8 h d a p) 6 3 d p (fun l => only ((bytes l).foldl min 255)) z ∧
    (∀ t : FbT,
      let leaves (op : FpCtl → Fv → Fv → Fv × Flags) (l : State) : List (Option (Fv × Flags)) :=
        (List.range 128).map (treeLeaf l t (op l.fp) p (l.vsrc a))
      let tree (op : FpCtl → Fv → Fv → Fv × Flags) (l : State) : Option Fv × Flags :=
        reduceTree (op l.fp) 7 ((leaves op l).map (Option.map Prod.fst))
      let top (op : FpCtl → Fv → Fv → Fv × Flags) (empty : Nat) (l : State) : Vec :=
        only (match (tree op l).1 with | some x => (fmtF32.round .rne false x).1 | none => empty)
      let fl (op : FpCtl → Fv → Fv → Fv × Flags) (l : State) : Flags :=
        (tree op l).2 ||| orFlags ((leaves op l).map fun x => match x with | some y => y.2 | none => fNone)
      issuesWhole s (.vfrsum h t d a p) 6 3 d p (top sumNode 0) (fl sumNode) ∧
      issuesWhole s (.vfrmax h t d a p) 6 3 d p (top maxNode 0xFF800000) (fl maxNode) ∧
      (∀ l op, l.active p = 0 → (tree op l).1 = none))

/-- Compares and predicate words write a predicate register after 2 cycles: a compare's bit is set in the active lanes whose
every element satisfies the condition; kand, kor, kxor, knot and kmov work bit by bit. vtos and kpopc put a 64-bit value into
the mailbox after 3 cycles: a lane sign-extended, or the number of ones of a predicate; they wait while 16 entries stand in
the mailbox or are on their way, which count as the model chooses (log 39; R247, R287, R290, R301, R302). -/
def Obligations.PredicateAndMailboxWordsIssue : Prop :=
  (∀ (h : Hdr) (kd ka kb : BitVec 4) (a b : BitVec 6) (p : Pred) (s : State),
     let K (l : State) : BitVec 128 := l.vr.predReg ka.toNat
     let L (l : State) : BitVec 128 := l.vr.predReg kb.toNat
     let lanes (l : State) (w : Nat) (f : Nat → Nat → Bool) : BitVec 128 :=
       predOf ((List.range 128).map fun k => if (l.active p).getLsbD k &&
         (((List.zipWith f (elems w (l.vsrc a)) (elems w (l.vsrc b))).drop (32 / w * k)).take (32 / w)).all id then 1 else 0)
     (∀ (t : IntT) (c : Cond), issuesPred s (.vcmp h t c kd a b p) kd fun l =>
       lanes l t.elem.w fun x y => Cond.holds c (t.elem.int x) (t.elem.int y)) ∧
     (∀ (t : FpT) (c : FCond), issuesPred s (.vfcmp h t c kd a b p) kd fun l =>
       lanes l t.fmt.w fun x y => FCond.holds c (t.fmt.daz l.fp.daz (t.fmt.dec x)) (t.fmt.daz l.fp.daz (t.fmt.dec y))) ∧
     issuesPred s (.kand h kd ka kb) kd (fun l => K l &&& L l) ∧
     issuesPred s (.kor h kd ka kb) kd (fun l => K l ||| L l) ∧
     issuesPred s (.kxor h kd ka kb) kd (fun l => K l ^^^ L l) ∧
     issuesPred s (.knot h kd ka) kd (fun l => ~~~K l) ∧
     issuesPred s (.kmov h kd ka) kd (fun l => K l)) ∧
  (∀ (h : Hdr) (a : BitVec 6) (lane : BitVec 7) (ka : BitVec 4) (s : State), notFrozen s →
     let l := due s
     let room := l.vr.mboxCount < 16
     let put (i : Instr) (v : Word) : Prop :=
       ∃ r, exec i s = .next (l.vIssued [r] 0 fNone) ∧ r.due = l.vr.cyc + 3 ∧ r.dest = .mbox ∧ r.value = v
     (room → put (.vtos h a lane) (((l.vsrc a).getD lane.toNat 0).signExtend 64)) ∧
     (room → put (.kpopc h ka) (BitVec.ofNat 64 (((List.range 128).filter fun i => (l.vr.predReg ka.toNat).getLsbD i).length))) ∧
     (¬ room → exec (.vtos h a lane) s = .next s ∧ exec (.kpopc h ka) s = .next s))


/-- A load word with an active lane all of whose requests can be read issues, its result due after 8 cycles, not yet arrived and
without a fault mark; the result is the lanes that the load reads. One whose access faults stops its engine, and one that misses
stays (R285, R303 to R305). -/
def Obligations.VectorLoadsIssue : Prop :=
  ∀ (h : Hdr) (m : Vmm) (s : State), notFrozen s → (due s).active m.p ≠ 0 →
    let l := due s
    let form (i : Instr) (f : Form) (t : ElemT) : Prop :=
      let base := l.vmBase m (f == .strided)
      let jel := l.iterOf m.p * (f.count t : Nat)
      let x := match f with | .indexed => l.vsrc m.x | _ => []
      let rd := vmLoad l l.eng f t (l.active m.p) base jel l.stride x
      let issued (r : Res) : Prop := exec i s = .next (l.vIssued [r] 0 fNone) ∧ r.due = l.vr.cyc + 8 ∧ r.pipe = some 2 ∧
        r.dest = l.vdst m.v ∧ r.mask = l.active m.p ∧ r.arrived = false
      (loads l l.eng f t (l.active m.p) base jel l.stride x → ∃ r, issued r ∧ r.pfm = none) ∧
      (∀ v late sl, rd = .ok (v, late, sl) → ∃ r, issued r ∧ r.data = v ∧ r.pfm = late) ∧
      (∀ g, rd = .error (.flt g) → exec i s = .next (s.vFault 1 0 (some g))) ∧
      (∀ k c v, rd = .error (.miss k c v) → exec i s = .next (s.missed k c v))
    (∀ t, form (.vld h t m) .packed t) ∧ (∀ t, form (.vlds h t m) .strided t) ∧ (∀ t, form (.vldx h t m) .indexed t) ∧
    (∀ planes : BitVec 4, form (.vldb h planes m) (.planes planes.toNat) .i8)

/-- A store word with an active lane, outside a group, on a page of single elements whose requests all pass their checks performs its
writes and issues with no result, having moved their bytes, and changes only memory; on any page it issues with its OVF flag when its
accesses pass; a fault of any access stops the engine with nothing written. A vst of a store group issues once the group has taken it
(R139, R285, R303, R305). -/
def Obligations.VectorStoresIssue : Prop :=
  ∀ (h : Hdr) (m : Vmm) (s : State), notFrozen s → (due s).active m.p ≠ 0 →
    let l := due s
    let form (i : Instr) (f : Form) (t : ElemT) : Prop :=
      let base := l.vmBase m (f == .strided)
      let jel := l.iterOf m.p * (f.count t : Nat)
      let x := match f with | .indexed => l.vsrc m.x | _ => []
      let st := vmStore l l.eng f t (l.active m.p) base jel l.stride x (l.vsrc m.v)
      let es := match f with | .indexed => (l.vsrc m.v).map fun (y : Lane) => y.toNat % 2 ^ t.w | _ => elems t.w (l.vsrc m.v)
      (s.cur.ent.group = false →
        (∀ fmt geo, vmPage l l.eng .engWrite base = .ok (fmt, geo) → isBlockFmt fmt = false →
          (let is := layoutOf f t (l.active m.p) base jel l.stride x fmt geo
           let ws : List Write := is.flatMap fun y => let b := leBytes y.len (encElem fmt t (es.getD y.ix 0))
             if f.each fmt then [(y.at_, b)] else cutWrite y.at_ b
           writesAll l l.eng (f.on t fmt geo) (f.each fmt) ws →
             ∃ u, onlyStored l u ∧ exec i s = .next (u.vIssued [] (writeLen ws) fNone))) ∧
        (∀ ws fl fmt geo u, st = .ok (ws, fl, fmt, geo) → vmWrite l l.eng (fun y z => y == fmt && z == geo) (f.each fmt) ws = .ok u →
          exec i s = .next (u.vIssued [] (writeLen ws) fl)) ∧
        (∀ g, st = .error (.flt g) → exec i s = .next (s.vFault 1 0 (some g)) ∧ (s.vFault 1 0 (some g)).mem = s.mem)) ∧
      (s.cur.ent.group = true → ∀ u fl, l.vstGroup (storeSpans l l.eng f t (l.active m.p) base jel l.stride x) st = .ok (u, fl) →
        ∃ n, exec i s = .next (u.vIssued [] n fl))
    (∀ t, form (.vst h t m) .packed t) ∧ (∀ t, form (.vsts h t m) .strided t) ∧ (∀ t, form (.vstx h t m) .indexed t)

/-- Fetch queues: fq.open reads its pattern and opens the queue at entry 0, fq.close closes it, a vpop of the pattern's type
takes the entry that waits with latency 1 or, past the last, zeros with NV; the generator's read puts the next entry behind.
vloop opens a loop of NB words, ST stages and N iterations with the stage predicates of its first pass, or of one iteration while the
continuation is being pre-empted, the others left for later; vsync issues when nothing is in flight and clears the latches, and else
lets a cycle pass; vnop takes its cycles (R307 to R315, R379). -/
def Obligations.FetchQueueAndLoopWordsIssue : Prop :=
  (∀ (h : Hdr) (q : BitVec 2) (cl : BitVec 4) (s : State), notFrozen s →
     let l := due s
     let v := l.vr
     let put (f : FetchQ) : State := l.setVrun l.cur.ent.run { v with fq := tset v.fq q.toNat f }
     let f := v.fqOf q.toNat
     (∀ bs, rdBytes l l.eng .engRead l.cur.ent.sc0.toNat 64 = .ok bs →
       exec (.fqOpen h q cl) s = .next ((put ⟨true, l.cur.ent, bs, 0, [], none⟩).vIssued [] 0 fNone)) ∧
     exec (.fqClose h q) s = .next ((l.setVrun l.cur.ent.run { v with fq := tdel v.fq q.toNat }).vIssued [] 0 fNone) ∧
     (∀ (t : ElemT) (d : BitVec 6) (p : Pred), l.active p ≠ 0 → patBad f.pattern = false → patType f.pattern = some t →
       (patTotal f.pattern ≤ f.next → ∃ r, exec (.vpop h t d q p) s = .next (l.vIssued [r] 0 fNV) ∧
         landsAs l r 1 2 (l.vdst d) p false vzero) ∧
       (∀ x xs, f.next < patTotal f.pattern → f.ahead = x :: xs →
         ∃ r, exec (.vpop h t d q p) s = .next ((put { f with next := f.next + 1, ahead := xs }).vIssued [r] 0 fNone) ∧
           landsAs l r 1 2 (l.vdst d) p false x)) ∧
     (∀ (n r qn : Nat), s.vRunOf n = some r →
       let w := s.vrun r
       let g := w.fqOf qn
       let k := g.next + g.ahead.length
       g.opened = true → w.stopped = false → (s.cont w.cid).frame = none → patBad g.pattern = false → k < patTotal g.pattern →
       g.ahead.length < 16 → g.faultAt = none →
       loads s (engAgent n 0 g.ent) .packed ((patType g.pattern).getD .f32) (BitVec.allOnes 128) (patAddr g.pattern k) 0 0 [] →
       ∃ u data, exec (.fetchQueueRead n qn) s = .next u ∧ (u.vrun r).fqOf qn = { g with ahead := g.ahead ++ [data] } ∧ u.mem = s.mem ∧
         u.harts = s.harts ∧ u.conts = s.conts ∧ ∃ sl,
         vmLoad s (engAgent n 0 g.ent) .packed ((patType g.pattern).getD .f32) (BitVec.allOnes 128) (patAddr g.pattern k) 0 0 [] =
           .ok (data, none, sl))) ∧
  (∀ (h : Hdr) (nb1 n1 : BitVec 6) (rot : BitVec 2) (st1 : BitVec 3) (s : State), notFrozen s →
     let l := due s
     let n := s.cur.ent.sc0.toNat
     let drains := (l.core l.cur.core).preempt ≠ .none ∧ (l.hart (2 * l.cur.core)).cont = some l.cur.ent.cid
     (∃ t, exec (.vloop h nb1 rot st1) s = .next t ∧
       (∃ lp, (t.vrun s.cur.ent.run).loop = some lp ∧ lp.nb = nb1.toNat + 1 ∧ lp.st = st1.toNat + 1 ∧ lp.body = [] ∧
         (¬ drains → lp.n = n ∧ lp.left = 0) ∧ (drains → lp.n = min 1 n ∧ lp.left = n - min 1 n) ∧
         lp.pass = 0 ∧ lp.rot = (match rot.toNat with | 1 => 8 | 2 => 16 | _ => 0)) ∧
       (0 < n → (t.vrun s.cur.ent.run).predReg 8 = BitVec.allOnes 128 ∧ ∀ i, 1 ≤ i → i < 8 → (t.vrun s.cur.ent.run).predReg (8 + i) = 0) ∧
       t.mem = s.mem) ∧
     (l.vr.fly = [] → exec (.vsync h) s = .next ((l.setVrun l.cur.ent.run { l.vr with latch := [] }).vIssued [] 0 fNone)) ∧
     (l.vr.fly ≠ [] → exec (.vsync h) s = .next (s.vTick s.cur.ent.run)) ∧
     (n1 = 0 → exec (.vnop h n1) s = .next (l.vIssued [] 0 fNone)) ∧
     (n1 ≠ 0 → ∃ t, exec (.vnop h n1) s = .next t ∧ (t.vrun s.cur.ent.run).idle = n1.toNat ∧
       (t.vrun s.cur.ent.run).cyc = l.vr.cyc + 1 ∧ (t.vrun s.cur.ent.run).fly = l.vr.fly))


/-- Dormouse: vdefer writes its active lanes as items behind those of the path and counts them, vdtake takes the oldest
items and waits for a full batch, vdret writes back and lowers OUT, vdcnt gives COUNT and OUT in lanes 0 and 1; each completes when
its items can be read or written. A vdefer beyond the ring faults with code 16 (R316, R317). -/
def Obligations.DormouseWordsIssue : Prop :=
  ∀ (h : Hdr) (m : Vmd) (path : BitVec 4) (s : State), notFrozen s →
    let l := due s
    let v := l.vr
    let d := v.path m.path.toNat
    let ls := (List.range 128).filter fun k => (l.active m.p).getLsbD k
    let putD (u : State) (x : Dorm) : State := u.setVrun l.cur.ent.run { v with dorm := tset v.dorm m.path.toNat x }
    let items : List Write := ls.zipIdx.flatMap fun (x, i) =>
      cutWrite (l.itemAt ((d.head + d.count + i) % 2 ^ 32)) (leBytes 4 ((l.vsrc m.a).getD x 0).toNat ++
        leBytes 4 (wrapW 32 (l.cur.ent.sc1.toNat / 2 ^ 32 + 128 * l.iterOf m.p + x)))
    let back : List Write := ls.flatMap fun x =>
      cutWrite (addr64 (l.cur.ent.sc0.toNat + 4 * (((l.vsrc m.b).getD x 0).toNat : Nat))) (leBytes 4 ((l.vsrc m.a).getD x 0).toNat)
    let batch : List Item := (List.range ls.length).map fun i => (⟨l.itemAt ((d.head + i) % 2 ^ 32), 8, i⟩ : Item)
    (ls ≠ [] → d.count + ls.length ≤ l.ringItems → writesAll l l.eng anyFmt false items →
      ∃ u, onlyStored l u ∧ vmWrite l l.eng anyFmt false items = .ok u ∧
        exec (.vdefer h m) s = .next ((putD u { d with count := d.count + ls.length }).vIssued [] (writeLen items) fNone)) ∧
    (ls ≠ [] → l.ringItems < d.count + ls.length → exec (.vdefer h m) s = .next (s.vFault 16 m.path.toNat none)) ∧
    (ls ≠ [] → d.count < ls.length → exec (.vdtake h m) s = .next s) ∧
    (ls ≠ [] → ls.length ≤ d.count → readsAll l l.eng anyFmt false (sortReqs (fun r => (lowSpan r).1) (requestsOf false batch)) →
      ∃ ra rb, exec (.vdtake h m) s = .next ((putD l ⟨(d.head + ls.length) % 2 ^ 32, d.count - ls.length, (d.out + ls.length) % 2 ^ 32⟩).vIssued
        [ra, rb] 0 fNone) ∧ ra.dest = l.vdst m.a ∧ rb.dest = l.vdst m.b ∧ ra.due = l.vr.cyc + 8 ∧ rb.due = l.vr.cyc + 8 ∧
        ra.pfm = none ∧ rb.pfm = none ∧ ∀ i < ls.length,
          ra.data.getD (ls.getD i 0) 0 = BitVec.ofNat 32 (fieldAt (itemBytes l l.eng anyFmt false (batch.getD i default)) 0 4) ∧
          rb.data.getD (ls.getD i 0) 0 = BitVec.ofNat 32 (fieldAt (itemBytes l l.eng anyFmt false (batch.getD i default)) 4 4)) ∧
    (ls ≠ [] → writesAll l l.eng anyFmt false back → ∃ u, onlyStored l u ∧ vmWrite l l.eng anyFmt false back = .ok u ∧
      exec (.vdret h m) s = .next ((putD u { d with out := d.out - ls.length }).vIssued [] (writeLen back) fNone)) ∧
    (ls = [] → exec (.vdefer h m) s = .next (l.vIssued [] 0 fNone) ∧ exec (.vdtake h m) s = .next (l.vIssued [] 0 fNone) ∧
      exec (.vdret h m) s = .next (l.vIssued [] 0 fNone)) ∧
    (let e := v.path path.toNat
     ∃ r, exec (.vdcnt h path) s = .next (l.vIssued [r] 0 fNone) ∧ r.dest = .latchOnly ∧ r.pipe = some 3 ∧
       r.data.take 3 = [BitVec.ofNat 32 e.count, BitVec.ofNat 32 e.out, 0])

/-- The events of the vector unit, whose run's continuation has no frame standing: the data of the first late load arrives, its fault
mark, if any, faulting the load's command and stopping the engine; and the earliest due result, the first issued of several, lands
(R245, R374, R384). -/
def Obligations.VectorEventsComplete : Prop :=
  ∀ (s : State) (n k i : Nat) (r : Res), s.vRunOf n = some k → (s.vrun k).stopped = false →
    let v := s.vrun k
    (s.cont v.cid).frame = none → v.fly[i]? = some r →
    (r.arrived = false → (∀ q ∈ v.fly.take i, q.arrived = true) →
      (r.pfm = none → (∀ p ∈ r.slices, s.coreOk p.1 = true) →
        exec (.vmLoadDataArrive n) s = .next (s.setVrun k { v with fly := v.fly.set i { r with arrived := true } })) ∧
      (∀ f, r.pfm = some f → ∃ t, exec (.vmLoadDataArrive n) s = .next t ∧
        (t.vrun k).stopped = true ∧ t.mem = s.mem ∧
        ∀ l ∈ (t.cont v.cid).live, l.eng = 0 → l.ent.num = r.ent.num → l.fault.isSome = true)) ∧
    (r.arrived = true → r.due ≤ v.cyc → (∀ q ∈ v.fly.take i, v.cyc < q.due ∨ r.due < q.due) →
      (∀ q ∈ v.fly.drop (i + 1), v.cyc < q.due ∨ r.due ≤ q.due) →
      exec (.vectorResultLand n) s = .next (s.landOne k r) ∧ (s.landOne k r).vrun k = v.land r ∧ (s.landOne k r).mem = s.mem ∧
        (s.landOne k r).harts = s.harts)


/-! ## Words of the engines M, C, G, S and X (R320 to R366) -/

namespace Sys2Proof.Machine

/-- Word `i` of engine `e` ends as its result `r` says: performed whole, it leaves the queue and awaits its completion; with a
fault it leaves the queue and awaits its fault (R137, R346), with none of its effect when an operand addressed the privileged register
window (R26), and after one of Owl's access with the stream stopped (R440); without a
translation it waits for the walk (R46); while a weight block is bad it waits (R74); after a step that is not its last it stays at
the head of its queue (R329); and a full frame log makes it wait for room (R183). -/
def endsAs (s : State) (e : Nat) (i : Instr) (r : ERes) : Prop :=
  (r.stop = none → exec i s = .next (r.st.engDone e r.tx)) ∧
  (∀ ec d f, r.stop = some (.fault ec d f) → exec i s = .next (if windowFault f then s.engFault e ec d s.cur.ent.start s.cur.ent.moved f
    else r.st.engFault e ec d r.prog r.tx f)) ∧
  (∀ u st f t, r.stop = some (.owl u st f) → owlStopped u st f = .ok t → e ≠ 5 → exec i s = .next (t.engEnds e 1 0 r.prog r.tx (some f))) ∧
  (∀ k c v, r.stop = some (.miss k c v) → exec i s = .next (s.missed k c v)) ∧
  (r.stop = some .wait → exec i s = .next s) ∧
  (r.stop = some .step → exec i s = .next (r.st.tookWalk s.cur.who)) ∧
  (∀ op st rs, r.stop = some (.logFull op st rs) → exec i s = .next (s.logStall op st rs))

/-- What no word of an engine changes: the registers, the pc and the mode of any hart, a continuation but its own, the launches,
the graphs and the keys. -/
def keepsOthers (s : State) (i : Instr) : Prop :=
  ∀ t, exec i s = .next t →
    (∀ n, (t.hart n).x = (s.hart n).x ∧ (t.hart n).pc = (s.hart n).pc ∧ (t.hart n).csr = (s.hart n).csr ∧
      (t.hart n).mode = (s.hart n).mode ∧ (t.hart n).cont = (s.hart n).cont) ∧
    (∀ k, k ≠ s.cur.ent.cid → t.cont k = s.cont k) ∧ t.launches = s.launches ∧ t.graphs = s.graphs ∧ t.keys = s.keys

/-- The vector unit's register spaces and pipelines stay as they are. -/
def keepsRuns (s : State) (i : Instr) : Prop := ∀ t, exec i s = .next t → t.runs = s.runs

/-- Of memory, only the `n` bytes from location `a` on can change. -/
def writesWithin (s : State) (i : Instr) (a n : Nat) : Prop :=
  s.mem.wf = true → ∀ t, exec i s = .next t → ∀ b, b < a ∨ a + n ≤ b → mget t.mem b = mget s.mem b

/-- `n` bytes from `d` on lie in the local slice alias. -/
def inAlias (d n : Nat) : Prop := alBase ≤ d ∧ d + n ≤ alBase + 0x400000

/-- The same word performed `n` times in a row, step by step. -/
def again (i : Instr) : Nat → State → Out
  | 0, s => .next s
  | n + 1, s => match exec i s with | .next t => again i n t | o => o

/-- `n` parts of a command are done in turn, from `s` to `t`: `part k` says how part `k` turns a state into the next. -/
def inTurn (n : Nat) (part : Nat → State → State → Prop) (s t : State) : Prop :=
  ∃ us : Nat → State, us 0 = s ∧ us n = t ∧ ∀ k < n, part k (us k) (us (k + 1))

/-! ## Rows of tensors -/

/-- Bytes put at the spots of a row, element by element, in the local slice of a core; those of pads are discarded (R79). -/
def putSpots (core e : Nat) : Memory → List Spot → List Byte → Memory
  | m, [], _ => m
  | m, .pad :: ps, bs => putSpots core e m ps (bs.drop e)
  | m, .here a :: ps, bs => putSpots core e (msets m (locOf core a) (bs.take e)) ps (bs.drop e)

/-- The bytes at the spots of a row in the local slice of a core, and the pad value at a pad (R79). -/
def spotBytes (core : Nat) (v : View) (m : Memory) (ps : List Spot) : List Byte :=
  ps.flatMap fun p => match p with | .pad => v.padBytes | .here a => mgets m (locOf core a) v.e

/-- The bytes `b` go to the `b.length / v.e` elements of a view from element `x0` of the row at `rest` on: `u` becomes `t`. -/
def rowPut (v : View) (x0 : Int) (rest : List Int) (b : List Byte) (u t : State) : Prop :=
  ∃ ps k, v.rowSpots u false rest (b.length / v.e) x0 = .ok ps ∧ v.writeSpots u ps b = .ok (t, k)

/-- The `n` units of a view from element `x0` of the row at `rest` on have the bytes `b` in state `u`. -/
def rowGot (v : View) (x0 : Int) (n : Nat) (rest : List Int) (u : State) (b : List Byte) : Prop :=
  ∃ ps, v.rowSpots u true rest n x0 = .ok ps ∧ v.readSpots u ps = .ok b

/-- The requests that a row with these spots makes (R81) lie in one slice (R20), and each passes its checks on a page that is not
transformed; a read finds no error in its bytes. -/
def rowSound (s : State) (v : View) (acc : Acc) (ps : List Spot) : Prop :=
  v.cross s acc (spansOf v.e ps) = none ∧
  ∀ r ∈ pieceRuns Prod.fst (spansOf v.e ps), ∃ q ls, spanPlan s v.ag acc r v.ty = .ok (q, ls) ∧ (∀ p ∈ ls, xfOf p = none) ∧
    (acc = .engRead → ∃ bs, spanRead s v.ag acc r v.ty = .ok bs)

/-- A row of `n` units can be accessed, whatever memory holds (of which only an entry of its permutation table, R78, is asked). -/
def rowOk (s : State) (v : View) (rd : Bool) (accs : List Acc) (x0 : Int) (n : Nat) (rest : List Int) : Prop :=
  ∀ u, moved s u → ∃ ps, v.rowSpots u rd rest n x0 = .ok ps ∧ ∀ acc ∈ accs, rowSound s v acc ps

/-- A row of a REUSE layer can be read: its tile's record, and the row in either slot (R167). -/
def reuseOk (s : State) (v : View) (rc : Option Reuse) (n : Nat) (x y : Int) : Prop :=
  ∀ r, rc = some r →
    let xs : Int := if v.h.padm = 1 then sat x 0 (v.h.extOf 1) else x
    let ys : Int := if v.h.padm = 1 then sat y 0 (v.h.extOf 2) else y
    0 ≤ xs → xs ≤ v.h.extOf 1 → 0 ≤ ys → ys ≤ v.h.extOf 2 →
    allows s (s.owl r.st) .engRead [(s.tileAddr r.st r.l (ys.toNat / r.t * r.gw + xs.toNat / r.t), 32)] ∧
    ∀ k : Nat, k < 2 → rowOk s v true [.engRead] 0 n [xs, ys, k]

/-- The written mark of a target can be set (R168). -/
def markable (s : State) (g : Target) : Prop :=
  let ow := s.owl g.y.st
  let a := s.metaAddr g.y.st g.y.l
  let b := s.tileAddr g.y.st g.y.l g.tile
  allows s ow .engRead [(a, 64), (b, 32)] ∧ allows s ow .engWrite [(b + 5, 1), (b + 17, 1), (a + 32, 4)]

/-- The written mark of a target is set: its pending half in the tile's record gets WR, and the layer's count of written tiles goes up by
one, when the layer still stands as the target was found and the half has no mark (R168). -/
def marked (u : State) (g : Target) (t : State) : Prop :=
  let ow := u.owl g.y.st
  let a := u.metaAddr g.y.st g.y.l
  let b := u.tileAddr g.y.st g.y.l g.tile
  markWritten u g = .ok t ∧
  ∀ ls r, rdBytes u ow .engRead a 64 = .ok ls → rdBytes u ow .engRead b 32 = .ok r →
    let o := 12 * (1 - lsCh ls) + 5
    lsGen ls = g.gen → lsState ls = 1 → (g.y.st, g.y.l) ∉ u.owlOp.lost → hfWr (halfOf r (1 - lsCh ls)) = false →
    ∃ w, wrBytes u ow .engWrite (b + o) (leBytes 1 (fieldAt r o 1 ||| 4)) = .ok w ∧
      wrBytes w ow .engWrite (a + 32) (leBytes 4 (lsNwr ls + 1)) = .ok t

/-- `n` bytes from `va` on can be staged read-only in the slabs of `g`: they start at a slab of the acting continuation, as all of
them are, none is read-only, and what their last slab has left can be cleared (R65, R354). -/
def stages (s : State) (ag : Agent) (va n : Nat) (g : Stage) : Prop :=
  let o := locOf ag.core va - apBase
  inSlices va = true ∧ va % 4096 = 0 ∧ g = ⟨o / 0x400000, o % 0x400000 / 4096, ceilDiv n 4096⟩ ∧ g.first + g.count ≤ 1024 ∧
  (∀ i < g.count, s.ec.slabMine s g.core (g.first + i) = true ∧ bit (s.slcOwn g.core (g.first + i)) 9 = false) ∧
  allows s ag .engWrite (spansAt (va + n) (g.count * 4096 - n))

/-! ## Multiplies -/

/-- The job of a multiply word of one tile (R322). -/
def oneJob (s : State) (m : Mxt) : MxJob :=
  ⟨s.cur.ent.sc0.toNat % 2 ^ 14, m.ma.toNat, 16, if m.cx then s.cur.ent.sc1.toNat % 2 ^ 10 else s.cur.ent.cb + m.ct.toNat,
    s.cur.ent.sc1.toNat / 2 ^ 16 % 2 ^ 16⟩

/-- What a multiply word does to each tile, its tiles, and for a group the number of groups without rows (R322 to R326, R334). -/
def mxParts (s : State) : Instr → Option (MxOp × List MxJob × Option Nat)
  | .tmma _ t m => some (⟨t, none, m.nk1.toNat + 1, m.ep.toNat, m.za⟩, [oneJob s m], none)
  | .tmmaSp _ t m => some (⟨match t with | .i8 => .i8 | .u8 => .u8 | .e4m3 => .e4m3 | .e5m2 => .e5m2, none, m.nk1.toNat + 1, m.ep.toNat, m.za⟩,
      [oneJob s m], none)
  | .tmmaBp _ p m => some (⟨.i8, some p.toNat, m.nk1.toNat + 1, m.ep.toNat, m.za⟩, [oneJob s m], none)
  | .tmmaGrp _ t m =>
    let js := (chunksOf 16 (s.ec.mxTab.length / 16) s.ec.mxTab).map (grpJob (oneJob s m).tile)
    some (⟨t, none, m.nk1.toNat + 1, m.ep.toNat, m.za⟩, js, some (js.filter fun j => j.rows == 0).length)
  | _ => none

/-- A tile passes the checks of R328: its accumulator tile is the continuation's; every directory entry that it reads exists, is
resident and was loaded in this context, for tmma.bp from an FMT 10 page with enough planes; the set and its table are loaded; the
status word can be read and written; and the output ends in the register space. -/
def multipliable (s : State) (o : MxOp) (j : MxJob) : Prop :=
  let b := s.epSet o.ep
  s.tileOwned s.cur.core s.cur.ent.cid j.tile = true ∧
  (∀ w ∈ s.jobEntries o j, w < 16384 ∧ ∃ e, s.wbEnt s.cur.core w = some e ∧ e.ctx = s.cur.ent.ctx ∧
    ∀ p, o.bp = some p → e.fmt = 10 ∧ p ≤ geoPlanes e.geo) ∧
  (lookupT s.ec.epi o.ep).isSome = true ∧ (o.ep ≠ 0 → epAct b = 2 → (lookupT s.ec.lut (epTbl b)).isSome = true) ∧
  (epSten b = true → allows s s.eng .engRead [(alBase + epStAddr b, 4)] ∧ allows s s.eng .engWrite [(alBase + epStAddr b, 4)]) ∧
  (o.ep ≠ 0 → j.out + (j.rows - 1) * epPitch b + 8 * (epType b).bytes ≤ 65536)

/-- A multiply takes up tile `j`, the `g`-th of its tiles: under ZA its rows are cleared, and MX_PROG names it (R323, R329). -/
def takesUp (s : State) (o : MxOp) (g : Nat) (j : MxJob) : State :=
  let t := if o.za then s.setTile s.cur.core j.tile (List.replicate (32 * j.rows) 0) else s
  (t.setEc { t.ec with mxProg := progAt s.cur.ent.num g 0 false }).tookWalk s.cur.who

/-- A step of a tile has been made: its flags join those of the command, and MX_PROG moves on (R329). -/
def stepped (s : State) (r : State × Flags) (p : Nat) : State :=
  (r.1.setEc { r.1.ec with mxFlags := r.1.ec.mxFlags ||| r.2, mxProg := p }).tookWalk s.cur.who

/-- The flags `f` are ORed into the status word of a set, when it has one (R332). -/
def flagsPut (s : State) (b : List Byte) (f : Flags) (u : State) : Prop :=
  let a := alBase + epStAddr b
  (epSten b = false → u = s) ∧
  (epSten b = true → ∃ w, eRead s s.eng a 4 = .ok w ∧ eWrite s s.eng a (leBytes 4 (leNat w ||| f.toNat)) = .ok u ∧
    (s.mem.wf = true → s.eng.core = s.cur.core →
      u.mem = msets s.mem (locOf s.cur.core a) (leBytes 4 (leNat (mgets s.mem (locOf s.cur.core a) 4) ||| f.toNat))))

/-- SKIPPED is written, of a group (R334). -/
def skippedPut (s : State) (sk : Option Nat) (u : State) : Prop :=
  (sk = none → u = s) ∧ ∀ k, sk = some k → eWrite s s.eng (s.cur.ent.sc0.toNat + 4) (leBytes 4 k) = .ok u

/-- A multiply of one tile performed whole: the start value of R323, the chunks in ascending order, and the epilogue. -/
def multiplied (s : State) (o : MxOp) (j : MxJob) : State :=
  let s0 := if o.za then s.setTile s.cur.core j.tile (List.replicate (32 * j.rows) 0) else s
  let s1 := (List.range o.nk).foldl (fun u z => (u.mxStep o j z).1) s0
  let s2 := if o.ep = 0 then s1 else (s1.epilogue o j).1
  s2.setEc { s2.ec with mxProg := 0, mxTab := [], mxFlags := 0 }

/-- Of a multiply, the current tile and the chunks of it that are done (R329). -/
def mxAt (s : State) (js : List MxJob) (j : MxJob) (g z : Nat) : Prop :=
  s.ec.mxResumes s.cur.ent.num = true ∧ bits s.ec.mxProg 13 8 = g ∧ bits s.ec.mxProg 18 14 = z ∧ js[g]? = some j

end Sys2Proof.Machine

/-- A multiply runs step by step. One of one tile that passes the checks of R328 takes up its tile; a group whose table is legal keeps
the table and takes up its first tile with rows. Then each step adds one chunk, while no weight block that it reads is bad; with an
epilogue set the epilogue is a step; then the next tile with rows is taken up, and after the last the flags are ORed into the status
word of the set, a group writes SKIPPED 4 bytes into its table, and the command completes, nothing else written. The whole of a multiply
of one tile without a status word is its start value, its
chunks in ascending order and its epilogue, after as many steps. Every multiply ends as its result says; none changes a hart's
registers or another continuation (R322 to R334). Which parts of a multiply are one step is the model's choice (log 50). -/
def Obligations.MultipliesComplete : Prop :=
  ∀ s : State,
    (∀ i o js sk, mxParts s i = some (o, js, sk) →
      (∀ j, js = [j] → sk = none → s.ec.mxResumes s.cur.ent.num = false → multipliable s o j →
        exec i s = .next (takesUp (s.setEc { s.ec with mxFlags := 0 }) o 0 j) ∧
        (epSten (s.epSet o.ep) = false → (∀ z < o.nk, s.mxStalled o j z = false) →
          again i (1 + o.nk + (if o.ep = 0 then 0 else 1) + 1) s = .next ((multiplied s o j).engDone 1 0))) ∧
      (∀ j g z, mxAt s js j g z →
        (z < o.nk → s.mxStalled o j z = false →
          exec i s = .next (stepped s (s.mxStep o j z) (progAt s.cur.ent.num g (z + 1) false))) ∧
        (o.nk ≤ z → o.ep ≠ 0 → bit s.ec.mxProg 19 = false →
          exec i s = .next (stepped s (s.epilogue o j) (progAt s.cur.ent.num g z true))) ∧
        (o.nk ≤ z → (o.ep = 0 ∨ bit s.ec.mxProg 19 = true) →
          (∀ k j', nextJob (js.drop (g + 1)) (g + 1) = some (k, j') → exec i s = .next (takesUp s o k j')) ∧
          (nextJob (js.drop (g + 1)) (g + 1) = none →
            (epSten (s.epSet o.ep) = false → sk = none →
              exec i s = .next ((s.setEc { s.ec with mxProg := 0, mxTab := [], mxFlags := 0 }).engDone 1 0)) ∧
            (let a := alBase + epStAddr (s.epSet o.ep)
             (epSten (s.epSet o.ep) = true → allows s s.eng .engRead [(a, 4)] ∧ allows s s.eng .engWrite [(a, 4)]) →
             (sk ≠ none → allows s s.eng .engWrite [(s.cur.ent.sc0.toNat + 4, 4)]) →
               ∃ u t, moved s t ∧ flagsPut s (s.epSet o.ep) s.ec.mxFlags u ∧ skippedPut u sk t ∧
                 exec i s = .next ((t.setEc { t.ec with mxProg := 0, mxTab := [], mxFlags := 0 }).engDone 1 0)))))) ∧
    (∀ (h : Hdr) (t : MxT) (m : Mxt) hd bs,
      let o : MxOp := ⟨t, none, m.nk1.toNat + 1, m.ep.toNat, m.za⟩
      let a := s.cur.ent.sc0.toNat
      let ng := fieldAt hd 0 1
      let base := (oneJob s m).tile
      let js := (chunksOf 16 ng bs).map (grpJob base)
      s.ec.mxResumes s.cur.ent.num = false → eRead s s.eng a 16 = .ok hd → eRead s s.eng (a + 16) (16 * ng) = .ok bs →
      1 ≤ ng → ng ≤ 64 → zeroAt hd 1 3 = true → zeroAt hd 8 8 = true → (∀ b ∈ chunksOf 16 ng bs, grpBad o base b = false) →
      allows s s.eng .engWrite [(a + 4, 4)] → (∀ j ∈ js, j.rows ≠ 0 → multipliable s o j) →
      (∀ g j, nextJob js 0 = some (g, j) →
        exec (.tmmaGrp h t m) s = .next (takesUp (s.setEc { s.ec with mxTab := bs, mxFlags := 0 }) o g j)) ∧
      (let st := alBase + epStAddr (s.epSet o.ep)
       let s0 := s.setEc { s.ec with mxTab := bs, mxFlags := 0 }
       nextJob js 0 = none → (epSten (s.epSet o.ep) = true → allows s s.eng .engRead [(st, 4)] ∧ allows s s.eng .engWrite [(st, 4)]) →
         ∃ u v, moved s0 v ∧ flagsPut s0 (s.epSet o.ep) fNone u ∧ skippedPut u (some ng) v ∧
           exec (.tmmaGrp h t m) s = .next ((v.setEc { v.ec with mxProg := 0, mxTab := [], mxFlags := 0 }).engDone 1 0))) ∧
    (∀ (h : Hdr) (m : Mxt),
      (∀ t, endsAs s 1 (.tmma h t m) (s.mxOne t none m) ∧ endsAs s 1 (.tmmaGrp h t m) (s.mxGroup t m)) ∧
      (∀ t, endsAs s 1 (.tmmaSp h t m) (s.mxOne (spType t) none m)) ∧
      (∀ p : BitVec 4, endsAs s 1 (.tmmaBp h p m) (s.mxOne .i8 (some p.toNat) m) ∧ keepsOthers s (.tmmaBp h p m)) ∧
      (∀ t, keepsOthers s (.tmma h t m) ∧ keepsOthers s (.tmmaGrp h t m)) ∧ (∀ t, keepsOthers s (.tmmaSp h t m)))

/-- A chunk of an integer multiply adds its exact sum of 128 products to the accumulator, modulo 2^32 with ACCM = 0 and saturated
with ACCM = 1: INT8 operands signed, UINT8 operands unsigned, bit-plane operands as the values that their planes give, each with its
midpoint offset. The sum lies within 2^21 of zero for INT8 and from 0 to 8323200 for UINT8 (R98). -/
def Obligations.IntegerChunkAddsTheExactDotProduct : Prop :=
  ∀ (s : State) (o : MxOp) (j : MxJob) (z i c acc : Nat),
    let a := s.aRow (j.ma + z) i
    let b := s.bCol (j.w + 4 * z) c
    let dot (f : Byte → Int) : Int := ((List.range 128).map fun k => f (a.getD k 0) * f (b.getD k 0)).sum
    let updated (sum : Int) : Nat :=
      let y := (BitVec.ofNat 32 acc).toInt + sum
      (BitVec.ofInt 32 (if epAccm (s.epSet o.ep) then max (-2147483648) (min 2147483647 y) else y)).toNat
    (o.bp = none → o.t = .i8 → (s.mxElem o j z i c acc).1 = updated (dot BitVec.toInt)) ∧
    (o.bp = none → o.t = .u8 → (s.mxElem o j z i c acc).1 = updated (dot fun x => x.toNat)) ∧
    (∀ p, o.bp = some p → o.t = .i8 →
      let v := s.bpCol j p z c
      (∀ x ∈ v, ∃ t, x = if p = 8 then sext t 8 else sext t p * 2 ^ (8 - p) + 2 ^ (7 - p)) ∧
      (s.mxElem o j z i c acc).1 = updated ((List.range 128).map fun k => (a.getD k 0).toInt * v.getD k 0).sum) ∧
    -2097152 ≤ dot BitVec.toInt ∧ dot BitVec.toInt ≤ 2097152 ∧
    0 ≤ dot (fun x => x.toNat) ∧ dot (fun x => x.toNat) ≤ 8323200


/-- The accumulator moves on tiles that the continuation holds clear, read, write, and transpose whole tiles, a tile in each step, and
the last step completes the word; on a tile that it does not hold they fault ACC_RANGE (R329, R335). The loads of epilogue sets and
tables put the record read into the continuation, and refuse a malformed set; wb.inv removes the entries of its range that the context
loaded; the reload of a weight block that the multiply at the head of the queue now fetches replaces the bad entry (R330, R333, R336,
R74; that it is made in S mode with the reach of the VM engine is the model's choice, log 77). -/
def Obligations.AccumulatorAndTableWordsComplete : Prop :=
  ∀ (s : State) (h : Hdr),
    let n := s.cur.core
    let num := s.cur.ent.num
    let reg (m : Mxa) (i : Nat) : Nat := s.cur.ent.mb + 2048 * m.ma.toNat + 512 * i
    let tile (ct : BitVec 8) (i : Nat) : Nat := s.cur.ent.cb + ct.toNat + i
    let held (ct n1 : BitVec 8) : Prop := ∀ i ≤ n1.toNat, s.tileOwned n s.cur.ent.cid (tile ct i) = true
    let toAcc (ct : BitVec 8) (f : Nat → List Byte) (u : State) (i : Nat) : State := u.setTile n (tile ct i) (f i)
    let toReg (m : Mxa) (f : List Byte → List Byte) (u : State) (i : Nat) : State := u.rsPut (reg m i) (f (u.tile n (tile m.ct i)))
    let ended (u : State) : State := (u.setEc { u.ec with mxProg := 0, mxTab := [], mxFlags := 0 }).engDone 1 0
    let moves (i : Instr) (ct n1 : BitVec 8) (f : State → Nat → State) : Prop :=
      (s.ec.mxResumes num = false → held ct n1 →
        again i (n1.toNat + 1) s = .next (ended ((List.range (n1.toNat + 1)).foldl f s))) ∧
      (s.ec.mxResumes num = false → ¬ held ct n1 → exec i s = .next (s.engFault 1 17 0 0 0 none)) ∧
      (∀ k, k ≤ n1.toNat → (s.ec.mxResumes num = true ∧ bits s.ec.mxProg 7 0 = k) ∨ (s.ec.mxResumes num = false ∧ held ct n1 ∧ k = 0) →
        (k < n1.toNat → exec i s = .next (((f s k).setEc { (f s k).ec with mxProg := k + 1 + 2 ^ 20 + num % 65536 * 2 ^ 32 }).tookWalk s.cur.who)) ∧
        (k = n1.toNat → exec i s = .next (ended (f s k)))) ∧
      keepsOthers s i
    (∀ ct n1, moves (.taccClr h ct n1) ct n1 (toAcc ct fun _ => List.replicate 512 0)) ∧
    (∀ m : Mxa,
      moves (.taccRd h m) m.ct m.n1 (toReg m id) ∧
      moves (.ttr h m) m.ct m.n1 (toReg m transposed) ∧
      moves (.taccWr h m) m.ct m.n1 (toAcc m.ct fun i => mgets s.vr.rs (reg m i) 512) ∧
      moves (.tmov h m) m.ct m.n1 (toAcc m.ct fun i => untransposed (mgets s.vr.rs (reg m i) 512))) ∧
    (∀ ix cl bs, eRead s s.eng s.cur.ent.sc0.toNat 128 = .ok bs →
      exec (.tepiSet h ix cl) s = .next (if epBad ix.toNat bs then s.engFault 1 22 0 0 0 none
        else (s.setEc { s.ec with epi := tset s.ec.epi ix.toNat bs }).engDone 1 0)) ∧
    (∀ ix cl bs, eRead s s.eng s.cur.ent.sc0.toNat 256 = .ok bs →
      exec (.tlutLd h ix cl) s = .next ((s.setEc { s.ec with lut := tset s.ec.lut ix.toNat bs }).engDone 1 0)) ∧
    (let lo := s.cur.ent.sc0.toNat
     let hi := lo + s.cur.ent.sc1.toNat
     exec (.wbInv h) s = .next ((s.setCore n { s.core n with
       wb := (s.core n).wb.filter fun x => !(lo ≤ x.1 && x.1 < hi && x.2.ctx == s.cur.ent.ctx) }).engDone 1 0)) ∧
    (∀ core entry e q i f g y t, s.wbEnt core entry = some e → headWord ((s.core core).queues.getD 1 []) = some q →
      decodeEngine q.word = .ok i → ueIn s.ue (wbLoc core entry) 256 = true →
      State.mxFetches { s with cur := ⟨.engine core 1, 2 * core, core, q, false⟩ } i entry = true →
      let ag := reloadAgent core q e
      pageFmt s ⟨ag, .engRead, e.va, 256, false, true⟩ = .ok (f, g) → eRead s ag e.va 256 = .ok y →
      (e.pen = true → isBlockFmt f = false ∧ eszOf f ≠ 4 ∧ permTable s ag e.pt (eszOf f) = .ok t) →
      let p := compress 15 (eszOf f) (byteElems f) (if e.pen then permuteHalves (eszOf f) t y else y)
      exec (.weightBlockReload core entry) s =
        .next ((s.putWeight core entry ⟨header p false false 0, p.data, e.va, e.ctx, f, g, e.pen, e.pt, e.ro⟩).tookWalk (.engine core 1)))

/-- What an engine's requests reach in the local slice of its core: a range read gives the bytes there, and a range written puts them
there; the elements of a row read through a view are those at its spots, with the pad value at pads, and a row written puts its elements
at its spots, a later one over an earlier, and discards those of pads. Each completes when its requests are allowed, and changes no
other byte (R19, R42, R78, R79, R81). -/
def Obligations.RangesAndRowsReachTheirBytes : Prop :=
  ∀ (s : State) (ag : Agent), s.mem.wf = true →
    let c := ag.core
    (∀ a n, inAlias a n → allows s ag .engRead (spansAt a n) → readRange s ag a n = .ok (mgets s.mem (locOf c a) n)) ∧
    (∀ a bs, inAlias a bs.length → allows s ag .engWrite (spansAt a bs.length) →
      ∃ t, moved s t ∧ writeRange s ag a bs = .ok t ∧ t.mem = msets s.mem (locOf c a) bs) ∧
    (∀ (v : View) (ps : List Spot), v.ag = ag → (∀ a, Spot.here a ∈ ps → inAlias a v.e) →
      (rowSound s v .engRead ps → v.readSpots s ps = .ok (spotBytes c v s.mem ps)) ∧
      (∀ bs, bs.length = ps.length * v.e → rowSound s v .engWrite ps →
        ∃ t n, moved s t ∧ v.writeSpots s ps bs = .ok (t, n) ∧ t.mem = putSpots c v.e s.mem ps bs))

/-- The words of the copy engine. cpy refuses ranges that have a location in common with OVERLAP; where its source can be read and its
destination written it copies every byte, or stages them read-only with zeros up to the end of the last slab; cpy.fill writes its
pattern; tcpy and cpy.perm copy the rows of a tile in turn, each from the spots of its source to the spots of its destination, or densely
into slabs; tcpy.mc writes each row of the tile of its entry from the displaced row, zeros outside the layer, and then marks the tile;
cpy.xf writes the output of its chain at DST and DLEN at byte 24 of its descriptor, and faults where the card breaks the rules by
itself; cpy.wb puts its blocks into the directory from WENT on and writes WCNT and WSTAT at byte 16 of its descriptor. Each ends as
its result says, with a fault where an access or a check refuses. None changes a hart's registers, the vector unit or another
continuation, and a plain copy or fill of the local slice changes no byte of memory outside its destination (R350 to R357). What PAD,
QUANT, COMP and ENCRYPT leave open in the output of a chain is the model's choice (log 53), and so is what a copy counts (log 55) and
that cpy.wb loads in ascending order (log 57). -/
def Obligations.CopyWordsComplete : Prop :=
  ∀ (s : State) (h : Hdr),
    let a := s.cur.ent.sc0.toNat
    let d := s.cur.ent.sc1.toNat
    let core := s.cur.core
    let ag := s.eng
    (∀ (len1 : BitVec 24) (cl : BitVec 4) (ro : Bool),
      let n := len1.toNat + 1
      let overlap := ∃ i < n, ∃ j < n, locOf core (a + i) = locOf core (d + j)
      (overlap → exec (.cpy h len1 cl ro) s = .next (s.engFault 2 3 0 0 0 none)) ∧
      (¬ overlap → endsAs s 2 (.cpy h len1 cl ro)
        (if ro then cpyRo s ag a d n cl.toNat else rangeRes (cpyPieces ag (spansAt d n) (spansAt a n) [] s 0))) ∧
      (¬ overlap → allows s ag .engRead (spansAt a n) → allows s ag .engWrite (spansAt d n) →
        (ro = false → ∃ t, moved s t ∧ exec (.cpy h len1 cl ro) s = .next (t.engDone 2 n) ∧
          cpyPieces ag (spansAt d n) (spansAt a n) [] s 0 = (t, n, none) ∧
          (s.mem.wf = true → ag.core = core → inAlias a n → inAlias d n → t.mem = msets s.mem (locOf core d) (mgets s.mem (locOf core a) n))) ∧
        (∀ v g, ro = true → n % 256 = 0 → openView s ag (cpyHandle a 1 n) = .ok v → isBlockFmt v.fmt = false → stages s ag d n g →
          ∃ u t, moved s t ∧ cpyPieces ag (spansAt d n) (spansAt a n) [] s 0 = (u, n, none) ∧
            writeRange u ag (d + n) (List.replicate (g.count * 4096 - n) 0) = .ok t ∧ exec (.cpy h len1 cl ro) s = .next ((t.sealSlabs g.core g.first g.count
            (provRecord (cpyHandle a v.e n).bytes [] [256 / v.e, n / 256] g.count ag.ctx cl.toNat)).engDone 2 n)))) ∧
    (∀ (len1 : BitVec 24) (cl : BitVec 4),
      let bs := patternBytes s.cur.ent.sc1 (len1.toNat + 1)
      endsAs s 2 (.cpyFill h len1 cl) (rangeRes (writeRangeP s ag a bs)) ∧
      (allows s ag .engWrite (spansAt a (len1.toNat + 1)) →
        ∃ t, moved s t ∧ exec (.cpyFill h len1 cl) s = .next (t.engDone 2 (len1.toNat + 1)) ∧ writeRange s ag a bs = .ok t ∧
          (ag.core = core → inAlias a (len1.toNat + 1) → t.mem = msets s.mem (locOf core a) bs))) ∧
    (∀ m : Cpx, endsAs s 2 (.tcpy h m) (s.tileWord false m) ∧ endsAs s 2 (.cpyPerm h m) (s.tileWord true m)) ∧
    (∀ (m : Cpx) (perm : Bool) b hs v0 tab,
      let i : Instr := if perm then .cpyPerm h m else .tcpy h m
      let x := parseTile b
      let pt := bits x.pflg 11 0
      let inv := bit x.pflg 12
      let o (r : List Int) : Int := r.headD 0
      let w := x.shp.headD 1
      let at_ (r : List Int) (k : Nat) : List Int := rowCoords (x.shp.drop 1) (r.drop 1) k
      eRead s ag a 128 = .ok b → badTile perm m.ro b = false → getHandle s ag m.hs.toNat = .ok hs → openView s ag hs = .ok v0 →
      hs.kind ≠ 4 → (perm = true → hs.perm = false) →
      (∀ hd w0 v u, m.ro = false → getHandle s ag m.hd.toNat = .ok hd → hd.kind = 0 → (perm = true → hd.perm = false) →
        (perm = true → permFits s ag pt (if inv then hd else hs) = .ok tab) → openView s ag hd = .ok w0 → matchViews v0 w0 = .ok (v, u) →
        v.aligned (o x.orgs) w = true → u.aligned (o x.orgd) w = true →
        let from_ : View := if perm && !inv then v.through pt tab else v
        let dest : View := if perm && inv then u.through pt tab else u
        (∀ k < rowsIn x.shp,
          rowOk s from_ true [.engRead] (o x.orgs) (w / v.step) (at_ x.orgs k) ∧
          rowOk s dest false [.engWrite] (o x.orgd) (w / v.step) (at_ x.orgd k)) →
        ∃ t n, moved s t ∧ exec i s = .next (t.engDone 2 n) ∧
          inTurn (rowsIn x.shp) (fun k y z => ∃ b, rowGot from_ (o x.orgs) (w / v.step) (at_ x.orgs k) y b ∧
            rowPut dest (o x.orgd) (at_ x.orgd k) b y z) s t) ∧
      (∀ hb g, m.ro = true → handleBytes s ag m.hs.toNat = .ok hb → (perm = true → inv = false ∧ permFits s ag pt hs = .ok tab) →
        v0.aligned (o x.orgs) w = true →
        let n := w / v0.step * v0.e * rowsIn x.shp
        stages s ag x.dstro n g →
        (∀ k < rowsIn x.shp,
          rowOk s (if perm then v0.through pt tab else v0) true [.engRead] (o x.orgs) (w / v0.step) (at_ x.orgs k) ∧
          allows s ag .engWrite (spansAt (x.dstro + k * (w / v0.step * v0.e)) (w / v0.step * v0.e))) →
        ∃ u t, moved s t ∧
          inTurn (rowsIn x.shp) (fun k y z => ∃ b, rowGot (if perm then v0.through pt tab else v0) (o x.orgs) (w / v0.step) (at_ x.orgs k) y b ∧
            writeRange y ag (x.dstro + k * b.length) b = .ok z) s u ∧
          writeRange u ag (x.dstro + n) (List.replicate (g.count * 4096 - n) 0) = .ok t ∧
          exec i s = .next ((t.sealSlabs g.core g.first g.count
            (provRecord (provHandle hb (if perm then some pt else none)) x.orgs x.shp g.count ag.ctx m.cl.toNat)).engDone 2 n))) ∧
    (∀ (hs : BitVec 12) (cl : BitVec 4),
      endsAs s 2 (.tcpyMc h hs cl) (s.mcWord hs.toNat) ∧
      (∀ db v rc y b g,
        let x := leNat db
        let n := (v.h.extOf 0 + 1) / v.step
        eRead s ag a 8 = .ok db → bits x 63 28 = 0 → s.tileWork hs.toNat (bits x 27 16) (bits x 15 0) 2 true = .ok ⟨s, v, rc, y, b⟩ →
        pendingOf s y b = .ok (s, g) → v.aligned 0 (v.h.extOf 0 + 1) = true →
        (∀ c ∈ tileCells g, (let sx : Int := c.1 + g.dx; let sy : Int := c.2 + g.dy
           0 ≤ sx → sx ≤ v.h.extOf 1 → 0 ≤ sy → sy ≤ v.h.extOf 2 → reuseOk s v rc n sx sy) ∧
          rowOk s v false [.engWrite] 0 n [c.1, c.2, g.slot]) →
        markable s g →
        ∃ u t, moved s t ∧ exec (.tcpyMc h hs cl) s = .next (t.engDone 2 ((tileCells g).length * (n * v.e))) ∧ marked u g t ∧
          inTurn (tileCells g).length (fun k y z =>
            let c := (tileCells g).getD k (0, 0)
            let sx : Int := c.1 + g.dx
            let sy : Int := c.2 + g.dy
            ∃ b, (if 0 ≤ sx ∧ sx ≤ v.h.extOf 1 ∧ 0 ≤ sy ∧ sy ≤ v.h.extOf 2 then reuseRow y v rc 0 n sx sy (some g.tile) = .ok (y, b)
                else b = List.replicate (n * v.e) 0) ∧
              rowPut v 0 [c.1, c.2, g.slot] b y z) s u)) ∧
    (∀ cl : BitVec 4,
      endsAs s 2 (.cpyXf h cl) s.xfWord ∧
      (∀ card x sf sg sx sm df dg dx dm fin data out,
        let src := fieldAt x 0 8
        let dst := fieldAt x 8 8
        let n := fieldAt x 16 4
        let rawIn := cardRawIn card
        let rawOut := cardRawOut card
        let k := xfStart rawIn (cardStages card) sf sg
        eRead s ag a 64 = .ok card → eRead s ag d 64 = .ok x → badCard card = false → badXfer x = false → cardFault card = none →
        rangeFmt s ag .engRead src n = .ok (sf, sg, sx, sm) → rangeFmt s ag .engWrite dst 1 = .ok (df, dg, dx, dm) →
        (rawIn = true → sf = 0 ∧ sx = false ∧ sm = false) → (rawOut = true → df = 0 ∧ dx = false) → (rawIn = false → n % fmtSize sf sg = 0) →
        legalFrom 0 [] (cardStages card) k = .ok fin → endOk rawOut fin df dg = true → headFits s ag rawIn src n k = .ok true →
        xfSource s ag rawIn src n sf sg (k == .e) = .ok data → runStages s ag src (if rawOut then 0 else df) (cardStages card) data = .ok out →
        out.bytes.length ≤ fieldAt x 20 4 → xfDstOk s ag rawOut dst out.bytes.length = .ok true →
        allows s ag .engWrite (spansAt dst out.bytes.length) → allows s ag .engWrite [(d + 24, 4)] →
        ∃ u t, moved s t ∧ writeRange s ag dst out.bytes = .ok u ∧ eWrite u ag (d + 24) (leBytes 4 out.bytes.length) = .ok t ∧
          exec (.cpyXf h cl) s = .next (t.engDone 2 out.bytes.length)) ∧
      (∀ card x, eRead s ag a 64 = .ok card → eRead s ag d 64 = .ok x →
        ((badCard card = true ∨ badXfer x = true) → exec (.cpyXf h cl) s = .next (s.engFault 2 4 255 0 0 none)) ∧
        (∀ k, badCard card = false → badXfer x = false → cardFault card = some k →
          exec (.cpyXf h cl) s = .next (s.engFault 2 4 k 0 0 none)))) ∧
    (∀ (cl : BitVec 4) (ro : Bool),
      endsAs s 2 (.cpyWb h cl ro) (s.wbWord ro) ∧
      (∀ (b : List Byte) (es : Nat → WbEntry), eRead s ag a 64 = .ok b → badWeightDesc b = false →
        let went := fieldAt b 8 2
        let last := fieldAt b 10 2
        let old (k : Nat) : Nat := match s.wbEnt ag.core (went + k) with | some e => hNsec e.hdr | none => 0
        let put (n : Nat) : State := (List.range n).foldl (fun u k => u.putWeight ag.core (went + k) (es k)) s
        (∀ k ≤ last, weightBlock s ag (fieldAt b 0 8 + 256 * k) (bits (fieldAt b 12 2) 11 0) (bit (fieldAt b 12 2) 12) ro = .ok (es k)) →
        allows s ag .engWrite [(a + 16, 8)] →
        (∃ t : State, exec (.cpyWb h cl ro) s = .next (t.engDone 2 0) ∧ t.conts = s.conts) ∧
        ((∀ k ≤ last, ∀ e, s.wbEnt ag.core (went + k) = some e → e.ctx = ag.ctx) →
          (∀ k ≤ last, sectorsUsed ((put k).core ag.core).wb - old k + hNsec (es k).hdr ≤ 32768) →
          ∃ t : State, eWrite (put (last + 1)) ag (a + 16) (leBytes 4 (last + 1) ++ leBytes 4 0) = .ok t ∧
            exec (.cpyWb h cl ro) s = .next (t.engDone 2 0)))) ∧
    (let leaves (i : Instr) : Prop := keepsOthers s i ∧ keepsRuns s i
     (∀ len1 cl, leaves (.cpyFill h len1 cl) ∧ (ag.core = core → inAlias a (len1.toNat + 1) → writesWithin s (.cpyFill h len1 cl) (locOf core a) (len1.toNat + 1)) ∧
       (ag.core = core → inAlias d (len1.toNat + 1) → writesWithin s (.cpy h len1 cl false) (locOf core d) (len1.toNat + 1)) ∧
       ∀ ro, leaves (.cpy h len1 cl ro)) ∧
     (∀ m : Cpx, leaves (.tcpy h m) ∧ leaves (.cpyPerm h m)) ∧
     (∀ cl, leaves (.cpyXf h cl) ∧ (∀ hs, leaves (.tcpyMc h hs cl)) ∧ ∀ ro, leaves (.cpyWb h cl ro)))

namespace Sys2Proof.Machine

/-- Coordinates 1 to 8 that an index record can name for a handle (R358). -/
def gsCoords (h : Handle) (x : List Int) : Prop :=
  x.length = 8 ∧ ∀ i < 8, 0 ≤ x.getD i 0 ∧ x.getD i 0 < 65536 ∧ (h.ndim ≤ i + 1 → x.getD i 0 = 0)

/-- The operation of the acting CM word, as Owl orders it, and the state after it has left the queue, or waits (R218, R346). -/
def owlKey (s : State) : Nat × Nat := (s.cur.core, s.cur.ent.seq)
def owlAfter (s t : State) : State := if t.owlStands (owlKey s) then t.owlJoin (owlKey s) else t.owlLeave (owlKey s)

/-- Owl performs the acting word now: CMU_CTL.EN is set, and no operation that arrived before still stands (R160, R218). -/
def owlFree (s : State) : Prop :=
  bit (s.rget oCMU 0) 0 = true ∧ (s.owlQ.find? s.owlStands = none ∨ s.owlQ.find? s.owlStands = some (owlKey s))

/-- The stream is open, not stopped and the context's, and the layer is legal and enabled (R364). -/
def evaluable (s : State) (st l ctx : Nat) (y : Layer) : Prop :=
  s.isOpen st = true ∧ s.isStopped st = false ∧ s.streamCtx st = ctx ∧ getLayer s st l = .ok y ∧ y.e.en = true

/-- A record can be appended to the frame log of a stream by an operation that has not waited for room (R182, R183). -/
def logRoom (s : State) (st : Nat) : Prop :=
  let v := s.rget (oCmuS st 0x18) 0
  s.logIsFull st = false ∧ (∀ p ∈ s.owlOp.held, p.1 ≠ s.opKey) ∧
    allows s (s.owl st) .engWrite [(bits v 51 12 * 4096 + 32 * (s.rget (oCmuS st 0x20) 0 % ringSize v), 32)]

/-- The records of `n` tiles of a layer can be read. -/
def tilesRead (s : State) (st l n : Nat) : Prop := ∀ t < n, allows s (s.owl st) .engRead [(s.tileAddr st l t, 32)]

/-- What cm.eval writes for a layer: with its verdicts (R170 to R175), the tiles' records, the entries of the list, its recompute section
first, the header, the layer's record and the log's record, and CMU's counts (R176 to R182). -/
def evalWrites (s : State) (st l li : Nat) (t : State) : Prop :=
  ∃ y ls lh e ok low recs vs0 u1 u2 u3 u4 u5,
    let f := s.cmuFrame st
    let n := y.gw * y.gh
    let pic := s.picSize st f e
    let k := scaleOf y.e (lsNscale ls)
    let te := effThresh y.e k
    let c := lsCh ls
    let vs := (attend y vs0).1
    let rs := vs.filter fun v => v.reason != 0
    let cs := vs.filter fun v => v.reason == 0 && (v.dx != 0 || v.dy != 0)
    let gen := (lsGen ls + 1) % 2 ^ 32
    getLayer s st l = .ok y ∧ rdBytes s (s.owl st) .engRead (s.metaAddr st l) 64 = .ok ls ∧ evalList s y li = .ok lh ∧
    evalExports s st f = .ok e ∧ lowerSrc s y f = .ok (s, ok, low) ∧ readTiles st l (lsGen ls) n 0 s = .ok (s, recs) ∧
    judge y e (f % e.nbuf) pic.1 pic.2.1 c te recs (lsNever ls || (lsFrame ls + 1) % 2 ^ 64 != f || !ok) low n 0 s = .ok (s, vs0) ∧
    writeTiles st l c recs vs s = .ok u1 ∧ writeEntries st y.gw lh (rs ++ cs) 0 u1 = .ok u2 ∧
    owlWrite u2 st (lh.at (-64)) (headerOf y f k te gen vs cs.length (attend y vs0).2) = .ok u3 ∧
    owlWrite u3 st (s.metaAddr st l) (putAt (putAt ls 8 (leBytes 8 f ++ leBytes 1 1)) 18 (leBytes 2 k ++ leBytes 4 te ++
      leBytes 4 rs.length ++ leBytes 4 cs.length ++ leBytes 4 0 ++ leBytes 4 gen ++ leBytes 2 li)) = .ok u4 ∧
    logAppend u4 st (logRec f 1 l k rs.length cs.length te gen) = .ok u5 ∧ t = (u5.radd (oCMU + 8) 1).radd (oCMU + 0x10) n

/-- A layer can be evaluated for a list handle: it is enabled and not in the state EVALUATED, its list, exports, windows and the layer
that it derives from, if any, are legal and can be read, its records can be written, and the log has room (R364, R365, R170 to R178). -/
def evalReady (s : State) (st l li ctx : Nat) : Prop :=
  ∃ y ls lh e ok low,
    let n := y.gw * y.gh
    let pic := s.picSize st (s.cmuFrame st) e
    let layer := s.metaAddr st l
    let ow := s.owl st
    evaluable s st l ctx y ∧ allows s ow .engRead [(layer, 64)] ∧ rdBytes s ow .engRead layer 64 = .ok ls ∧
    lsState ls ≠ 1 ∧ evalList s y li = .ok lh ∧ evalExports s st (s.cmuFrame st) = .ok e ∧ lowerSrc s y (s.cmuFrame st) = .ok (s, ok, low) ∧
    (∀ q, low = some q → tilesRead s st q.y.l (q.y.gw * q.y.gh)) ∧ tilesRead s st l n ∧
    (∀ t < n, let w := windowOf y (t % y.gw) (t / y.gw) pic.1 pic.2.1
      w.ok = true → ∃ bs, readBlks s st e (s.cmuFrame st % e.nbuf) (w.x0 / 8) (w.x1 / 8 + 1 - w.x0 / 8) (w.y1 / 8 + 1 - w.y0 / 8) (w.y0 / 8) = .ok bs) ∧
    (∀ t < n, allows s ow .engWrite [(s.tileAddr st l t, 32), (lh.at (16 * t), 16)]) ∧
    allows s ow .engWrite [(lh.at (-64), 64), (layer, 64)] ∧ logRoom s st

end Sys2Proof.Machine

/-- The words of the gather-scatter engine. Row by row in turn, gath takes the row that its list names from the handle's elements to its
place in the data area, at D + k · GP, scat brings it back from there, and the ordered forms update the row's elements in ascending
order with the type's sum or maximum; gath.tl brings the rows of a region to the data area, and scat.tl brings those of a tile back into
its pending slot and marks it; each where its list, its rows and its data area can be accessed. Each ends as its result says, with a
fault where an access or a check refuses. None changes a hart's registers, the vector unit or another continuation, and a gath changes no
byte of memory outside its data area (R358 to R363). That the areas are checked whole before the
first row moves is the model's reading (log 56). -/
def Obligations.GatherScatterWordsComplete : Prop :=
  (∀ (s : State) (h : Hdr),
     let ag := s.eng
     let c0 := s.cur.ent.sc0.toNat
     (∀ m : Gsx, endsAs s 3 (.gath h m) (s.gsWord m false none gathRow) ∧ endsAs s 3 (.scat h m) (s.gsWord m true none scatRow)) ∧
     (∀ (t : ScT) (m : Gsx),
       endsAs s 3 (.scatAdd h t m) (s.gsWord m true (some (elemFmt (scElem t))) (updRow (scAdd t s.fp.rm))) ∧
       endsAs s 3 (.scatMax h t m) (s.gsWord m true (some (elemFmt (scElem t))) (updRow (scMax t)))) ∧
     (∀ (m : Gsx) (plain : Bool) (ty : Option Nat) (g : GsWork),
       let first := max (bits s.cur.ent.sc1.toNat 63 52) s.cur.ent.start
       let last := m.cnt1.toNat
       let rows (rd : Bool) (accs : List Acc) : Prop := ∀ x, gsCoords g.v.h x → rowOk s g.v rd accs 0 g.n x
       let area (acc : Acc) : Prop := ∀ k, first ≤ k → k ≤ last → allows s ag acc (spansAt (g.d + k * g.gp) g.rb)
       let at_ (k : Nat) : Nat := g.d + (first + k) * g.gp
       let done (i : Instr) (row : Nat → List Int → State → State → Prop) : Prop := ∃ t n, moved s t ∧ exec i s = .next (t.engDone 3 n) ∧
         inTurn (last + 1 - first) (fun k u w => ∃ x, gsIndex u g.v.h (first + k) = .ok x ∧ gsCoords g.v.h x ∧ row k x u w) s t
       let updates (f : Nat → Nat → Nat) (k : Nat) (x : List Int) (u w : State) : Prop := ∃ ps old b n,
         g.v.rowSpots u false x g.n 0 = .ok ps ∧ g.v.readSpots u ps = .ok old ∧ readRange u ag (at_ k) g.rb = .ok b ∧
         g.v.writeSpots u ps ((applyUpdates f (ps.zip ((elemsOf g.v.e g.n old).zip (elemsOf g.v.e g.n b))) []).flatMap (leBytes g.v.e)) = .ok (w, n)
       s.gsOpen m plain ty = .ok g → g.v.h.kind ≠ 4 → (∀ k, first ≤ k → k ≤ last → allows s ag .engRead [(c0 + 16 * k, 16)]) →
       (plain = false → ty = none → rows true [.engRead] → area .engWrite → done (.gath h m) fun k x u w =>
         ∃ b, rowGot g.v 0 g.n x u b ∧ writeRange u ag (at_ k) b = .ok w) ∧
       (plain = true → ty = none → rows false [.engWrite] → area .engRead → done (.scat h m) fun k x u w =>
         ∃ b, readRange u ag (at_ k) g.rb = .ok b ∧ rowPut g.v 0 x b u w) ∧
       (∀ t, plain = true → ty = some (elemFmt (scElem t)) → rows false [.engRead, .engWrite] → area .engRead →
         done (.scatAdd h t m) (updates (scAdd t s.fp.rm)) ∧ done (.scatMax h t m) (updates (scMax t)))) ∧
     (∀ (hnd : BitVec 12) (cl : BitVec 4),
       let d := bits s.cur.ent.sc1.toNat 51 0
       endsAs s 3 (.gathTl h hnd cl) (s.gathTile hnd.toNat) ∧ endsAs s 3 (.scatTl h hnd cl) (s.scatTile hnd.toNat) ∧
       (∀ v rc y b,
         let n := v.h.extOf 0 + 1
         s.tileWork hnd.toNat (bits c0 27 16) (bits c0 15 0) 0 false = .ok ⟨s, v, rc, y, b⟩ → 1 ≤ v.fmt → v.fmt ≤ 9 → v.aligned 0 n = true →
         let halo := bits c0 31 28
         let t := y.t * 2 ^ bits c0 33 32
         let wr := t + 2 * halo
         let size := wr * wr * n * v.e
         size ≤ 262144 → areaCheck s .engWrite d size = .ok () →
         (∀ k < wr * wr, (let x : Int := (fieldAt b 0 2 * t : Nat) - (halo : Nat) + (k % wr : Nat)
            let z : Int := (fieldAt b 2 2 * t : Nat) - (halo : Nat) + (k / wr : Nat)
            0 ≤ x → x ≤ v.h.extOf 1 → 0 ≤ z → z ≤ v.h.extOf 2 → reuseOk s v rc n x z) ∧
           allows s ag .engWrite (spansAt (d + k * n * v.e) (n * v.e))) →
         ∃ u, moved s u ∧ exec (.gathTl h hnd cl) s = .next (u.engDone 3 size) ∧
           inTurn (wr * wr) (fun k p q =>
             let x : Int := (fieldAt b 0 2 * t : Nat) - (halo : Nat) + (k % wr : Nat)
             let z : Int := (fieldAt b 2 2 * t : Nat) - (halo : Nat) + (k / wr : Nat)
             ∃ r, (if 0 ≤ x ∧ x ≤ v.h.extOf 1 ∧ 0 ≤ z ∧ z ≤ v.h.extOf 2 then reuseRow p v rc 0 n x z none = .ok (p, r)
                 else r = List.replicate (n * v.e) 0) ∧ writeRange p ag (d + k * n * v.e) r = .ok q) s u) ∧
       (∀ v rc y b g,
         let n := v.h.extOf 0 + 1
         s.tileWork hnd.toNat (bits c0 27 16) (bits c0 15 0) 1 true = .ok ⟨s, v, rc, y, b⟩ → 1 ≤ v.fmt → v.fmt ≤ 9 → v.aligned 0 n = true →
         areaCheck s .engRead d (y.t * y.t * (n * v.e)) = .ok () → pendingOf s y b = .ok (s, g) →
         (∀ c ∈ tileCells g,
           allows s ag .engRead (spansAt (d + ((c.2 - g.ty * g.y.t) * g.y.t + (c.1 - g.tx * g.y.t)) * n * v.e) (n * v.e)) ∧
           rowOk s v false [.engWrite] 0 n [c.1, c.2, g.slot]) →
         markable s g →
         ∃ w u, moved s u ∧ exec (.scatTl h hnd cl) s = .next (u.engDone 3 ((tileCells g).length * (n * v.e))) ∧ marked w g u ∧
           inTurn (tileCells g).length (fun k p q =>
             let c := (tileCells g).getD k (0, 0)
             ∃ r, readRange p ag (d + ((c.2 - g.ty * g.y.t) * g.y.t + (c.1 - g.tx * g.y.t)) * n * v.e) (n * v.e) = .ok r ∧
               rowPut v 0 [c.1, c.2, g.slot] r p q) s w)) ∧
     (let leaves (i : Instr) : Prop := keepsOthers s i ∧ keepsRuns s i
      (∀ m : Gsx, leaves (.gath h m) ∧ leaves (.scat h m) ∧ (∀ t, leaves (.scatAdd h t m) ∧ leaves (.scatMax h t m)) ∧
        (∀ g, s.gsOpen m false none = .ok g → g.v.h.kind ≠ 4 → ag.core = s.cur.core → inAlias g.d ((m.cnt1.toNat + 1) * g.gp) →
          writesWithin s (.gath h m) (locOf s.cur.core g.d) ((m.cnt1.toNat + 1) * g.gp))) ∧
      (∀ hnd cl, leaves (.gathTl h hnd cl) ∧ leaves (.scatTl h hnd cl))))

/-- The words of Owl wait while CMU_CTL.EN is 0 and for those that arrived before; then each performs its operation on its layer, when the
layer is enabled, in the state that it asks for, its records can be accessed and the log has room: cm.force sets a bit of REQ in the
tile's record, cm.thr writes NSCALE into the layer's and a record into the log, cm.meas writes MEAS into the tile's record, cm.commit
clears REQ of the recompute entries' tiles and commits the layer with a record, and cm.eval writes the tiles' records, the list's entries
and header, the layer's record and a record of the log. Each faults with CMU status where Owl refuses it. None changes a hart's
registers, the vector unit or another continuation (R160, R218, R364 to R366). -/
def Obligations.CascadeWordsComplete : Prop :=
  (∀ (s : State) (h : Hdr) (l : BitVec 6) (st : BitVec 7) (x : BitVec 12) (ns : BitVec 16),
     let ctx := s.cur.ent.ctx
     let c0 := s.cur.ent.sc0.toNat
     let sn := st.toNat
     let ln := l.toNat
     let ow := s.owl sn
     let layer := s.metaAddr sn ln
     let tile (t : Nat) : Nat := s.tileAddr sn ln t
     let ends (i : Instr) (r : EM State) : Prop :=
       (¬ owlFree s → exec i s = .next (s.owlJoin (owlKey s))) ∧
       (owlFree s →
         (∀ t, r = .ok t → exec i s = .next (owlAfter s (t.engDone 5 0))) ∧
         (∀ c d f, r = .error (.fault c d f) → windowFault f = false → exec i s = .next (owlAfter s (s.engFault 5 c d 0 0 f))) ∧
         (∀ u n f t, r = .error (.owl u n f) → owlStopped u n f = .ok t → exec i s = .next (owlAfter s (t.engEnds 5 9 9 0 0 (some f)))) ∧
         (∀ k c v, r = .error (.miss k c v) → exec i s = .next (owlAfter s (s.missed k c v))) ∧
         (∀ op n rs, r = .error (.logFull op n rs) → exec i s = .next (owlAfter s (s.logStall op n rs)))) ∧
       keepsOthers s i ∧ keepsRuns s i
     let ends_ (i : Instr) (t : State) : Prop := exec i s = .next (owlAfter s (t.engDone 5 0))
     ends (.cmEval h l st x) (cmEval s sn ln x.toNat ctx) ∧
     ends (.cmMeas h l st) (cmMeas s sn ln c0 ctx) ∧
     ends (.cmCommit h l st) (cmCommit s sn ln ctx) ∧
     ends (.cmForce h l st) (cmForce s sn ln c0 ctx) ∧
     ends (.cmThr h l st ns) (cmThr s sn ln ns.toNat ctx) ∧
     (∀ y ls, owlFree s → evaluable s sn ln ctx y → allows s ow .engRead [(layer, 64)] → rdBytes s ow .engRead layer 64 = .ok ls →
       (∀ r, c0 < y.gw * y.gh → rdBytes s ow .engRead (tile c0) 32 = .ok r → allows s ow .engWrite [(tile c0 + 24, 1)] →
         ∃ t, owlWrite s sn (tile c0 + 24) (leBytes 1 (fieldAt r 24 1 ||| 2)) = .ok t ∧ ends_ (.cmForce h l st) t) ∧
       (allows s ow .engWrite [(layer + 42, 2)] → logRoom s sn →
         ∃ u t, owlWrite s sn (layer + 42) (leBytes 2 ns.toNat) = .ok u ∧
           logAppend u sn (logRec (s.cmuFrame sn) 4 ln ns.toNat 0 0 0 (lsGen ls)) = .ok t ∧ ends_ (.cmThr h l st ns) t) ∧
       (∀ lh ts, lsState ls = 1 → lsNwr ls = lsCountR ls + lsCountC ls → owlHandle s sn (lsList ls) 4 = .ok lh →
         listTiles s sn y.gw lh (lsCountR ls) 0 = .ok ts → (∀ t ∈ ts, allows s ow .engWrite [(tile t + 24, 1)]) →
         allows s ow .engWrite [(layer, 64)] → logRoom s sn →
         ∃ u v t, clearReqs sn ln ts s = .ok u ∧
           owlWrite u sn layer (putAt (putAt ls 0 (leBytes 8 (lsEFrame ls))) 16 (leBytes 1 2 ++ leBytes 1 (1 - lsCh ls))) = .ok v ∧
           logAppend v sn (logRec (lsEFrame ls) 2 ln 0 (lsCountR ls) (lsCountC ls) 0 (lsGen ls)) = .ok t ∧ ends_ (.cmCommit h l st) t) ∧
       (∀ lh b r v,
         let tx := fieldAt b 0 2
         let ty := fieldAt b 2 2
         let t := ty * y.gw + tx
         lsState ls = 1 → c0 < lsCountR ls → owlHandle s sn (lsList ls) 4 = .ok lh → owlRead s sn (lh.at (16 * c0)) 16 = .ok b →
         rdBytes s ow .engRead (tile t) 32 = .ok r → hfWr (halfOf r (1 - lsCh ls)) = true → openView s ow y.h = .ok v →
         v.aligned 0 (y.h.extOf 0 + 1) = true →
         (∀ c ∈ tileCells ⟨y, t, tx, ty, 0, 0, 0, 0⟩, ∀ k : Nat, k < 2 →
           rowOk s v true [.engRead] 0 ((y.h.extOf 0 + 1) / v.step) [c.1, c.2, k]) →
         allows s ow .engWrite [(tile t + 26, 2)] →
         ∃ m u, tileDiff v y tx ty (hfSlot (halfOf r (1 - lsCh ls))) (hfSlot (halfOf r (lsCh ls))) t (lsGen ls)
             (tileCells ⟨y, t, tx, ty, 0, 0, 0, 0⟩).length 0 (some Dy.zero) s = .ok (s, m) ∧
           owlWrite s sn (tile t + 26) (leBytes 2 (match m with
             | some e => if hfValid (halfOf r (lsCh ls)) then (fmtF16.round .rup false (e.fv false)).1 else fmtF16.infBits false
             | none => fmtF16.infBits false)) = .ok u ∧ ends_ (.cmMeas h l st) u)) ∧
     (owlFree s → evalReady s sn ln x.toNat ctx → ∃ t, evalWrites s sn ln x.toNat t ∧ ends_ (.cmEval h l st x) t))

namespace Sys2Proof.Machine

/-- The work area of the signature unit is aligned and in the slices, and a configuration is loaded (R337, R338). -/
def sgReady (s : State) (wa : Nat) : Prop := s.ec.sigCfg ≠ [] ∧ wa % 64 = 0 ∧ inSlices wa = true

/-- The MAP of a grouped work area for `n` rows, which can be read (R338, R342). -/
def sgMap (s : State) (wa n : Nat) (map : List Nat) : Prop :=
  sgReady s wa ∧ (∃ hd, eRead s s.eng wa 64 = .ok hd ∧ fieldAt hd 0 1 = 3 ∧ fieldAt hd 2 2 = n) ∧
    ∃ bs, readRange s s.eng (wa + 576) (2 * n) = .ok bs ∧ map = elemsOf 2 n bs

/-- The tables of the work area that sig.group writes for at most `n` buckets can be written (R341). -/
def sgBuckets (s : State) (wa n : Nat) : Prop :=
  allows s s.eng .engWrite [(wa, 1), (wa + 4, 2)] ∧ allows s s.eng .engWrite (spansAt (wa + 576) (2 * n)) ∧
    ∀ k ≤ n, allows s s.eng .engWrite (spansAt (wa + 1088) (2 * k))

end Sys2Proof.Machine

/-- The words of the signature unit: sig.cfg takes a well-formed configuration from the slice; sig.hash and sig.key write the
signatures of their rows or keys into the work area; sig.group makes the buckets; sig.scat and sig.bexp spread rows to the
destination, and sig.bred adds rows to their buckets, one element's sum in each step after a first that checks the whole word, and raises
the flags with the last; each completes where its configuration and work area stand
in the state that it asks for, its rows lie in the m view, and its rows and tables can be read and written; without a configuration it
faults SIG_CFG, with a work area outside the slices or misaligned, or rows of a sig.bred beyond the m view, SIG_ROOM. None changes a hart's
registers, the vector unit or another continuation (R337 to R343). That an update of one element is one step is how the model keeps
R145 (log 4). -/
def Obligations.SignatureWordsComplete : Prop :=
  ∀ (s : State) (h : Hdr) (m : Sgx),
    let n := m.n1.toNat + 1
    let a := s.cur.ent.sc0.toNat
    let wa := s.cur.ent.sc1.toNat
    let ag := s.eng
    let b := s.ec.sigCfg
    let moved' := n * sgSb b
    let src (k : Nat) : List Byte := s.rsGet (s.cur.ent.mb + 2048 * m.ma.toNat + k * sgSp b) (sgSb b)
    (∀ cl c, inSlices a = true → eRead s ag a 64 = .ok c →
      exec (.sigCfg h cl) s = .next (if sgBad c then s.engFault 4 25 0 0 0 none else (s.setEc { s.ec with sigCfg := c }).engDone 4 0)) ∧
    (let writable : Prop := allows s ag .engWrite [(wa, 4), (wa + 6, 1), (wa + 16, 32)] ∧ allows s ag .engWrite (spansAt (wa + 64) (2 * n))
     (∀ (ty : SigT) rows, sgReady s wa → 128 * sgKch b ≤ sgRp b → s.sgRows b ty.elem n = .ok rows → writable →
       ∃ t, moved s t ∧ exec (.sigHash h ty m) s = .next (t.engDone 4 0) ∧
         s.putSigs wa 1 ty.elem.code n (sgHb b) (rows.map fun r => r.any fun v => !v.isFin)
           (rows.map fun r => if r.any fun v => !v.isFin then 0 else sigOfRow (sgSeed b) (sgHb b) r) = .ok t) ∧
     (∀ ks, sgReady s wa → s.sgKeys b n = .ok ks → writable →
       ∃ t, moved s t ∧ exec (.sigKey h m) s = .next (t.engDone 4 0) ∧
         s.putSigs wa 2 5 n (sgHb b) [] (ks.map (sigOfKey (sgSeed b) (sgHb b))) = .ok t)) ∧
    (∀ hd, sgReady s wa → eRead s ag wa 64 = .ok hd → fieldAt hd 2 2 = n → sgBuckets s wa n →
      (∀ ks, fieldAt hd 0 1 = 2 → s.sgKeys b n = .ok ks →
        ∃ t, moved s t ∧ exec (.sigGroup h m) s = .next (t.engDone 4 0) ∧
          s.putBuckets wa n ((bucketsBy (ks.map some)).map fun rs => ⟨rs.headD 0, rs⟩) = .ok t) ∧
      (∀ ty rows sigs, fieldAt hd 0 1 = 1 → 128 * sgKch b ≤ sgRp b → elemT? (fieldAt hd 1 1) = some ty → s.sgTable (wa + 64) n = .ok sigs →
        s.sgRows b ty n = .ok rows →
        (sgCompact b = true → m.ma.toNat + (n - 1) / 16 * sgKch b + (sgKch b - 1) ≤ 15) →
        ∃ t, exec (.sigGroup h m) s = .next (t.engDone 4 0) ∧ s.groupRows b hd wa m.ma.toNat n = .ok t ∧ t.conts = s.conts)) ∧
    (∀ map, sgMap s wa n map → (∀ r < n, allows s ag .engWrite (spansAt (rowAt a (sgDp b) r) (sgSb b))) →
      ((∀ k ∈ map, rowFits b m.ma.toNat k = true) →
        ∃ t, moved s t ∧ exec (.sigScat h m) s = .next (t.engDone 4 moved') ∧ s.putRows b (map.map src) 0 = .ok t) ∧
      (sgRepOnly b = false → (∀ k ∈ map, rowFits b m.ma.toNat k = true) →
        ∃ t, moved s t ∧ exec (.sigBexp h m) s = .next (t.engDone 4 moved') ∧ s.putRows b (map.map src) 0 = .ok t) ∧
      (∀ rep, sgRepOnly b = true → s.sgTable (wa + 1088) 256 = .ok rep → (∀ k ∈ map, k < 256 ∧ rowFits b m.ma.toNat k = true) →
        ∃ t, moved s t ∧ exec (.sigBexp h m) s = .next (t.engDone 4 moved') ∧
          s.putRows b (map.zipIdx.map fun x => if rep.getD x.1 0 = x.2 then src x.1 else List.replicate (sgSb b) 0) 0 = .ok t)) ∧
    (∀ (ty : FbT) map,
      let i : Instr := .sigBred h ty m
      let e := ty.elem.bytes
      let len := sgSb b / e
      let ready : Prop := sgMap s a n map ∧ rowFits b m.ma.toNat (n - 1) = true ∧
        ∀ k ∈ map, let sp := spansAt (rowAt wa (sgDp b) k) (sgSb b); allows s ag .engRead sp ∧ allows s ag .engWrite sp
      (s.ec.bred = none → ready →
        exec i s = .next ((s.setEc { s.ec with bred := some ⟨map, 0, fNone⟩ }).tookWalk s.cur.who) ∧
        (0 < len → ∃ t : State, again i (1 + n * len) s = .next (t.engDone 4 moved'))) ∧
      (s.ec.bred = none → b ≠ [] → a % 64 = 0 → inSlices a = true → rowFits b m.ma.toNat (n - 1) = false →
        exec i s = .next (s.engFault 4 27 0 0 0 none)) ∧
      (∀ r : BredRun, s.ec.bred = some r →
        let row := r.done / len
        let o := r.done % len * e
        let p := rowAt wa (sgDp b) (nth r.map row) + o
        allows s ag .engRead (spansAt p e) → allows s ag .engWrite (spansAt p e) →
        ∃ old u, readRange s ag p e = .ok old ∧ moved s u ∧
          (let x := fvAdd s.fp.rm (ty.fmt.dec (leNat old)) (ty.fmt.dec (leNat (((src row).drop o).take e)))
           let y := ty.fmt.round s.fp.rm false x.1
           let f := r.flags ||| (x.2 ||| y.2)
           o + e ≤ sgSb b → writeRange s ag p (leBytes e y.1) = .ok u ∧
           (r.done + 1 < n * len →
             exec i s = .next ((u.setEc { u.ec with bred := some { r with done := r.done + 1, flags := f } }).tookWalk s.cur.who)) ∧
           (n * len ≤ r.done + 1 → exec i s = .next (((u.setEc { u.ec with bred := none }).raise s.cur.ent.cid f).engDone 4 moved'))))) ∧
    (let faults (i : Instr) (c : Nat) : Prop := exec i s = .next (s.engFault 4 c 0 0 0 none)
     (b = [] → (∀ ty, faults (.sigHash h ty m) 25 ∧ ∀ u, s.ec.bred = none → faults (.sigBred h u m) 25) ∧ faults (.sigKey h m) 25 ∧ faults (.sigGroup h m) 25 ∧
       faults (.sigScat h m) 25 ∧ faults (.sigBexp h m) 25) ∧
     (b ≠ [] → ¬ (wa % 64 = 0 ∧ inSlices wa = true) →
       (∀ ty, 128 * sgKch b ≤ sgRp b → faults (.sigHash h ty m) 27) ∧ faults (.sigKey h m) 27 ∧ faults (.sigGroup h m) 27 ∧
       faults (.sigScat h m) 27 ∧ faults (.sigBexp h m) 27)) ∧
    (let leaves (i : Instr) : Prop := keepsOthers s i ∧ keepsRuns s i
     (∀ cl, leaves (.sigCfg h cl)) ∧ (∀ ty, leaves (.sigHash h ty m)) ∧ leaves (.sigKey h m) ∧ leaves (.sigGroup h m) ∧
     leaves (.sigScat h m) ∧ leaves (.sigBexp h m) ∧ ∀ ty, leaves (.sigBred h ty m))


/-- A command that has acted, or has faulted, leaves its queue and stands among its continuation's commands in flight; memory,
harts, registers, the other queues, the other cores and the other continuations are unchanged, and its tag, its barrier
signal and its timeline are not raised yet (R137, R346). -/
def Obligations.EngineCommandEnds : Prop :=
  ∀ (s : State) (e ec detail prog tx : Nat),
    let x := s.cur.ent
    let same (t : State) : Prop :=
      t.mem = s.mem ∧ t.regs = s.regs ∧ t.harts = s.harts ∧ t.runs = s.runs ∧ t.streams = s.streams ∧ t.launches = s.launches ∧
      t.tlb = s.tlb ∧ t.ue = s.ue ∧
      (∀ n, n ≠ s.cur.core → t.core n = s.core n) ∧ (∀ k, k ≠ x.cid → t.cont k = s.cont k) ∧
      (∀ k, k ≠ e → (t.core s.cur.core).queues.getD k [] = (s.core s.cur.core).queues.getD k []) ∧
      (e < (s.core s.cur.core).queues.length →
        (t.core s.cur.core).queues.getD e [] = unqueue x.seq ((s.core s.cur.core).queues.getD e [])) ∧
      (t.cont x.cid).tags = (s.cont x.cid).tags ∧ (t.cont x.cid).tl = (s.cont x.cid).tl ∧ (t.cont x.cid).outst = (s.cont x.cid).outst
    same (s.engDone e tx) ∧
    same (s.engFault e ec detail prog tx none) ∧
    ((s.cont x.cid).liveOf e x.num = none →
      ((s.engDone e tx).cont x.cid).live = (s.cont x.cid).live ++ [⟨e, x, tx, none, 0⟩]) ∧
    ((s.engFault e ec detail prog tx none).cont x.cid).live =
      (s.cont x.cid).live ++ [⟨e, x, tx, some ⟨x.num, e, ec, detail, prog, none⟩, 0⟩]

/-! ## Commands, continuations and pre-emption (R133, R137, R198 to R208, R219, R261, R374 to R380) -/

namespace Sys2Proof.Machine

/-- A request of moved bytes need not wait for a walk: the translations of its pages are cached, or have faulted (R46 to R48). -/
def reaches (s : State) (ag : Agent) (acc : Acc) (va n : Nat) : Prop :=
  ∀ w c v, plan s ⟨ag, acc, va, n, false, true⟩ anyFmt ≠ .error (.miss w c v)

/-- The write of the next event record of each tenant need not wait for a walk (R414). -/
def heard (s : State) : Prop :=
  ∀ t < 16, ∀ k, s.tenantCtx t = some k →
    let r := s.rget (0x2000 + 0x20 * t) 0
    reaches s (feAgent k) .engWrite (bits r 51 12 * 4096 + 32 * (s.rget (0x2000 + 0x20 * t + 8) 0 % 2 ^ (bits r 3 0 + 4))) 32

/-- The event `i` is a decision of firmware of kind `k` that leads to `t`: from ACTIVATE to COMMIT it is journalled first, and a full
journal counts as a NACK, before which it is not made (R407, R409; that each of these events is a decision that appends one record is
the model's choice, log 83). -/
def decides (s : State) (k : Nat) (t : State) (i : Instr) : Prop :=
  (t.hoState k ≠ 4 → t.hoState k ≠ 5 → exec i s = .next (t.tookWalk .part)) ∧
  (t.hoState k = 4 ∨ t.hoState k = 5 →
    (∀ u, t.jrnlAppend k = some u → exec i s = .next (u.tookWalk .part)) ∧
    (t.jrnlAppend k = none → exec i s = .next ((s.hoFallback k 6).tookWalk .part)))

/-- The completion record of a launch can be written, or its write faults: it need not wait for a walk. -/
def recorded (s : State) (lid : Nat) : Prop := reaches s (feAgent (s.launch lid).ctx) .engWrite (s.launch lid).comp 64

end Sys2Proof.Machine

/-- A command in flight whose work is done completes: it is charged to its engine class, context, stream, launch and continuation,
leaves its continuation's lists, and raises its tag or signals its barrier; a V command completes only once its results have landed
and its loop has passed. A faulted command is recorded among the faulted, or, for an abandoned continuation, has ended; the tags, the
timelines and the list of outstanding commands of its continuation, and everything else, stay as they are (R133, R137, R222, R378). -/
def Obligations.CommandsCompleteOrFault : Prop :=
  ∀ (s : State) (cid e num : Nat) (l : Live), (s.cont cid).liveOf e num = some l →
    let c := s.cont cid
    (l.fault = none → (l.eng = 0 → s.vPending c l = false) →
      exec (.commandComplete cid e num) s = .next
        ((s.charge l.eng l.ent.word.toNat c.ctx (s.launch c.lid).stream (some c.lid) (some cid)).complete cid l)) ∧
    (l.fault = none → l.eng = 0 → s.vPending c l = true → exec (.commandComplete cid e num) s = .fault .notEnabled) ∧
    (∀ f, l.fault = some f →
      exec (.commandFault cid e num) s = .next (s.setCont cid { c with
        live := c.live.filter fun x => !(x.eng == e && x.ent.num == num)
        faulted := if c.ending then c.faulted else c.faulted ++ [l] }))

/-- A suspended continuation becomes READY behind its instruction when its condition holds: a phase that has passed, a timeline that has
reached its number, a masked tag, all masked tags, or a waddr location that no longer holds its value. When instead a command that it
waits for has faulted, of hb.wait those whose arrivals would complete the phase, or the location can no longer be read, it becomes READY
at its instruction, with what that waits for, and the instruction then raises the fault (R137, R199, R261, R267 to R275). That the event
applies the wait's effect, and that the continuation stands at its instruction or behind it, is the model's choice, log 75, and what
completes a phase that faulted commands hold up is log 87's. -/
def Obligations.SatisfiedWaitsMakeReady : Prop :=
  ∀ (s : State) (cid : Nat), (s.cont cid).stat = .suspended →
    let c := s.cont cid
    let past (d : Cont) : State := s.setCont cid { d with stat := .ready, wait := .none, pc := d.pc + 4, waited := 0 }
    let again : State := s.setCont cid { c with stat := .ready, waited := 0 }
    (∀ h ph, c.wait = .hb h ph →
      let b := s.bar (s.cellOf cid h)
      let fs := c.faulted.filter fun l => sigOf l.ent.word == 0x80 + h
      (ph < b.ph → exec (.waitSatisfied cid) s = .next (past (c.waited1 h))) ∧
      (b.ph ≤ ph → fs ≠ [] → b.arr ≤ b.cnt + fs.length → (b.pend = 0 ∨ ∃ l ∈ fs, l.moves = true) →
        exec (.waitSatisfied cid) s = .next again)) ∧
    (∀ e n sc, c.wait = .tl e n sc →
      (n ≤ nth c.tl e → exec (.waitSatisfied cid) s = .next (past c)) ∧
      (nth c.tl e < n → (∃ l ∈ c.faulted, l.eng = e ∧ l.ent.num ≤ n) → exec (.waitSatisfied cid) s = .next again)) ∧
    (∀ m rd, c.wait = .tagAny m rd →
      (∀ t, lowestBit (c.tags &&& m) = some t → exec (.waitSatisfied cid) s = .next (past { c with a := setArg c.a rd (BitVec.ofNat 64 t) })) ∧
      (lowestBit (c.tags &&& m) = none → (tagFault c m).isSome = true → exec (.waitSatisfied cid) s = .next again)) ∧
    (∀ m, c.wait = .tagAll m →
      (c.tags &&& m = m → exec (.waitSatisfied cid) s = .next (past c)) ∧
      (c.tags &&& m ≠ m → (tagFault c m).isSome = true → exec (.waitSatisfied cid) s = .next again)) ∧
    (c.wait = .exit → c.faulted ≠ [] → exec (.waitSatisfied cid) s = .next again) ∧
    (∀ a v, c.wait = .addr a v →
      let r : Req := ⟨waddrAgent c, .load, a.toNat, 8, true, true⟩
      (∀ bs, hartRead s r = .ok bs → exec (.waddrRecheck cid) s = .next ((if BitVec.ofNat 64 (leNat bs) = v then s else past c).tookWalk .part)) ∧
      (∀ f, hartRead s r = .error (.flt f) → exec (.waddrRecheck cid) s = .next (again.tookWalk .part)))

/-- Hart 1 gives a free hart 0 to the first READY continuation of its core, once the storage claimed from it is back: without a frame
it starts at its pc in U mode with a new vector run, and one with a frame resumes from it. A continuation whose exit has drained, or
whose abandoned work has ended, retires. A pre-emption stops hart 0 at its present boundary when another continuation is READY,
with a loop draining from its next loop-back; without a drain point for 4,096 clk it is forced; its capture writes the frame. A store
group open for 4,096 clk aborts with TIMEOUT. From ACTIVATE to COMMIT of a hand-over hart 1 journals its decisions (R141, R205 to R208,
R219, R261, R379, R380, R407). Which decisions are journalled, each with one record, is the model's choice, log 83; when a pre-emption
may be asked for, forced and captured, and with which KIND, is log 61's; what a resumed wait goes on with is log 75's. -/
def Obligations.ContinuationAndPreemptionEventsComplete : Prop :=
  (∀ (s : State) (n cid : Nat),
     let t := s.takeSlot n cid
     let back (u : State) : Prop :=
       t.restoreFor n cid = .ok (u, true) ∨ ((s.cont cid).saved = [] ∧ (∀ x ∈ (t.core n).wbOut, x.2.ctx ≠ (t.cont cid).ctx) ∧ u = t)
     (s.hart (2 * n)).cont = none → s.coreOk n = true → s.hoPaused 1 n = false → s.firstOf (s.readyOn n) = some cid → ∀ u, back u →
       ((u.cont cid).frame = none →
         decides s 1 (u.startOn n cid) (.continuationChoice n) ∧
         (let h := (u.startOn n cid).hart (2 * n)
          h.pc = (u.cont cid).pc ∧ h.mode = .u ∧ h.cont = some cid ∧ h.ctx = (u.cont cid).ctx ∧
            h.again = (u.cont cid).wait ∧ ((u.startOn n cid).cont cid).stat = .running ∧ (u.startOn n cid).mem = u.mem ∧
            ∀ k, k ≠ 2 * n → (u.startOn n cid).hart k = u.hart k)) ∧
       (∀ fr w, (u.cont cid).frame = some fr → u.vAlone n cid = true →
         u.restoreFrame (2 * n) cid { fr.hart with csr := (u.hart (2 * n)).csr, instret := (u.hart (2 * n)).instret } fr false = .ok (.ok w) →
         decides s 1 (w.tookWalk (.hart (2 * n))) (.continuationChoice n))) ∧
  (∀ (s : State) (cid : Nat),
     let c := s.cont cid
     (c.ending = true ∧ c.live = [] ∧ c.bred = none ∨
       c.ending = false ∧ c.stat = .suspended ∧ c.wait = .exit ∧ c.outst = [] ∧ c.faulted = [] ∧ c.unsaved = none) →
     recorded s c.lid → (∀ p ∈ s.launches, p.2.orphan = true → recorded s p.1) →
       ∃ t, s.retireCont cid = .ok t ∧ exec (.continuationRetire cid) s = .next (t.tookWalk .part) ∧
         (t.cont cid).stat = (if c.ending then .faulted else .retired) ∧ (t.cont cid).live = [] ∧ (t.cont cid).outst = []) ∧
  (∀ (s : State) (n cid : Nat), s.runningU n = some cid →
     let co := s.core n
     let run := s.frameRun cid
     let v := s.vrun run
     (co.preempt = .none → s.readyOn n ≠ [] → s.coreOk n = true → s.hoPaused 1 n = false →
       decides s 1 ((s.setVrun run { v with loop := v.loop.map fun l =>
         { l with n := min (l.pass + 1) l.n, left := l.left + (l.n - min (l.pass + 1) l.n), drain := true } }).setCore n { co with preempt := .asked })
         (.preemptRequest n)) ∧
     (co.preempt = .asked → v.loop = none → s.captureKind n cid ≠ some (1, true) →
       exec (.preemptForceTimeout n) s = .next (s.setCore n { co with preempt := .force })) ∧
     (∀ kind clear, s.captureKind n cid = some (kind, clear) → co.preempt ≠ .none → (s.queued n cid).length ≤ 2048 → (s.cont cid).bred = none →
       exec (.preemptCapture n) s = .next (s.capture n cid kind clear))) ∧
  (∀ (s : State) (n : Nat), (s.hart n).group.opened = true → (s.hart n).group.code = 0 →
     exec (.sgTimeout n) s = .next (s.setHart n { s.hart n with
       group := { (s.hart n).group with code := 8, detail := 0, idx := 0, ld := false } }))

/-! ## Translation (R8, R26, R46 to R53) -/

/-- A free walker takes the oldest miss of its die and a compute die counts the walk; a walk that finds a leaf puts it into the caches of
all that wait for its page, and the pointers that led to it into its die's page-walk cache, and ends their misses; one that faults
keeps its fault for its requesters and caches nothing. An invalidation is numbered when the host or a hart in M mode writes it, held
while 64 are pending, and refused to others with PRIV; the oldest completes once no open store group holds a store translated
with an entry that it covers, and drops those entries. The interleave lock is set by a write of 1 to a valid map alone. -/
def Obligations.WalksAndInvalidationsComplete : Prop :=
  ∀ (s : State) (die w : Nat) (m : Miss) (q : List Miss),
    (takeMiss die s.missq = some (m, q) → (s.walks.filter fun x => x.die == die).length < walkersOf die →
      let t : State := { s with missq := q, walks := s.walks ++ [m] }
      exec (.pageWalkStart die) s = .next (if die < 2 then t.radd (oMMU + 0xD0 + die * 0x1000000) 1 else t)) ∧
    (takeWalk die w s.walks = some (m, q) →
      (∀ l via, walk s die m.ctx (m.vpn * 65536) = .leaf l via →
        let took (x : Miss) : Bool := x.ctx == m.ctx && covers ⟨0, m.ctx, m.vpn, l⟩ x.vpn
        let t : State := { s with walks := q, missq := s.missq.filter fun x => !took x }
        exec (.pageWalkComplete die w) s = .next
          ((m.who ++ (s.missq.filter took).flatMap Miss.who).foldl (fun t x => t.fillFor m.ctx m.vpn l x) (via.foldl State.fillWalk t))) ∧
      (∀ c lvl pte d, walk s die m.ctx (m.vpn * 65536) = .fail c lvl pte d → exec (.pageWalkComplete die w) s = .next { s with
        walks := q, walkFault := s.walkFault ++ m.who.map fun x => ⟨x, m.ctx, m.vpn, c, lvl, pte, d⟩ })) ∧
    (∀ ag,
      let all (o : Nat → Out) : Prop := exec (.mmuInvContext ag) s = o 0 ∧ exec (.mmuInvPage ag) s = o 1 ∧ exec (.mmuInvAll ag) s = o 2
      (s.regMay ag = true → s.invals.length < 64 → all fun op => .next (({ s with
        invals := s.invals ++ [(⟨op, s.rget (oMMU + 0x90) 0, s.rget (oMMU + 0x98) 0⟩ : Inval)] } : State).radd (oMMU + 0xA8) 1)) ∧
      (s.regMay ag = true → 64 ≤ s.invals.length → all fun _ => .fault .notEnabled) ∧
      (s.regMay ag = false → all fun _ => .next { s with reply := ⟨[], some ((s.regReq ag .store 0 4).fault winBase .priv 7 0 0)⟩ })) ∧
    (∀ i is, s.invals = i :: is → (∀ p ∈ s.harts, i.holds p.2 = false) → exec .invalidationComplete s =
      .next ({ s with invals := is, tlb := s.tlb.filter fun e => !i.covers e
                      walkCache := s.walkCache.filter fun e => !i.coversWalk e }.radd (oMMU + 0xB0) 1)) ∧
    (∀ v : BitVec 32, exec (.mmuIlvLockWrite v) s = .next (if bit v.toNat 0 = true ∧ s.locked = false then
      (if ilvValid s then s.rset (oMMU + 0x80) 1 else s.rset (oMMU + 0x88) 1) else s))

/-! ## Streams (R28, R155 to R162, R210 to R218) -/

namespace Sys2Proof.Machine

/-- `t` is `s` with the head record of a stream's queue taken, and its oldest spilled record, which can be read, refilled (R210, R437). -/
def headTaken (s : State) (st : Nat) (t : State) : Prop :=
  let x := s.stream st
  let y := { x with hw := x.hw.drop 1, popped := x.popped + 1, copies := x.copies.filter fun p => x.popped < p.1 }
  (x.spilled = 0 ∧ t = s.setStream st y) ∨
  (x.spilled ≠ 0 ∧ ∃ r, rdBytes s (feAgent (s.streamCtx st)) .engRead (s.spillAddr st (x.placed - x.spilled)) 64 = .ok r ∧
    t = s.setStream st { y with hw := y.hw ++ [r], spilled := x.spilled - 1 })

/-- The storage that R428 fixes for every launch that could bind at a core is free, and the launch's iterations are those of a loop
nest. -/
def roomFor (s : State) (core : Nat) : Prop :=
  ∀ p ∈ s.launches, s.canBind p.2 core = true →
    let l := s.launch p.1
    l.isList = false ∧ l.nslab ≤ 60 ∧ l.nacc ≤ 1 ∧
      ∀ r ∈ (s.freeSlots core).take l.gsize, ∀ q ∈ fixedPieces r l.nslab l.nacc, s.pieceFree core q = true

/-- The rows of the four tensors of a picture can be written. -/
def exportable (s : State) (x : Exports) (p : Picture) : Prop :=
  let b : Int := (p.frame % x.nbuf : Nat)
  let e := if p.tenBit then 2 else 1
  let cw := ceilDiv p.width 2
  let bw := ceilDiv p.width 8
  let ok (v : View) (x0 : Int) (bytes : Nat) (rest : List Int) : Prop := rowOk s v false [.engWrite] x0 (bytes / v.e) rest
  (∀ v ∈ [x.luma, x.chroma, x.motion, x.residual], v.aligned 0 v.step = true) ∧
  (∀ y : Nat, y < p.height → ok x.luma 0 (p.width * e) [(y : Int), b]) ∧
  (∀ i : Nat, i < cw * ceilDiv p.height 2 → ok x.chroma 0 (2 * e) [((i % cw : Nat) : Int), ((i / cw : Nat) : Int), b]) ∧
  (∀ i : Nat, i < bw * ceilDiv p.height 8 →
    ok x.motion 0 4 [((i % bw : Nat) : Int), ((i / bw : Nat) : Int), b] ∧
    ok x.residual ((i % bw : Nat) : Int) 2 [((i / bw : Nat) : Int), b])

end Sys2Proof.Machine

/-- A store to an open stream's trigger register sends its argument, and is held while 64 triggers wait; to a closed stream's it is
discarded; a load reads the count of accepted triggers; an access that its checks refuse answers its fault. A trigger that is accepted
enters the queue, is counted and credits the stream's budget, with the sum capped at twice the budget (R28, R212). The model's choices:
that the store to a closed stream is discarded, log 20; that the cap also lowers a credit that stood above it, log 24; and that a store
that is held is not performed yet, log 70. -/
def Obligations.TriggersAreSentAndAccepted : Prop :=
  ∀ (s : State) (ctx st : Nat) (mm : Bool) (va arg : Word) (p : Piece), trigBase ≤ va.toNat → p.tgt = .trig st 0 →
    (plan s (trigReq ctx mm .store va) anyFmt = .ok [p] → s.isOpen st = true →
      ((s.stream st).trigq.length + (s.stream st).sent.length < 64 → exec (.triggerStore ctx mm va arg) s =
        .next { s.setStream st { s.stream st with sent := (s.stream st).sent ++ [⟨arg, false⟩] } with reply := ⟨[], none⟩ }) ∧
      (64 ≤ (s.stream st).trigq.length + (s.stream st).sent.length → exec (.triggerStore ctx mm va arg) s = .fault .notEnabled)) ∧
    (plan s (trigReq ctx mm .store va) anyFmt = .ok [p] → s.isOpen st = false →
      exec (.triggerStore ctx mm va arg) s = .next { s with reply := ⟨[], none⟩ }) ∧
    (plan s (trigReq ctx mm .load va) anyFmt = .ok [p] →
      exec (.triggerCountLoad ctx mm va) s = .next { s with reply := ⟨leBytes 8 (s.stream st).accepted, none⟩ }) ∧
    (∀ f, (plan s (trigReq ctx mm .store va) anyFmt = .error (.flt f) →
        exec (.triggerStore ctx mm va arg) s = .next { s.noted f with reply := ⟨[], some f⟩ }) ∧
      (plan s (trigReq ctx mm .load va) anyFmt = .error (.flt f) →
        exec (.triggerCountLoad ctx mm va) s = .next { s.noted f with reply := ⟨[], some f⟩ })) ∧
    (∀ t ts, (s.stream st).sent = t :: ts →
      let x := s.stream st
      let b : Int := s.rget (oFeStr st + 0x10) 0
      exec (.triggerAccept st) s = .next (((s.setStream st { x with
        sent := ts, trigq := x.trigq ++ [t], accepted := (x.accepted + 1) % 2 ^ 64, credited := x.credited + 1 }).setCredit st
          (min (s.credit st + b) (2 * b))).unready st))

/-- A stream opens with its counts, log positions and layer records reset and its layer table held, and closes with its queues emptied
and a run in progress going on; its BITS record goes to the decode engine, or is discarded when the stream is stopped, its LAUNCH record is
submitted, and a bad record is discarded and counted. A core's binding opportunity binds an iteration or a gang of the stream that
Badger selects. A stream that has been ready for 50 ms has aged. A decode engine takes the BITS record of the first stream by class
and cyclic order; a picture is output to its handles and triggers its stream. A write of the log's tail stands at once (R155 to R162, R183,
R210 to R218, R392; that the binding is a decision with one record in the journal is the model's choice, log 83). -/
def Obligations.StreamEventsComplete : Prop :=
  ∀ (s : State) (st : Nat) (v : BitVec 32), st < 128 →
    let x := s.stream st
    let ctx := s.streamCtx st
    (s.isOpen st = false → bit v.toNat 16 = true →
      let y := { Stream.reset with run := x.run, deficit := x.deficit, aged := x.aged, ready := x.ready, credited := x.credited, shed := x.shed }
      reaches s (owlAgent ctx) .engRead (s.rget (oCmuS st 0) 0) 2048 → reaches s (owlAgent ctx) .engWrite (s.rget (oCmuS st 0x30) 0) 64 →
      (∀ l < 64, reaches s (owlAgent ctx) .engWrite (s.metaAddr st l) 64) →
      ∃ t, s.openStream st v.toNat = .ok t ∧ exec (.streamOpen st v) s = .next (t.tookWalk .part) ∧ t.isOpen st = true ∧
        t.cmuFrame st = 0 ∧ (∀ k, k ≠ st → t.stream k = s.stream k) ∧
        (allows s (owlAgent ctx) .engRead [(s.rget (oCmuS st 0) 0, 2048)] →
          (∀ l < 64, allows s (owlAgent ctx) .engWrite [(s.metaAddr st l, 64)]) →
          ∃ bs, rdBytes s (owlAgent ctx) .engRead (s.rget (oCmuS st 0) 0) 2048 = .ok bs ∧ t.stream st = { y with layers := layerRows 64 0 bs } ∧
            t.isStopped st = false)) ∧
    (s.isOpen st = true → exec (.streamClose st) s = .next ((s.setStream st { x with
      hw := [], spilled := 0, copies := [], sent := [], trigq := [], bits := [], taken := [], layers := [] }).rset (oFeStr st)
        (setBits (s.feStr st) 16 16 0))) ∧
    (∀ b q t, x.hw = b :: q → headTaken s st t →
      (isBits b = true → s.isStopped st = false → x.bits.length + x.taken.length < 8 →
        exec (.queueBitsRecord st) s = .next ((t.setStream st { t.stream st with
          bits := (t.stream st).bits ++ [⟨recAddr b, recLen b, bit (recFlags b) 0, BitVec.ofNat 64 (recAux b)⟩] }).tookWalk .part)) ∧
      (isBits b = true → s.isStopped st = true → exec (.queueBitsRecord st) s = .next ((t.rinc32 (oFeStr st + 0x28)).tookWalk .part)) ∧
      (recOk b = false → exec (.queueBadRecord st) s = .next ((t.rinc32 (oFeStr st + 0x28)).tookWalk .part)) ∧
      (isLaunchRec b = true → ∀ bs a,
        let u : Submit := ⟨ctx, some st, recAux b, none, 0, false, none, 0⟩
        lookupT x.copies x.popped = some (.read bs) ∨
          (lookupT x.copies x.popped = none ∧ rdBytes t (feAgent ctx) .engRead (recAddr b) 256 = .ok bs) →
        legalLaunch t (u.launch bs) a → exec (.queueLaunchRecord st) s = .next ((withLaunch t u bs a).tookWalk .part))) ∧
    (∀ core, s.feOn = true →
      (∀ t, s.opportunity core = .ok (some t) → decides s 1 t (.bindingOpportunity core)) ∧
      (s.isReady st = true → (∃ p ∈ s.launches, p.2.stream = some st ∧ s.canBind p.2 core = true) → roomFor s core →
        ∃ t, s.opportunity core = .ok (some t))) ∧
    (s.isReady st = true → x.aged = false →
      exec (.streamAging st) s = .next (s.setStream st { x with aged := true, ready := true })) ∧
    (∀ eng,
      let ws := (List.range 128).filter fun k => s.isOpen k && s.strEng k == eng && !s.isStopped k && !(s.stream k).bits.isEmpty
      let cl := ws.filter fun k => s.effClass k == s.effClass st
      let p := tget 0 s.decPtr (4 * eng + s.effClass st)
      bit (s.rget (oDEC + 0x20000 * eng) 0) 0 = true → s.decUp eng = true → (∀ k ∈ ws, s.effClass st ≤ s.effClass k) →
      (cl.filter (p ≤ ·) ++ cl.filter (· < p)).head? = some st →
      exec (.decodeTakeBits eng) s = .next ({ s with decPtr := tset s.decPtr (4 * eng + s.effClass st) (st + 1) }.setStream st
        { x with bits := x.bits.drop 1, taken := x.taken ++ x.bits.take 1 })) ∧
    (∀ pic b bs, x.taken = b :: bs → s.isOpen st = true → s.isStopped st = false → s.decUp (s.strEng st) = true →
      pic.frame = x.frames → s.bufFree st pic.frame = true →
      let ag := decAgent (s.strEng st) ctx
      (∀ t, s.decodePicture (s.strEng st) st pic b = .ok (some t) → exec (.decodePictureOutput st pic) s = .next (t.tookWalk .part)) ∧
      (∀ w, allows s ag .engRead (cutSpan (b.len / 256 + 2) b.addr b.len) → pic.unsupported = false → pic.width ≤ 8192 → pic.height ≤ 4320 →
        exportViews s ag st = .ok (some w) → w.fit pic.width pic.height (if pic.tenBit then 8 else 7) = true → exportable s w pic →
        pic.damaged = [] → x.trigq.length + x.sent.length < 64 →
        ∃ t, s.decodePicture (s.strEng st) st pic b = .ok (some t) ∧ (t.stream st).frames = x.frames + 1 ∧ (t.stream st).taken = bs ∧
          (t.stream st).sent = x.sent ++ [⟨BitVec.ofNat 64 pic.frame, true⟩])) ∧
    exec (.cmuLogTailWrite st v) s = .next (s.rset (oCmuS st 0x24) v.toNat)

/-! ## Runs of the resident graphs (R212 to R214, R223, R423) -/

namespace Sys2Proof.Machine

/-- Where the pieces of a copied range land: the requests that write them (R214). -/
def landing (d : Nat) : Spans → Spans
  | [] => []
  | x :: xs => spansAt d x.2 ++ landing ((d + x.2) % 2 ^ 64) xs

/-- A run of stream `st` stands at node `i`, whose bytes are `b`, and has not failed. -/
def standsAt (s : State) (st i kind : Nat) (r : GRun) (b : List Byte) : Prop :=
  (s.stream st).run = some r ∧ r.at? = some (i, b) ∧ fieldAt b 0 1 = kind ∧ r.steps < 65536 ∧ r.plan = none ∧ r.relax = none ∧ r.status = 0

/-- The launch of a node is accepted: the run goes on, or waits for it (R214). -/
def launched (s : State) (st i : Nat) (r : GRun) (b bs : List Byte) (a : Nat) : State × GRun :=
  let async := bit (fieldAt b 24 2) 6
  let t := withLaunch s ⟨s.streamCtx st, some st, fieldAt b 16 8, none, 0, async, some r.id, i⟩ bs a
  (t, if async then r.goTo (fieldAt b 2 2) else { r with plan := none, waitFor := some s.nextLid })

/-- The launch of a node passes the checks of R191. -/
def nodeLegal (s : State) (st i : Nat) (r : GRun) (b bs : List Byte) (a : Nat) : Prop :=
  legalLaunch s (Submit.launch ⟨s.streamCtx st, some st, fieldAt b 16 8, none, 0, bit (fieldAt b 24 2) 6, some r.id, i⟩ bs) a

/-- The same after an admission: the factor is to be lowered again when the credit allows (R223). -/
def admitted (s : State) (st i ly cost : Nat) (r : GRun) (b bs : List Byte) (a : Nat) : State :=
  let x := launched s st i r b bs a
  x.1.setRun st (if s.replaying st = true ∨ s.credit st < 2 * (cost : Int) then x.2 else { x.2 with relax := some ly })

end Sys2Proof.Machine

/-- A run starts with the trigger at the head of its queue, at node 0 of its graph, shed or not. A LAUNCH node whose record can be
read and is legal makes its launch, at once or as the planner decides, and with ASYNC = 0 the run then waits for it; a CMU node waits for its
turn at Owl and performs its evaluation; COPY, WAIT, COND, LOOP and SIGNAL have the effect of their kind and pass control to the node
that they name; a node that follows a failure is passed over, and after 65,536 nodes the run ends with FAULT. The planner's wait ends when
the credit suffices, or with a skip and its DEFER record at the next trigger. In the pause of a hand-over neither a run starts nor the
planner decides. A graph that passes its checks is installed (R212 to R214, R222, R223, R403, R416). The model's choices: FAULT on a
reserved operation of COND, and nodes kept as at the run's start, log 58; the journal of the planner's decisions, log 83; when a graph is
read and refused, log 21. -/
def Obligations.GraphRunEventsComplete : Prop :=
  ∀ (s : State) (st i : Nat) (r : GRun) (b : List Byte),
    let x := s.stream st
    let ctx := s.streamCtx st
    let fe := feAgent ctx
    let next := fieldAt b 2 2
    let key := s.owlKey st
    let own := s.operation r.opNum
    let stands (kind : Nat) : Prop := standsAt s st i kind r b
    (∀ t ts, x.trigq = t :: ts → s.feOn = true → (∀ g, x.run = some g → g.node = none ∧ g.relax = none) → s.replaying st = false →
      s.hoWaits 1 = false →
      let v := s.rget (oRAS + 0x70) 0
      let shed := bit v 0 && bits v 2 1 ≤ bits (s.feStr st) 1 0 && x.shed % max (bits v 15 8) 1 != 0
      (shed = true → logRoom s st) →
      ∃ u g, s.startRun st t ts shed = .ok u ∧ exec (.graphRunStart st) s = .next (u.tookWalk .part) ∧
        (u.stream st).trigq = ts ∧ (u.stream st).run = some g ∧ g.arg = t.arg ∧ g.seq = x.runs + 1 ∧ g.status = (if shed then 1 else 0) ∧
        g.nodes = (if bit (s.rget (oFeStr st + 8) 0) 8 then tget [] s.graphs (bits (s.rget (oFeStr st + 8) 0) 7 0) else []) ∧
        g.node = (if g.nodes = [] then none else some 0) ∧ g.steps = 0) ∧
    (stands 1 → r.waitFor = none → bit (fieldAt b 24 2) 5 = false → ∀ rcd a, rdBytes s fe .engRead (fieldAt b 8 8) 256 = .ok rcd →
      nodeLegal s st i r b (nodeRecord r b rcd) a →
      exec (.nodeLaunch st) s = .next (let y := launched s st i r b (nodeRecord r b rcd) a; (y.1.setRun st y.2).tookWalk .part)) ∧
    (stands 1 → r.waitFor = none → bit (fieldAt b 24 2) 5 = true → s.hoWaits 1 = false → ∀ rcd ly li, rdBytes s fe .engRead (fieldAt b 8 8) 256 = .ok rcd →
      let bs := nodeRecord r b rcd
      let l : Launch := { Launch.none with bytes := bs, ctx := ctx, stream := some st }
      r.producer b l = some (ly, li) →
      (∀ t cost a, planLaunch own st ly li l = .ok (t, .grant cost) → (t.stream st).run = some r → nodeLegal t st i r b bs a →
        decides s 1 ((admitted t st i ly cost r b bs a).owlLeave key) (.nodeLaunch st)) ∧
      (∀ t n, planLaunch own st ly li l = .ok (t, .skip n) →
        decides s 1 ((t.setRun st ((r.fail i 1).goTo next)).owlLeave key) (.nodeLaunch st)) ∧
      (∀ t c, planLaunch own st ly li l = .ok (t, .fail c) →
        decides s 1 ((t.setRun st (({ r with cmu := c }.fail i 2).goTo next)).owlLeave key) (.nodeLaunch st)) ∧
      (∀ t cost n, planLaunch own st ly li l = .ok (t, .wait cost n) →
        decides s 1 ((t.setRun st { r with plan := some ⟨cost, (t.stream st).credited, ly, n, bs⟩ }).owlLeave key) (.nodeLaunch st))) ∧
    (stands 1 → ∀ lid, r.waitFor = some lid → (s.launch lid).finished = true →
      exec (.nodeLaunch st) s = .next (s.setRun st (r.goTo next))) ∧
    (∀ p, x.run = some r → r.relax = none → r.plan = some p → r.at? = some (i, b) → s.hoWaits 1 = false →
      (∀ a, (p.cost : Int) ≤ s.credit st → nodeLegal s st i r b p.rcd a →
        decides s 1 ((admitted s st i p.layer p.cost r b p.rcd a).owlLeave key) (.plannerWaitEnd st)) ∧
      (s.credit st < (p.cost : Int) → x.credited ≠ p.trigs →
        let w := own.setRun st ((r.fail i 1).goTo next)
        ∀ ls, allows s (s.owl st) .engRead [(s.metaAddr st p.layer, 64)] → rdBytes s (s.owl st) .engRead (s.metaAddr st p.layer) 64 = .ok ls →
          logRoom own st →
          ∃ t, logAppend w st (logRec (s.cmuFrame st) 6 p.layer 0 p.count 0 0 (lsGen ls)) = .ok t ∧
            decides s 1 (t.owlLeave key) (.plannerWaitEnd st))) ∧
    (∀ ly, x.run = some r → r.relax = some ly → s.hoWaits 1 = false → ∀ t, own.nodeRelax st ly r = .ok t → decides s 1 (t.owlLeave key) (.plannerWaitEnd st)) ∧
    (stands 2 → s.owlMay key = false → exec (.nodeCmu st) s = .next (s.owlJoin key)) ∧
    (stands 2 → s.owlMay key = true →
      let ly := bits (fieldAt b 8 2) 5 0
      let li := bits (fieldAt b 10 2) 11 0
      (∀ t c, cmOutcome own (cmEval own st ly li ctx) = .ok (t, c) →
        exec (.nodeCmu st) s = .next ((((t.charge 7 0 ctx (some st) none none).setRun st
          ((if c = 0 then { r with cmu := c } else { r with cmu := c }.fail i 2).goTo next)).owlLeave key).tookWalk .part)) ∧
      (evalReady own st ly li ctx → ∃ t, cmOutcome own (cmEval own st ly li ctx) = .ok (t, 0))) ∧
    (let n := fieldAt b 24 4
     let src := cutSpan (n / 256 + 2) (fieldAt b 8 8) n
     stands 3 →
       (∀ t ok, copySpans fe (fieldAt b 16 8) src s = .ok (t, ok) →
         exec (.nodeCopy st) s = .next (((t.charge 2 0 ctx (some st) none none).setRun st
           ((if ok then r else r.fail i 2).goTo next)).tookWalk .part)) ∧
       (allows s fe .engRead src → allows s fe .engWrite (landing (fieldAt b 16 8) src) →
         ∃ t, moved s t ∧ copySpans fe (fieldAt b 16 8) src s = .ok (t, true))) ∧
    (stands 4 → bit (fieldAt b 8 8) 0 = false → s.runDrained r.id true = true →
      exec (.nodeWait st) s = .next (s.setRun st (r.goTo next))) ∧
    (stands 4 → bit (fieldAt b 8 8) 0 = true → ∀ v, rdBytes s fe .engRead (fieldAt b 16 8) 8 = .ok v →
      exec (.nodeWait st) s = .next ((if fieldAt b 24 8 ≤ leNat v then s.setRun st (r.goTo next) else s).tookWalk .part)) ∧
    (stands 5 → ∀ v, (fieldAt b 8 2 = 0 ∧ v = r.arg.toNat) ∨ (fieldAt b 8 2 = 1 ∧ v = tget 0 r.counts (fieldAt b 10 2)) ∨
        (fieldAt b 8 2 = 2 ∧ ∃ bs, rdBytes s fe .engRead (fieldAt b 16 8) 8 = .ok bs ∧ v = leNat bs) ∨ (fieldAt b 8 2 = 3 ∧ v = r.cmu) →
      let k := fieldAt b 24 8
      let go (c : Prop) [Decidable c] : Out := .next ((s.setRun st (r.goTo (if c then fieldAt b 14 2 else next))).tookWalk .part)
      (fieldAt b 12 2 = 0 → exec (.nodeCond st) s = go (v = k)) ∧ (fieldAt b 12 2 = 1 → exec (.nodeCond st) s = go (v ≠ k)) ∧
      (fieldAt b 12 2 = 2 → exec (.nodeCond st) s = go (v < k)) ∧ (fieldAt b 12 2 = 3 → exec (.nodeCond st) s = go (k ≤ v)) ∧
      (3 < fieldAt b 12 2 → exec (.nodeCond st) s = .next ((s.setRun st ((r.fail i 2).goTo next)).tookWalk .part))) ∧
    (stands 6 → exec (.nodeLoop st) s = .next (s.setRun st
      (let n := tget 0 r.counts i + 1
       if n < fieldAt b 8 2 then { r with counts := tset r.counts i n }.goTo (fieldAt b 10 2)
       else { r with counts := tset r.counts i 0 }.goTo next))) ∧
    (x.run = some r → r.at? = some (i, b) → fieldAt b 0 1 = 7 → r.steps < 65536 → r.plan = none → r.relax = none →
      (r.status = 0 ∨ bit (fieldAt b 16 8) 3 = true) → s.runDrained r.id false = true → reaches s fe .engWrite (fieldAt b 8 8) 32 →
      ∃ t w, s.feWrite ctx (fieldAt b 8 8) (runRecord s st r) = .ok (t, w) ∧
        exec (.nodeSignal st) s = .next ((t.setRun st (r.goTo next)).tookWalk .part)) ∧
    (x.run = some r → r.at? = some (i, b) → r.steps < 65536 → r.plan = none → r.relax = none → r.status ≠ 0 → r.waitFor = none →
      let passes (kind : Nat) (e : Instr) : Prop := fieldAt b 0 1 = kind → exec e s = .next (s.setRun st (r.goTo next))
      passes 1 (.nodeLaunch st) ∧ passes 2 (.nodeCmu st) ∧ passes 3 (.nodeCopy st) ∧ passes 4 (.nodeWait st) ∧ passes 5 (.nodeCond st) ∧
        passes 6 (.nodeLoop st) ∧ (bit (fieldAt b 16 8) 3 = false → passes 7 (.nodeSignal st))) ∧
    (x.run = some r → r.node = some i → 65536 ≤ r.steps →
      exec (.runNodeLimit st) s = .next (s.setRun st { r with status := 2, snode := i, node := none, plan := none, waitFor := none })) ∧
    (∀ cmd : BitVec 32,
      let n := bits cmd.toNat 16 8 + 1
      let a := s.rget (oFE + 0x10) 0
      (s.gload = none → s.graphInUse (cmd.toNat % 256) = false →
        exec (.graphLoad cmd) s = .next ({ s with gload := some (cmd &&& 0x1FFFF) }.rset (oFE + 0x1C) 1)) ∧
      (s.gload = none → s.graphInUse (cmd.toNat % 256) = true → exec (.graphLoad cmd) s = .next (s.rset (oFE + 0x1C) 11)) ∧
      (s.gload = some cmd → exec .graphLoadComplete s = .next (s.graphDone cmd.toNat)) ∧
      (s.gload = some cmd → s.graphInUse (bits cmd.toNat 7 0) = false → n ≤ 256 → a + 64 * n ≤ hbmEnd → ueIn s.ue a (64 * n) = false →
        fencedAt s (n + 1) a (a + 64 * n) = none → badNode n 0 (chunksOf 64 n (mgets s.mem a (64 * n))) = none →
        exec .graphLoadComplete s = .next ({ s with
          gload := none, graphs := tset s.graphs (bits cmd.toNat 7 0) (chunksOf 64 n (mgets s.mem a (64 * n))) }.rset (oFE + 0x1C) 2)))

/-! ## Power, errors and fencing (R119, R221, R222, R417 to R424) -/

/-- CSM_POOL_ADD adds 256 chunks to a die's pool; RAS_SHED takes its defined bits, and setting EN restarts the counts; the ramp limiter
counts a window and, with EN set, keeps the issue count within one step of the last; the EAU counts an interval's rail energy and, with
RECON, sets its factor to the limited ratio of rail to table energy (the energy of hart 1 and of the hub die is a free value, log 12); a
power or temperature above its limit makes the part throttle and set THROTTLE, and it stops when the condition clears; 110 °C held
stops the part with record 8 in the log; a scrub of a good location changes nothing but, for a weak row, the log, and of a lost tile it
reports the tile; a unit leaves service by the steps of R420, a decision of management firmware (R119, R184, R221, R222, R407, R417 to R424).
Further choices of the model: where and when errors are found, and the log's DETAIL of a weak row, log 64; the ramp's ceiling while the
part throttles, log 65; that a fence is a decision with one record in the journal, log 83. -/
def Obligations.PowerAndErrorEventsComplete : Prop :=
  ∀ (s : State) (die demand rail power temp loc n : Nat),
    (∀ v : Word, exec (.csmPoolAdd die v) s = .next { s with
      pool := setDie s.pool die (s.pool.getD die [] ++ (List.range 256).map fun i => bits v.toNat 47 16 * 65536 + 256 * i) }) ∧
    (∀ v : BitVec 32, ∃ t, exec (.rasShedWrite v) s = .next t ∧ t.rget (oRAS + 0x70) 0 = v.toNat &&& 0xFF07 ∧
      (bit v.toNat 0 = true → ∀ p ∈ t.streams, p.2.shed = 0) ∧ (bit v.toNat 0 = false → t.streams = s.streams)) ∧
    (∃ t, exec (.rampWindow die demand) s = .next t ∧ t.mem = s.mem ∧ t.harts = s.harts ∧
      (die < 2 → bit (s.rget (oRamp die) 1) 0 = true → s.rget (oRamp die + 0x10) 0 < 2 ^ 63 → s.rget (oRamp die + 8) 12600 < 2 ^ 62 →
        t.rget (oRamp die + 0x10) 0 ≤ s.rget (oRamp die + 0x10) 0 + s.rget (oRamp die + 8) 12600 ∧
        s.rget (oRamp die + 0x10) 0 ≤ t.rget (oRamp die + 0x10) 0 + s.rget (oRamp die + 8) 12600)) ∧
    (let w := s.draw.1.toNat
     let f := s.rget (oEAU + 8) 0x10000
     let v := ({ (s.draw.2.eauAdd (oEAU + 0x18) (w * f)).1 with eauSum := 0 } : State).radd (oEAU + 0x10) rail
     let t := s.eauSum + w
     (bit (s.rget oEAU 1) 0 = false → exec (.eauInterval rail) s = .next v) ∧
     (bit (s.rget oEAU 1) 0 = true → t ≠ 0 → exec (.eauInterval rail) s =
       .next (v.rset (oEAU + 8) (max 0x8000 (min 0x20000 (divRne (rail * 1000 * 2 ^ 16) t))))) ∧
     (bit (s.rget oEAU 1) 0 = true → t = 0 → ∃ x, 0x8000 ≤ x ∧ x ≤ 0x20000 ∧ exec (.eauInterval rail) s = .next (v.draw.2.rset (oEAU + 8) x))) ∧
    (10 * s.rget (oEAU + 0x6000) 550 < power ∨ 100 ≤ temp →
      exec (.powerLimitThrottle power temp) s = .next { (s.measured power temp).ror (oRAS + 0x78) 4 with throttling := true }) ∧
    (s.throttling = true → power ≤ 10 * s.rget (oEAU + 0x6000) 550 → temp < 100 →
      exec (.throttleConditionClear power temp) s = .next { s.measured power temp with throttling := false }) ∧
    (110 ≤ s.rget (oEAU + 0x6010) 0 → exec .thermalTrip s = .next { (s.logRecord 8 0 0).replaceReq 8 with halted := true }) ∧
    (∀ weak : Bool,
      let u := if weak = true ∧ loc < hbmEnd then s.logRecord 2 (channelOf s loc) (loc + 2 ^ 63) else s
      (ueIn s.ue loc 1 = false → exec (.backgroundScrub loc weak) s = .next u) ∧
      (ueIn s.ue loc 1 = true → u.reuseTiles loc = [] →
        exec (.backgroundScrub loc weak) s = .next ((u.operation (2 ^ 128 + loc)).tookWalk .part)) ∧
      (ueIn s.ue loc 1 = true → ∀ t, foldE (fun v x => v.scrubTile x.1 x.2.1 x.2.2) (u.reuseTiles loc) (u.operation (2 ^ 128 + loc)) = .ok t →
        exec (.backgroundScrub loc weak) s = .next (t.tookWalk .part))) ∧
    (∀ (kind : UnitKind) (reason : BitVec 8), s.unitUp kind n = true → reason.toNat = fenceReason kind →
      (List.range 4).all (s.hoPaused 0) = false →
      (∀ t, s.fence kind n reason.toNat = .ok t → decides s 0 t (.unitFence kind n reason)) ∧
      (heard s → (kind = .core → (s.hart (2 * n)).cont = none) → (kind = .decoder → ∃ e < 8, e ≠ n ∧ bit (s.rget (oRAS + 0x40) 0xFFF) e = true) →
        ∃ t, s.fence kind n reason.toNat = .ok t ∧ t.unitUp kind n = (kind == .link && s.unitUp .link (2 * n))))

/-! ## Resets, firmware and keys (R401 to R416, R426) -/

namespace Sys2Proof.Machine

/-- `t` is `s` fallen back with a reason: FALLBACK is shown, the harts of the kind have started the old image, when it is resident, at
its fallback entry, and its firmware has the journal to replay before the hand-over is over (R403, R408). -/
def fellBack (s : State) (k reason : Nat) (t : State) : Prop :=
  t = s.hoFallback k reason ∧ t.hoState k = 7 ∧ bits (t.rget (oHo k + 4) 0) 15 8 = reason ∧
    (t.handOver k).todo = [.replay 0, .back] ∧ t.mem = s.mem ∧
    ∀ d, (s.handOver k).old = some d → ∀ n ∈ s.fwHarts k, (t.hart n).pc = (Config.imageEntry d).2 ∧ (t.hart n).mode = .m

/-- `t` is `s` with the hand-over aborted with a reason: ABORTED is shown until its firmware has taken the image back (R403). -/
def gaveUp (s : State) (k reason : Nat) (t : State) : Prop :=
  t = s.hoAborted k reason ∧ t.hoState k = 8 ∧ bits (t.rget (oHo k + 4) 0) 15 8 = reason ∧ (t.handOver k).todo = [.back] ∧
    t.mem = s.mem ∧ t.harts = s.harts

end Sys2Proof.Machine

/-- A cold reset keeps flash alone and boots: every hart is as after reset but for the entry at which its image starts; loss of power
keeps flash alone and stops the part; a boot probation that runs out resets the part; a function-level reset abandons the tenant's
continuations, closes its streams and disables its function's rings; a heartbeat in ACTIVATE, the new image having started, ends it and
clears its misses; a period without one counts a miss, of which the third in PROBATION makes the hand-over fall back and the third
elsewhere resets the part; a NACK in ACTIVATE or PROBATION makes it fall back, and elsewhere changes nothing. A key load takes the 32
bytes at its address into its slot, for its tenant, and overwrites them with zeros, once the interleave is locked and the tenant
attested; otherwise FW_KEY_STAT gives the reason and no slot changes; CLEAR empties the slot. GET_MEASUREMENTS answers the signed blocks
and attests its tenant (R401, R402, R408, R411 to R413, R426). The model's choices: that the link is untrained after a cold reset,
log 36; CLEAR of slot 0 and the reasons of a refused LOAD, log 74; when the new image counts as started, log 30; and the registers with
which an image starts, log 89. -/
def Obligations.ResetsHeartbeatsAndKeysComplete : Prop :=
  (∀ (s : State) (inp : BootInputs) (k f : Nat),
     exec (.coldReset inp) s = .next (s.coldReset inp) ∧
     (let t := s.coldReset inp
      (∀ n, t.hart n = { State.reset.hart n with pc := (t.hart n).pc }) ∧ (∀ n < 192, (t.hart (2 * n)).pc = (State.reset.hart (2 * n)).pc) ∧
        t.conts = State.reset.conts ∧ t.streams = State.reset.streams ∧ t.tlb = [] ∧ t.halted = false ∧ t.rget (oHL + 0x200) 0 = 0) ∧
     (∃ t, exec .powerLoss s = .next t ∧ t.halted = true ∧ t.mem = s.mem.filter (fun c => flashLoc 0 ≤ c.1) ∧ t.harts = State.reset.harts) ∧
     (bit (s.rget (oHo k + 0x28) 0) 1 = true → exec (.bootProbationTimeout k inp) s = .next (s.coldReset inp)) ∧
     (1 ≤ f → f < 17 →
       (∀ r < 8, s.ringOn f r = true → bit (s.ringCtl f r) 8 = true →
         reaches s (feAgent (s.fnCtx f)) .engWrite (s.rget (oRing f r + 0x18) 0) 8) →
       ∃ t, exec (.functionLevelReset f) s = .next t ∧ (∀ r < 8, t.ringOn f r = false) ∧
         (∀ st < 128, s.streamTenant st = f - 1 → t.isOpen st = false) ∧
         (∀ p ∈ s.conts, p.2.alive = true → s.tenantOf p.2.ctx = f - 1 → (s.cont p.1) = p.2 → (t.cont p.1).alive = false)) ∧
     (s.hoState k = 4 → (s.handOver k).todo = [] → exec (.hbwBeat k) s = .next
       (((s.setHo k 5 0).setHandOver k { s.handOver k with beats := 1 }).rset (oHBW + 0x50 + 8 * k) 0)) ∧
     (s.hoState k ≠ 4 ∨ (s.handOver k).todo ≠ [] →
       exec (.hbwBeat k) s = .next (s.setHandOver k { s.handOver k with beats := (s.handOver k).beats + 1 })) ∧
     (s.hoState k ≠ 4 → s.hoState k ≠ 5 → exec (.hbwNack k) s = .next s) ∧
     (s.hoState k = 4 ∨ s.hoState k = 5 → ∃ t, fellBack s k 6 t ∧ exec (.hbwNack k) s = .next t) ∧
     (bit (s.rget oHBW 1) 0 = true →
       let m := s.rget (oHBW + 0x50 + 8 * k) 0
       let past (n : Nat) : State := (s.setHandOver k { s.handOver k with beats := 0 }).rset (oHBW + 0x50 + 8 * k) n
       ((s.handOver k).beats ≠ 0 → exec (.heartbeatPeriodEnd k inp) s = .next (past 0)) ∧
       ((s.handOver k).beats = 0 → m < 2 → exec (.heartbeatPeriodEnd k inp) s = .next (past (m + 1))) ∧
       ((s.handOver k).beats = 0 → 2 ≤ m →
         (s.hoState k = 5 → ∃ t, fellBack (past (m + 1)) k 5 t ∧ exec (.heartbeatPeriodEnd k inp) s = .next t) ∧
         (s.hoState k ≠ 5 → exec (.heartbeatPeriodEnd k inp) s =
           .next ((((past (m + 1)).logRecord 7 k 0).replaceReq 7).coldReset inp))))) ∧
  (∀ (s : State),
     let slot := bits (s.rget 0x3008 0) 7 0
     let ten := bits (s.rget 0x3008 0) 11 8
     let a := bits (s.rget 0x3000 0) 47 5 * 32
     let whole := a + 32 ≤ hbmEnd ∧ ueIn s.ue a 32 = false ∧ s.chanOk (channelOf s a) = true
     (s.locked = true → slot ≠ 0 → s.attested.contains ten = true → whole →
       exec .fwKeyLoad s = .next (({ s with keys := tset s.keys slot (mgets s.mem a 32, ten) }.putLoc .part a (List.replicate 32 0)).keyStat slot 2 0)) ∧
     (s.locked = false → exec .fwKeyLoad s = .next (s.keyStat slot 3 1)) ∧
     (s.locked = true → slot = 0 → exec .fwKeyLoad s = .next (s.keyStat slot 3 2)) ∧
     (s.locked = true → slot ≠ 0 → s.attested.contains ten = false → exec .fwKeyLoad s = .next (s.keyStat slot 3 3)) ∧
     (s.locked = true → slot ≠ 0 → s.attested.contains ten = true → ¬ whole → exec .fwKeyLoad s = .next (s.keyStat slot 3 4)) ∧
     exec .fwKeyClear s = .next ({ s with keys := tdel s.keys slot }.keyStat slot 2 0) ∧
     (∀ ten, ∃ t, exec (.getMeasurements ten) s = .next t ∧ t.reply = ⟨s.measurements, none⟩ ∧ ten ∈ t.attested ∧
       (∀ k ∈ s.attested, k ∈ t.attested) ∧ t.mem = s.mem ∧ t.regs = s.regs))

/-- The hand-over moves as its state machine says. PREPARE leaves IDLE when no other kind is under way, and is BUSY otherwise; START
enters QUIESCE once verification has succeeded, and EXPORT at once when every unit already stands at the barrier; the last unit to arrive
there enters EXPORT; the end of the export enters ACTIVATE with the TRIAL marker and the new image's start to come, or falls back after an
ABORT; timeouts and ABORT go to ABORTED or FALLBACK; the end of probation enters COMMIT, or confirms a boot. Firmware then does one thing
after another of what it has to do, of which the last leaves COMMIT, with the new version running, FALLBACK or ABORTED for IDLE; a FALLBACK
that lasts 60 ms resets the part (R402 to R404, R408, R410, R411). The steps in which firmware does its work, and that the states that it
ends are shown meanwhile, are the model's choice, log 30. -/
def Obligations.HandOverEventsComplete : Prop :=
  ∀ (s : State) (k u : Nat) (inp : BootInputs), k < 3 →
    let h := s.handOver k
    let gathered := ∀ w ∈ s.hoUnits k, w ∈ h.arrived
    let sl := 1 - s.bootSlot k
    let ver := BitVec.ofNat 32 (s.imageHead k sl).version
    let falls (i : Instr) (reason : Nat) : Prop := ∃ t, fellBack s k reason t ∧ exec i s = .next t
    let aborts (i : Instr) (reason : Nat) : Prop := ∃ t, gaveUp s k reason t ∧ exec i s = .next t
    (s.hoActive = false → ∃ t, exec (.hoPrepare k) s = .next t ∧ t.hoState k = 1 ∧
      (t.handOver k).verified = false ∧ (t.handOver k).todo = [.stage 0] ∧ t.mem = s.mem ∧ t.harts = s.harts) ∧
    (s.hoActive = true → exec (.hoPrepare k) s = .next (s.hoBusy k)) ∧
    (s.hoState k = 1 →
      (h.verified = false → exec (.hoStart k) s = .next (s.setHandOver k { h with start := true })) ∧
      (h.verified = true → ¬ gathered → exec (.hoStart k) s = .next (s.setHo k 2 0)) ∧
      (h.verified = true → gathered → exec (.hoStart k) s = .next ((s.setHo k 2 0).setHo k 3 0))) ∧
    (s.hoState k = 1 ∨ s.hoState k = 2 → aborts (.hoAbort k) 7) ∧
    (s.hoState k = 3 → exec (.hoAbort k) s = .next (s.setHandOver k { h with abortReq := true })) ∧
    (s.hoState k = 4 ∨ s.hoState k = 5 → falls (.hoAbort k) 7) ∧
    (s.hoState k = 0 ∨ 6 ≤ s.hoState k → exec (.hoAbort k) s = .next s) ∧
    (s.hoState k = 1 → h.verified = false → h.todo = [] →
      (s.slotVerifies k sl = true →
        (∀ t, s.hoVerified k = .ok t → exec (.hoVerifyDone k true ver) s = .next ((t.hoGathered k).tookWalk .part)) ∧
        (heard s → ∃ t, s.hoVerified k = .ok t ∧ t.hoState k = (if h.start then 2 else 1) ∧ (t.handOver k).verified = true ∧
          t.pendVer k = (s.imageHead k sl).version % 2 ^ 32 ∧ tget 0 t.measNext k = s.imageDigest k sl)) ∧
      (s.slotVerifies k sl = false → ∀ w, aborts (.hoVerifyDone k false w) 1)) ∧
    (s.hoState k = 2 → u ∈ s.hoUnits k → u ∉ h.arrived → ∃ v, exec (.hoBarrierArrive k u) s = .next v ∧
      (v.handOver k).arrived = h.arrived ++ [u] ∧ v.hoState k = (if ∀ w ∈ s.hoUnits k, w = u ∨ w ∈ h.arrived then 3 else 2)) ∧
    (s.hoState k = 2 → aborts (.hoQuiesceTimeout k) 2) ∧
    (s.hoState k = 3 → ∃ t, exec (.hoExportDone k) s = .next t ∧
      (h.abortReq = true → t.hoState k = 7) ∧
      (h.abortReq = false → t.hoState k = 4 ∧ (t.handOver k).todo = [.erase, .program sl 0 (s.pendVer k) 0, .start] ∧
        (t.handOver k).jrnl = 0 ∧ t.harts = s.harts)) ∧
    (s.hoState k = 3 → aborts (.hoExportTimeout k) 3) ∧
    (s.hoState k = 4 → falls (.hoActivateTimeout k) 4) ∧
    (s.hoState k = 5 → ∃ t, exec (.hoProbationEnd k) s = .next t ∧ t.hoState k = 6 ∧ t.mem = s.mem ∧
      (t.handOver k).todo = [.erase, .program sl 1 (s.pendVer k) m64, .commit]) ∧
    (s.hoState k = 0 → bit (s.rget (oHo k + 0x28) 0) 1 = true → h.todo = [] → exec (.hoProbationEnd k) s =
      .next (s.setHandOver k { h with todo := [.erase, .program (s.bootSlot k) 1 (s.runVer k) m64, .confirm] })) ∧
    (∀ w ws, h.todo = w :: ws → ∀ t, s.hoStep k w ws = .ok t → s.fwTurn k = .next (t.tookWalk .part)) ∧
    (heard s →
      (h.todo = [.commit] → ∃ t, s.fwTurn k = .next t ∧ t.hoState k = 0 ∧ t.runVer k = s.pendVer k ∧ t.pendVer k = 0) ∧
      (h.todo = [.back] → ∃ t, s.fwTurn k = .next t ∧ t.hoState k = 0 ∧ t.runVer k = s.runVer k ∧ t.pendVer k = 0)) ∧
    (s.hoState k = 7 → s.fallbackLate k inp = .next (s.coldReset inp))

/-! ## The host link (R386 to R396) -/

namespace Sys2Proof.Machine

/-- A ring publishes its HEAD in its register alone, or its head shadow need not wait for a walk (R394). -/
def shadowed (s : State) (f r : Nat) : Prop :=
  bit (s.ringCtl f r) 8 = true → reaches s (feAgent (s.fnCtx f)) .engWrite (s.rget (oRing f r + 0x18) 0) 8

/-- Records can be put into the free hardware entries of a stream's queue (R210). -/
def queueFree (s : State) (st n : Nat) : Prop := (s.stream st).spilled = 0 ∧ (s.stream st).hw.length + n ≤ 32

end Sys2Proof.Machine

/-- Once its BARs are open, a host access in a function's 64 GiB window is made in its context at the address that the window names, and
answered with the bytes read, with the write performed, with the trigger sent or counted, or with its fault, which is logged; a function
without a valid context is answered a fault; CXL.mem reaches HBM by physical address in the exposed range; a register is written as its
access says, by the host or a hart in M mode alone, a relocation register of a ring whole. Before step 7 of bring-up every such access of
the host is aborted (R26, R27, R387, R388, R392, R426). The model's choices: which step opens the BARs, the form of the abort, and the range
of CXL.mem, log 36; what a fault's record in the log holds, log 35. -/
def Obligations.HostAccessesComplete : Prop :=
  (∀ (s : State) (f off n : Nat) (bs : List Byte), off < 2 ^ 36 →
    let va := bits (s.rget (oHL + 16 * f + 8) 0) 51 36 * 2 ^ 36 + off
    let u : State := { s with reply := ⟨[], none⟩ }
    let rd (a : Nat) : Req := ⟨fnAgent s f, .load, a, n, false, true⟩
    let wr (a : Nat) : Req := ⟨fnAgent s f, .store, a, bs.length, false, true⟩
    let answered (t : State) (x : List Byte) : Out := .next ({ t with reply := ⟨x, none⟩ }.tookWalk .part)
    (s.barsOpen = false →
      exec (.hostBar2Access f off (.read n)) s = .next { s with reply := ⟨[], some ((rd off).fault off .notMapped 7 0 0)⟩ } ∧
      exec (.hostBar2Access f off (.write bs)) s = .next { s with reply := ⟨[], some ((wr off).fault off .notMapped 7 0 0)⟩ }) ∧
    (s.barsOpen = true → bit (s.rget (oHL + 16 * f) 0) 8 = false →
      (let m := (rd va).fault va .notMapped 7 0 0
       exec (.hostBar2Access f off (.read n)) s = .next (({ s with reply := ⟨[], some m⟩ } : State).busLog f m)) ∧
      (let m := (wr va).fault va .notMapped 7 0 0
       exec (.hostBar2Access f off (.write bs)) s = .next (({ s with reply := ⟨[], some m⟩ } : State).busLog f m))) ∧
    (s.barsOpen = true → bit (s.rget (oHL + 16 * f) 0) 8 = true →
      (∀ ps, plan u (rd va) anyFmt = .ok ps → (∀ st o, ps.map Piece.tgt ≠ [.trig st o]) →
        ((∀ p ∈ ps, xfOf p = none) →
          exec (.hostBar2Access f off (.read n)) s = answered s (ps.flatMap fun p => mgets s.mem p.tgt.loc p.n)) ∧
        (∀ x, readPieces u (rd va) ps = .ok x → exec (.hostBar2Access f off (.read n)) s = answered s x)) ∧
      (∀ ps, plan u (wr va) anyFmt = .ok ps → (∀ st o, ps.map Piece.tgt ≠ [.trig st o]) →
        ((∀ p ∈ ps, xfOf p = none) → ∃ t, writePieces (wr va) u ps bs = .ok t ∧ moved u t ∧
          exec (.hostBar2Access f off (.write bs)) s = answered t []) ∧
        (∀ t, writePieces (wr va) u ps bs = .ok t → exec (.hostBar2Access f off (.write bs)) s = answered t [])) ∧
      (∀ ps st, n = 8 → plan u (rd va) anyFmt = .ok ps → ps.map Piece.tgt = [.trig st 0] →
        exec (.hostBar2Access f off (.read n)) s = answered s (leBytes 8 (s.stream st).accepted)) ∧
      (∀ ps st, plan u (wr va) anyFmt = .ok ps → ps.map Piece.tgt = [.trig st 0] → s.isOpen st = true →
        (s.stream st).trigq.length + (s.stream st).sent.length < 64 → exec (.hostBar2Access f off (.write bs)) s =
          answered (s.setStream st { s.stream st with sent := (s.stream st).sent ++ [⟨BitVec.ofNat 64 (leNat bs), false⟩] }) []) ∧
      (∀ m, plan u (rd va) anyFmt = .error (.flt m) → exec (.hostBar2Access f off (.read n)) s =
        .next (({ u.noted m with reply := ⟨[], some m⟩ }.tookWalk .part).busLog f m)) ∧
      (∀ m, plan u (wr va) anyFmt = .error (.flt m) → exec (.hostBar2Access f off (.write bs)) s =
        .next (({ u.noted m with reply := ⟨[], some m⟩ }.tookWalk .part).busLog f m)) ∧
      (∀ (k : BusAtomic) (w : Nat) (x y : Word) ps b t, let am : Req := ⟨fnAgent s f, .atomic, va, w, true, true⟩
        plan u am anyFmt = .ok ps → readPieces u am ps = .ok b →
        writePieces am u ps (leBytes w (atomicEval k w (leNat b) x.toNat y.toNat)) = .ok t →
          exec (.hostBar2Access f off (.atomic k w x y)) s = answered t b))) ∧
  (∀ (s : State) (pa n : Nat) (bs : List Byte),
    let base := bits (s.rget (oHL + 0x210) 0) 37 30 * 2 ^ 30
    let len := bits (s.rget (oHL + 0x218) 0) 38 30 * 2 ^ 30
    let sound (k : Nat) : Prop := pa + k ≤ min (base + len) hbmEnd ∧ fencedAt s (k / 256 + 2) pa (pa + k) = none
    bits (s.rget (oHL + 0x200) 0) 1 0 = 1 → base ≤ pa →
    (sound n → ueIn s.ue pa n = false → exec (.cxlMemAccess pa (.read n)) s = .next { s with reply := ⟨mgets s.mem pa n, none⟩ }) ∧
    (sound bs.length → exec (.cxlMemAccess pa (.write bs)) s = .next { s.putLoc (.host 0) pa bs with reply := ⟨[], none⟩ })) ∧
  (∀ (s : State) (ag : RegAgent) (off n : Nat) (x : Word),
    let r := s.regReq ag .store off n
    let written (t : State) : Out := .next ({ t with reply := ⟨[], none⟩ }.tookWalk .part)
    let o := canonOff off
    (ag = .host → s.barsOpen = false → exec (.registerWrite ag off n x) s =
      .next { s with reply := ⟨[], some (r.fault (winBase + off) .notMapped 7 0 0)⟩ }) ∧
    ((ag = .host → s.barsOpen = true) → off < 2 ^ 32 → ∀ ps, plan s r anyFmt = .ok ps →
      (s.regMay ag = false → exec (.registerWrite ag off n x) s =
        .next { s with reply := ⟨[], some (r.fault (winBase + off) .priv 7 0 0)⟩ }) ∧
      (s.regMay ag = true →
        (∀ t, regWrite s ag off n x.toNat = .ok (some t) → exec (.registerWrite ag off n x) s = written t) ∧
        (n = 4 → keyReg o = false →
          (findReg regMap o = none → exec (.registerWrite ag off n x) s = written s) ∧
          (∀ row i j, findReg regMap o = some (row, o, i, j) →
            let old := s.rget o (row.resetAt j)
            let m := row.mask &&& m32
            (row.acc = .ro → exec (.registerWrite ag off n x) s = written s) ∧
            (row.acc = .w1c → row.name ≠ "SLC_OWN" →
              exec (.registerWrite ag off n x) s = written (s.rset o (old - (old &&& (x.toNat % 2 ^ 32 &&& m))))) ∧
            (row.acc = .rw → row.base = oEAU → row.name ≠ "SLC_OWN" →
              exec (.registerWrite ag off n x) s = written (s.rset o (old - (old &&& m) + (x.toNat % 2 ^ 32 &&& m))))))))) ∧
  (∀ (s : State) (f r k : Nat) (x : Word), s.barsOpen = true → f < 17 → r < 8 → k < 16 →
    exec (.registerWrite .host (2 ^ 32 + f * 2 ^ 16 + r * 0x100 + 0x80 + 8 * k) 8 x) s =
      .next ({ s.rset (oRing f r + 0x80 + 8 * k) x.toNat with reply := ⟨[], none⟩ }.tookWalk .part))

/-- The host's BARs being open, a ring is enabled at zero for a stream of its function's tenant, and otherwise left disabled; disabling it
discards what was not taken; its TAIL moves forward within the ring alone. The record at HEAD is taken: a BITS record, or a LAUNCH record
with the copy of the launch that it names, enters the stream's queue, a bad record and one for a closed stream are reported; a batch whose
members pass their checks enters whole, one that fails leaves the queue as it was, and either way HEAD passes its COMMIT; what finds no
room stays (R388 to R394). The model's choices: that a write before the BARs are open is aborted, log 36; where a batch ends, and when
its COMMIT is looked at, log 31. -/
def Obligations.RingEventsComplete : Prop :=
  ∀ (s : State) (f r : Nat) (v : BitVec 32), f < 17 → r < 8 →
    let ctl := oRing f r + 8
    let st := s.ringStream f r
    let h := s.ringHead f r
    (s.barsOpen = true →
      (bit v.toNat 0 = true → (f = 0 ∨ s.streamTenant (bits v.toNat 7 1) + 1 = f) → exec (.hlRingEnable f r v) s =
        .next ((((s.rset ctl (v.toNat % 1024)).rset (oRing f r + 0xC) 0).rset (oRing f r + 0x10) 0).tookWalk .part)) ∧
      (bit v.toNat 0 = true → f ≠ 0 → s.streamTenant (bits v.toNat 7 1) + 1 ≠ f →
        let u := (s.rset ctl (setBits (s.ringCtl f r) 0 0 0)).ringStat f r 0x20
        (s.ringOn f r = false → exec (.hlRingEnable f r v) s = .next (u.tookWalk .part)) ∧
        (s.ringOn f r = true → bit (s.ringCtl f r) 8 = false →
          exec (.hlRingEnable f r v) s = .next ((u.rset (oRing f r + 0x10) (s.ringTail f r % 2 ^ 32)).tookWalk .part)) ∧
        (s.ringOn f r = true → shadowed u f r → ∃ t, u.publishHead f r (s.ringTail f r) = .ok t ∧
          exec (.hlRingEnable f r v) s = .next (t.tookWalk .part))) ∧
      (bit v.toNat 0 = false →
        let u := s.rset ctl (v.toNat % 1024)
        (s.ringOn f r = false → exec (.hlRingDisable f r v) s = .next (u.tookWalk .part)) ∧
        (s.ringOn f r = true → bit v.toNat 8 = false →
          exec (.hlRingDisable f r v) s = .next ((u.rset (oRing f r + 0x10) (s.ringTail f r % 2 ^ 32)).tookWalk .part)) ∧
        (s.ringOn f r = true → shadowed u f r → ∃ t, u.publishHead f r (s.ringTail f r) = .ok t ∧
          exec (.hlRingDisable f r v) s = .next (t.tookWalk .part))) ∧
      (let d := sub32 v.toNat (s.ringTail f r)
       let count := (s.rget (oRing f r + 0x20) 0 + 1) % 2 ^ 32
       exec (.hlRingTailWrite f r v) s = .next (if d = 0 ∨ 2 ^ 31 ≤ d then (s.ringStat f r 1).rset (oRing f r + 0x20) count
         else if s.ringSize f r < sub32 v.toNat h then s.ringStat f r 2 else s.rset (oRing f r + 0xC) v.toNat))) ∧
    (s.ringOn f r = true → h ≠ s.ringTail f r → ∀ b, s.ringRead f r h = .ok b →
      let takes (u : State) : Prop := ∃ t, u.publishHead f r (h + 1) = .ok t ∧ exec (.ringRecordTake f r) s = .next (t.tookWalk .part)
      let queued (q : Stream) : State := s.setStream st q
      let x := s.stream st
      (shadowed s f r →
        (recOk b = false → isBegin b = false → takes (s.ringStat f r 8)) ∧
        (recOk b = true → isBegin b = false → s.isOpen st = false → takes (s.ringStat f r 0x40)) ∧
        (isBits b = true → isBegin b = false → s.isOpen st = true → queueFree s st 1 → takes (queued { x with hw := x.hw ++ [b] })) ∧
        (∀ bs, isLaunchRec b = true → isBits b = false → isBegin b = false → s.isOpen st = true → queueFree s st 1 →
          rdBytes s (feAgent (s.streamCtx st)) .engRead (recAddr b) 256 = .ok bs →
          takes (queued { x with hw := x.hw ++ [b]
                                 copies := tset x.copies (x.popped + x.hw.length) (.read (s.relocate f r bs)) }))) ∧
      (recOk b = true → isBegin b = false → s.isOpen st = true → s.spillSize st ≤ x.spilled → isLaunchRec b = false →
        exec (.ringRecordTake f r) s = .next ((s.ringStat f r 4).tookWalk .part)) ∧
      (∀ ms, isBegin b = true → batchScan s f r h (recLen b) (sub32 (s.ringTail f r) h - 1) 0 = .ok (some ms) → s.isOpen st = true →
        recLen b ≤ 32 + s.spillSize st →
        let reached : Prop := shadowed s f r ∧
          (commitAux ms ≠ 0 → reaches s (feAgent (s.fnCtx f)) .engWrite (commitAux ms) 16)
        (∀ l, batchCheck s f r st (recLen b) 0 ms = .ok (.ok l) →
          (s.hasRoom st l.length = false → exec (.batchValidate f r) s = .next ((s.ringStat f r 4).tookWalk .part)) ∧
          (s.hasRoom st l.length = true → queueFree s st l.length → reached →
            ∃ t : State, exec (.batchValidate f r) s = .next (t.tookWalk .part) ∧ (t.stream st).hw = x.hw ++ l.map Prod.fst ∧
              t.ringHead f r = (h + ms.length + 1) % 2 ^ 32)) ∧
        (∀ e, batchCheck s f r st (recLen b) 0 ms = .ok (.error e) → e.status ≠ 0 → reached →
          ∃ t : State, exec (.batchValidate f r) s = .next (t.tookWalk .part) ∧ t.streams = s.streams ∧
            bit (t.rget (oRing f r + 0x14) 0) 4 = true ∧ t.ringHead f r = (h + ms.length + 1) % 2 ^ 32)))

/-- A request of a registered peer for the part's own HBM, within a page of the sender's, is answered with the bytes read, or performed,
with the attributes of that page; one outside HBM answers PEER_RANGE, and one of an unregistered requester PEER_ABSENT. A peer that departs
is registered no more (R395, R396). That the sender's page word travels with the request is the model's choice, log 91, and UNIT of such a
request's fault is the peer's number by log 18. -/
def Obligations.PeerEventsComplete : Prop :=
  ∀ (s : State) (id : BitVec 16) (g : PeerPage) (off n me : Nat) (bs : List Byte),
    let answered (u : State) (x : List Byte) : Out := .next { u with reply := ⟨x, none⟩ }
    let ag (k : Nat) : Agent := ⟨.peer k, 12, k, .m, 0, 0, ⟨true, false, false, false, false⟩⟩
    let inPage (m : Nat) : Prop := off + m ≤ hbmEnd ∧ off % pageSize g.level + m ≤ pageSize g.level
    (s.selfPeer = some me →
      (∀ k, s.peerOf id.toNat = some k →
        let rd : Req := ⟨ag k, .load, off, n, false, true⟩
        let wr : Req := ⟨ag k, .store, off, bs.length, false, true⟩
        (inPage n → tgtFault s rd (peerPiece g off n) = none →
          (xfOf (peerPiece g off n) = none → exec (.peerRequest id ⟨g, off⟩ (.read n)) s = answered s (mgets s.mem off n)) ∧
          (∀ x, readPieces s rd [peerPiece g off n] = .ok x → exec (.peerRequest id ⟨g, off⟩ (.read n)) s = answered s x)) ∧
        (inPage bs.length → tgtFault s wr (peerPiece g off bs.length) = none →
          (xfOf (peerPiece g off bs.length) = none →
            exec (.peerRequest id ⟨g, off⟩ (.write bs)) s = answered (s.putLoc (.peer k) off bs) []) ∧
          (∀ t, writePieces wr s [peerPiece g off bs.length] bs = .ok t → exec (.peerRequest id ⟨g, off⟩ (.write bs)) s = answered t [])) ∧
        (∀ (a : BusAtomic) (w : Nat) (x y : Word) b t, let am : Req := ⟨ag k, .atomic, off, w, false, true⟩
          inPage w → off % w = 0 → tgtFault s am (peerPiece g off w) = none → readPieces s am [peerPiece g off w] = .ok b →
          writePieces am s [peerPiece g off w] (leBytes w (atomicEval a w (leNat b) x.toNat y.toNat)) = .ok t →
            exec (.peerRequest id ⟨g, off⟩ (.atomic a w x y)) s = answered t b) ∧
        (hbmEnd < off + n → exec (.peerRequest id ⟨g, off⟩ (.read n)) s = .next { s with reply := ⟨[], some
          ((⟨ag 0, .load, off, n, false, true⟩ : Req).fault off .peerRange 7 0 me)⟩ })) ∧
      (s.peerOf id.toNat = none → exec (.peerRequest id ⟨g, off⟩ (.read n)) s = .next { s with reply := ⟨[], some
        ((⟨ag 0, .load, off, n, false, true⟩ : Req).fault off .peerAbsent 7 0 me)⟩ })) ∧
    (∀ k, s.peerValid k = true → exec (.peerDepart k) s =
      .next (s.rset (oHL + 0x400 + 8 * k) (setBits (s.rget (oHL + 0x400 + 8 * k) 0) 0 0 0)))

/-! ## The machine as a whole -/

/-- A step of a turn that the agenda names: a hart runs the instruction that its bytes decode to, in the state in which it acts, and
takes the illegal-instruction exception on bytes that decode to none, and a due interrupt before either; an engine performs the word at the head of its queue; an
event happens; and after an engine or an event every waiting hart tries again (R220, R226, R227). -/
def Obligations.StepRunsTheDecodedInstruction : Prop :=
  ∀ (s : State) (ts : List Turn), s.halted = false →
    let u : State := { s with agenda := ts }
    (∀ n b2 len, s.agenda = .hart n :: ts → u.hartRuns n = true → (u.asHart n).interrupted = false →
      fetchAt (u.asHart n) (s.hart n).pc.toNat 2 = .ok b2 → lengthOf (BitVec.ofNat 16 (leNat b2)) = .ok len →
      (∀ bs, (if len = 2 then Except.ok b2 else fetchAt (u.asHart n) (s.hart n).pc.toNat len) = .ok bs →
        (∀ i k, decode bs = .ok (i, k) → step s = exec i (u.asHart n)) ∧
        (∀ x, decode bs = .error x → step s = .next ((u.asHart n).trap n 2 (leNat bs) none none)))) ∧
    (∀ n, s.agenda = .hart n :: ts → u.hartRuns n = true → (u.asHart n).interrupted = true → step s = .next (u.asHart n).takeSsi) ∧
    (∀ n e x q i, s.agenda = .engine n e :: ts → n < 192 → 1 ≤ e → e < 6 → s.coreOk n = true →
      (s.core n).queues.getD e [] = .word x :: q → (s.cont x.cid).held e = false → s.waitHolds x.cid x = true →
      (e = 1 → (s.core n).preempt = .none) → (e = 3 → s.unitUp .fi (fiOf n) = true) → s.engLive n e < engHolds e → decodeEngine x.word = .ok i →
      step s = wakes (exec i (u.asEngine n e x false))) ∧
    (∀ n x b i, s.agenda = .engine n 0 :: ts → n < 192 → s.coreOk n = true → u.vAct n = .issue x b → decodeEngine x.word = .ok i →
      step s = wakes (exec i (u.asEngine n 0 x b))) ∧
    (∀ i, s.agenda = .event i :: ts → i.wf = true → eventRow i = true → step s = wakes (exec i u.asPart))

/-- After reset every device register reads its reset value, of which some are stated here; hart 0 of every core is in U mode and
every other hart in M mode; dclass holds 0x50; nothing is cached, queued or in flight; and memory is canonical (R7, R122, R226;
the zeros of the other registers are the model's own, log 1, and are not stated). -/
def Obligations.ResetState : Prop :=
  State.reset.mem.wf = true ∧
  (∀ n < 192, (State.reset.hart (2 * n)).mode = .u ∧ (State.reset.hart (2 * n + 1)).mode = .m ∧ (State.reset.hart (2 * n)).cont = none) ∧
  (∀ n, 384 ≤ n → n < 388 → (State.reset.hart n).mode = .m) ∧
  (∀ n, (State.reset.hart n).dclass = 0x50 ∧ (State.reset.hart n).resv = none) ∧
  (∀ n, (State.reset.core n).queues = [[], [], [], [], [], []] ∧ State.reset.coreOk 0 = true) ∧
  (∀ k, State.reset.isOpen k = false) ∧
  State.reset.tlb = [] ∧ State.reset.missq = [] ∧ State.reset.launches = [] ∧ State.reset.halted = false ∧
  regRead State.reset false oEAU 4 = 1 ∧ regRead State.reset false (oEAU + 8) 4 = 0x00010000 ∧
  regRead State.reset false (oEAU + 0x6000) 4 = 550 ∧ regRead State.reset false (oRAS + 0x40) 4 = 0xFFF ∧
  regRead State.reset false oRAS 8 = 2 ^ 64 - 1 ∧ regRead State.reset false (oRAS + 0x48) 4 = 16 ∧
  regRead State.reset false (oRamp 0 + 8) 4 = 12600 ∧ regRead State.reset false oHBW 4 = 1

/-- Words written out from the encoding tables decode to the instructions that they stand for (R227 to R243). -/
def Obligations.WrittenWordsDecode : Prop :=
  decode32 0x00500093 = .ok (.rvIntegerOp false (.opImm .addi 1 0 5)) ∧
  decode32 0x0062800B = .ok (.cap 5 6) ∧
  (decode32 0x0062828B).toOption = none ∧
  decode32 0x5602B00B = .ok (.tlWait 2 3 5) ∧
  decode32 0xFE00700B = .ok .tret ∧
  decode32 0x803392AB = .ok (.ldAcqB 16 3 5 7) ∧
  (decode32 0x883392AB).toOption = none ∧
  decodeEngine 0x00000000420C003F = .ok (.vadd ⟨0, 0⟩ .i32 1 2 3 ⟨0, false⟩) ∧
  decodeEngine 0x48850000420C003F = .ok (.vadd ⟨0x48, 0x85⟩ .i32 1 2 3 ⟨0, false⟩) ∧
  (decodeEngine 0x01000000420C003F).toOption = none ∧
  (decodeEngine 0x00000030420C003F).toOption = none ∧
  decodeEngine 0x000020000118403F = .ok (.tmma ⟨0, 0⟩ .i8 ⟨0, 1, false, 3, 0, true⟩) ∧
  decodeEngine 0x00003000000FF23F = .ok (.cpy ⟨0, 0⟩ 0xFF 2 false) ∧
  decodeEngine 0x000040000500913F = .ok (.gath ⟨0, 0⟩ ⟨5, 9, 1⟩) ∧
  decodeEngine 0x000051700F10003F = .ok (.sigHash ⟨0, 0⟩ .i8 ⟨0, 15, 1⟩) ∧
  decodeEngine 0x00006000C480883F = .ok (.cmEval ⟨0, 0⟩ 3 9 17)

/-- Decoding the bytes of a hart's well-formed instruction of 32 or 64 bits gives the instruction and its length, whatever follows,
and a 32-bit word that decodes is the one encoding of a well-formed instruction (R227, R228); the 16-bit forms of the C extension,
whose words the spec does not tabulate, have no encoder and are not stated. -/
def Obligations.HartInstructionsDecodeAsEncoded : Prop :=
  (∀ (i : Instr) (bs rest : List Byte), i.wf = true → encode i = some bs → decode (bs ++ rest) = .ok (i, bs.length)) ∧
  (∀ (w : BitVec 32) (i : Instr), decode32 w = .ok i → i.wf = true ∧ encode32 i = some w)

/-- Decoding the word of a well-formed engine operation gives the operation, every operand at every value that its layout admits,
and an engine word that decodes is the one encoding of a well-formed operation (R230 to R243). -/
def Obligations.EngineWordsDecodeAsEncoded : Prop :=
  (∀ (i : Instr) (w : BitVec 64), i.wf = true → encodeEngine i = some w → decodeEngine w = .ok i) ∧
  (∀ (w : BitVec 64) (i : Instr), w.toNat % 128 = 0x3F → decodeEngine w = .ok i → i.wf = true ∧ encodeEngine i = some w)

/-- Every step keeps the memory canonical: strictly rising locations, and no entry equal to what an unlisted location reads as, so
that equal memories are equal data. -/
def Obligations.StepKeepsMemoryCanonical : Prop :=
  ∀ (s t : State), s.mem.wf = true → step s = .next t → t.mem.wf = true
end

