-- ==== Sys2Proof/Laws/Memory.lean ====
section
/-! SUPPORT. The laws of the memory: what a read gives after a write, and that every memory operation keeps the
canonical form (log 2). -/

namespace Sys2Proof.Machine

/-! ## The canonical form -/

theorem memWfFrom_cons (lo i : Nat) (v : Byte) (m : Memory) :
    memWfFrom lo ((i, v) :: m) = true ↔ lo ≤ i ∧ v ≠ 0 ∧ memWfFrom (i + 1) m = true := by
  simp [memWfFrom, and_assoc]

/-- A memory whose entries stand at `hi` or above is canonical from any lower bound. -/
theorem memWfFrom_mono {lo hi : Nat} (h : lo ≤ hi) : ∀ {m : Memory}, memWfFrom hi m = true → memWfFrom lo m = true
  | [], _ => rfl
  | (i, v) :: m, w => by
    rw [memWfFrom_cons] at w ⊢
    exact ⟨Nat.le_trans h w.1, w.2⟩

/-- A byte written keeps the form. -/
theorem mset_wfFrom : ∀ (m : Memory) (lo a : Nat) (v : Byte), lo ≤ a → memWfFrom lo m = true → memWfFrom lo (mset m a v) = true
  | [], lo, a, v, h, _ => by
    unfold mset
    split
    · rfl
    · rename_i hv
      exact (memWfFrom_cons ..).2 ⟨h, hv, rfl⟩
  | (i, w) :: m, lo, a, v, h, k => by
    rw [memWfFrom_cons] at k
    obtain ⟨k1, k2, k3⟩ := k
    unfold mset
    by_cases h1 : a < i
    · by_cases hv : v = 0
      · simp only [h1, hv, if_true]
        exact (memWfFrom_cons ..).2 ⟨k1, k2, k3⟩
      · simp only [h1, hv, if_true, if_false]
        exact (memWfFrom_cons ..).2 ⟨h, hv, (memWfFrom_cons ..).2 ⟨h1, k2, k3⟩⟩
    · by_cases h2 : a = i
      · by_cases hv : v = 0
        · simp only [h1, h2, hv, if_true, if_false, Nat.lt_irrefl]
          exact memWfFrom_mono (Nat.le_succ_of_le k1) k3
        · simp only [h2, hv, if_true, if_false, Nat.lt_irrefl]
          exact (memWfFrom_cons ..).2 ⟨k1, hv, k3⟩
      · simp only [h1, h2, if_false]
        exact (memWfFrom_cons ..).2 ⟨k1, k2, mset_wfFrom m (i + 1) a v (by omega) k3⟩

/-- A byte written keeps the canonical form. -/
theorem mset_wf (m : Memory) (a : Nat) (v : Byte) (h : m.wf = true) : Memory.wf (mset m a v) = true :=
  mset_wfFrom m 0 a v (Nat.zero_le a) h

/-- Bytes written keep the canonical form. -/
theorem msets_wf : ∀ (bs : List Byte) (m : Memory) (a : Nat), m.wf = true → Memory.wf (msets m a bs) = true
  | [], _, _, h => h
  | b :: bs, m, a, h => msets_wf bs (mset m a b) (a + 1) (mset_wf m a b h)

theorem filter_wfFrom (p : Nat × Byte → Bool) : ∀ (m : Memory) (lo : Nat), memWfFrom lo m = true →
    memWfFrom lo (m.filter p) = true
  | [], _, _ => rfl
  | (i, v) :: m, lo, h => by
    rw [memWfFrom_cons] at h
    have ih := filter_wfFrom p m (i + 1) h.2.2
    by_cases hp : p (i, v) = true
    · rw [List.filter_cons_of_pos hp]
      exact (memWfFrom_cons ..).2 ⟨h.1, h.2.1, ih⟩
    · rw [List.filter_cons_of_neg hp]
      exact memWfFrom_mono (Nat.le_succ_of_le h.1) ih

/-- Entries left out keep the canonical form. -/
theorem filter_wf (p : Nat × Byte → Bool) (m : Memory) (h : m.wf = true) : Memory.wf (m.filter p) = true :=
  filter_wfFrom p m 0 h

/-- A cleared range keeps the canonical form. -/
theorem mclear_wf (m : Memory) (lo hi : Nat) (h : m.wf = true) : Memory.wf (mclear m lo hi) = true :=
  filter_wf _ m h

/-- Two canonical memories one above the other join to a canonical memory. -/
theorem append_wfFrom : ∀ (m n : Memory) (lo mid : Nat), memWfFrom lo m = true → (∀ c ∈ m, c.1 < mid) → lo ≤ mid →
    memWfFrom mid n = true → memWfFrom lo (m ++ n) = true
  | [], n, lo, mid, _, _, hl, hn => memWfFrom_mono hl hn
  | (i, v) :: m, n, lo, mid, hm, hb, hl, hn => by
    rw [memWfFrom_cons] at hm
    rw [List.cons_append]
    refine (memWfFrom_cons ..).2 ⟨hm.1, hm.2.1, append_wfFrom m n (i + 1) mid hm.2.2 (fun c hc => hb c (List.mem_cons_of_mem _ hc)) ?_ hn⟩
    exact hb (i, v) (List.mem_cons_self ..)

/-- The entries at or above a bound are canonical from it. -/
theorem above_wfFrom (b : Nat) : ∀ (m : Memory) (lo : Nat), memWfFrom lo m = true →
    memWfFrom b (m.filter fun c => b ≤ c.1) = true
  | [], _, _ => rfl
  | (i, v) :: m, lo, h => by
    rw [memWfFrom_cons] at h
    by_cases hp : b ≤ i
    · rw [List.filter_cons_of_pos (by simpa using hp)]
      exact (memWfFrom_cons ..).2 ⟨hp, h.2.1, filter_wfFrom _ m (i + 1) h.2.2⟩
    · rw [List.filter_cons_of_neg (by simpa using hp)]
      exact above_wfFrom b m (i + 1) h.2.2

/-- Entries of a range moved to start at `a` are canonical from `a`. -/
theorem moved_wfFrom (lo n a : Nat) : ∀ (m : Memory) (k : Nat), memWfFrom k m = true →
    memWfFrom (a + (k - lo)) ((m.filter fun c => lo ≤ c.1 && c.1 < lo + n).map fun c => (c.1 - lo + a, c.2)) = true
  | [], _, _ => rfl
  | (i, v) :: m, k, h => by
    rw [memWfFrom_cons] at h
    have ih := moved_wfFrom lo n a m (i + 1) h.2.2
    rw [List.filter_cons]
    split
    · rename_i hp
      rw [List.map_cons]
      simp only [Bool.and_eq_true, decide_eq_true_eq] at hp
      refine (memWfFrom_cons ..).2 ⟨by have := h.1; omega, h.2.1, memWfFrom_mono (by omega) ih⟩
    · exact memWfFrom_mono (by have := h.1; omega) ih

theorem moved_below (lo n a : Nat) (m : Memory) :
    ∀ c ∈ (m.filter fun c => lo ≤ c.1 && c.1 < lo + n).map (fun c => (c.1 - lo + a, c.2)), c.1 < a + n := by
  intro c hc
  obtain ⟨d, hd, rfl⟩ := List.mem_map.1 hc
  have := (List.mem_filter.1 hd).2
  simp only [Bool.and_eq_true, decide_eq_true_eq] at this
  simp only
  omega

theorem below_lt (a : Nat) (m : Memory) : ∀ c ∈ m.filter (fun c => c.1 < a), c.1 < a := by
  intro c hc
  simpa using (List.mem_filter.1 hc).2

/-- A range of one canonical memory placed over a range of another keeps the form. -/
theorem placed_wf (m img : Memory) (a lo n : Nat) (hm : m.wf = true) (hi : img.wf = true) :
    Memory.wf ((m.filter fun c => c.1 < a) ++ ((img.filter fun c => lo ≤ c.1 && c.1 < lo + n).map fun c => (c.1 - lo + a, c.2)) ++
      (m.filter fun c => a + n ≤ c.1)) = true := by
  unfold Memory.wf
  rw [List.append_assoc]
  refine append_wfFrom _ _ 0 a (filter_wf _ m hm) (below_lt a m) (Nat.zero_le a) ?_
  refine append_wfFrom _ _ a (a + n) (memWfFrom_mono (Nat.le_add_right a _) (moved_wfFrom lo n a img 0 hi)) (moved_below lo n a img)
    (Nat.le_add_right a n) (above_wfFrom (a + n) m 0 hm)

/-- Any cells, put in order, are canonical. -/
theorem canon_wf (cs : Memory) : (canon cs).wf = true := by
  induction cs with
  | nil => rfl
  | cons c cs ih => exact mset_wf _ _ _ ih

/-- Any cells placed over a range of a canonical memory keep the form. -/
theorem overlay_wf (m img : Memory) (a lo n : Nat) (hm : m.wf = true) : Memory.wf (overlay m img a lo n) = true :=
  placed_wf m (canon img) a lo n hm (canon_wf img)

/-- The stores of a logical block keep the form. -/
theorem place_wf (b : BlockLoc) (m : Memory) (h : Nat) (secs tag : List Byte) (chunk len : Nat) (w : m.wf = true) :
    Memory.wf (b.place m h secs tag chunk len) = true := by
  unfold BlockLoc.place
  split
  · refine msets_wf _ _ _ (msets_wf _ _ _ ?_)
    split
    · exact msets_wf _ _ _ w
    · exact msets_wf _ _ _ (msets_wf _ _ _ w)
  · have := msets_wf (leBytes 8 h) _ b.comp (msets_wf secs m b.pa w)
    dsimp only
    split
    · exact this
    · exact msets_wf _ _ _ this

/-- The memory after reset is canonical: it lists nothing. -/
theorem reset_mem_wf : State.reset.mem.wf = true := rfl

/-! ## Reads and writes -/

/-- Below the first entry of a canonical memory every byte reads as 0. -/
theorem mget_below : ∀ (m : Memory) (lo a : Nat), memWfFrom lo m = true → a < lo → mget m a = 0
  | [], _, _, _, _ => rfl
  | (i, v) :: m, lo, a, h, l => by
    rw [memWfFrom_cons] at h
    have h1 : ¬ i = a := by omega
    have h2 : a < i := by omega
    simp [mget, h1, h2]

/-- A byte written reads back. -/
theorem mget_mset_same : ∀ (m : Memory) (lo a : Nat) (v : Byte), memWfFrom lo m = true → mget (mset m a v) a = v
  | [], lo, a, v, _ => by
    unfold mset
    split
    · rename_i hv
      exact hv.symm
    · simp [mget]
  | (i, w) :: m, lo, a, v, h => by
    rw [memWfFrom_cons] at h
    unfold mset
    by_cases h1 : a < i
    · by_cases hv : v = 0
      · have : ¬ i = a := by omega
        simp [h1, hv, mget, this]
      · rw [if_pos h1, if_neg hv]
        simp [mget]
    · by_cases h2 : a = i
      · by_cases hv : v = 0
        · simp only [h2, hv, if_true, if_false, Nat.lt_irrefl]
          exact mget_below m (i + 1) i h.2.2 (Nat.lt_succ_self i)
        · rw [if_neg h1, if_pos h2, if_neg hv]
          simp [mget]
      · simp only [h1, h2, if_false]
        have h3 : ¬ i = a := fun e => h2 e.symm
        simp only [mget, h3, h1, if_false]
        exact mget_mset_same m (i + 1) a v h.2.2

/-- A byte written leaves every other byte as it was. -/
theorem mget_mset_other : ∀ (m : Memory) (lo a b : Nat) (v : Byte), memWfFrom lo m = true → b ≠ a →
    mget (mset m a v) b = mget m b
  | [], lo, a, b, v, _, h => by
    have h' : ¬ a = b := fun e => h e.symm
    unfold mset
    split
    · rfl
    · by_cases hb : b < a <;> simp [mget, h', hb]
  | (i, w) :: m, lo, a, b, v, k, h => by
    rw [memWfFrom_cons] at k
    have h' : ¬ a = b := fun e => h e.symm
    unfold mset
    by_cases h1 : a < i
    · by_cases hv : v = 0
      · simp [h1, hv]
      · simp only [h1, hv, if_true, if_false]
        by_cases h2 : b < a
        · have h3 : ¬ i = b := by omega
          have h4 : b < i := by omega
          simp [mget, h', h2, h3, h4]
        · simp [mget, h', h2]
    · by_cases h2 : a = i
      · have h3 : ¬ i = b := fun e => h' (h2.trans e)
        by_cases hv : v = 0
        · simp only [h2, hv, if_true, if_false, Nat.lt_irrefl, mget, h3]
          by_cases h4 : b < i
          · simp only [h4, if_true]
            exact mget_below m (i + 1) b k.2.2 (by omega)
          · simp only [h4, if_false]
        · rw [if_neg h1, if_pos h2, if_neg hv]
          subst h2
          simp only [mget, h3, if_false]
      · simp only [h1, h2, if_false, mget]
        rw [mget_mset_other m (i + 1) a b v k.2.2 h]

/-- Bytes written leave every byte outside their range as it was. -/
theorem mget_msets_outside : ∀ (bs : List Byte) (m : Memory) (a b : Nat), m.wf = true → (b < a ∨ a + bs.length ≤ b) →
    mget (msets m a bs) b = mget m b
  | [], _, _, _, _, _ => rfl
  | x :: bs, m, a, b, w, h => by
    rw [List.length_cons] at h
    have h1 : b ≠ a := by omega
    rw [show msets m a (x :: bs) = msets (mset m a x) (a + 1) bs from rfl,
      mget_msets_outside bs (mset m a x) (a + 1) b (mset_wf m a x w) (by omega)]
    exact mget_mset_other m 0 a b x w h1

/-- Bytes written read back. -/
theorem mgets_msets_same : ∀ (bs : List Byte) (m : Memory) (a : Nat), m.wf = true → mgets (msets m a bs) a bs.length = bs
  | [], _, _, _ => rfl
  | x :: bs, m, a, w => by
    have h1 : mget (msets (mset m a x) (a + 1) bs) a = x := by
      rw [mget_msets_outside bs _ (a + 1) a (mset_wf m a x w) (Or.inl (Nat.lt_succ_self a))]
      exact mget_mset_same m 0 a x w
    have h2 := mgets_msets_same bs (mset m a x) (a + 1) (mset_wf m a x w)
    show mget (msets (mset m a x) (a + 1) bs) a :: mgets (msets (mset m a x) (a + 1) bs) (a + 1) bs.length = x :: bs
    rw [h1, h2]

end Sys2Proof.Machine
end

