-- ==== Sys2Proof/Laws/State.lean ====
section
/-! SUPPORT. The state's small laws: what a table gives after an entry is set, and, for each update of the state,
what each field then holds. -/

namespace Sys2Proof.Machine

/-! ## Tables -/

/-- An entry set is read back. -/
@[simp] theorem tget_tset_same {α : Type} (d v : α) : ∀ (t : Tbl α) (k : Nat), tget d (tset t k v) k = v
  | [], k => by simp [tset, tget]
  | (i, w) :: t, k => by
    unfold tset
    split
    · simp [tget]
    · split
      · simp [tget]
      · rename_i h1 h2
        have : ¬ i = k := fun e => h2 e.symm
        simp [tget, this, tget_tset_same d v t k]

/-- An entry set leaves the others as they were. -/
theorem tget_tset_other {α : Type} (d v : α) : ∀ (t : Tbl α) (k j : Nat), j ≠ k → tget d (tset t k v) j = tget d t j
  | [], k, j, h => by
    have : ¬ k = j := fun e => h e.symm
    simp [tset, tget, this]
  | (i, w) :: t, k, j, h => by
    have hk : ¬ k = j := fun e => h e.symm
    unfold tset
    split
    · simp [tget, hk]
    · split
      · rename_i h2
        have : ¬ i = j := fun e => hk (h2.trans e)
        simp [tget, hk, this]
      · simp [tget, tget_tset_other d v t k j h]

/-! ## Components -/

@[simp] theorem hart_setHart_same (s : State) (k : Nat) (v : Hart) : (s.setHart k v).hart k = v := tget_tset_same _ v _ k
theorem hart_setHart_other (s : State) (k j : Nat) (v : Hart) (h : j ≠ k) : (s.setHart k v).hart j = s.hart j :=
  tget_tset_other _ v _ k j h

@[simp] theorem core_setCore_same (s : State) (k : Nat) (v : Core) : (s.setCore k v).core k = v := tget_tset_same _ v _ k
theorem core_setCore_other (s : State) (k j : Nat) (v : Core) (h : j ≠ k) : (s.setCore k v).core j = s.core j :=
  tget_tset_other _ v _ k j h

@[simp] theorem cont_setCont_same (s : State) (k : Nat) (v : Cont) : (s.setCont k v).cont k = v := tget_tset_same _ v _ k
theorem cont_setCont_other (s : State) (k j : Nat) (v : Cont) (h : j ≠ k) : (s.setCont k v).cont j = s.cont j :=
  tget_tset_other _ v _ k j h

@[simp] theorem vrun_setVrun_same (s : State) (k : Nat) (v : VRun) : (s.setVrun k v).vrun k = v := tget_tset_same _ v _ k
theorem vrun_setVrun_other (s : State) (k j : Nat) (v : VRun) (h : j ≠ k) : (s.setVrun k v).vrun j = s.vrun j :=
  tget_tset_other _ v _ k j h

@[simp] theorem stream_setStream_same (s : State) (k : Nat) (v : Stream) : (s.setStream k v).stream k = v := tget_tset_same _ v _ k
theorem stream_setStream_other (s : State) (k j : Nat) (v : Stream) (h : j ≠ k) : (s.setStream k v).stream j = s.stream j :=
  tget_tset_other _ v _ k j h

@[simp] theorem launch_setLaunch_same (s : State) (k : Nat) (v : Launch) : (s.setLaunch k v).launch k = v := tget_tset_same _ v _ k
theorem launch_setLaunch_other (s : State) (k j : Nat) (v : Launch) (h : j ≠ k) : (s.setLaunch k v).launch j = s.launch j :=
  tget_tset_other _ v _ k j h

/-- A register set is read back. -/
theorem rget_rset_same (s : State) (o d : Nat) (v : Nat) (h : v < 2 ^ 64) : (s.rset o v).rget o d = v := by
  unfold State.rget State.rset
  rw [tget_tset_same, BitVec.toNat_ofNat, Nat.mod_eq_of_lt h]
/-- A register set leaves the others as they were. -/
theorem rget_rset_other (s : State) (o p d v : Nat) (h : p ≠ o) : (s.rset o v).rget p d = s.rget p d := by
  unfold State.rget State.rset
  rw [tget_tset_other _ _ _ _ _ h]

/-! ## Components that an update leaves -/

@[simp] theorem core_setHart (s : State) (h : Nat) (v : Hart) (j : Nat) : (s.setHart h v).core j = s.core j := rfl
@[simp] theorem cont_setHart (s : State) (h : Nat) (v : Hart) (j : Nat) : (s.setHart h v).cont j = s.cont j := rfl
@[simp] theorem vrun_setHart (s : State) (h : Nat) (v : Hart) (j : Nat) : (s.setHart h v).vrun j = s.vrun j := rfl
@[simp] theorem stream_setHart (s : State) (h : Nat) (v : Hart) (j : Nat) : (s.setHart h v).stream j = s.stream j := rfl
@[simp] theorem launch_setHart (s : State) (h : Nat) (v : Hart) (j : Nat) : (s.setHart h v).launch j = s.launch j := rfl
@[simp] theorem hart_setCore (s : State) (n : Nat) (v : Core) (j : Nat) : (s.setCore n v).hart j = s.hart j := rfl
@[simp] theorem cont_setCore (s : State) (n : Nat) (v : Core) (j : Nat) : (s.setCore n v).cont j = s.cont j := rfl
@[simp] theorem vrun_setCore (s : State) (n : Nat) (v : Core) (j : Nat) : (s.setCore n v).vrun j = s.vrun j := rfl
@[simp] theorem stream_setCore (s : State) (n : Nat) (v : Core) (j : Nat) : (s.setCore n v).stream j = s.stream j := rfl
@[simp] theorem launch_setCore (s : State) (n : Nat) (v : Core) (j : Nat) : (s.setCore n v).launch j = s.launch j := rfl
@[simp] theorem hart_setCont (s : State) (k : Nat) (v : Cont) (j : Nat) : (s.setCont k v).hart j = s.hart j := rfl
@[simp] theorem core_setCont (s : State) (k : Nat) (v : Cont) (j : Nat) : (s.setCont k v).core j = s.core j := rfl
@[simp] theorem vrun_setCont (s : State) (k : Nat) (v : Cont) (j : Nat) : (s.setCont k v).vrun j = s.vrun j := rfl
@[simp] theorem stream_setCont (s : State) (k : Nat) (v : Cont) (j : Nat) : (s.setCont k v).stream j = s.stream j := rfl
@[simp] theorem launch_setCont (s : State) (k : Nat) (v : Cont) (j : Nat) : (s.setCont k v).launch j = s.launch j := rfl
@[simp] theorem hart_setVrun (s : State) (k : Nat) (v : VRun) (j : Nat) : (s.setVrun k v).hart j = s.hart j := rfl
@[simp] theorem core_setVrun (s : State) (k : Nat) (v : VRun) (j : Nat) : (s.setVrun k v).core j = s.core j := rfl
@[simp] theorem cont_setVrun (s : State) (k : Nat) (v : VRun) (j : Nat) : (s.setVrun k v).cont j = s.cont j := rfl
@[simp] theorem stream_setVrun (s : State) (k : Nat) (v : VRun) (j : Nat) : (s.setVrun k v).stream j = s.stream j := rfl
@[simp] theorem launch_setVrun (s : State) (k : Nat) (v : VRun) (j : Nat) : (s.setVrun k v).launch j = s.launch j := rfl
@[simp] theorem hart_setStream (s : State) (k : Nat) (v : Stream) (j : Nat) : (s.setStream k v).hart j = s.hart j := rfl
@[simp] theorem core_setStream (s : State) (k : Nat) (v : Stream) (j : Nat) : (s.setStream k v).core j = s.core j := rfl
@[simp] theorem cont_setStream (s : State) (k : Nat) (v : Stream) (j : Nat) : (s.setStream k v).cont j = s.cont j := rfl
@[simp] theorem vrun_setStream (s : State) (k : Nat) (v : Stream) (j : Nat) : (s.setStream k v).vrun j = s.vrun j := rfl
@[simp] theorem launch_setStream (s : State) (k : Nat) (v : Stream) (j : Nat) : (s.setStream k v).launch j = s.launch j := rfl
@[simp] theorem hart_setLaunch (s : State) (k : Nat) (v : Launch) (j : Nat) : (s.setLaunch k v).hart j = s.hart j := rfl
@[simp] theorem core_setLaunch (s : State) (k : Nat) (v : Launch) (j : Nat) : (s.setLaunch k v).core j = s.core j := rfl
@[simp] theorem cont_setLaunch (s : State) (k : Nat) (v : Launch) (j : Nat) : (s.setLaunch k v).cont j = s.cont j := rfl
@[simp] theorem vrun_setLaunch (s : State) (k : Nat) (v : Launch) (j : Nat) : (s.setLaunch k v).vrun j = s.vrun j := rfl
@[simp] theorem stream_setLaunch (s : State) (k : Nat) (v : Launch) (j : Nat) : (s.setLaunch k v).stream j = s.stream j := rfl
@[simp] theorem hart_rset (s : State) (o v : Nat) (j : Nat) : (s.rset o v).hart j = s.hart j := rfl
@[simp] theorem core_rset (s : State) (o v : Nat) (j : Nat) : (s.rset o v).core j = s.core j := rfl
@[simp] theorem cont_rset (s : State) (o v : Nat) (j : Nat) : (s.rset o v).cont j = s.cont j := rfl
@[simp] theorem vrun_rset (s : State) (o v : Nat) (j : Nat) : (s.rset o v).vrun j = s.vrun j := rfl
@[simp] theorem stream_rset (s : State) (o v : Nat) (j : Nat) : (s.rset o v).stream j = s.stream j := rfl
@[simp] theorem launch_rset (s : State) (o v : Nat) (j : Nat) : (s.rset o v).launch j = s.launch j := rfl
@[simp] theorem hart_tookWalk (s : State) (w : Who) (j : Nat) : (s.tookWalk w).hart j = s.hart j := rfl
@[simp] theorem core_tookWalk (s : State) (w : Who) (j : Nat) : (s.tookWalk w).core j = s.core j := rfl
@[simp] theorem cont_tookWalk (s : State) (w : Who) (j : Nat) : (s.tookWalk w).cont j = s.cont j := rfl
@[simp] theorem vrun_tookWalk (s : State) (w : Who) (j : Nat) : (s.tookWalk w).vrun j = s.vrun j := rfl
@[simp] theorem stream_tookWalk (s : State) (w : Who) (j : Nat) : (s.tookWalk w).stream j = s.stream j := rfl
@[simp] theorem launch_tookWalk (s : State) (w : Who) (j : Nat) : (s.tookWalk w).launch j = s.launch j := rfl
@[simp] theorem hart_asHart (s : State) (n : Nat) (j : Nat) : (s.asHart n).hart j = s.hart j := rfl
@[simp] theorem core_asHart (s : State) (n : Nat) (j : Nat) : (s.asHart n).core j = s.core j := rfl
@[simp] theorem cont_asHart (s : State) (n : Nat) (j : Nat) : (s.asHart n).cont j = s.cont j := rfl
@[simp] theorem vrun_asHart (s : State) (n : Nat) (j : Nat) : (s.asHart n).vrun j = s.vrun j := rfl
@[simp] theorem stream_asHart (s : State) (n : Nat) (j : Nat) : (s.asHart n).stream j = s.stream j := rfl
@[simp] theorem launch_asHart (s : State) (n : Nat) (j : Nat) : (s.asHart n).launch j = s.launch j := rfl
@[simp] theorem hart_asPart (s : State) (j : Nat) : (s.asPart ).hart j = s.hart j := rfl
@[simp] theorem core_asPart (s : State) (j : Nat) : (s.asPart ).core j = s.core j := rfl
@[simp] theorem cont_asPart (s : State) (j : Nat) : (s.asPart ).cont j = s.cont j := rfl
@[simp] theorem vrun_asPart (s : State) (j : Nat) : (s.asPart ).vrun j = s.vrun j := rfl
@[simp] theorem stream_asPart (s : State) (j : Nat) : (s.asPart ).stream j = s.stream j := rfl
@[simp] theorem launch_asPart (s : State) (j : Nat) : (s.asPart ).launch j = s.launch j := rfl
@[simp] theorem hart_asEngine (s : State) (n e : Nat) (x : QEntry) (b : Bool) (j : Nat) : (s.asEngine n e x b).hart j = s.hart j := rfl
@[simp] theorem core_asEngine (s : State) (n e : Nat) (x : QEntry) (b : Bool) (j : Nat) : (s.asEngine n e x b).core j = s.core j := rfl
@[simp] theorem cont_asEngine (s : State) (n e : Nat) (x : QEntry) (b : Bool) (j : Nat) : (s.asEngine n e x b).cont j = s.cont j := rfl
@[simp] theorem vrun_asEngine (s : State) (n e : Nat) (x : QEntry) (b : Bool) (j : Nat) : (s.asEngine n e x b).vrun j = s.vrun j := rfl
@[simp] theorem stream_asEngine (s : State) (n e : Nat) (x : QEntry) (b : Bool) (j : Nat) : (s.asEngine n e x b).stream j = s.stream j := rfl
@[simp] theorem launch_asEngine (s : State) (n e : Nat) (x : QEntry) (b : Bool) (j : Nat) : (s.asEngine n e x b).launch j = s.launch j := rfl

/-! ## Fields -/

@[simp] theorem setHart_mem (s : State) (h : Nat) (v : Hart) : (s.setHart h v).mem = s.mem := rfl
@[simp] theorem setHart_regs (s : State) (h : Nat) (v : Hart) : (s.setHart h v).regs = s.regs := rfl
@[simp] theorem setHart_cores (s : State) (h : Nat) (v : Hart) : (s.setHart h v).cores = s.cores := rfl
@[simp] theorem setHart_conts (s : State) (h : Nat) (v : Hart) : (s.setHart h v).conts = s.conts := rfl
@[simp] theorem setHart_runs (s : State) (h : Nat) (v : Hart) : (s.setHart h v).runs = s.runs := rfl
@[simp] theorem setHart_launches (s : State) (h : Nat) (v : Hart) : (s.setHart h v).launches = s.launches := rfl
@[simp] theorem setHart_streams (s : State) (h : Nat) (v : Hart) : (s.setHart h v).streams = s.streams := rfl
@[simp] theorem setHart_graphs (s : State) (h : Nat) (v : Hart) : (s.setHart h v).graphs = s.graphs := rfl
@[simp] theorem setHart_gload (s : State) (h : Nat) (v : Hart) : (s.setHart h v).gload = s.gload := rfl
@[simp] theorem setHart_tlb (s : State) (h : Nat) (v : Hart) : (s.setHart h v).tlb = s.tlb := rfl
@[simp] theorem setHart_walkCache (s : State) (h : Nat) (v : Hart) : (s.setHart h v).walkCache = s.walkCache := rfl
@[simp] theorem setHart_missq (s : State) (h : Nat) (v : Hart) : (s.setHart h v).missq = s.missq := rfl
@[simp] theorem setHart_walks (s : State) (h : Nat) (v : Hart) : (s.setHart h v).walks = s.walks := rfl
@[simp] theorem setHart_walkFault (s : State) (h : Nat) (v : Hart) : (s.setHart h v).walkFault = s.walkFault := rfl
@[simp] theorem setHart_invals (s : State) (h : Nat) (v : Hart) : (s.setHart h v).invals = s.invals := rfl
@[simp] theorem setHart_pool (s : State) (h : Nat) (v : Hart) : (s.setHart h v).pool = s.pool := rfl
@[simp] theorem setHart_reserve (s : State) (h : Nat) (v : Hart) : (s.setHart h v).reserve = s.reserve := rfl
@[simp] theorem setHart_keys (s : State) (h : Nat) (v : Hart) : (s.setHart h v).keys = s.keys := rfl
@[simp] theorem setHart_attested (s : State) (h : Nat) (v : Hart) : (s.setHart h v).attested = s.attested := rfl
@[simp] theorem setHart_ue (s : State) (h : Nat) (v : Hart) : (s.setHart h v).ue = s.ue := rfl
@[simp] theorem setHart_owlOp (s : State) (h : Nat) (v : Hart) : (s.setHart h v).owlOp = s.owlOp := rfl
@[simp] theorem setHart_owlQ (s : State) (h : Nat) (v : Hart) : (s.setHart h v).owlQ = s.owlQ := rfl
@[simp] theorem setHart_ho (s : State) (h : Nat) (v : Hart) : (s.setHart h v).ho = s.ho := rfl
@[simp] theorem setHart_spares (s : State) (h : Nat) (v : Hart) : (s.setHart h v).spares = s.spares := rfl
@[simp] theorem setHart_barsOpen (s : State) (h : Nat) (v : Hart) : (s.setHart h v).barsOpen = s.barsOpen := rfl
@[simp] theorem setHart_measNow (s : State) (h : Nat) (v : Hart) : (s.setHart h v).measNow = s.measNow := rfl
@[simp] theorem setHart_measNext (s : State) (h : Nat) (v : Hart) : (s.setHart h v).measNext = s.measNext := rfl
@[simp] theorem setHart_badger (s : State) (h : Nat) (v : Hart) : (s.setHart h v).badger = s.badger := rfl
@[simp] theorem setHart_decPtr (s : State) (h : Nat) (v : Hart) : (s.setHart h v).decPtr = s.decPtr := rfl
@[simp] theorem setHart_nextLid (s : State) (h : Nat) (v : Hart) : (s.setHart h v).nextLid = s.nextLid := rfl
@[simp] theorem setHart_nextCid (s : State) (h : Nat) (v : Hart) : (s.setHart h v).nextCid = s.nextCid := rfl
@[simp] theorem setHart_nextRun (s : State) (h : Nat) (v : Hart) : (s.setHart h v).nextRun = s.nextRun := rfl
@[simp] theorem setHart_clock (s : State) (h : Nat) (v : Hart) : (s.setHart h v).clock = s.clock := rfl
@[simp] theorem setHart_eauFrac (s : State) (h : Nat) (v : Hart) : (s.setHart h v).eauFrac = s.eauFrac := rfl
@[simp] theorem setHart_eauSum (s : State) (h : Nat) (v : Hart) : (s.setHart h v).eauSum = s.eauSum := rfl
@[simp] theorem setHart_fresh (s : State) (h : Nat) (v : Hart) : (s.setHart h v).fresh = s.fresh := rfl
@[simp] theorem setHart_agenda (s : State) (h : Nat) (v : Hart) : (s.setHart h v).agenda = s.agenda := rfl
@[simp] theorem setHart_cur (s : State) (h : Nat) (v : Hart) : (s.setHart h v).cur = s.cur := rfl
@[simp] theorem setHart_reply (s : State) (h : Nat) (v : Hart) : (s.setHart h v).reply = s.reply := rfl
@[simp] theorem setHart_halted (s : State) (h : Nat) (v : Hart) : (s.setHart h v).halted = s.halted := rfl
@[simp] theorem setHart_throttling (s : State) (h : Nat) (v : Hart) : (s.setHart h v).throttling = s.throttling := rfl
@[simp] theorem setHart_ceiling (s : State) (h : Nat) (v : Hart) : (s.setHart h v).ceiling = s.ceiling := rfl

@[simp] theorem setCore_mem (s : State) (n : Nat) (v : Core) : (s.setCore n v).mem = s.mem := rfl
@[simp] theorem setCore_regs (s : State) (n : Nat) (v : Core) : (s.setCore n v).regs = s.regs := rfl
@[simp] theorem setCore_harts (s : State) (n : Nat) (v : Core) : (s.setCore n v).harts = s.harts := rfl
@[simp] theorem setCore_conts (s : State) (n : Nat) (v : Core) : (s.setCore n v).conts = s.conts := rfl
@[simp] theorem setCore_runs (s : State) (n : Nat) (v : Core) : (s.setCore n v).runs = s.runs := rfl
@[simp] theorem setCore_launches (s : State) (n : Nat) (v : Core) : (s.setCore n v).launches = s.launches := rfl
@[simp] theorem setCore_streams (s : State) (n : Nat) (v : Core) : (s.setCore n v).streams = s.streams := rfl
@[simp] theorem setCore_graphs (s : State) (n : Nat) (v : Core) : (s.setCore n v).graphs = s.graphs := rfl
@[simp] theorem setCore_gload (s : State) (n : Nat) (v : Core) : (s.setCore n v).gload = s.gload := rfl
@[simp] theorem setCore_tlb (s : State) (n : Nat) (v : Core) : (s.setCore n v).tlb = s.tlb := rfl
@[simp] theorem setCore_walkCache (s : State) (n : Nat) (v : Core) : (s.setCore n v).walkCache = s.walkCache := rfl
@[simp] theorem setCore_missq (s : State) (n : Nat) (v : Core) : (s.setCore n v).missq = s.missq := rfl
@[simp] theorem setCore_walks (s : State) (n : Nat) (v : Core) : (s.setCore n v).walks = s.walks := rfl
@[simp] theorem setCore_walkFault (s : State) (n : Nat) (v : Core) : (s.setCore n v).walkFault = s.walkFault := rfl
@[simp] theorem setCore_invals (s : State) (n : Nat) (v : Core) : (s.setCore n v).invals = s.invals := rfl
@[simp] theorem setCore_pool (s : State) (n : Nat) (v : Core) : (s.setCore n v).pool = s.pool := rfl
@[simp] theorem setCore_reserve (s : State) (n : Nat) (v : Core) : (s.setCore n v).reserve = s.reserve := rfl
@[simp] theorem setCore_keys (s : State) (n : Nat) (v : Core) : (s.setCore n v).keys = s.keys := rfl
@[simp] theorem setCore_attested (s : State) (n : Nat) (v : Core) : (s.setCore n v).attested = s.attested := rfl
@[simp] theorem setCore_ue (s : State) (n : Nat) (v : Core) : (s.setCore n v).ue = s.ue := rfl
@[simp] theorem setCore_owlOp (s : State) (n : Nat) (v : Core) : (s.setCore n v).owlOp = s.owlOp := rfl
@[simp] theorem setCore_owlQ (s : State) (n : Nat) (v : Core) : (s.setCore n v).owlQ = s.owlQ := rfl
@[simp] theorem setCore_ho (s : State) (n : Nat) (v : Core) : (s.setCore n v).ho = s.ho := rfl
@[simp] theorem setCore_spares (s : State) (n : Nat) (v : Core) : (s.setCore n v).spares = s.spares := rfl
@[simp] theorem setCore_barsOpen (s : State) (n : Nat) (v : Core) : (s.setCore n v).barsOpen = s.barsOpen := rfl
@[simp] theorem setCore_measNow (s : State) (n : Nat) (v : Core) : (s.setCore n v).measNow = s.measNow := rfl
@[simp] theorem setCore_measNext (s : State) (n : Nat) (v : Core) : (s.setCore n v).measNext = s.measNext := rfl
@[simp] theorem setCore_badger (s : State) (n : Nat) (v : Core) : (s.setCore n v).badger = s.badger := rfl
@[simp] theorem setCore_decPtr (s : State) (n : Nat) (v : Core) : (s.setCore n v).decPtr = s.decPtr := rfl
@[simp] theorem setCore_nextLid (s : State) (n : Nat) (v : Core) : (s.setCore n v).nextLid = s.nextLid := rfl
@[simp] theorem setCore_nextCid (s : State) (n : Nat) (v : Core) : (s.setCore n v).nextCid = s.nextCid := rfl
@[simp] theorem setCore_nextRun (s : State) (n : Nat) (v : Core) : (s.setCore n v).nextRun = s.nextRun := rfl
@[simp] theorem setCore_clock (s : State) (n : Nat) (v : Core) : (s.setCore n v).clock = s.clock := rfl
@[simp] theorem setCore_eauFrac (s : State) (n : Nat) (v : Core) : (s.setCore n v).eauFrac = s.eauFrac := rfl
@[simp] theorem setCore_eauSum (s : State) (n : Nat) (v : Core) : (s.setCore n v).eauSum = s.eauSum := rfl
@[simp] theorem setCore_fresh (s : State) (n : Nat) (v : Core) : (s.setCore n v).fresh = s.fresh := rfl
@[simp] theorem setCore_agenda (s : State) (n : Nat) (v : Core) : (s.setCore n v).agenda = s.agenda := rfl
@[simp] theorem setCore_cur (s : State) (n : Nat) (v : Core) : (s.setCore n v).cur = s.cur := rfl
@[simp] theorem setCore_reply (s : State) (n : Nat) (v : Core) : (s.setCore n v).reply = s.reply := rfl
@[simp] theorem setCore_halted (s : State) (n : Nat) (v : Core) : (s.setCore n v).halted = s.halted := rfl
@[simp] theorem setCore_throttling (s : State) (n : Nat) (v : Core) : (s.setCore n v).throttling = s.throttling := rfl
@[simp] theorem setCore_ceiling (s : State) (n : Nat) (v : Core) : (s.setCore n v).ceiling = s.ceiling := rfl

@[simp] theorem setCont_mem (s : State) (k : Nat) (v : Cont) : (s.setCont k v).mem = s.mem := rfl
@[simp] theorem setCont_regs (s : State) (k : Nat) (v : Cont) : (s.setCont k v).regs = s.regs := rfl
@[simp] theorem setCont_harts (s : State) (k : Nat) (v : Cont) : (s.setCont k v).harts = s.harts := rfl
@[simp] theorem setCont_cores (s : State) (k : Nat) (v : Cont) : (s.setCont k v).cores = s.cores := rfl
@[simp] theorem setCont_runs (s : State) (k : Nat) (v : Cont) : (s.setCont k v).runs = s.runs := rfl
@[simp] theorem setCont_launches (s : State) (k : Nat) (v : Cont) : (s.setCont k v).launches = s.launches := rfl
@[simp] theorem setCont_streams (s : State) (k : Nat) (v : Cont) : (s.setCont k v).streams = s.streams := rfl
@[simp] theorem setCont_graphs (s : State) (k : Nat) (v : Cont) : (s.setCont k v).graphs = s.graphs := rfl
@[simp] theorem setCont_gload (s : State) (k : Nat) (v : Cont) : (s.setCont k v).gload = s.gload := rfl
@[simp] theorem setCont_tlb (s : State) (k : Nat) (v : Cont) : (s.setCont k v).tlb = s.tlb := rfl
@[simp] theorem setCont_walkCache (s : State) (k : Nat) (v : Cont) : (s.setCont k v).walkCache = s.walkCache := rfl
@[simp] theorem setCont_missq (s : State) (k : Nat) (v : Cont) : (s.setCont k v).missq = s.missq := rfl
@[simp] theorem setCont_walks (s : State) (k : Nat) (v : Cont) : (s.setCont k v).walks = s.walks := rfl
@[simp] theorem setCont_walkFault (s : State) (k : Nat) (v : Cont) : (s.setCont k v).walkFault = s.walkFault := rfl
@[simp] theorem setCont_invals (s : State) (k : Nat) (v : Cont) : (s.setCont k v).invals = s.invals := rfl
@[simp] theorem setCont_pool (s : State) (k : Nat) (v : Cont) : (s.setCont k v).pool = s.pool := rfl
@[simp] theorem setCont_reserve (s : State) (k : Nat) (v : Cont) : (s.setCont k v).reserve = s.reserve := rfl
@[simp] theorem setCont_keys (s : State) (k : Nat) (v : Cont) : (s.setCont k v).keys = s.keys := rfl
@[simp] theorem setCont_attested (s : State) (k : Nat) (v : Cont) : (s.setCont k v).attested = s.attested := rfl
@[simp] theorem setCont_ue (s : State) (k : Nat) (v : Cont) : (s.setCont k v).ue = s.ue := rfl
@[simp] theorem setCont_owlOp (s : State) (k : Nat) (v : Cont) : (s.setCont k v).owlOp = s.owlOp := rfl
@[simp] theorem setCont_owlQ (s : State) (k : Nat) (v : Cont) : (s.setCont k v).owlQ = s.owlQ := rfl
@[simp] theorem setCont_ho (s : State) (k : Nat) (v : Cont) : (s.setCont k v).ho = s.ho := rfl
@[simp] theorem setCont_spares (s : State) (k : Nat) (v : Cont) : (s.setCont k v).spares = s.spares := rfl
@[simp] theorem setCont_barsOpen (s : State) (k : Nat) (v : Cont) : (s.setCont k v).barsOpen = s.barsOpen := rfl
@[simp] theorem setCont_measNow (s : State) (k : Nat) (v : Cont) : (s.setCont k v).measNow = s.measNow := rfl
@[simp] theorem setCont_measNext (s : State) (k : Nat) (v : Cont) : (s.setCont k v).measNext = s.measNext := rfl
@[simp] theorem setCont_badger (s : State) (k : Nat) (v : Cont) : (s.setCont k v).badger = s.badger := rfl
@[simp] theorem setCont_decPtr (s : State) (k : Nat) (v : Cont) : (s.setCont k v).decPtr = s.decPtr := rfl
@[simp] theorem setCont_nextLid (s : State) (k : Nat) (v : Cont) : (s.setCont k v).nextLid = s.nextLid := rfl
@[simp] theorem setCont_nextCid (s : State) (k : Nat) (v : Cont) : (s.setCont k v).nextCid = s.nextCid := rfl
@[simp] theorem setCont_nextRun (s : State) (k : Nat) (v : Cont) : (s.setCont k v).nextRun = s.nextRun := rfl
@[simp] theorem setCont_clock (s : State) (k : Nat) (v : Cont) : (s.setCont k v).clock = s.clock := rfl
@[simp] theorem setCont_eauFrac (s : State) (k : Nat) (v : Cont) : (s.setCont k v).eauFrac = s.eauFrac := rfl
@[simp] theorem setCont_eauSum (s : State) (k : Nat) (v : Cont) : (s.setCont k v).eauSum = s.eauSum := rfl
@[simp] theorem setCont_fresh (s : State) (k : Nat) (v : Cont) : (s.setCont k v).fresh = s.fresh := rfl
@[simp] theorem setCont_agenda (s : State) (k : Nat) (v : Cont) : (s.setCont k v).agenda = s.agenda := rfl
@[simp] theorem setCont_cur (s : State) (k : Nat) (v : Cont) : (s.setCont k v).cur = s.cur := rfl
@[simp] theorem setCont_reply (s : State) (k : Nat) (v : Cont) : (s.setCont k v).reply = s.reply := rfl
@[simp] theorem setCont_halted (s : State) (k : Nat) (v : Cont) : (s.setCont k v).halted = s.halted := rfl
@[simp] theorem setCont_throttling (s : State) (k : Nat) (v : Cont) : (s.setCont k v).throttling = s.throttling := rfl
@[simp] theorem setCont_ceiling (s : State) (k : Nat) (v : Cont) : (s.setCont k v).ceiling = s.ceiling := rfl

@[simp] theorem setVrun_mem (s : State) (k : Nat) (v : VRun) : (s.setVrun k v).mem = s.mem := rfl
@[simp] theorem setVrun_regs (s : State) (k : Nat) (v : VRun) : (s.setVrun k v).regs = s.regs := rfl
@[simp] theorem setVrun_harts (s : State) (k : Nat) (v : VRun) : (s.setVrun k v).harts = s.harts := rfl
@[simp] theorem setVrun_cores (s : State) (k : Nat) (v : VRun) : (s.setVrun k v).cores = s.cores := rfl
@[simp] theorem setVrun_conts (s : State) (k : Nat) (v : VRun) : (s.setVrun k v).conts = s.conts := rfl
@[simp] theorem setVrun_launches (s : State) (k : Nat) (v : VRun) : (s.setVrun k v).launches = s.launches := rfl
@[simp] theorem setVrun_streams (s : State) (k : Nat) (v : VRun) : (s.setVrun k v).streams = s.streams := rfl
@[simp] theorem setVrun_graphs (s : State) (k : Nat) (v : VRun) : (s.setVrun k v).graphs = s.graphs := rfl
@[simp] theorem setVrun_gload (s : State) (k : Nat) (v : VRun) : (s.setVrun k v).gload = s.gload := rfl
@[simp] theorem setVrun_tlb (s : State) (k : Nat) (v : VRun) : (s.setVrun k v).tlb = s.tlb := rfl
@[simp] theorem setVrun_walkCache (s : State) (k : Nat) (v : VRun) : (s.setVrun k v).walkCache = s.walkCache := rfl
@[simp] theorem setVrun_missq (s : State) (k : Nat) (v : VRun) : (s.setVrun k v).missq = s.missq := rfl
@[simp] theorem setVrun_walks (s : State) (k : Nat) (v : VRun) : (s.setVrun k v).walks = s.walks := rfl
@[simp] theorem setVrun_walkFault (s : State) (k : Nat) (v : VRun) : (s.setVrun k v).walkFault = s.walkFault := rfl
@[simp] theorem setVrun_invals (s : State) (k : Nat) (v : VRun) : (s.setVrun k v).invals = s.invals := rfl
@[simp] theorem setVrun_pool (s : State) (k : Nat) (v : VRun) : (s.setVrun k v).pool = s.pool := rfl
@[simp] theorem setVrun_reserve (s : State) (k : Nat) (v : VRun) : (s.setVrun k v).reserve = s.reserve := rfl
@[simp] theorem setVrun_keys (s : State) (k : Nat) (v : VRun) : (s.setVrun k v).keys = s.keys := rfl
@[simp] theorem setVrun_attested (s : State) (k : Nat) (v : VRun) : (s.setVrun k v).attested = s.attested := rfl
@[simp] theorem setVrun_ue (s : State) (k : Nat) (v : VRun) : (s.setVrun k v).ue = s.ue := rfl
@[simp] theorem setVrun_owlOp (s : State) (k : Nat) (v : VRun) : (s.setVrun k v).owlOp = s.owlOp := rfl
@[simp] theorem setVrun_owlQ (s : State) (k : Nat) (v : VRun) : (s.setVrun k v).owlQ = s.owlQ := rfl
@[simp] theorem setVrun_ho (s : State) (k : Nat) (v : VRun) : (s.setVrun k v).ho = s.ho := rfl
@[simp] theorem setVrun_spares (s : State) (k : Nat) (v : VRun) : (s.setVrun k v).spares = s.spares := rfl
@[simp] theorem setVrun_barsOpen (s : State) (k : Nat) (v : VRun) : (s.setVrun k v).barsOpen = s.barsOpen := rfl
@[simp] theorem setVrun_measNow (s : State) (k : Nat) (v : VRun) : (s.setVrun k v).measNow = s.measNow := rfl
@[simp] theorem setVrun_measNext (s : State) (k : Nat) (v : VRun) : (s.setVrun k v).measNext = s.measNext := rfl
@[simp] theorem setVrun_badger (s : State) (k : Nat) (v : VRun) : (s.setVrun k v).badger = s.badger := rfl
@[simp] theorem setVrun_decPtr (s : State) (k : Nat) (v : VRun) : (s.setVrun k v).decPtr = s.decPtr := rfl
@[simp] theorem setVrun_nextLid (s : State) (k : Nat) (v : VRun) : (s.setVrun k v).nextLid = s.nextLid := rfl
@[simp] theorem setVrun_nextCid (s : State) (k : Nat) (v : VRun) : (s.setVrun k v).nextCid = s.nextCid := rfl
@[simp] theorem setVrun_nextRun (s : State) (k : Nat) (v : VRun) : (s.setVrun k v).nextRun = s.nextRun := rfl
@[simp] theorem setVrun_clock (s : State) (k : Nat) (v : VRun) : (s.setVrun k v).clock = s.clock := rfl
@[simp] theorem setVrun_eauFrac (s : State) (k : Nat) (v : VRun) : (s.setVrun k v).eauFrac = s.eauFrac := rfl
@[simp] theorem setVrun_eauSum (s : State) (k : Nat) (v : VRun) : (s.setVrun k v).eauSum = s.eauSum := rfl
@[simp] theorem setVrun_fresh (s : State) (k : Nat) (v : VRun) : (s.setVrun k v).fresh = s.fresh := rfl
@[simp] theorem setVrun_agenda (s : State) (k : Nat) (v : VRun) : (s.setVrun k v).agenda = s.agenda := rfl
@[simp] theorem setVrun_cur (s : State) (k : Nat) (v : VRun) : (s.setVrun k v).cur = s.cur := rfl
@[simp] theorem setVrun_reply (s : State) (k : Nat) (v : VRun) : (s.setVrun k v).reply = s.reply := rfl
@[simp] theorem setVrun_halted (s : State) (k : Nat) (v : VRun) : (s.setVrun k v).halted = s.halted := rfl
@[simp] theorem setVrun_throttling (s : State) (k : Nat) (v : VRun) : (s.setVrun k v).throttling = s.throttling := rfl
@[simp] theorem setVrun_ceiling (s : State) (k : Nat) (v : VRun) : (s.setVrun k v).ceiling = s.ceiling := rfl

@[simp] theorem setStream_mem (s : State) (k : Nat) (v : Stream) : (s.setStream k v).mem = s.mem := rfl
@[simp] theorem setStream_regs (s : State) (k : Nat) (v : Stream) : (s.setStream k v).regs = s.regs := rfl
@[simp] theorem setStream_harts (s : State) (k : Nat) (v : Stream) : (s.setStream k v).harts = s.harts := rfl
@[simp] theorem setStream_cores (s : State) (k : Nat) (v : Stream) : (s.setStream k v).cores = s.cores := rfl
@[simp] theorem setStream_conts (s : State) (k : Nat) (v : Stream) : (s.setStream k v).conts = s.conts := rfl
@[simp] theorem setStream_runs (s : State) (k : Nat) (v : Stream) : (s.setStream k v).runs = s.runs := rfl
@[simp] theorem setStream_launches (s : State) (k : Nat) (v : Stream) : (s.setStream k v).launches = s.launches := rfl
@[simp] theorem setStream_graphs (s : State) (k : Nat) (v : Stream) : (s.setStream k v).graphs = s.graphs := rfl
@[simp] theorem setStream_gload (s : State) (k : Nat) (v : Stream) : (s.setStream k v).gload = s.gload := rfl
@[simp] theorem setStream_tlb (s : State) (k : Nat) (v : Stream) : (s.setStream k v).tlb = s.tlb := rfl
@[simp] theorem setStream_walkCache (s : State) (k : Nat) (v : Stream) : (s.setStream k v).walkCache = s.walkCache := rfl
@[simp] theorem setStream_missq (s : State) (k : Nat) (v : Stream) : (s.setStream k v).missq = s.missq := rfl
@[simp] theorem setStream_walks (s : State) (k : Nat) (v : Stream) : (s.setStream k v).walks = s.walks := rfl
@[simp] theorem setStream_walkFault (s : State) (k : Nat) (v : Stream) : (s.setStream k v).walkFault = s.walkFault := rfl
@[simp] theorem setStream_invals (s : State) (k : Nat) (v : Stream) : (s.setStream k v).invals = s.invals := rfl
@[simp] theorem setStream_pool (s : State) (k : Nat) (v : Stream) : (s.setStream k v).pool = s.pool := rfl
@[simp] theorem setStream_reserve (s : State) (k : Nat) (v : Stream) : (s.setStream k v).reserve = s.reserve := rfl
@[simp] theorem setStream_keys (s : State) (k : Nat) (v : Stream) : (s.setStream k v).keys = s.keys := rfl
@[simp] theorem setStream_attested (s : State) (k : Nat) (v : Stream) : (s.setStream k v).attested = s.attested := rfl
@[simp] theorem setStream_ue (s : State) (k : Nat) (v : Stream) : (s.setStream k v).ue = s.ue := rfl
@[simp] theorem setStream_owlOp (s : State) (k : Nat) (v : Stream) : (s.setStream k v).owlOp = s.owlOp := rfl
@[simp] theorem setStream_owlQ (s : State) (k : Nat) (v : Stream) : (s.setStream k v).owlQ = s.owlQ := rfl
@[simp] theorem setStream_ho (s : State) (k : Nat) (v : Stream) : (s.setStream k v).ho = s.ho := rfl
@[simp] theorem setStream_spares (s : State) (k : Nat) (v : Stream) : (s.setStream k v).spares = s.spares := rfl
@[simp] theorem setStream_barsOpen (s : State) (k : Nat) (v : Stream) : (s.setStream k v).barsOpen = s.barsOpen := rfl
@[simp] theorem setStream_measNow (s : State) (k : Nat) (v : Stream) : (s.setStream k v).measNow = s.measNow := rfl
@[simp] theorem setStream_measNext (s : State) (k : Nat) (v : Stream) : (s.setStream k v).measNext = s.measNext := rfl
@[simp] theorem setStream_badger (s : State) (k : Nat) (v : Stream) : (s.setStream k v).badger = s.badger := rfl
@[simp] theorem setStream_decPtr (s : State) (k : Nat) (v : Stream) : (s.setStream k v).decPtr = s.decPtr := rfl
@[simp] theorem setStream_nextLid (s : State) (k : Nat) (v : Stream) : (s.setStream k v).nextLid = s.nextLid := rfl
@[simp] theorem setStream_nextCid (s : State) (k : Nat) (v : Stream) : (s.setStream k v).nextCid = s.nextCid := rfl
@[simp] theorem setStream_nextRun (s : State) (k : Nat) (v : Stream) : (s.setStream k v).nextRun = s.nextRun := rfl
@[simp] theorem setStream_clock (s : State) (k : Nat) (v : Stream) : (s.setStream k v).clock = s.clock := rfl
@[simp] theorem setStream_eauFrac (s : State) (k : Nat) (v : Stream) : (s.setStream k v).eauFrac = s.eauFrac := rfl
@[simp] theorem setStream_eauSum (s : State) (k : Nat) (v : Stream) : (s.setStream k v).eauSum = s.eauSum := rfl
@[simp] theorem setStream_fresh (s : State) (k : Nat) (v : Stream) : (s.setStream k v).fresh = s.fresh := rfl
@[simp] theorem setStream_agenda (s : State) (k : Nat) (v : Stream) : (s.setStream k v).agenda = s.agenda := rfl
@[simp] theorem setStream_cur (s : State) (k : Nat) (v : Stream) : (s.setStream k v).cur = s.cur := rfl
@[simp] theorem setStream_reply (s : State) (k : Nat) (v : Stream) : (s.setStream k v).reply = s.reply := rfl
@[simp] theorem setStream_halted (s : State) (k : Nat) (v : Stream) : (s.setStream k v).halted = s.halted := rfl
@[simp] theorem setStream_throttling (s : State) (k : Nat) (v : Stream) : (s.setStream k v).throttling = s.throttling := rfl
@[simp] theorem setStream_ceiling (s : State) (k : Nat) (v : Stream) : (s.setStream k v).ceiling = s.ceiling := rfl

@[simp] theorem setLaunch_mem (s : State) (k : Nat) (v : Launch) : (s.setLaunch k v).mem = s.mem := rfl
@[simp] theorem setLaunch_regs (s : State) (k : Nat) (v : Launch) : (s.setLaunch k v).regs = s.regs := rfl
@[simp] theorem setLaunch_harts (s : State) (k : Nat) (v : Launch) : (s.setLaunch k v).harts = s.harts := rfl
@[simp] theorem setLaunch_cores (s : State) (k : Nat) (v : Launch) : (s.setLaunch k v).cores = s.cores := rfl
@[simp] theorem setLaunch_conts (s : State) (k : Nat) (v : Launch) : (s.setLaunch k v).conts = s.conts := rfl
@[simp] theorem setLaunch_runs (s : State) (k : Nat) (v : Launch) : (s.setLaunch k v).runs = s.runs := rfl
@[simp] theorem setLaunch_streams (s : State) (k : Nat) (v : Launch) : (s.setLaunch k v).streams = s.streams := rfl
@[simp] theorem setLaunch_graphs (s : State) (k : Nat) (v : Launch) : (s.setLaunch k v).graphs = s.graphs := rfl
@[simp] theorem setLaunch_gload (s : State) (k : Nat) (v : Launch) : (s.setLaunch k v).gload = s.gload := rfl
@[simp] theorem setLaunch_tlb (s : State) (k : Nat) (v : Launch) : (s.setLaunch k v).tlb = s.tlb := rfl
@[simp] theorem setLaunch_walkCache (s : State) (k : Nat) (v : Launch) : (s.setLaunch k v).walkCache = s.walkCache := rfl
@[simp] theorem setLaunch_missq (s : State) (k : Nat) (v : Launch) : (s.setLaunch k v).missq = s.missq := rfl
@[simp] theorem setLaunch_walks (s : State) (k : Nat) (v : Launch) : (s.setLaunch k v).walks = s.walks := rfl
@[simp] theorem setLaunch_walkFault (s : State) (k : Nat) (v : Launch) : (s.setLaunch k v).walkFault = s.walkFault := rfl
@[simp] theorem setLaunch_invals (s : State) (k : Nat) (v : Launch) : (s.setLaunch k v).invals = s.invals := rfl
@[simp] theorem setLaunch_pool (s : State) (k : Nat) (v : Launch) : (s.setLaunch k v).pool = s.pool := rfl
@[simp] theorem setLaunch_reserve (s : State) (k : Nat) (v : Launch) : (s.setLaunch k v).reserve = s.reserve := rfl
@[simp] theorem setLaunch_keys (s : State) (k : Nat) (v : Launch) : (s.setLaunch k v).keys = s.keys := rfl
@[simp] theorem setLaunch_attested (s : State) (k : Nat) (v : Launch) : (s.setLaunch k v).attested = s.attested := rfl
@[simp] theorem setLaunch_ue (s : State) (k : Nat) (v : Launch) : (s.setLaunch k v).ue = s.ue := rfl
@[simp] theorem setLaunch_owlOp (s : State) (k : Nat) (v : Launch) : (s.setLaunch k v).owlOp = s.owlOp := rfl
@[simp] theorem setLaunch_owlQ (s : State) (k : Nat) (v : Launch) : (s.setLaunch k v).owlQ = s.owlQ := rfl
@[simp] theorem setLaunch_ho (s : State) (k : Nat) (v : Launch) : (s.setLaunch k v).ho = s.ho := rfl
@[simp] theorem setLaunch_spares (s : State) (k : Nat) (v : Launch) : (s.setLaunch k v).spares = s.spares := rfl
@[simp] theorem setLaunch_barsOpen (s : State) (k : Nat) (v : Launch) : (s.setLaunch k v).barsOpen = s.barsOpen := rfl
@[simp] theorem setLaunch_measNow (s : State) (k : Nat) (v : Launch) : (s.setLaunch k v).measNow = s.measNow := rfl
@[simp] theorem setLaunch_measNext (s : State) (k : Nat) (v : Launch) : (s.setLaunch k v).measNext = s.measNext := rfl
@[simp] theorem setLaunch_badger (s : State) (k : Nat) (v : Launch) : (s.setLaunch k v).badger = s.badger := rfl
@[simp] theorem setLaunch_decPtr (s : State) (k : Nat) (v : Launch) : (s.setLaunch k v).decPtr = s.decPtr := rfl
@[simp] theorem setLaunch_nextLid (s : State) (k : Nat) (v : Launch) : (s.setLaunch k v).nextLid = s.nextLid := rfl
@[simp] theorem setLaunch_nextCid (s : State) (k : Nat) (v : Launch) : (s.setLaunch k v).nextCid = s.nextCid := rfl
@[simp] theorem setLaunch_nextRun (s : State) (k : Nat) (v : Launch) : (s.setLaunch k v).nextRun = s.nextRun := rfl
@[simp] theorem setLaunch_clock (s : State) (k : Nat) (v : Launch) : (s.setLaunch k v).clock = s.clock := rfl
@[simp] theorem setLaunch_eauFrac (s : State) (k : Nat) (v : Launch) : (s.setLaunch k v).eauFrac = s.eauFrac := rfl
@[simp] theorem setLaunch_eauSum (s : State) (k : Nat) (v : Launch) : (s.setLaunch k v).eauSum = s.eauSum := rfl
@[simp] theorem setLaunch_fresh (s : State) (k : Nat) (v : Launch) : (s.setLaunch k v).fresh = s.fresh := rfl
@[simp] theorem setLaunch_agenda (s : State) (k : Nat) (v : Launch) : (s.setLaunch k v).agenda = s.agenda := rfl
@[simp] theorem setLaunch_cur (s : State) (k : Nat) (v : Launch) : (s.setLaunch k v).cur = s.cur := rfl
@[simp] theorem setLaunch_reply (s : State) (k : Nat) (v : Launch) : (s.setLaunch k v).reply = s.reply := rfl
@[simp] theorem setLaunch_halted (s : State) (k : Nat) (v : Launch) : (s.setLaunch k v).halted = s.halted := rfl
@[simp] theorem setLaunch_throttling (s : State) (k : Nat) (v : Launch) : (s.setLaunch k v).throttling = s.throttling := rfl
@[simp] theorem setLaunch_ceiling (s : State) (k : Nat) (v : Launch) : (s.setLaunch k v).ceiling = s.ceiling := rfl

@[simp] theorem rset_mem (s : State) (o v : Nat) : (s.rset o v).mem = s.mem := rfl
@[simp] theorem rset_harts (s : State) (o v : Nat) : (s.rset o v).harts = s.harts := rfl
@[simp] theorem rset_cores (s : State) (o v : Nat) : (s.rset o v).cores = s.cores := rfl
@[simp] theorem rset_conts (s : State) (o v : Nat) : (s.rset o v).conts = s.conts := rfl
@[simp] theorem rset_runs (s : State) (o v : Nat) : (s.rset o v).runs = s.runs := rfl
@[simp] theorem rset_launches (s : State) (o v : Nat) : (s.rset o v).launches = s.launches := rfl
@[simp] theorem rset_streams (s : State) (o v : Nat) : (s.rset o v).streams = s.streams := rfl
@[simp] theorem rset_graphs (s : State) (o v : Nat) : (s.rset o v).graphs = s.graphs := rfl
@[simp] theorem rset_gload (s : State) (o v : Nat) : (s.rset o v).gload = s.gload := rfl
@[simp] theorem rset_tlb (s : State) (o v : Nat) : (s.rset o v).tlb = s.tlb := rfl
@[simp] theorem rset_walkCache (s : State) (o v : Nat) : (s.rset o v).walkCache = s.walkCache := rfl
@[simp] theorem rset_missq (s : State) (o v : Nat) : (s.rset o v).missq = s.missq := rfl
@[simp] theorem rset_walks (s : State) (o v : Nat) : (s.rset o v).walks = s.walks := rfl
@[simp] theorem rset_walkFault (s : State) (o v : Nat) : (s.rset o v).walkFault = s.walkFault := rfl
@[simp] theorem rset_invals (s : State) (o v : Nat) : (s.rset o v).invals = s.invals := rfl
@[simp] theorem rset_pool (s : State) (o v : Nat) : (s.rset o v).pool = s.pool := rfl
@[simp] theorem rset_reserve (s : State) (o v : Nat) : (s.rset o v).reserve = s.reserve := rfl
@[simp] theorem rset_keys (s : State) (o v : Nat) : (s.rset o v).keys = s.keys := rfl
@[simp] theorem rset_attested (s : State) (o v : Nat) : (s.rset o v).attested = s.attested := rfl
@[simp] theorem rset_ue (s : State) (o v : Nat) : (s.rset o v).ue = s.ue := rfl
@[simp] theorem rset_owlOp (s : State) (o v : Nat) : (s.rset o v).owlOp = s.owlOp := rfl
@[simp] theorem rset_owlQ (s : State) (o v : Nat) : (s.rset o v).owlQ = s.owlQ := rfl
@[simp] theorem rset_ho (s : State) (o v : Nat) : (s.rset o v).ho = s.ho := rfl
@[simp] theorem rset_spares (s : State) (o v : Nat) : (s.rset o v).spares = s.spares := rfl
@[simp] theorem rset_barsOpen (s : State) (o v : Nat) : (s.rset o v).barsOpen = s.barsOpen := rfl
@[simp] theorem rset_measNow (s : State) (o v : Nat) : (s.rset o v).measNow = s.measNow := rfl
@[simp] theorem rset_measNext (s : State) (o v : Nat) : (s.rset o v).measNext = s.measNext := rfl
@[simp] theorem rset_badger (s : State) (o v : Nat) : (s.rset o v).badger = s.badger := rfl
@[simp] theorem rset_decPtr (s : State) (o v : Nat) : (s.rset o v).decPtr = s.decPtr := rfl
@[simp] theorem rset_nextLid (s : State) (o v : Nat) : (s.rset o v).nextLid = s.nextLid := rfl
@[simp] theorem rset_nextCid (s : State) (o v : Nat) : (s.rset o v).nextCid = s.nextCid := rfl
@[simp] theorem rset_nextRun (s : State) (o v : Nat) : (s.rset o v).nextRun = s.nextRun := rfl
@[simp] theorem rset_clock (s : State) (o v : Nat) : (s.rset o v).clock = s.clock := rfl
@[simp] theorem rset_eauFrac (s : State) (o v : Nat) : (s.rset o v).eauFrac = s.eauFrac := rfl
@[simp] theorem rset_eauSum (s : State) (o v : Nat) : (s.rset o v).eauSum = s.eauSum := rfl
@[simp] theorem rset_fresh (s : State) (o v : Nat) : (s.rset o v).fresh = s.fresh := rfl
@[simp] theorem rset_agenda (s : State) (o v : Nat) : (s.rset o v).agenda = s.agenda := rfl
@[simp] theorem rset_cur (s : State) (o v : Nat) : (s.rset o v).cur = s.cur := rfl
@[simp] theorem rset_reply (s : State) (o v : Nat) : (s.rset o v).reply = s.reply := rfl
@[simp] theorem rset_halted (s : State) (o v : Nat) : (s.rset o v).halted = s.halted := rfl
@[simp] theorem rset_throttling (s : State) (o v : Nat) : (s.rset o v).throttling = s.throttling := rfl
@[simp] theorem rset_ceiling (s : State) (o v : Nat) : (s.rset o v).ceiling = s.ceiling := rfl

@[simp] theorem tookWalk_mem (s : State) (w : Who) : (s.tookWalk w).mem = s.mem := rfl
@[simp] theorem tookWalk_regs (s : State) (w : Who) : (s.tookWalk w).regs = s.regs := rfl
@[simp] theorem tookWalk_harts (s : State) (w : Who) : (s.tookWalk w).harts = s.harts := rfl
@[simp] theorem tookWalk_cores (s : State) (w : Who) : (s.tookWalk w).cores = s.cores := rfl
@[simp] theorem tookWalk_conts (s : State) (w : Who) : (s.tookWalk w).conts = s.conts := rfl
@[simp] theorem tookWalk_runs (s : State) (w : Who) : (s.tookWalk w).runs = s.runs := rfl
@[simp] theorem tookWalk_launches (s : State) (w : Who) : (s.tookWalk w).launches = s.launches := rfl
@[simp] theorem tookWalk_streams (s : State) (w : Who) : (s.tookWalk w).streams = s.streams := rfl
@[simp] theorem tookWalk_graphs (s : State) (w : Who) : (s.tookWalk w).graphs = s.graphs := rfl
@[simp] theorem tookWalk_gload (s : State) (w : Who) : (s.tookWalk w).gload = s.gload := rfl
@[simp] theorem tookWalk_tlb (s : State) (w : Who) : (s.tookWalk w).tlb = s.tlb := rfl
@[simp] theorem tookWalk_walkCache (s : State) (w : Who) : (s.tookWalk w).walkCache = s.walkCache := rfl
@[simp] theorem tookWalk_missq (s : State) (w : Who) : (s.tookWalk w).missq = s.missq := rfl
@[simp] theorem tookWalk_walks (s : State) (w : Who) : (s.tookWalk w).walks = s.walks := rfl
@[simp] theorem tookWalk_invals (s : State) (w : Who) : (s.tookWalk w).invals = s.invals := rfl
@[simp] theorem tookWalk_pool (s : State) (w : Who) : (s.tookWalk w).pool = s.pool := rfl
@[simp] theorem tookWalk_reserve (s : State) (w : Who) : (s.tookWalk w).reserve = s.reserve := rfl
@[simp] theorem tookWalk_keys (s : State) (w : Who) : (s.tookWalk w).keys = s.keys := rfl
@[simp] theorem tookWalk_attested (s : State) (w : Who) : (s.tookWalk w).attested = s.attested := rfl
@[simp] theorem tookWalk_ue (s : State) (w : Who) : (s.tookWalk w).ue = s.ue := rfl
@[simp] theorem tookWalk_owlQ (s : State) (w : Who) : (s.tookWalk w).owlQ = s.owlQ := rfl
@[simp] theorem tookWalk_ho (s : State) (w : Who) : (s.tookWalk w).ho = s.ho := rfl
@[simp] theorem tookWalk_spares (s : State) (w : Who) : (s.tookWalk w).spares = s.spares := rfl
@[simp] theorem tookWalk_barsOpen (s : State) (w : Who) : (s.tookWalk w).barsOpen = s.barsOpen := rfl
@[simp] theorem tookWalk_measNow (s : State) (w : Who) : (s.tookWalk w).measNow = s.measNow := rfl
@[simp] theorem tookWalk_measNext (s : State) (w : Who) : (s.tookWalk w).measNext = s.measNext := rfl
@[simp] theorem tookWalk_badger (s : State) (w : Who) : (s.tookWalk w).badger = s.badger := rfl
@[simp] theorem tookWalk_decPtr (s : State) (w : Who) : (s.tookWalk w).decPtr = s.decPtr := rfl
@[simp] theorem tookWalk_nextLid (s : State) (w : Who) : (s.tookWalk w).nextLid = s.nextLid := rfl
@[simp] theorem tookWalk_nextCid (s : State) (w : Who) : (s.tookWalk w).nextCid = s.nextCid := rfl
@[simp] theorem tookWalk_nextRun (s : State) (w : Who) : (s.tookWalk w).nextRun = s.nextRun := rfl
@[simp] theorem tookWalk_clock (s : State) (w : Who) : (s.tookWalk w).clock = s.clock := rfl
@[simp] theorem tookWalk_eauFrac (s : State) (w : Who) : (s.tookWalk w).eauFrac = s.eauFrac := rfl
@[simp] theorem tookWalk_eauSum (s : State) (w : Who) : (s.tookWalk w).eauSum = s.eauSum := rfl
@[simp] theorem tookWalk_fresh (s : State) (w : Who) : (s.tookWalk w).fresh = s.fresh := rfl
@[simp] theorem tookWalk_agenda (s : State) (w : Who) : (s.tookWalk w).agenda = s.agenda := rfl
@[simp] theorem tookWalk_cur (s : State) (w : Who) : (s.tookWalk w).cur = s.cur := rfl
@[simp] theorem tookWalk_reply (s : State) (w : Who) : (s.tookWalk w).reply = s.reply := rfl
@[simp] theorem tookWalk_halted (s : State) (w : Who) : (s.tookWalk w).halted = s.halted := rfl
@[simp] theorem tookWalk_throttling (s : State) (w : Who) : (s.tookWalk w).throttling = s.throttling := rfl
@[simp] theorem tookWalk_ceiling (s : State) (w : Who) : (s.tookWalk w).ceiling = s.ceiling := rfl

@[simp] theorem asHart_mem (s : State) (n : Nat) : (s.asHart n).mem = s.mem := rfl
@[simp] theorem asHart_regs (s : State) (n : Nat) : (s.asHart n).regs = s.regs := rfl
@[simp] theorem asHart_harts (s : State) (n : Nat) : (s.asHart n).harts = s.harts := rfl
@[simp] theorem asHart_cores (s : State) (n : Nat) : (s.asHart n).cores = s.cores := rfl
@[simp] theorem asHart_conts (s : State) (n : Nat) : (s.asHart n).conts = s.conts := rfl
@[simp] theorem asHart_runs (s : State) (n : Nat) : (s.asHart n).runs = s.runs := rfl
@[simp] theorem asHart_launches (s : State) (n : Nat) : (s.asHart n).launches = s.launches := rfl
@[simp] theorem asHart_streams (s : State) (n : Nat) : (s.asHart n).streams = s.streams := rfl
@[simp] theorem asHart_graphs (s : State) (n : Nat) : (s.asHart n).graphs = s.graphs := rfl
@[simp] theorem asHart_gload (s : State) (n : Nat) : (s.asHart n).gload = s.gload := rfl
@[simp] theorem asHart_tlb (s : State) (n : Nat) : (s.asHart n).tlb = s.tlb := rfl
@[simp] theorem asHart_walkCache (s : State) (n : Nat) : (s.asHart n).walkCache = s.walkCache := rfl
@[simp] theorem asHart_missq (s : State) (n : Nat) : (s.asHart n).missq = s.missq := rfl
@[simp] theorem asHart_walks (s : State) (n : Nat) : (s.asHart n).walks = s.walks := rfl
@[simp] theorem asHart_walkFault (s : State) (n : Nat) : (s.asHart n).walkFault = s.walkFault := rfl
@[simp] theorem asHart_invals (s : State) (n : Nat) : (s.asHart n).invals = s.invals := rfl
@[simp] theorem asHart_pool (s : State) (n : Nat) : (s.asHart n).pool = s.pool := rfl
@[simp] theorem asHart_reserve (s : State) (n : Nat) : (s.asHart n).reserve = s.reserve := rfl
@[simp] theorem asHart_keys (s : State) (n : Nat) : (s.asHart n).keys = s.keys := rfl
@[simp] theorem asHart_attested (s : State) (n : Nat) : (s.asHart n).attested = s.attested := rfl
@[simp] theorem asHart_ue (s : State) (n : Nat) : (s.asHart n).ue = s.ue := rfl
@[simp] theorem asHart_owlOp (s : State) (n : Nat) : (s.asHart n).owlOp = s.owlOp := rfl
@[simp] theorem asHart_owlQ (s : State) (n : Nat) : (s.asHart n).owlQ = s.owlQ := rfl
@[simp] theorem asHart_ho (s : State) (n : Nat) : (s.asHart n).ho = s.ho := rfl
@[simp] theorem asHart_spares (s : State) (n : Nat) : (s.asHart n).spares = s.spares := rfl
@[simp] theorem asHart_barsOpen (s : State) (n : Nat) : (s.asHart n).barsOpen = s.barsOpen := rfl
@[simp] theorem asHart_measNow (s : State) (n : Nat) : (s.asHart n).measNow = s.measNow := rfl
@[simp] theorem asHart_measNext (s : State) (n : Nat) : (s.asHart n).measNext = s.measNext := rfl
@[simp] theorem asHart_badger (s : State) (n : Nat) : (s.asHart n).badger = s.badger := rfl
@[simp] theorem asHart_decPtr (s : State) (n : Nat) : (s.asHart n).decPtr = s.decPtr := rfl
@[simp] theorem asHart_nextLid (s : State) (n : Nat) : (s.asHart n).nextLid = s.nextLid := rfl
@[simp] theorem asHart_nextCid (s : State) (n : Nat) : (s.asHart n).nextCid = s.nextCid := rfl
@[simp] theorem asHart_nextRun (s : State) (n : Nat) : (s.asHart n).nextRun = s.nextRun := rfl
@[simp] theorem asHart_clock (s : State) (n : Nat) : (s.asHart n).clock = s.clock := rfl
@[simp] theorem asHart_eauFrac (s : State) (n : Nat) : (s.asHart n).eauFrac = s.eauFrac := rfl
@[simp] theorem asHart_eauSum (s : State) (n : Nat) : (s.asHart n).eauSum = s.eauSum := rfl
@[simp] theorem asHart_fresh (s : State) (n : Nat) : (s.asHart n).fresh = s.fresh := rfl
@[simp] theorem asHart_agenda (s : State) (n : Nat) : (s.asHart n).agenda = s.agenda := rfl
@[simp] theorem asHart_reply (s : State) (n : Nat) : (s.asHart n).reply = s.reply := rfl
@[simp] theorem asHart_halted (s : State) (n : Nat) : (s.asHart n).halted = s.halted := rfl
@[simp] theorem asHart_throttling (s : State) (n : Nat) : (s.asHart n).throttling = s.throttling := rfl
@[simp] theorem asHart_ceiling (s : State) (n : Nat) : (s.asHart n).ceiling = s.ceiling := rfl

@[simp] theorem asPart_mem (s : State) : (s.asPart ).mem = s.mem := rfl
@[simp] theorem asPart_regs (s : State) : (s.asPart ).regs = s.regs := rfl
@[simp] theorem asPart_harts (s : State) : (s.asPart ).harts = s.harts := rfl
@[simp] theorem asPart_cores (s : State) : (s.asPart ).cores = s.cores := rfl
@[simp] theorem asPart_conts (s : State) : (s.asPart ).conts = s.conts := rfl
@[simp] theorem asPart_runs (s : State) : (s.asPart ).runs = s.runs := rfl
@[simp] theorem asPart_launches (s : State) : (s.asPart ).launches = s.launches := rfl
@[simp] theorem asPart_streams (s : State) : (s.asPart ).streams = s.streams := rfl
@[simp] theorem asPart_graphs (s : State) : (s.asPart ).graphs = s.graphs := rfl
@[simp] theorem asPart_gload (s : State) : (s.asPart ).gload = s.gload := rfl
@[simp] theorem asPart_tlb (s : State) : (s.asPart ).tlb = s.tlb := rfl
@[simp] theorem asPart_walkCache (s : State) : (s.asPart ).walkCache = s.walkCache := rfl
@[simp] theorem asPart_missq (s : State) : (s.asPart ).missq = s.missq := rfl
@[simp] theorem asPart_walks (s : State) : (s.asPart ).walks = s.walks := rfl
@[simp] theorem asPart_walkFault (s : State) : (s.asPart ).walkFault = s.walkFault := rfl
@[simp] theorem asPart_invals (s : State) : (s.asPart ).invals = s.invals := rfl
@[simp] theorem asPart_pool (s : State) : (s.asPart ).pool = s.pool := rfl
@[simp] theorem asPart_reserve (s : State) : (s.asPart ).reserve = s.reserve := rfl
@[simp] theorem asPart_keys (s : State) : (s.asPart ).keys = s.keys := rfl
@[simp] theorem asPart_attested (s : State) : (s.asPart ).attested = s.attested := rfl
@[simp] theorem asPart_ue (s : State) : (s.asPart ).ue = s.ue := rfl
@[simp] theorem asPart_owlOp (s : State) : (s.asPart ).owlOp = s.owlOp := rfl
@[simp] theorem asPart_owlQ (s : State) : (s.asPart ).owlQ = s.owlQ := rfl
@[simp] theorem asPart_ho (s : State) : (s.asPart ).ho = s.ho := rfl
@[simp] theorem asPart_spares (s : State) : (s.asPart ).spares = s.spares := rfl
@[simp] theorem asPart_barsOpen (s : State) : (s.asPart ).barsOpen = s.barsOpen := rfl
@[simp] theorem asPart_measNow (s : State) : (s.asPart ).measNow = s.measNow := rfl
@[simp] theorem asPart_measNext (s : State) : (s.asPart ).measNext = s.measNext := rfl
@[simp] theorem asPart_badger (s : State) : (s.asPart ).badger = s.badger := rfl
@[simp] theorem asPart_decPtr (s : State) : (s.asPart ).decPtr = s.decPtr := rfl
@[simp] theorem asPart_nextLid (s : State) : (s.asPart ).nextLid = s.nextLid := rfl
@[simp] theorem asPart_nextCid (s : State) : (s.asPart ).nextCid = s.nextCid := rfl
@[simp] theorem asPart_nextRun (s : State) : (s.asPart ).nextRun = s.nextRun := rfl
@[simp] theorem asPart_clock (s : State) : (s.asPart ).clock = s.clock := rfl
@[simp] theorem asPart_eauFrac (s : State) : (s.asPart ).eauFrac = s.eauFrac := rfl
@[simp] theorem asPart_eauSum (s : State) : (s.asPart ).eauSum = s.eauSum := rfl
@[simp] theorem asPart_fresh (s : State) : (s.asPart ).fresh = s.fresh := rfl
@[simp] theorem asPart_agenda (s : State) : (s.asPart ).agenda = s.agenda := rfl
@[simp] theorem asPart_reply (s : State) : (s.asPart ).reply = s.reply := rfl
@[simp] theorem asPart_halted (s : State) : (s.asPart ).halted = s.halted := rfl
@[simp] theorem asPart_throttling (s : State) : (s.asPart ).throttling = s.throttling := rfl
@[simp] theorem asPart_ceiling (s : State) : (s.asPart ).ceiling = s.ceiling := rfl

@[simp] theorem asEngine_mem (s : State) (n e : Nat) (x : QEntry) (b : Bool) : (s.asEngine n e x b).mem = s.mem := rfl
@[simp] theorem asEngine_regs (s : State) (n e : Nat) (x : QEntry) (b : Bool) : (s.asEngine n e x b).regs = s.regs := rfl
@[simp] theorem asEngine_harts (s : State) (n e : Nat) (x : QEntry) (b : Bool) : (s.asEngine n e x b).harts = s.harts := rfl
@[simp] theorem asEngine_cores (s : State) (n e : Nat) (x : QEntry) (b : Bool) : (s.asEngine n e x b).cores = s.cores := rfl
@[simp] theorem asEngine_conts (s : State) (n e : Nat) (x : QEntry) (b : Bool) : (s.asEngine n e x b).conts = s.conts := rfl
@[simp] theorem asEngine_runs (s : State) (n e : Nat) (x : QEntry) (b : Bool) : (s.asEngine n e x b).runs = s.runs := rfl
@[simp] theorem asEngine_launches (s : State) (n e : Nat) (x : QEntry) (b : Bool) : (s.asEngine n e x b).launches = s.launches := rfl
@[simp] theorem asEngine_streams (s : State) (n e : Nat) (x : QEntry) (b : Bool) : (s.asEngine n e x b).streams = s.streams := rfl
@[simp] theorem asEngine_graphs (s : State) (n e : Nat) (x : QEntry) (b : Bool) : (s.asEngine n e x b).graphs = s.graphs := rfl
@[simp] theorem asEngine_gload (s : State) (n e : Nat) (x : QEntry) (b : Bool) : (s.asEngine n e x b).gload = s.gload := rfl
@[simp] theorem asEngine_tlb (s : State) (n e : Nat) (x : QEntry) (b : Bool) : (s.asEngine n e x b).tlb = s.tlb := rfl
@[simp] theorem asEngine_walkCache (s : State) (n e : Nat) (x : QEntry) (b : Bool) : (s.asEngine n e x b).walkCache = s.walkCache := rfl
@[simp] theorem asEngine_missq (s : State) (n e : Nat) (x : QEntry) (b : Bool) : (s.asEngine n e x b).missq = s.missq := rfl
@[simp] theorem asEngine_walks (s : State) (n e : Nat) (x : QEntry) (b : Bool) : (s.asEngine n e x b).walks = s.walks := rfl
@[simp] theorem asEngine_walkFault (s : State) (n e : Nat) (x : QEntry) (b : Bool) : (s.asEngine n e x b).walkFault = s.walkFault := rfl
@[simp] theorem asEngine_invals (s : State) (n e : Nat) (x : QEntry) (b : Bool) : (s.asEngine n e x b).invals = s.invals := rfl
@[simp] theorem asEngine_pool (s : State) (n e : Nat) (x : QEntry) (b : Bool) : (s.asEngine n e x b).pool = s.pool := rfl
@[simp] theorem asEngine_reserve (s : State) (n e : Nat) (x : QEntry) (b : Bool) : (s.asEngine n e x b).reserve = s.reserve := rfl
@[simp] theorem asEngine_keys (s : State) (n e : Nat) (x : QEntry) (b : Bool) : (s.asEngine n e x b).keys = s.keys := rfl
@[simp] theorem asEngine_attested (s : State) (n e : Nat) (x : QEntry) (b : Bool) : (s.asEngine n e x b).attested = s.attested := rfl
@[simp] theorem asEngine_ue (s : State) (n e : Nat) (x : QEntry) (b : Bool) : (s.asEngine n e x b).ue = s.ue := rfl
@[simp] theorem asEngine_owlOp (s : State) (n e : Nat) (x : QEntry) (b : Bool) : (s.asEngine n e x b).owlOp = s.owlOp := rfl
@[simp] theorem asEngine_owlQ (s : State) (n e : Nat) (x : QEntry) (b : Bool) : (s.asEngine n e x b).owlQ = s.owlQ := rfl
@[simp] theorem asEngine_ho (s : State) (n e : Nat) (x : QEntry) (b : Bool) : (s.asEngine n e x b).ho = s.ho := rfl
@[simp] theorem asEngine_spares (s : State) (n e : Nat) (x : QEntry) (b : Bool) : (s.asEngine n e x b).spares = s.spares := rfl
@[simp] theorem asEngine_barsOpen (s : State) (n e : Nat) (x : QEntry) (b : Bool) : (s.asEngine n e x b).barsOpen = s.barsOpen := rfl
@[simp] theorem asEngine_measNow (s : State) (n e : Nat) (x : QEntry) (b : Bool) : (s.asEngine n e x b).measNow = s.measNow := rfl
@[simp] theorem asEngine_measNext (s : State) (n e : Nat) (x : QEntry) (b : Bool) : (s.asEngine n e x b).measNext = s.measNext := rfl
@[simp] theorem asEngine_badger (s : State) (n e : Nat) (x : QEntry) (b : Bool) : (s.asEngine n e x b).badger = s.badger := rfl
@[simp] theorem asEngine_decPtr (s : State) (n e : Nat) (x : QEntry) (b : Bool) : (s.asEngine n e x b).decPtr = s.decPtr := rfl
@[simp] theorem asEngine_nextLid (s : State) (n e : Nat) (x : QEntry) (b : Bool) : (s.asEngine n e x b).nextLid = s.nextLid := rfl
@[simp] theorem asEngine_nextCid (s : State) (n e : Nat) (x : QEntry) (b : Bool) : (s.asEngine n e x b).nextCid = s.nextCid := rfl
@[simp] theorem asEngine_nextRun (s : State) (n e : Nat) (x : QEntry) (b : Bool) : (s.asEngine n e x b).nextRun = s.nextRun := rfl
@[simp] theorem asEngine_clock (s : State) (n e : Nat) (x : QEntry) (b : Bool) : (s.asEngine n e x b).clock = s.clock := rfl
@[simp] theorem asEngine_eauFrac (s : State) (n e : Nat) (x : QEntry) (b : Bool) : (s.asEngine n e x b).eauFrac = s.eauFrac := rfl
@[simp] theorem asEngine_eauSum (s : State) (n e : Nat) (x : QEntry) (b : Bool) : (s.asEngine n e x b).eauSum = s.eauSum := rfl
@[simp] theorem asEngine_fresh (s : State) (n e : Nat) (x : QEntry) (b : Bool) : (s.asEngine n e x b).fresh = s.fresh := rfl
@[simp] theorem asEngine_agenda (s : State) (n e : Nat) (x : QEntry) (b : Bool) : (s.asEngine n e x b).agenda = s.agenda := rfl
@[simp] theorem asEngine_reply (s : State) (n e : Nat) (x : QEntry) (b : Bool) : (s.asEngine n e x b).reply = s.reply := rfl
@[simp] theorem asEngine_halted (s : State) (n e : Nat) (x : QEntry) (b : Bool) : (s.asEngine n e x b).halted = s.halted := rfl
@[simp] theorem asEngine_throttling (s : State) (n e : Nat) (x : QEntry) (b : Bool) : (s.asEngine n e x b).throttling = s.throttling := rfl
@[simp] theorem asEngine_ceiling (s : State) (n e : Nat) (x : QEntry) (b : Bool) : (s.asEngine n e x b).ceiling = s.ceiling := rfl

end Sys2Proof.Machine
end

