-- ==== Sys2Proof/Laws/Ops.lean ====
section
/-! SUPPORT. What each shared operation does, said once: the accesses of a hart, the bytes that a request writes, the end of
an engine command, and the entry into a handler. Later proofs cite these and do not unfold the operations. -/

namespace Sys2Proof.Machine

/-! ## Tables -/

/-- The later of two settings of one entry stands. -/
@[simp] theorem tset_tset {α : Type} (v w : α) : ∀ (t : Tbl α) (k : Nat), tset (tset t k v) k w = tset t k w
  | [], k => by simp [tset]
  | (i, x) :: t, k => by
    by_cases h1 : k < i
    · simp [tset, h1]
    · by_cases h2 : k = i
      · simp [tset, h2]
      · simp [tset, h1, h2, tset_tset v w t k]

@[simp] theorem setHart_setHart (s : State) (k : Nat) (v w : Hart) : (s.setHart k v).setHart k w = s.setHart k w := by
  simp [State.setHart]

@[simp] theorem setCont_setCont (s : State) (k : Nat) (v w : Cont) : (s.setCont k v).setCont k w = s.setCont k w := by
  simp [State.setCont]

/-! ## Registers of a hart -/

/-- Writing a register keeps every field but the registers. -/
theorem wx_fields (h : Hart) (rd : Reg) (v : Word) : h.wx rd v = { h with x := (h.wx rd v).x } := by
  unfold Hart.wx; split <;> rfl

/-! ## The acting hart -/

@[simp] theorem hn_setHart (s : State) (k : Nat) (v : Hart) : (s.setHart k v).hn = s.hn := rfl
@[simp] theorem hn_setCont (s : State) (k : Nat) (v : Cont) : (s.setCont k v).hn = s.hn := rfl
@[simp] theorem hn_setCore (s : State) (k : Nat) (v : Core) : (s.setCore k v).hn = s.hn := rfl
@[simp] theorem me_setHart (s : State) (v : Hart) : (s.setHart s.hn v).me = v := by simp [State.me]

/-- An operation's end forgets the walk faults of its agent and what Owl kept of it; nothing else changes. -/
theorem tookWalk_eq (s : State) (w : Who) :
    s.tookWalk w = { s with walkFault := (s.tookWalk w).walkFault, owlOp := (s.tookWalk w).owlOp } := rfl

/-- The walk faults that a hart's operation leaves: those of the others. -/
theorem tookWalk_hart (s : State) (n : Nat) :
    (s.tookWalk (.hart n)).walkFault = s.walkFault.filter fun w => w.who != .hart n := by
  have h : (Who.hart n == Who.part) = false := by simp
  simp [State.tookWalk, h]

/-- Completing an instruction writes the acting hart and forgets its walk faults. -/
theorem retire_eq (s : State) (len : Nat) (h : Hart) :
    s.retire len h = { s with
      harts := tset s.harts s.hn { h with pc := h.pc + BitVec.ofNat 64 len, instret := h.instret + 1, stalled := false, again := h.onward }
      walkFault := s.walkFault.filter fun w => w.who != .hart s.hn
      owlOp := (s.tookWalk (.hart s.hn)).owlOp } := by
  have h : (Who.hart s.hn == Who.part) = false := by simp
  simp [State.retire, State.tookWalk, State.setHart, State.opKey, h]

/-- The hart after it completed an instruction. -/
theorem retire_me (s : State) (len : Nat) (h : Hart) :
    (s.retire len h).me = { h with pc := h.pc + BitVec.ofNat 64 len, instret := h.instret + 1, stalled := false, again := h.onward } := by
  simp [State.retire, State.me, State.hn, State.tookWalk, State.hart, State.setHart]

/-- The other harts are as they were. -/
theorem retire_other (s : State) (len : Nat) (h : Hart) (n : Nat) (hn : n ≠ s.hn) : (s.retire len h).hart n = s.hart n := by
  simp only [State.retire, hart_tookWalk]; exact hart_setHart_other _ _ _ _ hn

/-- Aborting the group of the acting hart changes that group and nothing else of the hart. -/
theorem groupIllegal_me (s : State) : s.groupIllegal.me = { s.me with group := s.me.group.abort 6 0 0 false } := by
  simp [State.groupIllegal, State.me, State.hn]

/-- A settle leaves everything but the V queue of the core. -/
theorem settle_eq (s : State) : s.settle = { s with cores := s.settle.cores } := by
  unfold State.settle
  split
  · dsimp only; split <;> rfl
  · rfl

/-- A settle leaves every hart. -/
@[simp] theorem settle_me (s : State) : s.settle.me = s.me := by rw [settle_eq]; rfl

/-! ## Requests -/

/-- An address with a bit of [63:52] set fails the first check of every request (R14). -/
theorem plan_noncanon (s : State) (r : Req) (ty : Nat → Nat → Bool) (h : 2 ^ 52 ≤ r.va) :
    plan s r ty = .error (r.stop .noncanon) := by
  unfold plan planPages; rw [if_pos h]

/-- A load outside a group whose bytes can be read goes on with their value. -/
theorem load_of_read (s : State) (va n : Nat) (ord : Bool) (k : State → Nat → Out) (bs : List Byte)
    (hg : s.me.group.opened = false) (ht : s.trigHeld (hartReq s .load va n ord) = false)
    (hr : hartRead s (hartReq s .load va n ord) = .ok bs) : s.load va n ord k = k s (leNat bs) := by
  simp [State.load, hg, ht, hr]

/-- A load outside a group that its checks refuse traps, or waits for a walk. -/
theorem load_of_stop (s : State) (va n : Nat) (ord : Bool) (k : State → Nat → Out) (e : Stop)
    (hg : s.me.group.opened = false) (ht : s.trigHeld (hartReq s .load va n ord) = false)
    (hr : hartRead s (hartReq s .load va n ord) = .error e) : s.load va n ord k = .next (s.hartStop e false) := by
  simp [State.load, hg, ht, hr]

/-- A store outside a group that is performed goes on in the state that it leaves. -/
theorem store_of_done (s t : State) (va : Nat) (bs : List Byte) (ord : Bool) (k : State → Out)
    (hg : s.me.group.opened = false) (hw : hartWrite s (hartReq s .store va bs.length ord) bs = .done t) :
    s.store va bs ord k = k t := by
  simp [State.store, hg, hw]

/-- A store outside a group that its checks refuse traps, or waits for a walk. -/
theorem store_of_stop (s : State) (va : Nat) (bs : List Byte) (ord : Bool) (k : State → Out) (e : Stop)
    (hg : s.me.group.opened = false) (hw : hartWrite s (hartReq s .store va bs.length ord) bs = .stop e) :
    s.store va bs ord k = .next (s.hartStop e true) := by
  simp [State.store, hg, hw]

/-! ## Bytes written -/

/-- What bytes put at a location change: memory, the harts that they disturb, the errors that they replace. -/
theorem putLoc_eq (s : State) (who : Who) (a : Nat) (bs : List Byte) :
    s.putLoc who a bs = { s with
      mem := msets s.mem a bs
      harts := disturbHarts who a bs.length s.harts
      ue := ueLeft s.ue a (a + bs.length) } := rfl

/-- A disturbed hart differs in its reservation and its group alone. -/
theorem disturb_eq (h : Hart) (ls : List Nat) :
    h.disturb ls = { h with resv := (h.disturb ls).resv, group := (h.disturb ls).group } := rfl

/-- Each hart after a write: the writer as it was, another one disturbed or, not listed yet, as after reset. -/
theorem tget_disturbHarts (d : Hart) (who : Who) (a n : Nat) : ∀ (t : Tbl Hart) (k : Nat),
    tget d (disturbHarts who a n t) k = if thas t k = true ∧ ¬ who = .hart k then (tget d t k).disturb (linesOf a n) else tget d t k
  | [], k => by simp [disturbHarts, tget, thas]
  | (i, h) :: t, k => by
    by_cases hk : i = k
    · subst hk
      by_cases hw : who = .hart i <;> simp [disturbHarts, tget, thas, hw]
    · have hb : (i == k) = false := by simp [hk]
      simp [disturbHarts, tget, thas, hk, hb, tget_disturbHarts d who a n t k]

/-- Releasing a chunk leaves memory. -/
theorem freeChunk_mem (s : State) (d c : Nat) : (freeChunk s d c).mem = s.mem := by
  unfold freeChunk; dsimp only; split <;> rfl

/-- Taking a chunk leaves memory. -/
theorem takeChunk_mem (s t : State) (d c : Nat) (h : takeChunk s d = some (c, t)) : t.mem = s.mem := by
  unfold takeChunk at h
  split at h
  · exact (congrArg State.mem (Prod.mk.inj (Option.some.inj h)).2).symm
  · dsimp only at h
    split at h
    · exact (congrArg State.mem (Prod.mk.inj (Option.some.inj h)).2).symm
    · exact (congrArg State.mem (Prod.mk.inj (Option.some.inj h)).2).symm
    · exact absurd h (by simp)

/-- Finding the extent of a packed block leaves memory. -/
theorem extentFor_mem (s t : State) (b : BlockLoc) (o : Bool) (len c : Nat) (h : extentFor s b o len = some (c, t)) :
    t.mem = s.mem := by
  unfold extentFor at h
  dsimp only at h
  split at h
  · rw [← (Prod.mk.inj (Option.some.inj h)).2]
    split
    · exact freeChunk_mem _ _ _
    · rfl
  · split at h
    · rw [← (Prod.mk.inj (Option.some.inj h)).2]
    · exact takeChunk_mem _ _ _ _ h

/-- Storing a block keeps the memory canonical. -/
theorem storeBlock_wf (s t : State) (l : Leaf) (b : BlockLoc) (y : List Byte) (h : s.mem.wf = true)
    (e : storeBlock s l b y = .ok t) : t.mem.wf = true := by
  unfold storeBlock at e
  dsimp only at e
  repeat' split at e
  all_goals first
    | (rw [← Except.ok.inj e]
       refine place_wf _ _ _ _ _ _ _ ?_
       rw [extentFor_mem _ _ _ _ _ _ (by assumption)]
       exact h)
    | simp at e

/-- Writing bytes to a transformed page keeps the memory canonical. -/
theorem writeXf_wf (l : Leaf) : ∀ (k : Nat) (s t : State) (va pa : Nat) (bs : List Byte), s.mem.wf = true →
    writeXf l k s va pa bs = .ok t → t.mem.wf = true
  | 0, s, t, _, _, _, h, e => by unfold writeXf at e; cases e; exact h
  | k + 1, s, t, va, pa, bs, h, e => by
    unfold writeXf at e
    dsimp only at e
    split at e
    · cases e; exact h
    · split at e
      · cases e
      · split at e
        · cases e
        · rename_i u hu; exact writeXf_wf l k u t _ _ _ (storeBlock_wf _ _ _ _ _ h hu) e

/-- Putting bytes keeps the memory canonical. -/
theorem putLoc_wf (s : State) (who : Who) (a : Nat) (bs : List Byte) (h : s.mem.wf = true) : (s.putLoc who a bs).mem.wf = true :=
  msets_wf bs s.mem a h

/-- What a write of a transformed page disturbs leaves memory. -/
theorem wroteXf_mem (who : Who) (l : Leaf) : ∀ (k : Nat) (s : State) (va pa n : Nat), (s.wroteXf who l k va pa n).mem = s.mem
  | 0, _, _, _, _ => rfl
  | k + 1, s, va, pa, n => by
    unfold State.wroteXf
    split
    · rfl
    · exact wroteXf_mem who l k _ _ _ _

/-- Writing a piece keeps the memory canonical. -/
theorem writePiece_wf (s t : State) (who : Who) (p : Piece) (bs : List Byte) (h : s.mem.wf = true)
    (e : writePiece s who p bs = .ok t) : t.mem.wf = true := by
  unfold writePiece at e
  split at e
  · split at e
    · split at e
      · cases e
      · rename_i u hu; cases e; rw [wroteXf_mem]; exact writeXf_wf _ _ _ u _ _ _ h hu
    · cases e; exact putLoc_wf _ _ _ _ h
  · cases e; exact putLoc_wf _ _ _ _ h

/-- Writing the pieces of a request keeps the memory canonical. -/
theorem writePieces_wf (r : Req) : ∀ (ps : List Piece) (s t : State) (bs : List Byte), s.mem.wf = true →
    writePieces r s ps bs = .ok t → t.mem.wf = true
  | [], s, t, _, h, e => by cases e; exact h
  | p :: ps, s, t, bs, h, e => by
    unfold writePieces at e
    split at e
    · cases e
    · rename_i u hu; exact writePieces_wf r ps u t _ (writePiece_wf _ _ _ _ _ h hu) e

/-- Writing a request keeps the memory canonical. -/
theorem memWrite_wf (s t : State) (r : Req) (ty : Nat → Nat → Bool) (bs : List Byte) (h : s.mem.wf = true)
    (e : memWrite s r ty bs = .ok t) : t.mem.wf = true := by
  unfold memWrite at e
  split at e
  · cases e
  · exact writePieces_wf r _ s t bs h e

/-! ## The end of an engine command -/

/-- A command that has acted leaves the queues of its core and joins its continuation's commands in flight; nothing else of the
part changes. -/
theorem engDone_eq (s : State) (e tx : Nat) :
    s.engDone e tx = { s with
      cores := (s.engDone e tx).cores
      conts := tset s.conts s.cur.ent.cid ((s.cont s.cur.ent.cid).inFlight e s.cur.ent tx 0)
      walkFault := (s.tookWalk s.cur.who).walkFault
      owlOp := (s.tookWalk s.cur.who).owlOp } := rfl

/-! ## Entering a handler -/

/-- What the entry to S mode writes of a hart. -/
theorem enterS_eq (h : Hart) (cause tval : Nat) :
    h.enterS cause tval = { h with
      csr := (h.enterS cause tval).csr
      mode := .s
      pc := (h.enterS cause tval).pc
      stalled := false
      resv := none } := rfl

/-- What the entry to M mode writes of a hart. -/
theorem enterM_eq (h : Hart) (cause tval : Nat) :
    h.enterM cause tval = { h with
      csr := (h.enterM cause tval).csr
      mode := .m
      pc := (h.enterM cause tval).pc
      stalled := false
      resv := none
      group := h.group.struck } := rfl

/-- The entry to S mode saves the pc, the cause and the trap value. -/
theorem enterS_saves (h : Hart) (cause tval : Nat) :
    (h.enterS cause tval).csrGet 0x141 = h.pc.toNat ∧ (h.enterS cause tval).csrGet 0x142 = scauseOf cause % 2 ^ 64 ∧
      (h.enterS cause tval).csrGet 0x143 = tval % 2 ^ 64 := by
  have ne : ∀ (g : Hart) (k j v : Nat), j ≠ k → (g.csrSet k v).csrGet j = g.csrGet j := by
    intro g k j v hj; unfold Hart.csrGet Hart.csrSet; rw [tget_tset_other _ _ _ _ _ hj]
  have same : ∀ (g : Hart) (k v : Nat), (g.csrSet k v).csrGet k = v % 2 ^ 64 := by
    intro g k v; unfold Hart.csrGet Hart.csrSet; rw [tget_tset_same]; simp
  have up : ∀ (j : Nat), (h.enterS cause tval).csrGet j =
      ((((h.csrSet 0x141 h.pc.toNat).csrSet 0x142 (scauseOf cause)).csrSet 0x143 tval).csrSet 0x100
        (setBits (setBits (setBits (h.csrGet 0x100) 8 8 (match h.mode with | .u => 0 | _ => 1)) 5 5
          (bits (setBits (h.csrGet 0x100) 8 8 (match h.mode with | .u => 0 | _ => 1)) 1 1)) 1 1 0)).csrGet j := fun _ => rfl
  refine ⟨?_, ?_, ?_⟩ <;> rw [up, ne _ _ _ _ (by decide)]
  · rw [ne _ _ _ _ (by decide), ne _ _ _ _ (by decide), same]; exact Nat.mod_eq_of_lt h.pc.isLt
  · rw [ne _ _ _ _ (by decide), same]
  · rw [same]

/-! ## Tensors (R78, R81) -/

/-- Where the elements of a row lie depends on the state only through a permutation table. -/
theorem View.rowSpots_unpermuted (s u : State) (v : View) (rd : Bool) (rest : List Int) (h : v.h.perm = false) :
    ∀ (n : Nat) (x : Int), v.rowSpots s rd rest n x = v.rowSpots u rd rest n x := by
  intro n
  induction n with
  | zero => intro x; rfl
  | succ n ih => intro x; simp only [View.rowSpots, View.spot, h, Bool.false_eq_true, if_false, ih]

end Sys2Proof.Machine
end

