-- ==== Sys2Proof/Laws/PerInstr.lean ====
section
/-! SUPPORT. One law of every instruction as syntax: an event has no encoding, and no instruction has both a hart's encoding and
an engine word's. -/

namespace Sys2Proof.Laws.OneEncoding

open Sys2Proof Sys2Proof.Machine

/-- An event of the part is named, never fetched or queued; what a hart fetches is no engine operation. -/
def Statement (i : Instr) : Prop :=
  (eventRow i = true → encode i = none ∧ encodeEngine i = none) ∧ (encodeEngine i = none ∨ encode i = none)

theorem cap (rs1 rs2 : Reg) : Statement (Instr.cap rs1 rs2) := ⟨nofun, .inl rfl⟩
theorem qpush (rd rs1 rs2 : Reg) : Statement (Instr.qpush rd rs1 rs2) := ⟨nofun, .inl rfl⟩
theorem launch (rd rs1 : Reg) : Statement (Instr.launch rd rs1) := ⟨nofun, .inl rfl⟩
theorem launchWait (e : BitVec 3) (rd rs1 rs2 : Reg) : Statement (Instr.launchWait e rd rs1 rs2) := ⟨nofun, .inl rfl⟩
theorem exit : Statement (Instr.exit) := ⟨nofun, .inl rfl⟩
theorem yield : Statement (Instr.yield) := ⟨nofun, .inl rfl⟩
theorem hbInit (rs1 rs2 : Reg) : Statement (Instr.hbInit rs1 rs2) := ⟨nofun, .inl rfl⟩
theorem hbArrive (rs1 : Reg) : Statement (Instr.hbArrive rs1) := ⟨nofun, .inl rfl⟩
theorem hbWait (rs1 : Reg) : Statement (Instr.hbWait rs1) := ⟨nofun, .inl rfl⟩
theorem hbTxadd (rs1 rs2 : Reg) : Statement (Instr.hbTxadd rs1 rs2) := ⟨nofun, .inl rfl⟩
theorem tlRead (e : BitVec 3) (rd : Reg) : Statement (Instr.tlRead e rd) := ⟨nofun, .inl rfl⟩
theorem tlWait (scope e : BitVec 3) (rs1 : Reg) : Statement (Instr.tlWait scope e rs1) := ⟨nofun, .inl rfl⟩
theorem tagWany (rd rs1 : Reg) : Statement (Instr.tagWany rd rs1) := ⟨nofun, .inl rfl⟩
theorem tagWall (rs1 : Reg) : Statement (Instr.tagWall rs1) := ⟨nofun, .inl rfl⟩
theorem tagFfr (rd rs1 : Reg) : Statement (Instr.tagFfr rd rs1) := ⟨nofun, .inl rfl⟩
theorem tagClr (rs1 : Reg) : Statement (Instr.tagClr rs1) := ⟨nofun, .inl rfl⟩
theorem mfence (mask : BitVec 6) : Statement (Instr.mfence mask) := ⟨nofun, .inl rfl⟩
theorem mjoin : Statement (Instr.mjoin) := ⟨nofun, .inl rfl⟩
theorem sgBegin (scope : BitVec 3) : Statement (Instr.sgBegin scope) := ⟨nofun, .inl rfl⟩
theorem sgEnd (rd : Reg) : Statement (Instr.sgEnd rd) := ⟨nofun, .inl rfl⟩
theorem sgAbort (rs1 : Reg) : Statement (Instr.sgAbort rs1) := ⟨nofun, .inl rfl⟩
theorem waddr (rs1 rs2 : Reg) : Statement (Instr.waddr rs1 rs2) := ⟨nofun, .inl rfl⟩
theorem engStat (e : BitVec 3) (rd rs1 : Reg) : Statement (Instr.engStat e rd rs1) := ⟨nofun, .inl rfl⟩
theorem vmbPop (rd : Reg) : Statement (Instr.vmbPop rd) := ⟨nofun, .inl rfl⟩
theorem vwsetV (rs1 : Reg) : Statement (Instr.vwsetV rs1) := ⟨nofun, .inl rfl⟩
theorem vwsetM (rs1 : Reg) : Statement (Instr.vwsetM rs1) := ⟨nofun, .inl rfl⟩
theorem vwsetC (rs1 : Reg) : Statement (Instr.vwsetC rs1) := ⟨nofun, .inl rfl⟩
theorem tret : Statement (Instr.tret) := ⟨nofun, .inl rfl⟩
theorem fenceC (mask : BitVec 16) (scope : BitVec 3) : Statement (Instr.fenceC mask scope) := ⟨nofun, .inl rfl⟩
theorem ldAcqB (m : BitVec 5) (scope : BitVec 3) (rd rs1 : Reg) : Statement (Instr.ldAcqB m scope rd rs1) := ⟨nofun, .inl rfl⟩
theorem ldAcqH (m : BitVec 5) (scope : BitVec 3) (rd rs1 : Reg) : Statement (Instr.ldAcqH m scope rd rs1) := ⟨nofun, .inl rfl⟩
theorem ldAcqW (m : BitVec 5) (scope : BitVec 3) (rd rs1 : Reg) : Statement (Instr.ldAcqW m scope rd rs1) := ⟨nofun, .inl rfl⟩
theorem ldAcqD (m : BitVec 5) (scope : BitVec 3) (rd rs1 : Reg) : Statement (Instr.ldAcqD m scope rd rs1) := ⟨nofun, .inl rfl⟩
theorem stRelB (m : BitVec 5) (scope : BitVec 3) (rs1 rs2 : Reg) : Statement (Instr.stRelB m scope rs1 rs2) := ⟨nofun, .inl rfl⟩
theorem stRelH (m : BitVec 5) (scope : BitVec 3) (rs1 rs2 : Reg) : Statement (Instr.stRelH m scope rs1 rs2) := ⟨nofun, .inl rfl⟩
theorem stRelW (m : BitVec 5) (scope : BitVec 3) (rs1 rs2 : Reg) : Statement (Instr.stRelW m scope rs1 rs2) := ⟨nofun, .inl rfl⟩
theorem stRelD (m : BitVec 5) (scope : BitVec 3) (rs1 rs2 : Reg) : Statement (Instr.stRelD m scope rs1 rs2) := ⟨nofun, .inl rfl⟩
theorem rvIntegerOp (c : Bool) (op : RvOp) : Statement (Instr.rvIntegerOp c op) := ⟨nofun, .inl rfl⟩
theorem rvLoad (c : Bool) (w : LoadW) (rd rs1 : Reg) (imm : BitVec 12) : Statement (Instr.rvLoad c w rd rs1 imm) := ⟨nofun, .inl rfl⟩
theorem rvStore (c : Bool) (w : AccW) (rs1 rs2 : Reg) (imm : BitVec 12) : Statement (Instr.rvStore c w rs1 rs2 imm) := ⟨nofun, .inl rfl⟩
theorem rvAmo (op : AmoOp) (dbl aq rl : Bool) (rd rs1 rs2 : Reg) : Statement (Instr.rvAmo op dbl aq rl rd rs1 rs2) := ⟨nofun, .inl rfl⟩
theorem rvLr (dbl aq rl : Bool) (rd rs1 : Reg) : Statement (Instr.rvLr dbl aq rl rd rs1) := ⟨nofun, .inl rfl⟩
theorem rvSc (dbl aq rl : Bool) (rd rs1 rs2 : Reg) : Statement (Instr.rvSc dbl aq rl rd rs1 rs2) := ⟨nofun, .inl rfl⟩
theorem rvFence (fm pred succ : BitVec 4) (rd rs1 : Reg) : Statement (Instr.rvFence fm pred succ rd rs1) := ⟨nofun, .inl rfl⟩
theorem rvFenceI (imm : BitVec 12) (rd rs1 : Reg) : Statement (Instr.rvFenceI imm rd rs1) := ⟨nofun, .inl rfl⟩
theorem rvPause : Statement (Instr.rvPause) := ⟨nofun, .inl rfl⟩
theorem rvEcall : Statement (Instr.rvEcall) := ⟨nofun, .inl rfl⟩
theorem rvWfi : Statement (Instr.rvWfi) := ⟨nofun, .inl rfl⟩
theorem rvSfenceVma (rs1 rs2 : Reg) : Statement (Instr.rvSfenceVma rs1 rs2) := ⟨nofun, .inl rfl⟩
theorem rvCsrAccess (op : CsrOp) (csr : BitVec 12) (rd src : Reg) : Statement (Instr.rvCsrAccess op csr rd src) := ⟨nofun, .inl rfl⟩
theorem pageWalkStart (die : Nat) : Statement (Instr.pageWalkStart die) := ⟨fun _ => ⟨rfl, rfl⟩, .inl rfl⟩
theorem pageWalkComplete (die w : Nat) : Statement (Instr.pageWalkComplete die w) := ⟨fun _ => ⟨rfl, rfl⟩, .inl rfl⟩
theorem engineWordPush (w : BitVec 64) : Statement (Instr.engineWordPush w) := ⟨nofun, .inl rfl⟩
theorem vadd (h : Hdr) (t : IntT) (d a b : BitVec 6) (p : Pred) : Statement (Instr.vadd h t d a b p) := ⟨nofun, .inr rfl⟩
theorem vsub (h : Hdr) (t : IntT) (d a b : BitVec 6) (p : Pred) : Statement (Instr.vsub h t d a b p) := ⟨nofun, .inr rfl⟩
theorem vmul (h : Hdr) (t : IntT) (d a b : BitVec 6) (p : Pred) : Statement (Instr.vmul h t d a b p) := ⟨nofun, .inr rfl⟩
theorem vmulh (h : Hdr) (t : IntT) (d a b : BitVec 6) (p : Pred) : Statement (Instr.vmulh h t d a b p) := ⟨nofun, .inr rfl⟩
theorem vmac (h : Hdr) (t : IntT) (d a b c : BitVec 6) (p : Pred) : Statement (Instr.vmac h t d a b c p) := ⟨nofun, .inr rfl⟩
theorem vmin (h : Hdr) (t : IntT) (d a b : BitVec 6) (p : Pred) : Statement (Instr.vmin h t d a b p) := ⟨nofun, .inr rfl⟩
theorem vmax (h : Hdr) (t : IntT) (d a b : BitVec 6) (p : Pred) : Statement (Instr.vmax h t d a b p) := ⟨nofun, .inr rfl⟩
theorem vabs (h : Hdr) (t : IntT) (d a : BitVec 6) (p : Pred) : Statement (Instr.vabs h t d a p) := ⟨nofun, .inr rfl⟩
theorem vneg (h : Hdr) (t : IntT) (d a : BitVec 6) (p : Pred) : Statement (Instr.vneg h t d a p) := ⟨nofun, .inr rfl⟩
theorem vadds (h : Hdr) (t : IntT) (d a b : BitVec 6) (p : Pred) : Statement (Instr.vadds h t d a b p) := ⟨nofun, .inr rfl⟩
theorem vsubs (h : Hdr) (t : IntT) (d a b : BitVec 6) (p : Pred) : Statement (Instr.vsubs h t d a b p) := ⟨nofun, .inr rfl⟩
theorem vclip (h : Hdr) (t : IntT) (d a b c : BitVec 6) (p : Pred) : Statement (Instr.vclip h t d a b c p) := ⟨nofun, .inr rfl⟩
theorem vshl (h : Hdr) (t : IntT) (d a b : BitVec 6) (p : Pred) : Statement (Instr.vshl h t d a b p) := ⟨nofun, .inr rfl⟩
theorem vshr (h : Hdr) (t : IntT) (d a b : BitVec 6) (p : Pred) : Statement (Instr.vshr h t d a b p) := ⟨nofun, .inr rfl⟩
theorem vsra (h : Hdr) (t : IntT) (d a b : BitVec 6) (p : Pred) : Statement (Instr.vsra h t d a b p) := ⟨nofun, .inr rfl⟩
theorem vpopc (h : Hdr) (t : IntT) (d a : BitVec 6) (p : Pred) : Statement (Instr.vpopc h t d a p) := ⟨nofun, .inr rfl⟩
theorem vclz (h : Hdr) (t : IntT) (d a : BitVec 6) (p : Pred) : Statement (Instr.vclz h t d a p) := ⟨nofun, .inr rfl⟩
theorem vcmp (h : Hdr) (t : IntT) (cnd : Cond) (kd : BitVec 4) (a b : BitVec 6) (p : Pred) : Statement (Instr.vcmp h t cnd kd a b p) := ⟨nofun, .inr rfl⟩
theorem vand (h : Hdr) (d a b : BitVec 6) (p : Pred) : Statement (Instr.vand h d a b p) := ⟨nofun, .inr rfl⟩
theorem vor (h : Hdr) (d a b : BitVec 6) (p : Pred) : Statement (Instr.vor h d a b p) := ⟨nofun, .inr rfl⟩
theorem vxor (h : Hdr) (d a b : BitVec 6) (p : Pred) : Statement (Instr.vxor h d a b p) := ⟨nofun, .inr rfl⟩
theorem vnot (h : Hdr) (d a : BitVec 6) (p : Pred) : Statement (Instr.vnot h d a p) := ⟨nofun, .inr rfl⟩
theorem vmov (h : Hdr) (d a : BitVec 6) (p : Pred) : Statement (Instr.vmov h d a p) := ⟨nofun, .inr rfl⟩
theorem vsel (h : Hdr) (d a b : BitVec 6) (p : Pred) : Statement (Instr.vsel h d a b p) := ⟨nofun, .inr rfl⟩
theorem vbcst (h : Hdr) (d a : BitVec 6) (lane : BitVec 7) (p : Pred) : Statement (Instr.vbcst h d a lane p) := ⟨nofun, .inr rfl⟩
theorem vmovi (h : Hdr) (d : BitVec 6) (imm : BitVec 18) (p : Pred) : Statement (Instr.vmovi h d imm p) := ⟨nofun, .inr rfl⟩
theorem vfadd (h : Hdr) (t : FpT) (d a b : BitVec 6) (p : Pred) : Statement (Instr.vfadd h t d a b p) := ⟨nofun, .inr rfl⟩
theorem vfsub (h : Hdr) (t : FpT) (d a b : BitVec 6) (p : Pred) : Statement (Instr.vfsub h t d a b p) := ⟨nofun, .inr rfl⟩
theorem vfmul (h : Hdr) (t : FpT) (d a b : BitVec 6) (p : Pred) : Statement (Instr.vfmul h t d a b p) := ⟨nofun, .inr rfl⟩
theorem vfma (h : Hdr) (t : FpT) (d a b c : BitVec 6) (p : Pred) : Statement (Instr.vfma h t d a b c p) := ⟨nofun, .inr rfl⟩
theorem vfms (h : Hdr) (t : FpT) (d a b c : BitVec 6) (p : Pred) : Statement (Instr.vfms h t d a b c p) := ⟨nofun, .inr rfl⟩
theorem vfnma (h : Hdr) (t : FpT) (d a b c : BitVec 6) (p : Pred) : Statement (Instr.vfnma h t d a b c p) := ⟨nofun, .inr rfl⟩
theorem vfmin (h : Hdr) (t : FpT) (d a b : BitVec 6) (p : Pred) : Statement (Instr.vfmin h t d a b p) := ⟨nofun, .inr rfl⟩
theorem vfmax (h : Hdr) (t : FpT) (d a b : BitVec 6) (p : Pred) : Statement (Instr.vfmax h t d a b p) := ⟨nofun, .inr rfl⟩
theorem vfabs (h : Hdr) (t : FpT) (d a : BitVec 6) (p : Pred) : Statement (Instr.vfabs h t d a p) := ⟨nofun, .inr rfl⟩
theorem vfneg (h : Hdr) (t : FpT) (d a : BitVec 6) (p : Pred) : Statement (Instr.vfneg h t d a p) := ⟨nofun, .inr rfl⟩
theorem vfrcp (h : Hdr) (t : FpT) (d a : BitVec 6) (p : Pred) : Statement (Instr.vfrcp h t d a p) := ⟨nofun, .inr rfl⟩
theorem vfrsq (h : Hdr) (t : FpT) (d a : BitVec 6) (p : Pred) : Statement (Instr.vfrsq h t d a p) := ⟨nofun, .inr rfl⟩
theorem vfexp2 (h : Hdr) (t : FpT) (d a : BitVec 6) (p : Pred) : Statement (Instr.vfexp2 h t d a p) := ⟨nofun, .inr rfl⟩
theorem vflog2 (h : Hdr) (t : FpT) (d a : BitVec 6) (p : Pred) : Statement (Instr.vflog2 h t d a p) := ⟨nofun, .inr rfl⟩
theorem vfcmp (h : Hdr) (t : FpT) (cnd : FCond) (kd : BitVec 4) (a b : BitVec 6) (p : Pred) : Statement (Instr.vfcmp h t cnd kd a b p) := ⟨nofun, .inr rfl⟩
theorem vfclass (h : Hdr) (t : FpT) (d a : BitVec 6) (p : Pred) : Statement (Instr.vfclass h t d a p) := ⟨nofun, .inr rfl⟩
theorem vcvt (h : Hdr) (dt st : ElemT) (d a : BitVec 6) (p : Pred) : Statement (Instr.vcvt h dt st d a p) := ⟨nofun, .inr rfl⟩
theorem vf2i (h : Hdr) (dt st : ElemT) (d a : BitVec 6) (p : Pred) : Statement (Instr.vf2i h dt st d a p) := ⟨nofun, .inr rfl⟩
theorem vi2f (h : Hdr) (dt st : ElemT) (d a : BitVec 6) (p : Pred) : Statement (Instr.vi2f h dt st d a p) := ⟨nofun, .inr rfl⟩
theorem vrsumI32 (h : Hdr) (d a : BitVec 6) (p : Pred) : Statement (Instr.vrsumI32 h d a p) := ⟨nofun, .inr rfl⟩
theorem vrsumI8 (h : Hdr) (d a : BitVec 6) (p : Pred) : Statement (Instr.vrsumI8 h d a p) := ⟨nofun, .inr rfl⟩
theorem vrmaxI32 (h : Hdr) (d a : BitVec 6) (p : Pred) : Statement (Instr.vrmaxI32 h d a p) := ⟨nofun, .inr rfl⟩
theorem vrmaxU8 (h : Hdr) (d a : BitVec 6) (p : Pred) : Statement (Instr.vrmaxU8 h d a p) := ⟨nofun, .inr rfl⟩
theorem vrminI32 (h : Hdr) (d a : BitVec 6) (p : Pred) : Statement (Instr.vrminI32 h d a p) := ⟨nofun, .inr rfl⟩
theorem vrminU8 (h : Hdr) (d a : BitVec 6) (p : Pred) : Statement (Instr.vrminU8 h d a p) := ⟨nofun, .inr rfl⟩
theorem vfrsum (h : Hdr) (t : FbT) (d a : BitVec 6) (p : Pred) : Statement (Instr.vfrsum h t d a p) := ⟨nofun, .inr rfl⟩
theorem vfrmax (h : Hdr) (t : FbT) (d a : BitVec 6) (p : Pred) : Statement (Instr.vfrmax h t d a p) := ⟨nofun, .inr rfl⟩
theorem vperm (h : Hdr) (d a b : BitVec 6) (p : Pred) : Statement (Instr.vperm h d a b p) := ⟨nofun, .inr rfl⟩
theorem vslup (h : Hdr) (d a b cnt : BitVec 6) (p : Pred) : Statement (Instr.vslup h d a b cnt p) := ⟨nofun, .inr rfl⟩
theorem vsldn (h : Hdr) (d a b cnt : BitVec 6) (p : Pred) : Statement (Instr.vsldn h d a b cnt p) := ⟨nofun, .inr rfl⟩
theorem vzip (h : Hdr) (d a b : BitVec 6) (p : Pred) : Statement (Instr.vzip h d a b p) := ⟨nofun, .inr rfl⟩
theorem vunzip (h : Hdr) (d a b : BitVec 6) (p : Pred) : Statement (Instr.vunzip h d a b p) := ⟨nofun, .inr rfl⟩
theorem vlut (h : Hdr) (d a b : BitVec 6) (p : Pred) : Statement (Instr.vlut h d a b p) := ⟨nofun, .inr rfl⟩
theorem vbmax (h : Hdr) (t : FbT) (d a : BitVec 6) (p : Pred) : Statement (Instr.vbmax h t d a p) := ⟨nofun, .inr rfl⟩
theorem vbqnt (h : Hdr) (t : FbT) (d a b : BitVec 6) (p : Pred) : Statement (Instr.vbqnt h t d a b p) := ⟨nofun, .inr rfl⟩
theorem vbdqnt (h : Hdr) (t : FbT) (d a b : BitVec 6) (p : Pred) : Statement (Instr.vbdqnt h t d a b p) := ⟨nofun, .inr rfl⟩
theorem vbpack (h : Hdr) (d a b : BitVec 6) (p : Pred) : Statement (Instr.vbpack h d a b p) := ⟨nofun, .inr rfl⟩
theorem vbunpk (h : Hdr) (d a b : BitVec 6) (p : Pred) : Statement (Instr.vbunpk h d a b p) := ⟨nofun, .inr rfl⟩
theorem vtos (h : Hdr) (a : BitVec 6) (lane : BitVec 7) : Statement (Instr.vtos h a lane) := ⟨nofun, .inr rfl⟩
theorem kand (h : Hdr) (kd ka kb : BitVec 4) : Statement (Instr.kand h kd ka kb) := ⟨nofun, .inr rfl⟩
theorem kor (h : Hdr) (kd ka kb : BitVec 4) : Statement (Instr.kor h kd ka kb) := ⟨nofun, .inr rfl⟩
theorem kxor (h : Hdr) (kd ka kb : BitVec 4) : Statement (Instr.kxor h kd ka kb) := ⟨nofun, .inr rfl⟩
theorem knot (h : Hdr) (kd ka : BitVec 4) : Statement (Instr.knot h kd ka) := ⟨nofun, .inr rfl⟩
theorem kmov (h : Hdr) (kd ka : BitVec 4) : Statement (Instr.kmov h kd ka) := ⟨nofun, .inr rfl⟩
theorem kpopc (h : Hdr) (ka : BitVec 4) : Statement (Instr.kpopc h ka) := ⟨nofun, .inr rfl⟩
theorem vld (h : Hdr) (t : ElemT) (m : Vmm) : Statement (Instr.vld h t m) := ⟨nofun, .inr rfl⟩
theorem vlds (h : Hdr) (t : ElemT) (m : Vmm) : Statement (Instr.vlds h t m) := ⟨nofun, .inr rfl⟩
theorem vldx (h : Hdr) (t : ElemT) (m : Vmm) : Statement (Instr.vldx h t m) := ⟨nofun, .inr rfl⟩
theorem vst (h : Hdr) (t : ElemT) (m : Vmm) : Statement (Instr.vst h t m) := ⟨nofun, .inr rfl⟩
theorem vsts (h : Hdr) (t : ElemT) (m : Vmm) : Statement (Instr.vsts h t m) := ⟨nofun, .inr rfl⟩
theorem vstx (h : Hdr) (t : ElemT) (m : Vmm) : Statement (Instr.vstx h t m) := ⟨nofun, .inr rfl⟩
theorem vldb (h : Hdr) (planes : BitVec 4) (m : Vmm) : Statement (Instr.vldb h planes m) := ⟨nofun, .inr rfl⟩
theorem vmLoadDataArrive (core : Nat) : Statement (Instr.vmLoadDataArrive core) := ⟨fun _ => ⟨rfl, rfl⟩, .inl rfl⟩
theorem vectorResultLand (core : Nat) : Statement (Instr.vectorResultLand core) := ⟨fun _ => ⟨rfl, rfl⟩, .inl rfl⟩
theorem vpop (h : Hdr) (t : ElemT) (d : BitVec 6) (q : BitVec 2) (p : Pred) : Statement (Instr.vpop h t d q p) := ⟨nofun, .inr rfl⟩
theorem fqOpen (h : Hdr) (q : BitVec 2) (cl : BitVec 4) : Statement (Instr.fqOpen h q cl) := ⟨nofun, .inr rfl⟩
theorem fqClose (h : Hdr) (q : BitVec 2) : Statement (Instr.fqClose h q) := ⟨nofun, .inr rfl⟩
theorem fetchQueueRead (core : Nat) (q : Nat) : Statement (Instr.fetchQueueRead core q) := ⟨fun _ => ⟨rfl, rfl⟩, .inl rfl⟩
theorem vloop (h : Hdr) (nb1 : BitVec 6) (rot : BitVec 2) (st1 : BitVec 3) : Statement (Instr.vloop h nb1 rot st1) := ⟨nofun, .inr rfl⟩
theorem vsync (h : Hdr) : Statement (Instr.vsync h) := ⟨nofun, .inr rfl⟩
theorem vnop (h : Hdr) (n1 : BitVec 6) : Statement (Instr.vnop h n1) := ⟨nofun, .inr rfl⟩
theorem vdefer (h : Hdr) (m : Vmd) : Statement (Instr.vdefer h m) := ⟨nofun, .inr rfl⟩
theorem vdtake (h : Hdr) (m : Vmd) : Statement (Instr.vdtake h m) := ⟨nofun, .inr rfl⟩
theorem vdret (h : Hdr) (m : Vmd) : Statement (Instr.vdret h m) := ⟨nofun, .inr rfl⟩
theorem vdcnt (h : Hdr) (path : BitVec 4) : Statement (Instr.vdcnt h path) := ⟨nofun, .inr rfl⟩
theorem vcfix (h : Hdr) (d a b : BitVec 6) (p : Pred) : Statement (Instr.vcfix h d a b p) := ⟨nofun, .inr rfl⟩
theorem tmma (h : Hdr) (t : MxT) (m : Mxt) : Statement (Instr.tmma h t m) := ⟨nofun, .inr rfl⟩
theorem tmmaSp (h : Hdr) (t : MspT) (m : Mxt) : Statement (Instr.tmmaSp h t m) := ⟨nofun, .inr rfl⟩
theorem tmmaBp (h : Hdr) (planes : BitVec 4) (m : Mxt) : Statement (Instr.tmmaBp h planes m) := ⟨nofun, .inr rfl⟩
theorem tmmaGrp (h : Hdr) (t : MxT) (m : Mxt) : Statement (Instr.tmmaGrp h t m) := ⟨nofun, .inr rfl⟩
theorem taccClr (h : Hdr) (ct n1 : BitVec 8) : Statement (Instr.taccClr h ct n1) := ⟨nofun, .inr rfl⟩
theorem taccRd (h : Hdr) (m : Mxa) : Statement (Instr.taccRd h m) := ⟨nofun, .inr rfl⟩
theorem taccWr (h : Hdr) (m : Mxa) : Statement (Instr.taccWr h m) := ⟨nofun, .inr rfl⟩
theorem ttr (h : Hdr) (m : Mxa) : Statement (Instr.ttr h m) := ⟨nofun, .inr rfl⟩
theorem tmov (h : Hdr) (m : Mxa) : Statement (Instr.tmov h m) := ⟨nofun, .inr rfl⟩
theorem tepiSet (h : Hdr) (ix cl : BitVec 4) : Statement (Instr.tepiSet h ix cl) := ⟨nofun, .inr rfl⟩
theorem tlutLd (h : Hdr) (ix cl : BitVec 4) : Statement (Instr.tlutLd h ix cl) := ⟨nofun, .inr rfl⟩
theorem wbInv (h : Hdr) : Statement (Instr.wbInv h) := ⟨nofun, .inr rfl⟩
theorem weightBlockReload (core entry : Nat) : Statement (Instr.weightBlockReload core entry) := ⟨fun _ => ⟨rfl, rfl⟩, .inl rfl⟩
theorem cpy (h : Hdr) (len1 : BitVec 24) (cl : BitVec 4) (ro : Bool) : Statement (Instr.cpy h len1 cl ro) := ⟨nofun, .inr rfl⟩
theorem cpyFill (h : Hdr) (len1 : BitVec 24) (cl : BitVec 4) : Statement (Instr.cpyFill h len1 cl) := ⟨nofun, .inr rfl⟩
theorem tcpy (h : Hdr) (m : Cpx) : Statement (Instr.tcpy h m) := ⟨nofun, .inr rfl⟩
theorem cpyPerm (h : Hdr) (m : Cpx) : Statement (Instr.cpyPerm h m) := ⟨nofun, .inr rfl⟩
theorem tcpyMc (h : Hdr) (hs : BitVec 12) (cl : BitVec 4) : Statement (Instr.tcpyMc h hs cl) := ⟨nofun, .inr rfl⟩
theorem cpyXf (h : Hdr) (cl : BitVec 4) : Statement (Instr.cpyXf h cl) := ⟨nofun, .inr rfl⟩
theorem cpyWb (h : Hdr) (cl : BitVec 4) (ro : Bool) : Statement (Instr.cpyWb h cl ro) := ⟨nofun, .inr rfl⟩
theorem gath (h : Hdr) (m : Gsx) : Statement (Instr.gath h m) := ⟨nofun, .inr rfl⟩
theorem scat (h : Hdr) (m : Gsx) : Statement (Instr.scat h m) := ⟨nofun, .inr rfl⟩
theorem scatAdd (h : Hdr) (t : ScT) (m : Gsx) : Statement (Instr.scatAdd h t m) := ⟨nofun, .inr rfl⟩
theorem scatMax (h : Hdr) (t : ScT) (m : Gsx) : Statement (Instr.scatMax h t m) := ⟨nofun, .inr rfl⟩
theorem gathTl (h : Hdr) (hnd : BitVec 12) (cl : BitVec 4) : Statement (Instr.gathTl h hnd cl) := ⟨nofun, .inr rfl⟩
theorem scatTl (h : Hdr) (hnd : BitVec 12) (cl : BitVec 4) : Statement (Instr.scatTl h hnd cl) := ⟨nofun, .inr rfl⟩
theorem sigCfg (h : Hdr) (cl : BitVec 4) : Statement (Instr.sigCfg h cl) := ⟨nofun, .inr rfl⟩
theorem sigHash (h : Hdr) (t : SigT) (m : Sgx) : Statement (Instr.sigHash h t m) := ⟨nofun, .inr rfl⟩
theorem sigKey (h : Hdr) (m : Sgx) : Statement (Instr.sigKey h m) := ⟨nofun, .inr rfl⟩
theorem sigGroup (h : Hdr) (m : Sgx) : Statement (Instr.sigGroup h m) := ⟨nofun, .inr rfl⟩
theorem sigScat (h : Hdr) (m : Sgx) : Statement (Instr.sigScat h m) := ⟨nofun, .inr rfl⟩
theorem sigBexp (h : Hdr) (m : Sgx) : Statement (Instr.sigBexp h m) := ⟨nofun, .inr rfl⟩
theorem sigBred (h : Hdr) (t : FbT) (m : Sgx) : Statement (Instr.sigBred h t m) := ⟨nofun, .inr rfl⟩
theorem cmEval (h : Hdr) (layer : BitVec 6) (stream : BitVec 7) (list : BitVec 12) : Statement (Instr.cmEval h layer stream list) := ⟨nofun, .inr rfl⟩
theorem cmMeas (h : Hdr) (layer : BitVec 6) (stream : BitVec 7) : Statement (Instr.cmMeas h layer stream) := ⟨nofun, .inr rfl⟩
theorem cmCommit (h : Hdr) (layer : BitVec 6) (stream : BitVec 7) : Statement (Instr.cmCommit h layer stream) := ⟨nofun, .inr rfl⟩
theorem cmForce (h : Hdr) (layer : BitVec 6) (stream : BitVec 7) : Statement (Instr.cmForce h layer stream) := ⟨nofun, .inr rfl⟩
theorem cmThr (h : Hdr) (layer : BitVec 6) (stream : BitVec 7) (nscale : BitVec 16) : Statement (Instr.cmThr h layer stream nscale) := ⟨nofun, .inr rfl⟩
theorem commandComplete (cid e num : Nat) : Statement (Instr.commandComplete cid e num) := ⟨fun _ => ⟨rfl, rfl⟩, .inl rfl⟩
theorem waitSatisfied (cid : Nat) : Statement (Instr.waitSatisfied cid) := ⟨fun _ => ⟨rfl, rfl⟩, .inl rfl⟩
theorem waddrRecheck (cid : Nat) : Statement (Instr.waddrRecheck cid) := ⟨fun _ => ⟨rfl, rfl⟩, .inl rfl⟩
theorem continuationChoice (core : Nat) : Statement (Instr.continuationChoice core) := ⟨fun _ => ⟨rfl, rfl⟩, .inl rfl⟩
theorem continuationRetire (cid : Nat) : Statement (Instr.continuationRetire cid) := ⟨fun _ => ⟨rfl, rfl⟩, .inl rfl⟩
theorem preemptRequest (core : Nat) : Statement (Instr.preemptRequest core) := ⟨fun _ => ⟨rfl, rfl⟩, .inl rfl⟩
theorem preemptCapture (core : Nat) : Statement (Instr.preemptCapture core) := ⟨fun _ => ⟨rfl, rfl⟩, .inl rfl⟩
theorem preemptForceTimeout (core : Nat) : Statement (Instr.preemptForceTimeout core) := ⟨fun _ => ⟨rfl, rfl⟩, .inl rfl⟩
theorem sgTimeout (hart : Nat) : Statement (Instr.sgTimeout hart) := ⟨fun _ => ⟨rfl, rfl⟩, .inl rfl⟩
theorem triggerStore (ctx : Nat) (mMode : Bool) (va arg : Word) : Statement (Instr.triggerStore ctx mMode va arg) := ⟨fun _ => ⟨rfl, rfl⟩, .inl rfl⟩
theorem triggerCountLoad (ctx : Nat) (mMode : Bool) (va : Word) : Statement (Instr.triggerCountLoad ctx mMode va) := ⟨fun _ => ⟨rfl, rfl⟩, .inl rfl⟩
theorem triggerAccept (st : Nat) : Statement (Instr.triggerAccept st) := ⟨fun _ => ⟨rfl, rfl⟩, .inl rfl⟩
theorem graphRunStart (st : Nat) : Statement (Instr.graphRunStart st) := ⟨fun _ => ⟨rfl, rfl⟩, .inl rfl⟩
theorem nodeLaunch (st : Nat) : Statement (Instr.nodeLaunch st) := ⟨fun _ => ⟨rfl, rfl⟩, .inl rfl⟩
theorem plannerWaitEnd (st : Nat) : Statement (Instr.plannerWaitEnd st) := ⟨fun _ => ⟨rfl, rfl⟩, .inl rfl⟩
theorem nodeCmu (st : Nat) : Statement (Instr.nodeCmu st) := ⟨fun _ => ⟨rfl, rfl⟩, .inl rfl⟩
theorem nodeCopy (st : Nat) : Statement (Instr.nodeCopy st) := ⟨fun _ => ⟨rfl, rfl⟩, .inl rfl⟩
theorem nodeWait (st : Nat) : Statement (Instr.nodeWait st) := ⟨fun _ => ⟨rfl, rfl⟩, .inl rfl⟩
theorem nodeCond (st : Nat) : Statement (Instr.nodeCond st) := ⟨fun _ => ⟨rfl, rfl⟩, .inl rfl⟩
theorem nodeLoop (st : Nat) : Statement (Instr.nodeLoop st) := ⟨fun _ => ⟨rfl, rfl⟩, .inl rfl⟩
theorem nodeSignal (st : Nat) : Statement (Instr.nodeSignal st) := ⟨fun _ => ⟨rfl, rfl⟩, .inl rfl⟩
theorem runNodeLimit (st : Nat) : Statement (Instr.runNodeLimit st) := ⟨fun _ => ⟨rfl, rfl⟩, .inl rfl⟩
theorem graphLoad (cmd : BitVec 32) : Statement (Instr.graphLoad cmd) := ⟨fun _ => ⟨rfl, rfl⟩, .inl rfl⟩
theorem graphLoadComplete : Statement (Instr.graphLoadComplete) := ⟨fun _ => ⟨rfl, rfl⟩, .inl rfl⟩
theorem streamOpen (st : Nat) (v : BitVec 32) : Statement (Instr.streamOpen st v) := ⟨fun _ => ⟨rfl, rfl⟩, .inl rfl⟩
theorem streamClose (st : Nat) : Statement (Instr.streamClose st) := ⟨fun _ => ⟨rfl, rfl⟩, .inl rfl⟩
theorem queueBitsRecord (st : Nat) : Statement (Instr.queueBitsRecord st) := ⟨fun _ => ⟨rfl, rfl⟩, .inl rfl⟩
theorem queueLaunchRecord (st : Nat) : Statement (Instr.queueLaunchRecord st) := ⟨fun _ => ⟨rfl, rfl⟩, .inl rfl⟩
theorem queueBadRecord (st : Nat) : Statement (Instr.queueBadRecord st) := ⟨fun _ => ⟨rfl, rfl⟩, .inl rfl⟩
theorem bindingOpportunity (core : Nat) : Statement (Instr.bindingOpportunity core) := ⟨fun _ => ⟨rfl, rfl⟩, .inl rfl⟩
theorem streamAging (st : Nat) : Statement (Instr.streamAging st) := ⟨fun _ => ⟨rfl, rfl⟩, .inl rfl⟩
theorem decodeTakeBits (eng : Nat) : Statement (Instr.decodeTakeBits eng) := ⟨fun _ => ⟨rfl, rfl⟩, .inl rfl⟩
theorem decodePictureOutput (st : Nat) (pic : Picture) : Statement (Instr.decodePictureOutput st pic) := ⟨fun _ => ⟨rfl, rfl⟩, .inl rfl⟩
theorem cmuLogTailWrite (st : Nat) (v : BitVec 32) : Statement (Instr.cmuLogTailWrite st v) := ⟨fun _ => ⟨rfl, rfl⟩, .inl rfl⟩
theorem mmuInvContext (ag : RegAgent) : Statement (Instr.mmuInvContext ag) := ⟨fun _ => ⟨rfl, rfl⟩, .inl rfl⟩
theorem mmuInvPage (ag : RegAgent) : Statement (Instr.mmuInvPage ag) := ⟨fun _ => ⟨rfl, rfl⟩, .inl rfl⟩
theorem mmuInvAll (ag : RegAgent) : Statement (Instr.mmuInvAll ag) := ⟨fun _ => ⟨rfl, rfl⟩, .inl rfl⟩
theorem invalidationComplete : Statement (Instr.invalidationComplete) := ⟨fun _ => ⟨rfl, rfl⟩, .inl rfl⟩
theorem mmuIlvLockWrite (v : BitVec 32) : Statement (Instr.mmuIlvLockWrite v) := ⟨fun _ => ⟨rfl, rfl⟩, .inl rfl⟩
theorem csmPoolAdd (die : Nat) (v : Word) : Statement (Instr.csmPoolAdd die v) := ⟨fun _ => ⟨rfl, rfl⟩, .inl rfl⟩
theorem rampWindow (die demand : Nat) : Statement (Instr.rampWindow die demand) := ⟨fun _ => ⟨rfl, rfl⟩, .inl rfl⟩
theorem eauInterval (rail : Nat) : Statement (Instr.eauInterval rail) := ⟨fun _ => ⟨rfl, rfl⟩, .inl rfl⟩
theorem powerLimitThrottle (power temp : Nat) : Statement (Instr.powerLimitThrottle power temp) := ⟨fun _ => ⟨rfl, rfl⟩, .inl rfl⟩
theorem thermalTrip : Statement (Instr.thermalTrip) := ⟨fun _ => ⟨rfl, rfl⟩, .inl rfl⟩
theorem backgroundScrub (loc : Nat) (weak : Bool) : Statement (Instr.backgroundScrub loc weak) := ⟨fun _ => ⟨rfl, rfl⟩, .inl rfl⟩
theorem unitFence (kind : UnitKind) (n : Nat) (reason : BitVec 8) : Statement (Instr.unitFence kind n reason) := ⟨fun _ => ⟨rfl, rfl⟩, .inl rfl⟩
theorem rasShedWrite (v : BitVec 32) : Statement (Instr.rasShedWrite v) := ⟨fun _ => ⟨rfl, rfl⟩, .inl rfl⟩
theorem coldReset (inp : BootInputs) : Statement (Instr.coldReset inp) := ⟨fun _ => ⟨rfl, rfl⟩, .inl rfl⟩
theorem functionLevelReset (f : Nat) : Statement (Instr.functionLevelReset f) := ⟨fun _ => ⟨rfl, rfl⟩, .inl rfl⟩
theorem powerLoss : Statement (Instr.powerLoss) := ⟨fun _ => ⟨rfl, rfl⟩, .inl rfl⟩
theorem bootProbationTimeout (k : Nat) (inp : BootInputs) : Statement (Instr.bootProbationTimeout k inp) := ⟨fun _ => ⟨rfl, rfl⟩, .inl rfl⟩
theorem hbwBeat (k : Nat) : Statement (Instr.hbwBeat k) := ⟨fun _ => ⟨rfl, rfl⟩, .inl rfl⟩
theorem hbwNack (k : Nat) : Statement (Instr.hbwNack k) := ⟨fun _ => ⟨rfl, rfl⟩, .inl rfl⟩
theorem heartbeatPeriodEnd (k : Nat) (inp : BootInputs) : Statement (Instr.heartbeatPeriodEnd k inp) := ⟨fun _ => ⟨rfl, rfl⟩, .inl rfl⟩
theorem hoPrepare (k : Nat) : Statement (Instr.hoPrepare k) := ⟨fun _ => ⟨rfl, rfl⟩, .inl rfl⟩
theorem hoStart (k : Nat) : Statement (Instr.hoStart k) := ⟨fun _ => ⟨rfl, rfl⟩, .inl rfl⟩
theorem hoAbort (k : Nat) : Statement (Instr.hoAbort k) := ⟨fun _ => ⟨rfl, rfl⟩, .inl rfl⟩
theorem hoVerifyDone (k : Nat) (ok : Bool) (version : BitVec 32) : Statement (Instr.hoVerifyDone k ok version) := ⟨fun _ => ⟨rfl, rfl⟩, .inl rfl⟩
theorem hoBarrierArrive (k unit : Nat) : Statement (Instr.hoBarrierArrive k unit) := ⟨fun _ => ⟨rfl, rfl⟩, .inl rfl⟩
theorem hoQuiesceTimeout (k : Nat) : Statement (Instr.hoQuiesceTimeout k) := ⟨fun _ => ⟨rfl, rfl⟩, .inl rfl⟩
theorem hoExportDone (k : Nat) : Statement (Instr.hoExportDone k) := ⟨fun _ => ⟨rfl, rfl⟩, .inl rfl⟩
theorem hoExportTimeout (k : Nat) : Statement (Instr.hoExportTimeout k) := ⟨fun _ => ⟨rfl, rfl⟩, .inl rfl⟩
theorem hoActivateTimeout (k : Nat) : Statement (Instr.hoActivateTimeout k) := ⟨fun _ => ⟨rfl, rfl⟩, .inl rfl⟩
theorem hoProbationEnd (k : Nat) : Statement (Instr.hoProbationEnd k) := ⟨fun _ => ⟨rfl, rfl⟩, .inl rfl⟩
theorem fwKeyLoad : Statement (Instr.fwKeyLoad) := ⟨fun _ => ⟨rfl, rfl⟩, .inl rfl⟩
theorem fwKeyClear : Statement (Instr.fwKeyClear) := ⟨fun _ => ⟨rfl, rfl⟩, .inl rfl⟩
theorem getMeasurements (tenant : Nat) : Statement (Instr.getMeasurements tenant) := ⟨fun _ => ⟨rfl, rfl⟩, .inl rfl⟩
theorem hostBar2Access (f off : Nat) (op : BusOp) : Statement (Instr.hostBar2Access f off op) := ⟨fun _ => ⟨rfl, rfl⟩, .inl rfl⟩
theorem cxlMemAccess (pa : Nat) (op : BusOp) : Statement (Instr.cxlMemAccess pa op) := ⟨fun _ => ⟨rfl, rfl⟩, .inl rfl⟩
theorem hlRingEnable (f r : Nat) (v : BitVec 32) : Statement (Instr.hlRingEnable f r v) := ⟨fun _ => ⟨rfl, rfl⟩, .inl rfl⟩
theorem hlRingDisable (f r : Nat) (v : BitVec 32) : Statement (Instr.hlRingDisable f r v) := ⟨fun _ => ⟨rfl, rfl⟩, .inl rfl⟩
theorem hlRingTailWrite (f r : Nat) (v : BitVec 32) : Statement (Instr.hlRingTailWrite f r v) := ⟨fun _ => ⟨rfl, rfl⟩, .inl rfl⟩
theorem ringRecordTake (f r : Nat) : Statement (Instr.ringRecordTake f r) := ⟨fun _ => ⟨rfl, rfl⟩, .inl rfl⟩
theorem batchValidate (f r : Nat) : Statement (Instr.batchValidate f r) := ⟨fun _ => ⟨rfl, rfl⟩, .inl rfl⟩
theorem peerRequest (requester : BitVec 16) (pa : PeerAddr) (op : BusOp) : Statement (Instr.peerRequest requester pa op) := ⟨fun _ => ⟨rfl, rfl⟩, .inl rfl⟩
theorem peerDepart (k : Nat) : Statement (Instr.peerDepart k) := ⟨fun _ => ⟨rfl, rfl⟩, .inl rfl⟩
theorem registerWrite (ag : RegAgent) (off width : Nat) (v : Word) : Statement (Instr.registerWrite ag off width v) := ⟨fun _ => ⟨rfl, rfl⟩, .inl rfl⟩
theorem commandFault (cid e num : Nat) : Statement (Instr.commandFault cid e num) := ⟨fun _ => ⟨rfl, rfl⟩, .inl rfl⟩
theorem throttleConditionClear (power temp : Nat) : Statement (Instr.throttleConditionClear power temp) := ⟨fun _ => ⟨rfl, rfl⟩, .inl rfl⟩

end Sys2Proof.Laws.OneEncoding
end

