-- ==== Sys2Proof/Safety.lean ====
section
/-! DEFINITION. What a safe run is: every step of it gives a next state. -/

namespace Sys2Proof

/-- A run of `k` steps from `s` meets no fault and no refusal. -/
def SafeRun (k : Nat) (s : Machine.State) : Prop := ∃ t, core.run k s = .next t

end Sys2Proof
end

