-- ==== Sys2Proof/Tests/Slice0.lean ====
section
/-! SUPPORT. Tests: the checks of WellFormed refuse an ill-formed term each; words written out from the spec's encodings decode to
their instructions; for each statement a state and operands that meet its hypotheses; and single steps whose results the spec
gives. -/

namespace Sys2Proof.Tests

set_option Elab.async false

open Sys2Proof Sys2Proof.Machine

/-! ## States -/

/-- A continuation with a home core, running on core 0. -/
def cont0 : Cont := { Cont.fresh with stat := .running, core := some 0, home := some 0 }

/-- Hart 0 of core 0 in a mode, running continuation 0. -/
def hart0 (md : Mode) : Hart := { Hart.reset md with cont := some 0 }

/-- A page of context 0 in the caches of core 0, of its FI and of the hub. -/
def page (vpn : Nat) (l : Leaf) : List TlbEntry := [⟨0, 0, vpn, l⟩, ⟨200, 0, vpn, l⟩, ⟨204, 0, vpn, l⟩]

/-- The part with hart 0 of core 0 running continuation 0 in mode `md`, and page 0 of context 0 readable, writable and executable at
HBM address 0. -/
def part (md : Mode) : State := { State.reset with
  harts := [(0, hart0 md)], conts := [(0, cont0)], runs := [(0, VRun.start 0)], tlb := page 0 ⟨2, 0xF3, 0⟩
  cores := [(0, { Core.reset with slots := [(0, 0)] })], nextCid := 1, nextRun := 1
  cur := { Cursor.zero with who := .hart 0 } }

/-- x1 to x3 of hart 0. -/
def regs3 (s : State) (a b c : Nat) : State :=
  s.setHart 0 (((((s.hart 0).wx 1 (BitVec.ofNat 64 a)).wx 2 (BitVec.ofNat 64 b)).wx 3 (BitVec.ofNat 64 c)))

/-- The acting engine `e` of core 0 performs a word with capture slots `a` and `b`. -/
def acting (s : State) (e : Nat) (a b : Nat) : State :=
  { s with cur := ⟨.engine 0 e, 0, 0, { QEntry.zero with sc0 := BitVec.ofNat 64 a, sc1 := BitVec.ofNat 64 b, num := 1 }, false⟩ }

/-- Continuation 0 changed. -/
def withCont (s : State) (f : Cont → Cont) : State := s.setCont 0 (f (s.cont 0))

/-- Memory that holds `bs` from location `a` on. -/
def lay0 (a : Nat) (bs : List Byte) : List Host.Cell := (bs.zipIdx.filter fun y => y.1 != 0).map fun y => ⟨a + y.2, y.1⟩

/-- The result exists. -/
def okE {ε α : Type} : Except ε α → Bool | .ok _ => true | .error _ => false
/-- The result is `x`. -/
def okIs {ε α : Type} [DecidableEq α] (r : Except ε α) (x : α) : Bool := match r with | .ok y => decide (y = x) | .error _ => false
/-- The request misses. -/
def missE {α : Type} : Except Stop α → Bool | .error (.miss _ _ _) => true | _ => false
/-- The request faults. -/
def fltE {α : Type} : Except Stop α → Bool | .error (.flt _) => true | _ => false

/-- The result, or a default. -/
def getE {ε α : Type} [Inhabited α] : Except ε α → α | .ok x => x | .error _ => default
/-- Each of some requests passes its checks, on pages that are not transformed. -/
def allowed (s : State) (ag : Agent) (acc : Acc) (xs : Spans) : Bool :=
  xs.all fun x => match plan s ⟨ag, acc, x.1, x.2, false, true⟩ anyFmt with
    | .ok ps => ps.all fun p => (xfOf p).isNone | .error _ => false

/-- The next state, the given one when there is none. -/
def nextOf (o : Out) (d : State) : State := match o with | .next t => t | _ => d
/-- Whether there is a next state. -/
def runs (o : Out) : Bool := match o with | .next _ => true | _ => false

/-! ## Witnesses: RV64 -/

/-- LoadsWriteTheBytesRead: each size can be read, the ordered ones aligned, the plain ones at any address; a fault and a miss. -/
theorem witness_loads :
    let s := part .u
    (∀ n ∈ [1, 2, 4, 8], s.me.group.opened = false ∧ s.trigHeld (hartReq s .load 65528 n true) = false ∧
      okE (hartRead s (hartReq s .load 65528 n true)) = true ∧ okE (hartRead s (hartReq s .load 3 n false)) = true) ∧
    fltE (hartRead s (hartReq s .load (2 ^ 52) 8 false)) = true ∧ missE (hartRead s (hartReq s .load 65536 8 false)) = true ∧
    s.trigHeld (hartReq s .load (2 ^ 52) 8 false) = false ∧ s.trigHeld (hartReq s .load 65536 8 false) = false ∧
    s.me.mode = .u ∧ s.me.loopLeft = 0 := by decide +kernel

/-- NoncanonicalAddressesFault: the lowest and the highest such address. -/
theorem witness_noncanon :
    (regs3 (part .u) (2 ^ 52) 0 0).me.group.opened = false ∧ 2 ^ 52 ≤ ((regs3 (part .u) (2 ^ 52) 0 0).me.rx 1 + (0 : BitVec 12).signExtend 64).toNat ∧
    2 ^ 52 ≤ ((regs3 (part .u) 0 0 0).me.rx 1 + (0xFFF : BitVec 12).signExtend 64).toNat := by decide +kernel

/-- StoresPutTheirBytes, AtomicsReadModifyWrite: the one piece of a request on plain memory. -/
theorem witness_stores :
    let s := part .u
    s.mem.wf = true ∧ s.me.group.opened = false ∧
    (∀ n ∈ [1, 2, 4, 8], okIs (plan s (hartReq s .store 0 n true) anyFmt) [⟨0, n, .hbm 0, some ⟨2, 0xF3, 0⟩⟩] = true ∧
      okIs (plan s (hartReq s .store (65536 - n) n true) anyFmt) [⟨65536 - n, n, .hbm (65536 - n), some ⟨2, 0xF3, 0⟩⟩] = true) ∧
    (∀ n ∈ [4, 8], okIs (plan s (hartReq s .atomic 64 n true) anyFmt) [⟨64, n, .hbm 64, some ⟨2, 0xF3, 0⟩⟩] = true ∧
      okIs (plan s (hartReq s .load 64 n true) anyFmt) [⟨64, n, .hbm 64, some ⟨2, 0xF3, 0⟩⟩] = true) ∧
    (⟨2, 0xF3, 0⟩ : Leaf).xf = false ∧
    (s.setHart 0 { s.me with resv := some 1 }).groupIllegal.me.resv = some 1 ∧ s.groupIllegal.me.resv ≠ some 1 := by decide +kernel

/-- FencesAndHintsComplete: the three modes; a class busy and none busy; an enabled interrupt pending and none. -/
theorem witness_fences :
    (part .u).me.mode = .u ∧ (part .s).me.mode = .s ∧ (part .m).me.mode = .m ∧ (part .u).me.cont = some 0 ∧
    (part .u).groupIllegal.settle.classBusy 0 (fun _ => true) = false ∧
    (withCont (part .u) fun c => { c with live := [⟨2, { QEntry.zero with word := 0x00003000000FF23F }, 0, none, 0⟩] }).groupIllegal.settle.classBusy
      0 (fun k => k == 2) = true ∧
    (part .s).me.csrGet 0x144 &&& (part .s).me.csrGet 0x104 = 0 ∧
    (let h := ((part .s).me.csrSet 0x144 2).csrSet 0x104 2; h.csrGet 0x144 &&& h.csrGet 0x104 ≠ 0 ∧ h.mode = .s) := by decide +kernel

/-- CsrAccessReadsThenWrites: hart 0 in U and in S mode, a hart 1, and a hart in M mode; a set of x0, which writes nothing. -/
theorem witness_csr :
    isHart0 (part .u).hn = true ∧ isHart0 (part .s).hn = true ∧ (part .u).me.mode = .u ∧ (part .s).me.mode = .s ∧
    isHart0 ({ part .u with cur := { Cursor.zero with who := .hart 1, hart := 1 } } : State).hn = false ∧ (part .m).me.mode = .m := by
  decide +kernel

/-- EcallTakesItsException: a hart in M mode. -/
theorem witness_ecall : (part .m).me.mode = .m := rfl

/-! ## Witnesses: control instructions -/

/-- Bounds of the view bases, tags, numbers of commands and markers; body words owed, and none. -/
theorem witness_control :
    let s := withCont (part .u) fun c => { c with tags := 0x8000000000000001, pushed := [7, 0, 0, 0, 0, 0] }
    let t := s.setHart 0 { s.me with markers := [(0, 1)] }
    (∀ md ∈ [Mode.u, Mode.s], isHart0 (part md).hn = true ∧ (part md).me.mode = md ∧ (part md).me.cont = some 0) ∧
    ((regs3 s 49152 0 0).me.rx 1).toNat % 512 = 0 ∧ ((regs3 s 32768 0 0).me.rx 1).toNat % 2048 = 0 ∧
    ((regs3 s 768 0 0).me.rx 1).toNat % 32 = 0 ∧ 49152 < ((regs3 s 49664 0 0).me.rx 1).toNat ∧ ((regs3 s 1 0 0).me.rx 1).toNat % 32 ≠ 0 ∧
    32768 < ((regs3 s 34816 0 0).me.rx 1).toNat ∧ 768 < ((regs3 s 800 0 0).me.rx 1).toNat ∧
    ((s.cont 0).tags &&& (regs3 s (2 ^ 63) 0 0).me.rx 1).getLsbD 63 = true ∧ ((s.cont 0).tags &&& (regs3 s 2 0 0).me.rx 1) = 0 ∧
    ((regs3 s 7 0 0).me.rx 1).toNat ≤ (s.cont 0).pushed.getD 0 0 ∧ (s.cont 0).pushed.getD 0 0 < ((regs3 s 8 0 0).me.rx 1).toNat ∧
    t.reached 0 (0, 1) = true ∧
    (t.setCore 0 { t.core 0 with queues := [[.word { QEntry.zero with seq := 0 }], [], [], [], [], []] }).reached 0 (0, 1) = false ∧
    s.me.again = .none ∧
    isHart0 ({ s with cur := { s.cur with hart := 1 } } : State).hn = false ∧ s.me.loopLeft = 0 ∧
    ({ s.me with loopLeft := 1 } : Hart).loopLeft ≠ 0 ∧ ({ s.me with loopLeft := 1 } : Hart).mode = .u := by decide +kernel

/-- BarrierInstructionsComplete: a barrier of the continuation, with a phase over and with none. -/
theorem witness_barriers :
    let s := regs3 (part .u) 7 65535 0
    let t := regs3 (part .u) 0 1 0
    let o := t.setBar (t.cellOf 0 0) ⟨1, 0, 0, 1⟩
    (s.cont 0).homed = true ∧ (s.me.rx 1).toNat < (s.cont 0).barNames ∧ (t.me.rx 1).toNat < (t.cont 0).barNames ∧
    1 ≤ (t.me.rx 2).toNat ∧ (s.me.rx 2).toNat ≤ 65535 ∧ (s.bar (s.cellOf 0 7)).cnt = 0 ∧ (s.bar (s.cellOf 0 7)).pend = 0 ∧
    (t.bar (t.cellOf 0 0)).ph ≤ (t.cont 0).waitPh 0 (t.bar (t.cellOf 0 0)) ∧
    t.atPoint.barFaults 0 0 = [] ∧ t.me.mode = .u ∧ t.me.again = .none ∧
    (withCont o fun c => c.contribute 0 0).cont 0 = (o.cont 0).contribute 0 0 ∧
    ((withCont o fun c => c.contribute 0 0).cont 0).waitPh 0 (o.bar (o.cellOf 0 0)) < (o.bar (o.cellOf 0 0)).ph := by decide +kernel

/-- SuspensionPointsCompleteOrSuspend: every condition holding and not holding. -/
theorem witness_suspension :
    let s := withCont (regs3 (part .u) 1 0 0) fun c => { c with pushed := [1, 0, 0, 0, 0, 0], tags := 3 }
    let done := withCont s fun c => { c with tl := [1, 0, 0, 0, 0, 0] }
    let none4 := regs3 s 4 0 0
    (s.me.rx 1).toNat ≤ (s.cont 0).pushed.getD 0 0 ∧ (done.me.rx 1).toNat ≤ (done.cont 0).tl.getD 0 0 ∧
    (s.cont 0).tl.getD 0 0 < (s.me.rx 1).toNat ∧ lowestFault (fun l => l.eng == 0 && l.ent.num ≤ 1) (s.cont 0) = none ∧
    s.me.rx 1 ≠ 0 ∧ suspReg 10 = true ∧ suspReg 15 = true ∧ suspReg 0 = true ∧ lowestBit ((s.cont 0).tags &&& s.me.rx 1) = some 0 ∧
    lowestBit ((none4.cont 0).tags &&& none4.me.rx 1) = none ∧ tagFault (none4.cont 0) (none4.me.rx 1) = none ∧
    (s.cont 0).tags &&& s.me.rx 1 = s.me.rx 1 ∧ (none4.cont 0).tags &&& none4.me.rx 1 ≠ none4.me.rx 1 ∧
    (let u := (regs3 s 8 0 0).groupIllegal.atPoint; okIs (hartRead u (hartReq u .load 8 8 true)) [0, 0, 0, 0, 0, 0, 0, 0] = true) ∧
    BitVec.ofNat 64 (leNat [0, 0, 0, 0, 0, 0, 0, 0]) = (regs3 s 8 0 0).me.rx 2 ∧
    BitVec.ofNat 64 (leNat [0, 0, 0, 0, 0, 0, 0, 0]) ≠ (regs3 s 8 1 0).me.rx 2 ∧
    (s.cont 0).faulted = [] ∧ (s.cont 0).homed = true ∧ s.me.again = .none := by decide +kernel

/-- StoreGroupInstructionsComplete: no group, an open one, an aborted one, one whose store faults, and one with a vst outstanding. -/
theorem witness_groups :
    let g := { Group.none with opened := true }
    let s := (part .u).setHart 0 { (part .u).me with group := g }
    (part .u).me.group.opened = false ∧ g.opened = true ∧ g.vsts = [] ∧ g.code = 0 ∧ (g.abort 1 0 0 false).code ≠ 0 ∧
    okE (commitStores (hartReq s.settle .store 0 1 false) g.stores s.settle) = true ∧
    okE (commitStores (hartReq s.settle .store 0 1 false) [⟨0, 0, 0, some ⟨2, 0xF3, 0⟩, [1]⟩] (s.rset (oRAS + 0x20) 0)) = false ∧
    { g with vsts := [(1, 0, false)] }.vsts ≠ [] := by decide +kernel

/-- EngineWordPushQueuesTheWord: a word that passes the push with room and with none. -/
theorem witness_push :
    let s := part .u
    let full := s.setCore 0 { s.core 0 with queues := [List.replicate (s.queueCap 0 0) (.word QEntry.zero), [], [], [], [], []] }
    okIs (decodeEngine 0x00000000420C003F) (.vadd ⟨0, 0⟩ .i32 1 2 3 ⟨0, false⟩) = true ∧
    pushOk s.me (s.cont 0) (.vadd ⟨0, 0⟩ .i32 1 2 3 ⟨0, false⟩) 0x00000000420C003F = true ∧
    s.groupIllegal.queueLen 0 0 < s.groupIllegal.queueCap 0 0 ∧ clsOf 0x00000000420C003F ≤ 6 ∧ (s.core 0).queues.length = 6 ∧
    full.groupIllegal.queueCap 0 0 ≤ full.groupIllegal.queueLen 0 0 := by decide +kernel

/-- QpushAnswersItsStatus: each status. -/
theorem witness_qpush :
    let s := part .u
    let opened := s.rset (oFeStr 0) 0x10000
    let full := opened.setStream 0 { Stream.reset with hw := List.replicate 32 [], spilled := 2 ^ 64 }
    let other := s.rset (oMMU + 0x1000) 0x10
    okE (hartRead s.groupIllegal (hartReq s.groupIllegal .load 0 64 true)) = true ∧
    (other.setHart 0 { other.me with ctx := 1 }).me.mode ≠ .m ∧
    (other.setHart 0 { other.me with ctx := 1 }).streamTenant 0 ≠ (other.setHart 0 { other.me with ctx := 1 }).tenantOf 1 ∧
    127 < ((regs3 s 128 0 0).me.rx 1).toNat ∧ s.streamTenant 127 = s.tenantOf s.me.ctx ∧
    s.isOpen 0 = false ∧ opened.isOpen 0 = true ∧ opened.isOpen 127 = false ∧
    (match opened.groupIllegal.qappend 0 (List.replicate 64 0) with | .ok (_, b) => b | _ => false) = true ∧
    (match full.groupIllegal.qappend 0 (List.replicate 64 0) with | .ok (_, b) => !b | _ => false) = true := by decide +kernel

/-- Pages for the frames of context 0, not open to U mode, and a page of its own for the handle table. -/
def framed (md : Mode) : State := { part md with
  tlb := (page 0 ⟨2, 0xF3, 0⟩ ++ page 0x10000 ⟨1, 0x33, 0x1000⟩) }

/-- TrapEntersTheHandler: the pages of the frame can be written. -/
theorem witness_trap :
    let s := framed .u
    (s.hart 0).mode = .u ∧ (s.hart 0).cont = some 0 ∧ s.frameRun 0 = 0 ∧
    okE (writeFrame (s.captureV 0) 0 0 0 (frameImage { s.hart 0 with group := (s.hart 0).group.struck, resv := none }
      { (s.captureV 0).cont 0 with seq := ((s.captureV 0).cont 0).seq + 1 } ((s.captureV 0).vrun 0) [] (frameAddr (s.captureV 0) 0 0 0)
      8 0 0 none none) true) = true := by decide +kernel

/-- A hart in the handler of an ecall. -/
def handling : State := (framed .u).trap 0 8 0 none none

/-- What the check of the handler's frame answers: 1 restored, 2 abandoned, 0 a stop. -/
def restores (s : State) : Nat :=
  match (s.cont 0).frame with
  | some fr => (match s.restoreFrame 0 0 { s.me with instret := s.me.instret + 1 } fr true with | .ok (.ok _) => 1 | .ok .fails => 2 | _ => 0)
  | none => 0

/-- TretRestoresTheFrame: hart 0 serves a frame, the V unit is its continuation's, and the frame's pages can be read; RSPTR, ACTION,
RESTART and every other byte are as they were written. -/
theorem witness_tret :
    let s := handling
    let fa := frameAddr s 0 0 0
    let rd (o lo : Nat) : Memory := getE (readFramePage s (frameAgent s 0) (fa + o) lo)
    let m := rd 0 0 ++ rd 0x10000 0x10000
    isHart0 s.hn = true ∧ s.me.mode = .s ∧ s.me.cont = some 0 ∧ s.me.serving = true ∧ (s.cont 0).frame.isSome = true ∧ s.vAlone 0 0 = true ∧
    (∀ o ∈ [0, 0x10000, 0x20000, 0x30000], okE (readFramePage s (frameAgent s 0) (fa + o) o) = true) ∧
    mget m 13 = 0 ∧ mget m 14 = 0 ∧ mnum m 24 8 = fa + 0x20000 ∧ fa % 0x10000 = 0 ∧ (s.vrun 0).fly = [] ∧
    frameKept [] (((s.cont 0).frame.map fun f => f.image.filter fun x => x.1 < 0x20000).getD []) (m ++ rd 0x30000 0x30000) = true := by
  decide +kernel

/-- An unedited frame is restored. -/
theorem witness_tret_restores : restores handling = 1 := by decide +kernel

/-- A frame whose ACTION asks for abandonment is not. -/
theorem witness_tret_fails : restores { handling with mem := mset handling.mem 0x1004000D 1 } = 2 := by decide +kernel

/-- A legal launch record: one level CONT, one loop of one iteration, slot 0, entry 0. -/
def legalRecord : List Byte :=
  leBytes 8 0x4101 ++ List.replicate 16 0 ++ leBytes 4 0x106 ++ List.replicate 32 0 ++ leBytes 4 1 ++ leBytes 4 1 ++ List.replicate 188 0
/-- The same with a tile list, whose handle is number 9. -/
def listRecord : List Byte :=
  leBytes 8 0x1101 ++ List.replicate 16 0 ++ leBytes 4 0x106 ++ List.replicate 28 0 ++ leBytes 4 9 ++ List.replicate 196 0
/-- Slot 0 holds a text of context 0. -/
def withText (s : State) : State := (s.rset (oFE + 0x3000) 0x100).rset (oFE + 0x3008) 64
/-- The launch of a record passes the checks of R191. -/
def legalFor (s : State) (u : Submit) (bs : List Byte) : Bool :=
  match launchCheck s (u.launch bs) with | .ok k => k.code == 0 | .error _ => false

/-- LaunchesAndMailboxComplete: a record that can be read and is legal, and one that is not; a misaligned one; a wait operand within and
beyond PUSHED_e; the mailbox with an entry, and with none. -/
theorem witness_launch :
    let s := withText (regs3 (part .u) 0x40 0 0)
    let s := { s with mem := lay0 0x40 legalRecord }
    let u := s.groupIllegal.settle
    let sub (w : Option (Nat × Nat × Nat)) : Submit := ⟨0, none, 0x140, w, 1, false, none, 0⟩
    s.me.mode = .u ∧ s.me.loopLeft = 0 ∧ (s.me.rx 1).toNat % 64 = 0 ∧
    okIs (hartRead u (hartReq u .load 0x40 256 false)) legalRecord = true ∧ legalFor u (sub none) legalRecord = true ∧
    legalFor u (sub (some (0, 5, 0))) legalRecord = true ∧ okE (u.acceptLaunch (sub none) (List.replicate 256 0)) = true ∧
    okE (u.acceptLaunch (sub (some (0, 5, 0))) (List.replicate 256 0)) = true ∧
    (s.me.rx 2).toNat ≤ nth (s.cont 0).pushed 5 ∧ nth (s.cont 0).pushed 5 < ((regs3 s 0 1 0).me.rx 2).toNat ∧
    ((regs3 s 0x41 0 0).me.rx 1).toNat % 64 ≠ 0 ∧ ((regs3 s 0x41 0 0).me.rx 1).toNat < 2 ^ 47 ∧
    ((s.setVrun 0 { s.vrun 0 with mbox := [5] }).vrun ((s.setVrun 0 { s.vrun 0 with mbox := [5] }).cont 0).run).mbox = [5] ∧
    (s.vrun (s.cont 0).run).mbox = [] ∧ s.settle.mboxDue (coreOf s.hn) 0 = false := by
  decide +kernel
/-! ## Witnesses: the vector unit -/

/-- A V word acts on core 0 with k1 naming lane 0 and capture slots `a` and `b`; its run is otherwise as at its start. -/
def vecAt (a b : Nat) (f : VRun → VRun) : State :=
  acting ((part .u).setVrun 0 (f { VRun.start 0 with pred := [(1, 1)] })) 0 a b

/-- No active lane, one, and all of them; nothing in flight, and a result that is not due. -/
theorem witness_issue :
    let s := vecAt 0 0 id
    let t := vecAt 0 0 fun v => { v with fly := [{ (default : Res) with due := 1 }] }
    (∀ r ∈ s.vr.fly, s.vr.cyc < r.due ∨ r.arrived = true) ∧ (∀ r ∈ t.vr.fly, t.vr.cyc < r.due ∨ r.arrived = true) ∧
    (s.landUpTo s.cur.ent.run s.vr.cyc).active ⟨2, false⟩ = 0 ∧ (s.landUpTo s.cur.ent.run s.vr.cyc).active ⟨1, false⟩ = 1 ∧
    (s.landUpTo s.cur.ent.run s.vr.cyc).active ⟨0, false⟩ ≠ 0 ∧ s.cur.body = false ∧
    (s.landUpTo s.cur.ent.run s.vr.cyc).vr.fly = [] ∧ (t.landUpTo t.cur.ent.run t.vr.cyc).vr.fly ≠ [] := by decide +kernel

/-- ResultLandsInItsActiveLanes: a list of each length. -/
theorem witness_packed : ∀ w ∈ [8, 16, 32], (List.replicate (128 * (32 / w)) 0).length = 128 * (32 / w) := by decide +kernel

/-- ResultLandsInItsActiveLanes: a result for a register. -/
theorem witness_lands :
    let r := { (default : Res) with dest := .reg 512, data := List.replicate 128 1 }
    r.dest = .reg 512 ∧ (VRun.start 0).rs.wf = true ∧ r.data.length = 128 := by decide +kernel

/-- PredicateAndMailboxWordsIssue: room in the mailbox for one more, and none. -/
theorem witness_mailbox :
    (vecAt 0 0 fun v => { v with mbox := List.replicate 15 0 }).vr.mboxCount < 16 ∧
    ¬ (vecAt 0 0 fun v => { v with mbox := List.replicate 15 0, fly := [{ (default : Res) with due := 1, dest := .mbox }] }).vr.mboxCount < 16 := by
  decide +kernel

/-- What the load of a form at address `a` gives: read, fault or miss. -/
def loads (f : Form) (t : ElemT) (a : Nat) : Bool × Bool × Bool :=
  let s := vecAt a 4 id
  let r := vmLoad { s with tlb := page 2 ⟨2, 0xAF3, 2⟩ ++ s.tlb } s.eng f t 1 (s.vmBase ⟨0, 0, 0, 0, ⟨1, false⟩⟩ false) 0 4 (List.replicate 128 0)
  (okE r, fltE r, missE r)

/-- VectorLoadsIssue: each form reads, faults beyond 2^52, and misses on a page that is not cached. -/
theorem witness_vector_loads :
    (∀ f ∈ [Form.packed, .strided, .indexed], loads f .f32 0 = (true, false, false) ∧ loads f .f32 (2 ^ 52) = (false, true, false) ∧
      loads f .f32 65536 = (false, false, true)) ∧
    loads (.planes 2) .i8 131072 = (true, false, false) ∧ loads (.planes 3) .i8 131072 = (false, true, false) ∧
    loads (.planes 2) .i8 65536 = (false, false, true) := by decide +kernel

/-- What the store of a form at address `a` gives. -/
def stores (f : Form) (a : Nat) : Bool × Bool :=
  let s := vecAt a 4 id
  let r := vmStore s s.eng f .f32 1 a 0 4 (List.replicate 128 0) (List.replicate 128 0)
  (match r with | .ok (ws, _, fmt, geo) => okE (vmWrite s s.eng (fun y z => y == fmt && z == geo) (f.each fmt) ws) | .error _ => false, fltE r)

/-- The page of a store at address 0 holds single elements, and every request of its writes passes its checks. -/
def storesAll (f : Form) : Bool :=
  let s := vecAt 0 4 id
  match vmPage s s.eng .engWrite 0, vmStore s s.eng f .f32 1 0 0 4 (List.replicate 128 0) (List.replicate 128 0) with
  | .ok (fmt, geo), .ok (ws, _) =>
    let rs := (sortReqs lowWrite (if f.each fmt then ws.map fun w => [w] else pieceRuns Prod.fst ws)).map fun r => r.map fun w => (w.1, w.2.length)
    !isBlockFmt fmt && (wordCross s s.eng .engWrite (f.on .f32 fmt geo) (f.each fmt) rs).isNone && allowed s s.eng .engWrite (rs.map lowSpan)
  | _, _ => false

/-- VectorStoresIssue: each form writes, and faults beyond 2^52. -/
theorem witness_vector_stores :
    (vecAt 0 0 id).cur.ent.group = false ∧
    (∀ f ∈ [Form.packed, .strided, .indexed], stores f 0 = (true, false) ∧ stores f (2 ^ 52) = (false, true) ∧ storesAll f = true) ∧
    (let s := vecAt 0 4 id
     let g := { Group.none with opened := true, vsts := [(1, 0, false)] }
     let s := { s.setHart 0 { s.hart 0 with group := g } with cur := { s.cur with ent := { s.cur.ent with group := true } } }
     s.cur.ent.group = true ∧ okE (s.vstGroup (storeSpans s s.eng .packed .f32 1 0 0 4 []) (vmStore s s.eng .packed .f32 1 0 0 4 []
       (List.replicate 128 0))) = true) := by decide +kernel

/-- A pattern of 2 entries of F32 at address 0. -/
def pattern : List Byte := leBytes 8 0 ++ leBytes 4 2 ++ leBytes 4 1 ++ leBytes 4 1 ++ leBytes 4 1 ++ leBytes 8 512 ++ List.replicate 32 0

/-- FetchQueueAndLoopWordsIssue: a pattern can be read; a queue at its end, with an entry waiting, and with one to read. -/
theorem witness_fetch_queue :
    let s := vecAt 0 0 id
    let f : FetchQ := ⟨true, QEntry.zero, pattern, 2, [], none⟩
    okE (rdBytes s s.eng .engRead s.cur.ent.sc0.toNat 64) = true ∧ patBad pattern = false ∧ patType pattern = some .f32 ∧
    patTotal pattern ≤ f.next ∧ ({ f with next := 1 } : FetchQ).next < patTotal pattern ∧
    s.vRunOf 0 = some 0 ∧ s.vr.stopped = false ∧ ({ f with next := 1 } : FetchQ).next + 0 < patTotal pattern ∧
    okE (vmLoad s (engAgent 0 0 QEntry.zero) .packed .f32 (BitVec.allOnes 128) (patAddr pattern 1) 0 0 []) = true ∧
    (s.cont 0).frame = none ∧ f.faultAt = none ∧ (s.core 0).preempt = .none ∧ s.cur.ent.sc0.toNat = 0 ∧
    ({ s.core 0 with preempt := .asked } : Core).preempt = .asked ∧ (s.hart 0).cont = some s.cur.ent.cid ∧
    (s.landUpTo s.cur.ent.run s.vr.cyc).vr.fly = [] := by decide +kernel

/-- DormouseWordsIssue: lanes to defer with room and with none, items too few and enough to take, and lanes to return. -/
theorem witness_dormouse :
    let s := vecAt 0 0 id
    s.ringItems = 128 ∧ activeOf (s.active ⟨1, false⟩) = [0] ∧
    allowed s s.eng .engWrite ((cutWrite (s.itemAt 127) (List.replicate 8 0)).map fun w => (w.1, w.2.length)) = true ∧
    allowed s s.eng .engWrite ((cutWrite (addr64 0) (List.replicate 4 0)).map fun w => (w.1, w.2.length)) = true ∧
    (let rs := sortReqs (fun r => (lowSpan r).1) (requestsOf false [(⟨s.itemAt 0, 8, 0⟩ : Item)])
     wordCross s s.eng .engRead anyFmt false rs = none ∧ (∀ r ∈ rs, okE (reqRead s s.eng .engRead anyFmt false r) = true)) ∧
    wordCross s s.eng .engWrite anyFmt false [[(s.itemAt 127, 8)]] = none ∧
    (s.vr.path 0).count + 1 ≤ s.ringItems ∧ (s.vr.path 0).count < 1 ∧
    ¬ (({ s.vr.path 0 with count := 128 } : Dorm).count + 1 ≤ s.ringItems) := by
  decide +kernel

/-- VectorEventsComplete: a late load, one with a fault mark, and a result that is due. -/
theorem witness_vector_events :
    let r : Res := { (default : Res) with due := 0, arrived := false }
    let m : Res := { r with pfm := some default }
    let s := vecAt 0 0 fun v => { v with fly := [r] }
    s.vRunOf 0 = some 0 ∧ (s.vrun 0).stopped = false ∧ (s.cont (s.vrun 0).cid).frame = none ∧ (s.vrun 0).fly[0]? = some r ∧ r.arrived = false ∧
    r.pfm = none ∧ (r.slices.all fun p => s.coreOk p.1) = true ∧ m.pfm = some default ∧ r.due ≤ (s.vrun 0).cyc ∧
    ({ r with arrived := true } : Res).arrived = true ∧ (s.vrun 0).fly.take 0 = [] ∧ (s.vrun 0).fly.drop 1 = [] := by
  decide +kernel

/-! ## Witnesses: the engines -/

/-- Bytes in HBM. -/
def put (s : State) (a : Nat) (bs : List Byte) : State := { s with mem := msets s.mem a bs }

/-- Memory that holds bytes from each address on, addresses ascending. -/
def lay (xs : List (Nat × List Byte)) : List Host.Cell :=
  xs.flatMap fun x => lay0 x.1 x.2

/-- A PLAIN handle of 4 by 4 one-byte elements at `base`. -/
def small (base : Nat) : Handle := ⟨base, 2, 0, 0, false, [3, 3], 0, 0, [1, 4], (0, 0)⟩

/-- Engine `e` acts on core 0: context 0 owns the slice, continuation 0 holds accumulator tiles 0 to 31 and has set 0, weight
entries 0 to 7 are loaded with zeros, page 1 holds INT8 elements and page 2 FP32, and the handle table is at 8000h with two handles
of page 1, one of page 2, and a permutation table in page 0. -/
def engBase (e a b : Nat) : State :=
  let s := part .u
  let s := withCont { s with tlb := s.tlb ++ (page 1 ⟨2, 0x6F3, 1⟩ ++ page 2 ⟨2, 0x1F3, 2⟩) }
    (fun c => { c with epi := [(0, List.replicate 128 0)] })
  let s := s.setCore 0 { s.core 0 with accs := [(0, 0)], wb := (List.range 8).map fun w =>
    (w, ⟨0, [], 0, 0, 10, 3, false, 0, false⟩) }
  let s := (List.range 16).foldl (fun s k => s.rset (oCore 0 + 0x4000 + 4 * k) 0x100) s
  let s := s.rset (oFE + 0x1000) 0x8000
  acting { s with mem := lay [(0x8000, (small 65536).bytes), (0x8040, (small (65536 + 256)).bytes),
    (0x8080, (⟨131072, 2, 0, 0, false, [3, 3], 0, 0, [4, 16], (0, 0)⟩ : Handle).bytes),
    (0x80C0, (⟨0x9000, 1, 0, 0, false, [3], 0, 0, [2], (0, 0)⟩ : Handle).bytes)] } e a b

/-- MultipliesComplete: a multiply of one tile of each kind passes its checks, is no restart, meets no bad block, and asks for no status
word. -/
theorem witness_multiplies :
    let s := engBase 1 0 0
    s.ec.mxResumes s.cur.ent.num = false ∧ epSten (s.epSet 0) = false ∧
    ∀ o ∈ [(⟨.i8, none, 1, 0, false⟩ : MxOp), ⟨.f16, none, 1, 0, true⟩, ⟨.i8, some 4, 1, 0, true⟩],
      okE (s.mxCheck o ⟨0, 0, 16, 0, 0⟩) = true ∧ s.mxStalled o ⟨0, 0, 16, 0, 0⟩ 0 = false := by decide +kernel

/-- A command that stands between two steps. -/
def between (s : State) (p : Nat) (tab : List Byte) : State := withCont s fun c => { c with mxProg := p, mxTab := tab }

/-- A set with a status word at the start of the slice. -/
def stated : State := withCont (engBase 1 alBase 0) fun c => { c with epi := [(0, (List.replicate 128 0).set 4 1)] }

/-- A group with rows, and one without. -/
def rowGroup : List Byte := List.replicate 3 0 ++ [16] ++ List.replicate 12 0
def noGroup : List Byte := List.replicate 16 0

/-- MultipliesComplete: between two steps, with chunks to do and with none, before and after the epilogue, and with a tile to take up
and none. -/
theorem witness_steps :
    let s := engBase 1 alBase 0
    let n := s.cur.ent.num
    let t (z : Nat) (e : Bool) : State := between s (progAt n 0 z e) (rowGroup ++ rowGroup)
    (∀ z ∈ [0, 1], ∀ e ∈ [false, true], (t z e).ec.mxResumes n = true ∧ bits (t z e).ec.mxProg 13 8 = 0 ∧ bits (t z e).ec.mxProg 18 14 = z ∧
      bit (t z e).ec.mxProg 19 = e) ∧
    (t 0 false).mxStalled ⟨.i8, none, 1, 0, true⟩ ⟨0, 0, 16, 0, 0⟩ 0 = false ∧
    (chunksOf 16 2 (rowGroup ++ rowGroup)).map (grpJob 0) = [⟨0, 0, 16, 0, 0⟩, ⟨0, 0, 16, 0, 0⟩] ∧
    nextJob [⟨0, 0, 16, 0, 0⟩] 1 = some (1, ⟨0, 0, 16, 0, 0⟩) ∧ nextJob [⟨0, 0, 0, 0, 0⟩] 1 = none ∧
    allowed s s.eng .engWrite [(s.cur.ent.sc0.toNat + 4, 4)] = true ∧ epSten (stated.epSet 0) = true ∧
    allowed stated s.eng .engRead [(alBase + epStAddr (stated.epSet 0), 4)] = true ∧
    allowed stated s.eng .engWrite [(alBase + epStAddr (stated.epSet 0), 4)] = true ∧ stated.eng.core = stated.cur.core := by decide +kernel

/-- A group table of one group, with rows and without: what its multiply reads and checks. -/
theorem witness_grouped :
    ∀ g ∈ [rowGroup, noGroup],
      let s := put (engBase 1 alBase 0) (sliceLoc 0 0) (1 :: List.replicate 15 0 ++ g)
      let o : MxOp := ⟨.i8, none, 1, 0, true⟩
      let hd := getE (eRead s s.eng alBase 16)
      okE (eRead s s.eng alBase 16) = true ∧ okIs (eRead s s.eng (alBase + 16) 16) g = true ∧ s.ec.mxResumes s.cur.ent.num = false ∧
      fieldAt hd 0 1 = 1 ∧ zeroAt hd 1 3 = true ∧ zeroAt hd 8 8 = true ∧ grpBad o 0 g = false ∧
      okE (s.mxChecks o [grpJob 0 g]) = true ∧ allowed s s.eng .engWrite [(alBase + 4, 4)] = true := by decide +kernel

/-- A grouped multiply takes up its tile. -/
theorem witness_group_starts :
    let s := put (engBase 1 alBase 0) (sliceLoc 0 0) (1 :: List.replicate 15 0 ++ rowGroup)
    (s.mxGroup .i8 ⟨0, 0, false, 0, 0, true⟩).stop = some .step := by decide +kernel

/-- Multiplies that stop: a tile that is not held, a weight block with an error, and a table outside the slice. -/
theorem witness_multiply_stops :
    let m : Mxt := ⟨0, 0, false, 0, 0, true⟩
    let s := engBase 1 0 0
    (s.mxOne .i8 none { m with ct := 32 }).stop = some (.fault 17 0 none) ∧
    (({ between s (progAt s.cur.ent.num 0 0 false) [] with ue := [wbLoc 0 0] }).mxOne .i8 none m).stop = some .wait ∧
    (s.mxGroup .i8 m).stop ≠ none := by decide +kernel

/-- A bad weight block of the command at the head of M's queue. -/
def badBlock : State :=
  let s := engBase 1 alBase alBase
  let q : QEntry := { s.cur.ent with word := 0x000020000118403F }
  let s := between { s with cur := { s.cur with ent := q } } (progAt q.num 0 0 false) []
  { s.setCore 0 { s.core 0 with queues := [[], [.word q], [], [], [], []] } with ue := [wbLoc 0 0] }

/-- AccumulatorAndTableWordsComplete: tiles held and one not, at the start and between two tiles; a record of the slice; and a block
that the multiply at the head of the queue fetches and that can be reloaded. -/
theorem witness_accumulator :
    let s := badBlock
    let q := s.cur.ent
    (∀ i ≤ 31, s.tileOwned 0 0 i = true) ∧ s.tileOwned 0 0 32 = false ∧ (engBase 1 0 0).ec.mxResumes q.num = false ∧
    (let p := 1 + 2 ^ 20 + q.num % 65536 * 2 ^ 32; (between s p []).ec.mxResumes q.num = true ∧ bits (between s p []).ec.mxProg 7 0 = 1) ∧
    okE (eRead s s.eng q.sc0.toNat 128) = true ∧ okE (eRead s s.eng q.sc0.toNat 256) = true := by
  decide +kernel
theorem witness_reload :
    let s := badBlock
    let q := s.cur.ent
    let m : Instr := .tmma ⟨0, 0⟩ .i8 ⟨0, 1, false, 3, 0, true⟩
    headWord ((s.core 0).queues.getD 1 []) = some q ∧ okIs (decodeEngine q.word) m = true ∧ ueIn s.ue (wbLoc 0 0) 256 = true ∧
    s.mxFetches m 0 = true ∧
    (match s.wbEnt 0 0 with
      | some e => !e.pen && okE (pageFmt s ⟨reloadAgent 0 q e, .engRead, e.va, 256, false, true⟩) && okE (eRead s (reloadAgent 0 q e) e.va 256)
      | none => false) = true := by decide +kernel

/-- The copy engine acts; the permutation table reverses four elements. -/
def cpyAt (a b : Nat) : State := put (engBase 2 a b) 0x9000 (leBytes 2 3 ++ leBytes 2 2 ++ leBytes 2 1 ++ leBytes 2 0)

/-- A row can be accessed: its spots, their requests in one slice, each allowed and, for a read, sound. -/
def rowFine (s : State) (v : View) (rd : Bool) (accs : List Acc) (x0 : Int) (n : Nat) (rest : List Int) : Bool :=
  match v.rowSpots s rd rest n x0 with
  | .ok ps => accs.all fun acc => (v.cross s acc (spansOf v.e ps)).isNone && (pieceRuns Prod.fst (spansOf v.e ps)).all fun r =>
      match spanPlan s v.ag acc r v.ty with
      | .ok (_, ls) => ls.all (fun p => (xfOf p).isNone) && (acc != .engRead || okE (spanRead s v.ag acc r v.ty))
      | .error _ => false
  | .error _ => false

/-- Where the elements of a row of a plain handle lie is the same in every state. -/
theorem witness_row_moves (s u : State) (v : View) (rd : Bool) (x0 : Int) (n : Nat) (rest : List Int) (h : v.h.perm = false) :
    v.rowSpots u rd rest n x0 = v.rowSpots s rd rest n x0 := View.rowSpots_unpermuted u s v rd rest h n x0

/-- A range can be staged read-only. -/
def stageFine (s : State) (ag : Agent) (va n : Nat) : Bool :=
  let g : Stage := ⟨(locOf ag.core va - apBase) / 0x400000, (locOf ag.core va - apBase) % 0x400000 / 4096, ceilDiv n 4096⟩
  inSlices va && va % 4096 == 0 && g.first + g.count ≤ 1024 && ((List.range g.count).all fun i =>
    s.ec.slabMine s g.core (g.first + i) && !bit (s.slcOwn g.core (g.first + i)) 9) && allowed s ag .engWrite (spansAt (va + n) (g.count * 4096 - n))

/-- A row of a REUSE layer can be read. -/
def reuseFine (s : State) (v : View) (rc : Option Reuse) (n : Nat) (x y : Int) : Bool :=
  match rc with
  | none => true
  | some r => allowed s (s.owl r.st) .engRead [(s.tileAddr r.st r.l (y.toNat / r.t * r.gw + x.toNat / r.t), 32)] &&
      [0, 1].all fun k : Nat => rowFine s v true [.engRead] 0 n [x, y, k]

/-- The written mark of a target can be set. -/
def markFine (s : State) (g : Target) : Bool :=
  let a := s.metaAddr g.y.st g.y.l
  let b := s.tileAddr g.y.st g.y.l g.tile
  allowed s (s.owl g.y.st) .engRead [(a, 64), (b, 32)] && allowed s (s.owl g.y.st) .engWrite [(b + 5, 1), (b + 17, 1), (a + 32, 4)]

/-- A job card with one stage 9 that pads nothing, and a transfer of 16 bytes. -/
def cardAt : State :=
  put (put (cpyAt 0x4000 0x5000) 0x4000 [1, 9]) 0x5000 (leBytes 8 65536 ++ leBytes 8 (65536 + 512) ++ leBytes 4 16 ++ leBytes 4 16)

/-- A card without stages, and one whose only stage does not start as its input does. -/
theorem witness_bad_cards :
    badCard (List.replicate 64 0) = true ∧ badXfer (List.replicate 64 0) = true ∧ cardFault (1 :: 15 :: List.replicate 62 0) = some 0 ∧ badCard (1 :: 15 :: List.replicate 62 0) = false := by decide +kernel

/-- What tcpy and cpy.perm ask, from handle 0 to handle 1, or staged read-only. -/
def tileFine (s : State) (perm ro : Bool) : Bool :=
  let ag := s.eng
  let b := getE (eRead s ag s.cur.ent.sc0.toNat 128)
  let x := parseTile b
  let w := x.shp.headD 1
  let at_ (r : List Int) (k : Nat) : List Int := rowCoords (x.shp.drop 1) (r.drop 1) k
  match getHandle s ag 0, getHandle s ag 1 with
  | .ok hs, .ok hd =>
    match openView s ag hs, openView s ag hd, (if perm then permFits s ag (bits x.pflg 11 0) hs else .ok (0, 0)) with
    | .ok v0, .ok w0, .ok tab =>
      let thru (v : View) : View := if perm then v.through (bits x.pflg 11 0) tab else v
      okE (eRead s ag s.cur.ent.sc0.toNat 128) && !badTile perm ro b && hs.kind == 0 && hd.kind == 0 && !hs.perm && !hd.perm &&
      okE (handleBytes s ag 0) && okIs (matchViews v0 w0) (v0, w0) && v0.aligned (x.orgs.headD 0) w && w0.aligned (x.orgd.headD 0) w &&
      (!ro || stageFine s ag x.dstro (w / v0.step * v0.e * rowsIn x.shp)) && (List.range (rowsIn x.shp)).all fun k =>
        rowFine s (thru v0) true [.engRead] (x.orgs.headD 0) (w / v0.step) (at_ x.orgs k) &&
        (if ro then allowed s ag .engWrite (spansAt (x.dstro + k * (w / v0.step * v0.e)) (w / v0.step * v0.e))
         else rowFine s w0 false [.engWrite] (x.orgd.headD 0) (w / w0.step) (at_ x.orgd k))
    | _, _, _ => false
  | _, _ => false

/-- What cpy.xf asks. -/
def xferFine (s : State) : Bool :=
  let ag := s.eng
  let c := getE (eRead s ag s.cur.ent.sc0.toNat 64)
  let d := s.cur.ent.sc1.toNat
  let x := getE (eRead s ag d 64)
  let src := fieldAt x 0 8
  let dst := fieldAt x 8 8
  let n := fieldAt x 16 4
  match rangeFmt s ag .engRead src n, rangeFmt s ag .engWrite dst 1 with
  | .ok (sf, sg, _, _), .ok (df, dg, _, _) =>
    let k := xfStart (cardRawIn c) (cardStages c) sf sg
    match legalFrom 0 [] (cardStages c) k, xfSource s ag (cardRawIn c) src n sf sg (k == .e) with
    | .ok fin, .ok data =>
      match runStages s ag src df (cardStages c) data with
      | .ok out => !badCard c && !badXfer x && !cardRawIn c && !cardRawOut c && n % fmtSize sf sg == 0 && endOk false fin df dg && (cardFault c).isNone &&
          okIs (headFits s ag false src n k) true && out.bytes.length ≤ fieldAt x 20 4 && okIs (xfDstOk s ag false dst out.bytes.length) true &&
          allowed s ag .engWrite (spansAt dst out.bytes.length) && allowed s ag .engWrite [(d + 24, 4)]
      | .error _ => false
    | _, _ => false
  | _, _ => false

/-- RangesAndRowsReachTheirBytes: a range of the slice, and a row of a view of it with a pad, read and written. -/
theorem witness_ranges :
    let s := put (cpyAt 4096 alBase) 0x8000 (small alBase).bytes
    s.mem.wf = true ∧ (∀ acc ∈ [Acc.engRead, .engWrite], allowed s s.eng acc (spansAt alBase 256) = true) ∧ alBase ≤ alBase + 0x400000 - 256 ∧
    (match (getHandle s s.eng 0).toOption.bind fun h => (openView s s.eng h).toOption with
      | some v => okIs (v.rowSpots s true [0] 4 2) [.here (alBase + 2), .here (alBase + 3), .pad, .pad] &&
          [Acc.engRead, .engWrite].all fun acc => rowFine s v true [acc] 2 4 [0]
      | none => false) = true := by decide +kernel

/-- CopyWordsComplete: ranges that overlap and that do not, the second in the slice; what each word asks of its accesses. -/
theorem witness_copies :
    let s := cpyAt 4096 alBase
    (locOf 0 4096 < locOf 0 5000 + 1000 ∧ locOf 0 5000 < locOf 0 4096 + 1000) ∧
    ¬ (locOf 0 4096 < locOf 0 alBase + 256 ∧ locOf 0 alBase < locOf 0 4096 + 256) ∧
    allowed s s.eng .engRead (spansAt 4096 32) = true ∧ allowed s s.eng .engWrite (spansAt alBase 32) = true ∧ s.mem.wf = true ∧
    s.eng.core = s.cur.core ∧ alBase + 256 ≤ alBase + 0x400000 ∧
    (match openView s s.eng (cpyHandle 4096 1 256) with | .ok v => !isBlockFmt v.fmt | .error _ => false) = true ∧
    stageFine s s.eng alBase 256 = true := by decide +kernel

theorem witness_tile_copies :
    tileFine (cpyAt 4096 0) false false = true ∧ tileFine (put (cpyAt 4096 0) 4186 [3, 0]) true false = true ∧
    tileFine (put (cpyAt 4096 0) 4192 (leBytes 8 alBase)) false true = true ∧
    tileFine (put (cpyAt 4096 0) 4186 ([3, 0, 0, 0, 0, 0] ++ leBytes 8 alBase)) true true = true := by decide +kernel

theorem witness_other_copies :
    let s := cpyAt 4096 0
    let b := getE (eRead s s.eng 4096 64)
    badWeightDesc b = false ∧ fieldAt b 10 2 = 0 ∧ okE (weightBlock s s.eng (fieldAt b 0 8) (bits (fieldAt b 12 2) 11 0) false false) = true ∧
    allowed s s.eng .engWrite [(4096 + 16, 8)] = true ∧ xferFine cardAt = true := by decide +kernel

/-- Copies that stop: a page that is not cached, and a descriptor that is not well formed. -/
theorem witness_copy_stops :
    (match ((cpyAt (2 ^ 30) 0).tileWord false ⟨0, 1, 0, false⟩).stop with | some (.miss _ _ _) => true | _ => false) = true ∧
    ((put (cpyAt 4096 0) 4186 [3, 0]).tileWord false ⟨0, 1, 0, false⟩).stop = some (.fault 2 3 none) := by decide +kernel

/-- Owl's stream 0 of context 0, one tile of one element of two INT8 channels: handle 8 is the layer's REUSE handle on page 1, 9 the
tile list at 6040h, 10 to 13 the export tensors on pages 3 to 5; the metadata stands at 400000h in page 40h, the layer state is
EVALUATED with `r` tiles to compute and `c` to copy, and `w` of them written. -/
def owlWorld (e a b r c w : Nat) : State :=
  let s : State := engBase e a b
  let s : State := { s with tlb := s.tlb ++ (page 3 ⟨2, 0x7F3, 3⟩ ++ page 4 ⟨2, 0x8F3, 4⟩ ++ page 5 ⟨2, 0x2F3, 5⟩ ++ page 0x40 ⟨2, 0xF3, 0x40⟩ ++ page 0x41 ⟨2, 0xF3, 0x41⟩) }
  let s := (((((s.rset oCMU 1).rset (oFeStr 0) 0x10000).rset (oCmuS 0 8) 0x400000).rset (oCmuS 0 0x18) 0x410000).rset (oCmuS 0 0x28) 1).rset
    (oCmuS 0 0x10) (10 + 11 * 2 ^ 36 + 12 * 2 ^ 12 + 13 * 2 ^ 24)
  let s := s.setStream 0 { s.stream 0 with layers := [(0, List.replicate 16 0 ++ [1, 16, 1, 0, 0, 0, 0, 0, 0, 1, 8, 0, 0, 0, 0, 0])] }
  { s with mem := lay [(0x600C, leBytes 4 r ++ leBytes 4 c), (0x6045, [BitVec.ofNat 8 (2 * c)]),
    (0x8200, (⟨65536, 4, 4, 0, false, [1, 0, 0, 1], 0, 0, [1, 2, 2, 2], (0, 0)⟩ : Handle).bytes),
    (0x8240, (⟨0x6040, 2, 5, 0, false, [15, 3], 0, 0, [1, 16], (0, 0)⟩ : Handle).bytes),
    (0x8280, (⟨196608, 3, 1, 0, false, [7, 7, 0], 0, 0, [1, 8, 64], (0, 0)⟩ : Handle).bytes),
    (0x82C0, (⟨196864, 4, 1, 0, false, [1, 3, 3, 0], 0, 0, [1, 2, 8, 32], (0, 0)⟩ : Handle).bytes),
    (0x8300, (⟨262144, 4, 2, 0, false, [1, 0, 0, 0], 0, 0, [2, 4, 4, 4], (0, 0)⟩ : Handle).bytes),
    (0x8340, (⟨327680, 3, 3, 0, false, [0, 0, 0], 0, 0, [2, 2, 2], (0, 0)⟩ : Handle).bytes),
    (0x400010, [1]), (0x400018, leBytes 4 r ++ leBytes 4 c ++ leBytes 4 w ++ leBytes 4 0 ++ [9, 0, 0, 1])] }

/-- What a list of one record asks: the record, the row, and its area. -/
def rowsFine (s : State) (m : Gsx) (plain : Bool) (ty : Option Nat) (accs : List Acc) (area : Acc) : Bool :=
  match s.gsOpen m plain ty with
  | .ok g => g.v.h.kind != 4 && m.cnt1 == 0 && allowed s s.eng .engRead [(s.cur.ent.sc0.toNat, 16)] &&
      rowFine s g.v (accs == [.engRead]) accs 0 g.n (List.replicate 8 0) && allowed s s.eng area (spansAt g.d g.rb)
  | .error _ => false

/-- GatherScatterWordsComplete: the words of lists; an area in the slice under a handle of another kind than REUSE. -/
theorem witness_gathers :
    let s := engBase 3 0x5000 alBase
    rowsFine s ⟨0, 0, 0⟩ false none [.engRead] .engWrite = true ∧ rowsFine s ⟨0, 0, 0⟩ true none [.engWrite] .engRead = true ∧
    rowsFine s ⟨2, 0, 0⟩ true (some (elemFmt (scElem .f32))) [.engRead, .engWrite] .engRead = true ∧
    (match s.gsOpen ⟨0, 0, 0⟩ false none with
      | .ok g => decide (alBase ≤ g.d ∧ g.d + g.gp ≤ alBase + 0x400000) | .error _ => false) = true := by decide +kernel

/-- What a word of a tile of handle 8 asks, for an entry of the section `sect`; `rd` tells whether its layer is read, and `g` whether a
target is marked. -/
def tileWordFine (s : State) (e sect : Nat) (same rd mark : Bool) : Bool :=
  match s.tileWork 8 (bits e 27 16) (bits e 15 0) sect same with
  | .ok w =>
    let n := w.v.h.extOf 0 + 1
    decide (w.st = s) && 1 ≤ w.v.fmt && w.v.fmt ≤ 9 && w.v.aligned 0 n && (!rd || reuseFine s w.v w.rc (n / w.v.step) 0 0) &&
    (!mark || match pendingOf s w.y w.b with
      | .ok (u, g) => decide (u = s) && markFine s g && (tileCells g).all fun c =>
          rowFine s w.v false [.engWrite] 0 (n / w.v.step) [c.1, c.2, g.slot]
      | .error _ => false)
  | .error _ => false

theorem witness_tile_words :
    (let s := owlWorld 3 (9 * 65536) alBase 1 0 0
     tileWordFine s (9 * 65536) 0 false true false = true ∧ okE (areaCheck s .engWrite alBase 128) = true ∧
     tileWordFine s (9 * 65536) 1 true false true = true ∧ okE (areaCheck s .engRead alBase 128) = true ∧
     allowed s s.eng .engRead (spansAt alBase 2) = true ∧ (∀ k < 64, allowed s s.eng .engWrite (spansAt (alBase + 2 * k) 2) = true)) ∧
    (let s := put (owlWorld 2 0x5000 0 0 1 0) 0x5000 (leBytes 8 (9 * 65536))
     okIs (eRead s s.eng 0x5000 8) (leBytes 8 (9 * 65536)) = true ∧ tileWordFine s (9 * 65536) 2 true true true = true) := by decide +kernel

/-- Stream 0 is open, not stopped and context 0's, and layer 0 is legal and enabled. -/
def evalFine (s : State) : Bool :=
  s.isOpen 0 && !s.isStopped 0 && s.streamCtx 0 == 0 && (match getLayer s 0 0 with | .ok y => y.e.en && y.gw * y.gh == 1 | .error _ => false)
/-- The log of stream 0 has room. -/
def logFine (s : State) : Bool :=
  let v := s.rget (oCmuS 0 0x18) 0
  !s.logIsFull 0 && s.owlOp.held.isEmpty && allowed s (s.owl 0) .engWrite [(bits v 51 12 * 4096 + 32 * (s.rget (oCmuS 0 0x20) 0 % ringSize v), 32)]
/-- The record of layer 0. -/
def layerNow (s : State) : List Byte := getE (rdBytes s (s.owl 0) .engRead (s.metaAddr 0 0) 64)

/-- CascadeWordsComplete: EN set and clear, an operation that arrived before; a layer that can be evaluated and one that is EVALUATED. -/
theorem witness_cascade :
    let s := owlWorld 5 0 0 1 0 1
    let ow := s.owl 0
    let (a, b) := (s.metaAddr 0 0, s.tileAddr 0 0 0)
    bit (s.rget oCMU 0) 0 = true ∧ bit ((engBase 5 0 0).rget oCMU 0) 0 = false ∧ s.owlQ = [] ∧ evalFine s = true ∧ logFine s = true ∧
    allowed s ow .engRead [(a, 64), (b, 32)] = true ∧ okE (rdBytes s ow .engRead a 64) = true ∧
    allowed s ow .engWrite [(a, 64), (a + 42, 2), (b, 32), (b + 24, 1), (b + 26, 2)] = true ∧ lsState (layerNow s) = 1 ∧
    lsNwr (layerNow s) = lsCountR (layerNow s) + lsCountC (layerNow s) ∧ lsCountR (layerNow s) = 1 := by decide +kernel
theorem witness_cm_list :
    let s := owlWorld 5 0 0 1 0 1
    (match owlHandle s 0 (lsList (layerNow s)) 4 with
      | .ok h => okIs (listTiles s 0 1 h 1 0) [0] && okE (owlRead s 0 (h.at 0) 16) | .error _ => false) = true := by decide +kernel
theorem witness_cm_meas :
    (match getLayer (put (owlWorld 5 0 0 1 0 1) 0x400051 [6]) 0 0 with
      | .ok y => (match openView (owlWorld 5 0 0 1 0 1) ((owlWorld 5 0 0 1 0 1).owl 0) y.h with
        | .ok v => v.aligned 0 (y.h.extOf 0 + 1) | .error _ => false)
      | .error _ => false) = true ∧
    let s := put (owlWorld 5 0 0 1 0 1) 0x400051 [6]
    hfWr (halfOf (getE (rdBytes s (s.owl 0) .engRead (s.tileAddr 0 0 0) 32)) (1 - lsCh (layerNow s))) = true ∧
    (match getLayer s 0 0 with
      | .ok y => (match openView s (s.owl 0) y.h with
        | .ok v => [0, 1].all fun k : Nat => rowFine s v true [.engRead] 0 ((y.h.extOf 0 + 1) / v.step) [0, 0, k]
        | .error _ => false)
      | .error _ => false) = true := by decide +kernel

/-- A layer that is not EVALUATED and can be: its list, exports, window, blocks and records. -/
def evalWorld : State := put (owlWorld 5 0 0 1 0 1) 0x400010 [0]
theorem witness_cm_eval :
    let s := evalWorld
    let ow := s.owl 0
    evalFine s = true ∧ lsState (layerNow s) ≠ 1 ∧ logFine s = true ∧
    (match getLayer s 0 0, evalExports s 0 (s.cmuFrame 0) with
      | .ok y, .ok e =>
        let pic := s.picSize 0 (s.cmuFrame 0) e
        let w := windowOf y 0 0 pic.1 pic.2.1
        (match evalList s y 9 with | .ok h => allowed s ow .engWrite [(h.at 0, 16), (h.at (-64), 64)] | .error _ => false) &&
        (match lowerSrc s y (s.cmuFrame 0) with | .ok (u, _, l) => decide (u = s) && l.isNone | .error _ => false) && w.ok &&
        okE (readBlks s 0 e (s.cmuFrame 0 % e.nbuf) (w.x0 / 8) (w.x1 / 8 + 1 - w.x0 / 8) (w.y1 / 8 + 1 - w.y0 / 8) (w.y0 / 8))
      | _, _ => false) = true ∧ allowed s ow .engRead [(s.tileAddr 0 0 0, 32)] = true ∧
    allowed s ow .engWrite [(s.tileAddr 0 0 0, 32), (s.metaAddr 0 0, 64)] = true := by decide +kernel
theorem witness_cm_eval_ends : okE (cmEval evalWorld 0 0 9 0) = true := by decide +kernel

/-- A signature configuration: 4 bits, rows of 128 bytes, source and destination rows of 4 bytes. -/
def sigRecord : List Byte := 4 :: List.replicate 15 0 ++ leBytes 4 128 ++ leBytes 2 4 ++ leBytes 2 4 ++ leBytes 4 4 ++ List.replicate 36 0

/-- The signature unit with that configuration, and a work area at the start of the slice in state `st` for one row. -/
def sigAt (a b st : Nat) : State :=
  let s := withCont (engBase 4 a b) fun c => { c with sigCfg := sigRecord }
  put s (sliceLoc 0 0) ([BitVec.ofNat 8 st, 6] ++ leBytes 2 1)

/-- SignatureWordsComplete: sig.cfg; the rows and keys read and the work area written by sig.hash and sig.key; a unit without a
configuration, and a work area outside the slices. -/
theorem witness_signatures :
    let s := sigAt 0x4000 alBase 0
    sgBad sigRecord = false ∧ inSlices alBase = true ∧ okE (eRead (sigAt alBase 0 0) (sigAt alBase 0 0).eng alBase 64) = true ∧
    s.ec.sigCfg ≠ [] ∧ (engBase 4 0 0).ec.sigCfg = [] ∧ alBase % 64 = 0 ∧ inSlices 0 = false ∧ 128 * sgKch sigRecord ≤ sgRp sigRecord ∧
    okE (s.sgRows sigRecord .i8 1) = true ∧ okE (s.sgKeys sigRecord 1) = true ∧
    allowed s s.eng .engWrite [(alBase, 4), (alBase + 6, 1), (alBase + 16, 32)] = true ∧
    allowed s s.eng .engWrite (spansAt (alBase + 64) 2) = true := by decide +kernel

/-- sig.group: an area of keys and one of rows, and its tables. -/
theorem witness_sig_group :
    let s (st : Nat) : State := sigAt 0x4000 alBase st
    let hd (st : Nat) : List Byte := getE (eRead (s st) (s st).eng alBase 64)
    (∀ st ∈ [1, 2], fieldAt (hd st) 0 1 = st ∧ fieldAt (hd st) 2 2 = 1) ∧ (elemT? (fieldAt (hd 1) 1 1)).isSome = true ∧
    okE ((s 2).sgKeys sigRecord 1) = true ∧ okE ((s 1).sgTable (alBase + 64) 1) = true ∧ okE ((s 1).sgRows sigRecord ((elemT? 6).getD .i8) 1) = true ∧
    sgCompact sigRecord = false ∧
    (∀ st ∈ [1, 2], allowed (s st) (s st).eng .engWrite [(alBase, 1), (alBase + 4, 2)] = true ∧
      allowed (s st) (s st).eng .engWrite (spansAt (alBase + 576) 2) = true ∧
      allowed (s st) (s st).eng .engWrite (spansAt (alBase + 1088) 2) = true) := by decide +kernel

/-- sig.scat, sig.bexp and sig.bred: a grouped area with its MAP, and the rows that are written. -/
theorem witness_sig_spread :
    let s := sigAt 0x4000 alBase 3
    let t := sigAt alBase 0x4000 3
    let hd := getE (eRead s s.eng alBase 64)
    fieldAt hd 0 1 = 3 ∧ fieldAt hd 2 2 = 1 ∧ okIs (readRange s s.eng (alBase + 576) 2) [0, 0] = true ∧
    okIs (readRange t t.eng (alBase + 576) 2) [0, 0] = true ∧ elemsOf 2 1 [0, 0] = [0] ∧ rowFits sigRecord 0 0 = true ∧
    sgRepOnly sigRecord = false ∧ sgRepOnly (sigRecord.set 3 0x20) = true ∧ s.ec.bred = none ∧ 0 < sgSb sigRecord / 4 ∧
    rowFits sigRecord 15 65535 = false ∧ (withCont s fun c => { c with bred := some ⟨[0], 0, fNone⟩ }).ec.bred = some ⟨[0], 0, fNone⟩ ∧
    0 + 4 ≤ sgSb sigRecord ∧ (∀ acc ∈ [Acc.engRead, .engWrite], allowed t t.eng acc (spansAt (rowAt 0x4000 (sgDp sigRecord) 0) (sgSb sigRecord)) = true) ∧ okE (s.sgTable (alBase + 1088) 256) = true ∧
    allowed s s.eng .engWrite (spansAt (rowAt 0x4000 (sgDp sigRecord) 0) (sgSb sigRecord)) = true ∧
    allowed t t.eng .engRead (spansAt (rowAt 0x4000 (sgDp sigRecord) 0) (sgSb sigRecord)) = true := by decide +kernel

/-- EngineCommandEnds: the queues of a core, a command that is not in flight yet. -/
theorem witness_engine_ends :
    let s := badBlock
    1 < (s.core s.cur.core).queues.length ∧ (s.cont s.cur.ent.cid).liveOf 1 s.cur.ent.num = none ∧ s.mem.wf = true := by decide +kernel

/-- IntegerChunkAddsTheExactDotProduct: a bit-plane operand of 8 planes and of 2, and a set that saturates. -/
theorem witness_chunk :
    (⟨.i8, some 8, 1, 0, false⟩ : MxOp).t = .i8 ∧ (⟨.i8, some 2, 1, 0, false⟩ : MxOp).bp = some 2 ∧
    epAccm (1 :: List.replicate 127 0) = true ∧ epAccm (List.replicate 128 0) = false := by decide +kernel
/-! ## Witnesses: events -/

/-- A command of engine `e` in flight for continuation 0, with or without a fault. -/
def flying (e : Nat) (f : Option EngFault) (issues : Nat) : State :=
  withCont (part .u) fun c => { c with live := [⟨e, { QEntry.zero with num := 1 }, 0, f, issues⟩] }

/-- CommandsCompleteOrFault: a command done, one whose results have not landed, and one with a fault. -/
theorem witness_commands :
    ((flying 2 none 0).cont 0).liveOf 2 1 = some ⟨2, { QEntry.zero with num := 1 }, 0, none, 0⟩ ∧
    ((flying 0 none 0).cont 0).liveOf 0 1 = some ⟨0, { QEntry.zero with num := 1 }, 0, none, 0⟩ ∧
    (flying 0 none 0).vPending ((flying 0 none 0).cont 0) ⟨0, { QEntry.zero with num := 1 }, 0, none, 0⟩ = false ∧
    (flying 0 none 1).vPending ((flying 0 none 1).cont 0) ⟨0, { QEntry.zero with num := 1 }, 0, none, 1⟩ = true ∧
    (((flying 2 (some ⟨1, 2, 3, 0, 0, none⟩) 0).cont 0).liveOf 2 1).isSome = true ∧
    ((flying 2 none 0).cont 0).ending = false := by decide +kernel

/-- Continuation 0 suspended with a wait. -/
def waiting (w : Wait) : State := withCont (part .u) fun c => { c with stat := .suspended, wait := w, tags := 6 }
/-- A command of engine 1 that has faulted, with the signal of barrier 3. -/
def gone : Live := ⟨1, { QEntry.zero with num := 1, word := 0x83000000000000 }, 0, some ⟨1, 1, 17, 0, 0, none⟩, 0⟩

/-- SatisfiedWaitsMakeReady: a wait of each kind holds, does not, and ends by a fault. -/
theorem witness_waits :
    let bad (w : Wait) : Cont := ({ (waiting w).cont 0 with faulted := [gone] } : Cont)
    ((waiting (.tl 1 0 0)).cont 0).stat = .suspended ∧ 0 ≤ nth ((waiting (.tl 1 0 0)).cont 0).tl 1 ∧
    nth ((waiting (.tl 1 1 0)).cont 0).tl 1 < 1 ∧ (bad (.tl 1 1 0)).faulted = [gone] ∧ gone.eng = 1 ∧ gone.ent.num ≤ 1 ∧
    lowestBit (((waiting (.tagAny 4 5)).cont 0).tags &&& 4) = some 2 ∧ ((waiting (.tagAll 6)).cont 0).tags &&& 6 = 6 ∧
    lowestBit (((waiting (.tagAny 8 5)).cont 0).tags &&& 8) = none ∧ ((waiting (.tagAll 8)).cont 0).tags &&& 8 ≠ 8 ∧
    sigOf gone.ent.word = 0x83 ∧ (let s := waiting (.hb 3 0); let b := s.bar (s.cellOf 0 3); b.arr ≤ b.cnt + [gone].length ∧ b.pend = 0) ∧
    (waiting .exit).cont 0 = { (waiting .none).cont 0 with wait := .exit } ∧
    (let s := waiting (.hb 3 0); let t := s.setBar (s.cellOf 0 3) { s.bar (s.cellOf 0 3) with ph := 1 }
     0 < (t.bar (t.cellOf 0 3)).ph ∧ (s.bar (s.cellOf 0 3)).ph ≤ 0) ∧
    (let s := waiting (.addr 0 0); let r (a : Nat) : Req := ⟨waddrAgent (s.cont 0), .load, a, 8, true, true⟩
     okE (hartRead s (r 0)) = true ∧ fltE (hartRead s (r (2 ^ 52))) = true) := by
  decide +kernel
/-- A faulted command that would have set a tag. -/
theorem witness_tag_fault :
    (tagFault { (waiting (.tagAny 8 5)).cont 0 with faulted := [⟨1, { QEntry.zero with num := 1, word := 0x43000000000000 }, 0, none, 0⟩] } 8).isSome =
      true := by decide +kernel

/-- Core 0 with a free hart 0 and continuation 0 READY; one with a frame; and one that runs beside a READY one. -/
def readyOne : State :=
  withCont { part .u with harts := [(0, Hart.reset .u)] } fun c => { c with stat := .ready }
def readyFrame : State := ((framed .u).setCore 0 { (framed .u).core 0 with preempt := .asked }).capture 0 0 1 true
def runningOne : State :=
  let s := part .u
  { s with conts := [(0, cont0), (1, { cont0 with stat := .ready, core := none, dom := 1 })] }
/-- A decision of kind `k` is not journalled: no hand-over of that kind is between ACTIVATE and COMMIT. -/
def quietHo (s : State) (k : Nat) : Bool := s.hoState k != 4 && s.hoState k != 5

/-- ContinuationAndPreemptionEventsComplete: the choice, with storage to bring back and without, with a frame and without. -/
theorem witness_choice :
    (readyOne.hart 0).cont = none ∧ readyOne.coreOk 0 = true ∧ readyOne.hoPaused 1 0 = false ∧
    readyOne.firstOf (readyOne.readyOn 0) = some 0 ∧
    (match (readyOne.takeSlot 0 0).restoreFor 0 0 with | .ok (t, true) => (t.cont 0).frame.isNone && quietHo t 1 | _ => false) = true ∧
    (readyOne.cont 0).saved = [] ∧ ((readyOne.takeSlot 0 0).core 0).wbOut = [] ∧
    (readyFrame.hart 0).cont = none ∧ (readyFrame.cont 0).stat = .ready ∧ (readyFrame.cont 0).frame.isSome = true ∧
    readyFrame.firstOf (readyFrame.readyOn 0) = some 0 ∧ readyFrame.vAlone 0 0 = true ∧
    (match (readyFrame.cont 0).frame with
      | some fr => (match readyFrame.restoreFrame 0 0 fr.hart fr false with | .ok (.ok _) => true | _ => false) | none => false) = true := by
  decide +kernel

/-- A request need not wait for a walk. -/
def arrives (s : State) (ag : Agent) (acc : Acc) (va n : Nat) : Bool :=
  !missE (plan s ⟨ag, acc, va, n, false, true⟩ anyFmt)
/-- The write of the next event record of each tenant need not wait for a walk. -/
def heardAll (s : State) : Bool := (List.range 16).all fun t => match s.tenantCtx t with
  | none => true
  | some k => let r := s.rget (0x2000 + 0x20 * t) 0
    arrives s (feAgent k) .engWrite (bits r 51 12 * 4096 + 32 * (s.rget (0x2000 + 0x20 * t + 8) 0 % 2 ^ (bits r 3 0 + 4))) 32
/-- A hand-over of kind 1 in PROBATION. -/
def activating (s : State) : State := s.rset (oHo 1 + 4) 5

/-- The decisions of firmware: within PROBATION and not; every tenant's event record reaches its ring. -/
theorem witness_journal :
    (activating (part .u)).hoState 1 = 5 ∧ quietHo (part .u) 1 = true ∧ heardAll (activating (part .u)) = true := by decide +kernel
/-- A journal without room, whatever the record's payload. -/
theorem witness_journal_full :
    ((part .u).setHandOver 1 { HandOver.reset with jrnl := 2 ^ 80 }).jrnlAppend 1 = none := by
  have h : ((part .u).setHandOver 1 { HandOver.reset with jrnl := 2 ^ 80 }).handOver 1 = { HandOver.reset with jrnl := 2 ^ 80 } := by
    decide +kernel
  have v : bits (((part .u).setHandOver 1 { HandOver.reset with jrnl := 2 ^ 80 }).rget (oHo 1 + 0x18) 0) 5 0 = 0 := by decide +kernel
  simp only [State.jrnlAppend, h, v]
  rw [if_pos]
  exact Nat.lt_of_lt_of_le (by decide) (Nat.le_add_right _ _)

/-- An exit that has drained, and an abandoned continuation; the completion record of its launch can be written. -/
theorem witness_retire :
    let c := (part .u).cont 0
    let s := withCont (part .u) fun c => { c with stat := .suspended, wait := .exit }
    c.ending = false ∧ (s.cont 0).outst = [] ∧ (s.cont 0).faulted = [] ∧ (s.cont 0).unsaved = none ∧ c.live = [] ∧ c.bred = none ∧
    arrives s (feAgent (s.launch c.lid).ctx) .engWrite (s.launch c.lid).comp 64 = true ∧ s.launches = [] ∧
    okE (s.retireCont 0) = true ∧ okE ((withCont (part .u) fun c => { c with ending := true }).retireCont 0) = true := by decide +kernel

theorem witness_preempt :
    let s := runningOne
    let a := s.setCore 0 { s.core 0 with preempt := .asked }
    s.runningU 0 = some 0 ∧ (s.core 0).preempt = .none ∧ s.readyOn 0 = [1] ∧ s.hoPaused 1 0 = false ∧ s.coreOk 0 = true ∧ quietHo s 1 = true ∧
    (a.cont 0).bred = none ∧ (a.setVrun 0 { a.vrun 0 with fly := [default] }).captureKind 0 0 ≠ some (1, true) ∧
    (a.core 0).preempt = .asked ∧ (a.vrun (a.frameRun 0)).loop = none ∧ a.captureKind 0 0 = some (1, true) ∧ (a.queued 0 0).length ≤ 2048 ∧
    (s.setHart 0 { s.hart 0 with group := { Group.none with opened := true } }).hart 0 ≠ s.hart 0 := by decide +kernel

/-- WalksAndInvalidationsComplete: a miss to take, a walk of an identity context that finds a leaf and one that fails, and a full
list of invalidations. -/
theorem witness_walks :
    let m : Miss := ⟨0, 0, 0, [.hart 0]⟩
    takeMiss 0 [m] = some (m, []) ∧ takeWalk 0 0 [m] = some (m, []) ∧ 0 < walkersOf 0 ∧
    (match walk (State.reset) 0 0 0 with | .fail _ _ _ _ => true | _ => false) = true ∧
    (match walk
      ({ State.reset with mem := lay [(0x10000, [1]), (0x10008, [2]), (0x20000, [1]), (0x20008, [3]), (0x30000, [0xF3])] }.rset
        (oMMU + 0x1000) 0x10001) 0 0 0 with | .leaf _ _ => true | _ => false) = true := by decide +kernel
/-- Who may write an invalidation and who may not; one that no open store group holds up; the lock with a valid map. -/
theorem witness_invalidations :
    let i : Inval := ⟨0, 0, 0⟩
    State.reset.regMay .host = true ∧ (State.reset.hart 1).mode = .m ∧ State.reset.regMay (.hart 0) = false ∧
    State.reset.invals.length < 64 ∧ 64 ≤ (List.replicate 64 i).length ∧ i.holds (part .u).me = false ∧ State.reset.locked = false ∧
    ilvValid State.reset = true := by decide +kernel

/-! Streams, graphs, power, resets and the host link -/

/-- Owl's world with stream 0 at work, records in its queue. -/
def strWorld (hw : List (List Byte)) : State :=
  let s := withText (owlWorld 0 0 0 1 0 1)
  { s.setStream 0 { s.stream 0 with hw := hw, sent := [⟨5, false⟩], trigq := [⟨7, false⟩] } with
    mem := s.mem.filter (·.1 < 0x7000) ++ lay [(0x7000, legalRecord), (0x7100, listRecord)] ++ s.mem.filter (0x7200 ≤ ·.1) }

/-- A record of a kind with a length and an address. -/
def qrec (kind len addr : Nat) : List Byte :=
  leBytes 8 kind ++ leBytes 8 addr ++ leBytes 4 len ++ List.replicate 44 0

/-- A picture of one block: 8 by 8 samples, a key frame. -/
def pict : Picture := ⟨0, 8, 8, false, true, List.replicate 64 16, List.replicate 32 128, 0, [(none, none)], [[]], false, []⟩

/-- A node of a kind with its fields from byte 8 on. -/
def nodeOf (kind : Nat) (fields : List Byte) : List Byte :=
  leBytes 2 kind ++ leBytes 2 0xFFFF ++ leBytes 4 0 ++ fields ++ List.replicate (56 - fields.length) 0
/-- The run of stream 0 stands at such a node; the node after it is a CMU node of layer 0 and list handle 9. -/
def atNodeOf (kind : Nat) (fields : List Byte) (r : GRun → GRun) : State :=
  let s := strWorld []
  s.setStream 0 { s.stream 0 with run := some (r ⟨1, 1, some 0, [nodeOf kind fields, nodeOf 2 [0, 0, 9, 0]], 0, false, 0, 0, [], 0, 0, none, none,
    none, 0⟩) }

/-- The run of stream 0. -/
def runNow (s : State) : GRun := ((s.stream 0).run).getD default
/-- The operation of its node at Owl. -/
def ownOp (s : State) : State := s.operation (runNow s).opNum
/-- The node that it stands at. -/
def nodeNow (s : State) : List Byte := match (runNow s).at? with | some (_, b) => b | none => []

/-- TriggersAreSentAndAccepted: stores and loads reach the register of an open stream and of a closed one, and fault beyond it; the
queue has room, and is full. -/
theorem witness_triggers :
    let s := strWorld []
    let reach (acc : Acc) (st : Nat) : Bool :=
      match plan s (trigReq 0 true acc (BitVec.ofNat 64 (trigBase + 4096 * st))) anyFmt with | .ok [p] => p.tgt == .trig st 0 | _ => false
    trigBase ≤ (BitVec.ofNat 64 trigBase).toNat ∧ reach .store 0 = true ∧ reach .store 1 = true ∧ reach .load 0 = true ∧
    s.isOpen 0 = true ∧ s.isOpen 1 = false ∧ (s.stream 0).trigq.length + (s.stream 0).sent.length < 64 ∧
    fltE (plan s (trigReq 0 true .store (BitVec.ofNat 64 (2 ^ 52))) anyFmt) = true ∧
    (s.stream 0).sent = [⟨5, false⟩] ∧
    64 ≤ ((s.setStream 0 { s.stream 0 with trigq := List.replicate 64 ⟨0, false⟩ }).stream 0).trigq.length := by decide +kernel

/-- Page tables that map 256 MiB. -/
def openWorld : State := { strWorld [] with tlb := page 0 ⟨1, 0xF3, 0⟩ }
/-- A launch of stream 0 that can bind. -/
def bindable : State :=
  let s := (strWorld []).rset oFE 1
  { s with launches := [(1, { Launch.none with bytes := legalRecord, stream := some 0, count := 1, held := true, begun := true })] }

/-- StreamEventsComplete: a stream opens, its table and records accessible; records of each kind, the oldest spilled one refilled. -/
theorem witness_opens :
    let s := openWorld
    let ow := owlAgent (s.streamCtx 1)
    s.isOpen 1 = false ∧ bit 0x10000 16 = true ∧ arrives s ow .engRead (s.rget (oCmuS 1 0) 0) 2048 = true ∧
    arrives s ow .engWrite (s.rget (oCmuS 1 0x30) 0) 64 = true ∧ allowed s ow .engRead [(s.rget (oCmuS 1 0) 0, 2048)] = true ∧
    (∀ l < 64, allowed s ow .engWrite [(s.metaAddr 1 l, 64)] = true) := by decide +kernel
theorem witness_queue :
    let s := strWorld [qrec 1 16 4096]
    isBits (qrec 1 16 4096) = true ∧ isLaunchRec (qrec 2 0 4096) = true ∧ isBits (qrec 2 0 4096) = false ∧ recOk (qrec 9 0 0) = false ∧
    (s.stream 0).hw = [qrec 1 16 4096] ∧ (s.stream 0).spilled = 0 ∧ okE (rdBytes s (feAgent 0) .engRead (s.spillAddr 0 0) 64) = true ∧
    s.isStopped 0 = false ∧ (s.stream 0).bits.length + (s.stream 0).taken.length < 8 ∧ (s.rset (oCmuS 0 0x38) 8).isStopped 0 = true ∧
    lookupT (s.stream 0).copies 0 = none ∧ lookupT [(0, LaunchCopy.read legalRecord)] 0 = some (.read legalRecord) ∧
    okIs (rdBytes s (feAgent 0) .engRead 0x7000 256) legalRecord = true ∧ legalFor s ⟨0, some 0, 0, none, 0, false, none, 0⟩ legalRecord = true ∧
    legalFor s ⟨0, some 0, 0, none, 0, false, none, 0⟩ listRecord = true := by decide +kernel
theorem witness_opportunity :
    let s := bindable
    s.feOn = true ∧ s.isReady 0 = true ∧ (s.stream 0).aged = false ∧ s.canBind (s.launch 1) 0 = true ∧ (s.launch 1).isList = false ∧
    (s.launch 1).nslab = 0 ∧ (s.launch 1).nacc = 0 ∧ fixedPieces 1 0 0 = [] ∧
    (match s.opportunity 0 with | .ok (some t) => quietHo t 1 | _ => false) = true := by decide +kernel
/-- Stream 0 with a BITS record queued, and one taken. -/
def decoding : State :=
  let s := strWorld []
  (s.setStream 0 { s.stream 0 with bits := [⟨0, 16, false, 0⟩], taken := [⟨4096, 16, false, 0⟩] }).rset oDEC 1
theorem witness_take_bits :
    let s := decoding
    let ws := (List.range 128).filter fun k => s.isOpen k && s.strEng k == 0 && !s.isStopped k && !(s.stream k).bits.isEmpty
    bit (s.rget oDEC 0) 0 = true ∧ s.decUp 0 = true ∧ ws = [0] ∧ tget 0 s.decPtr (s.effClass 0) = 0 := by decide +kernel
theorem witness_picture :
    let s := decoding
    let ag := decAgent 0 0
    (s.stream 0).taken = [⟨4096, 16, false, 0⟩] ∧ s.strEng 0 = 0 ∧ s.isOpen 0 = true ∧ s.isStopped 0 = false ∧ s.bufFree 0 0 = true ∧
    pict.frame = (s.stream 0).frames ∧ allowed s ag .engRead (cutSpan 2 4096 16) = true ∧
    (match exportViews s ag 0 with
      | .ok (some x) => x.fit 8 8 7 && [x.luma, x.chroma, x.motion, x.residual].all (fun v => v.aligned 0 v.step && v.e ≤ 8) &&
          ((List.range 8).all fun y : Nat => rowFine s x.luma false [.engWrite] 0 (8 / x.luma.e) [y, 0]) &&
          ((List.range 16).all fun i : Nat => rowFine s x.chroma false [.engWrite] 0 (2 / x.chroma.e) [(i % 4 : Nat), (i / 4 : Nat), 0]) &&
          rowFine s x.motion false [.engWrite] 0 (4 / x.motion.e) [0, 0, 0] && rowFine s x.residual false [.engWrite] 0 (2 / x.residual.e) [0, 0]
      | _ => false) = true ∧
    (s.stream 0).trigq.length + (s.stream 0).sent.length < 64 := by decide +kernel

/-- GraphRunEventsComplete: a run starts, shed and not; each kind of node; the node limit; a graph load. -/
theorem witness_runs :
    let s := (strWorld []).rset oFE 1
    let h := (s.setStream 0 { s.stream 0 with shed := 1 }).rset (oRAS + 0x70) 0x201
    let v := h.rget (oRAS + 0x70) 0
    (s.stream 0).trigq = [⟨7, false⟩] ∧ s.feOn = true ∧ (s.stream 0).run = none ∧ s.replaying 0 = false ∧
    s.hoWaits 1 = false ∧ bit (s.rget (oRAS + 0x70) 0) 0 = false ∧ bit v 0 = true ∧ bits v 2 1 ≤ bits (h.feStr 0) 1 0 ∧
    (h.stream 0).shed % max (bits v 15 8) 1 ≠ 0 ∧ logFine h = true := by decide +kernel
theorem witness_nodes :
    (∀ k ∈ [1, 2, 3, 4, 5, 6, 7], (runNow (atNodeOf k [] id)).at? = some (0, nodeNow (atNodeOf k [] id)) ∧
      fieldAt (nodeNow (atNodeOf k [] id)) 0 1 = k ∧ (runNow (atNodeOf k [] id)).status = 0) ∧
    (atNodeOf 4 [] id).runDrained 1 true = true ∧ (runNow (atNodeOf 6 [] fun r => { r with status := 2 })).status ≠ 0 ∧
    65536 ≤ (runNow (atNodeOf 6 [] fun r => { r with steps := 65536 })).steps := by decide +kernel

/-- A LAUNCH node whose record is at 7000h, without the planner; and one with the planner, whose record is at 7100h. -/
def launchNode : State := atNodeOf 1 (leBytes 8 0x7000) id
def planNode (f : GRun → GRun) : State := atNodeOf 1 (leBytes 8 0x7100 ++ leBytes 8 0 ++ [0x20, 0, 1, 0]) f
/-- The launch of the planned node. -/
def planned : Launch := { Launch.none with bytes := listRecord, ctx := 0, stream := some 0 }
/-- What the planner decides: 1 grant, 2 skip, 3 fail, 4 wait. -/
def planOf (s : State) : Nat := match planLaunch (ownOp s) 0 0 9 planned with
  | .ok (_, .grant _) => 1 | .ok (_, .skip _) => 2 | .ok (_, .fail _) => 3 | .ok (_, .wait _ _) => 4 | .error _ => 0
theorem witness_launch_nodes :
    (let s := launchNode; let b := nodeNow s; let r := runNow s
     bit (fieldAt b 24 2) 5 = false ∧ r.waitFor = none ∧ okIs (rdBytes s (feAgent 0) .engRead (fieldAt b 8 8) 256) legalRecord = true ∧
     nodeRecord r b legalRecord = legalRecord ∧ legalFor s ⟨0, some 0, fieldAt b 16 8, none, 0, false, some 1, 0⟩ legalRecord = true ∧
     ((s.setLaunch 1 { Launch.none with finished := true }).launch 1).finished = true) ∧
    (let s := planNode id; let b := nodeNow s; let r := runNow s
     bit (fieldAt b 24 2) 5 = true ∧ s.hoWaits 1 = false ∧ okIs (rdBytes s (feAgent 0) .engRead (fieldAt b 8 8) 256) listRecord = true ∧
     r.producer b planned = some (0, 9) ∧ quietHo s 1 = true) := by decide +kernel
theorem witness_planner :
    let s := planNode id
    planOf s = 1 ∧ planOf (s.setStream 0 { s.stream 0 with layers := [] }) = 3 ∧ planOf (s.setCredit 0 (-1)) = 4 ∧
    legalFor s ⟨0, some 0, fieldAt (nodeNow s) 16 8, none, 0, false, some 1, 0⟩ listRecord = true ∧
    (let t := ((s.rset (oFeStr 0) 0x30000).rset (oFeStr 0 + 0x30) 0x410000)
     planOf { t with mem := t.mem ++ [⟨0x410000, 1⟩, ⟨0x410008, 6⟩] } = 2) := by decide +kernel
theorem witness_planner_waits :
    let s := planNode fun r => { r with plan := some ⟨0, 1, 0, 0, listRecord⟩ }
    let t := planNode fun r => { r with relax := some 0 }
    (0 : Int) ≤ s.credit 0 ∧ (s.setCredit 0 (-1)).credit 0 < 0 ∧ (s.stream 0).credited ≠ 1 ∧ logFine (ownOp s) = true ∧ s.hoWaits 1 = false ∧
    allowed s (s.owl 0) .engRead [(s.metaAddr 0 0, 64)] = true ∧ okE (rdBytes s (s.owl 0) .engRead (s.metaAddr 0 0) 64) = true ∧
    (match (ownOp t).nodeRelax 0 0 (runNow t) with | .ok _ => true | .error _ => false) = true := by decide +kernel
theorem witness_node_effects :
    (let s := atNodeOf 3 (leBytes 8 0x7000 ++ leBytes 8 4096 ++ leBytes 4 16) id
     (match copySpans (feAgent 0) 4096 (cutSpan 2 0x7000 16) s with | .ok (_, ok) => ok | .error _ => false) = true ∧
     allowed s (feAgent 0) .engRead (cutSpan 2 0x7000 16) = true ∧ allowed s (feAgent 0) .engWrite (spansAt 4096 16) = true) ∧
    (let s := atNodeOf 4 [1] id; bit (fieldAt (nodeNow s) 8 8) 0 = true ∧ okE (rdBytes s (feAgent 0) .engRead 0 8) = true) ∧
    (∀ c ∈ [0, 1, 2, 3, 4], fieldAt (nodeNow (atNodeOf 5 [0, 0, 0, 0, c] id)) 12 2 = c.toNat) ∧
    (let s := atNodeOf 7 (leBytes 8 4096) id
     s.runDrained 1 false = true ∧ arrives s (feAgent 0) .engWrite 4096 32 = true) := by
  decide +kernel
theorem witness_graph_load :
    let s := strWorld []
    s.gload = none ∧ s.graphInUse 0 = false ∧ ((atNodeOf 6 [] id).rset (oFeStr 0 + 8) 0x100).graphInUse 0 = true ∧
    ueIn s.ue 0 64 = false ∧ fencedAt s 2 0 64 = none ∧ badNode 1 0 (chunksOf 64 1 (nodeOf 6 [1])) = none := by decide +kernel
theorem witness_node_cmu :
    let s := atNodeOf 2 [0, 0, 9, 0] id
    let q := { s with owlQ := [(0, 7)] }.setCore 0 { s.core 0 with queues := [[], [], [], [], [], [.word { QEntry.zero with seq := 7 }]] }
    s.owlMay (s.owlKey 0) = true ∧ (s.rset oCMU 0).owlMay (s.owlKey 0) = false ∧ q.owlMay (s.owlKey 0) = false ∧
    (match cmOutcome (ownOp s) (cmEval (ownOp s) 0 0 8 0) with | .ok (_, 4) => true | _ => false) = true ∧
    (let t := ownOp (put s 0x400010 [0]); match cmOutcome t (cmEval t 0 0 9 0) with | .ok (_, 0) => true | _ => false) = true := by decide +kernel

/-- PowerAndErrorEventsComplete: the limiter on; power and temperature at the limits and above; the trip; a good location and a lost
tile record; each kind of unit leaves service. -/
theorem witness_power :
    let s := State.reset.rset (oRamp 0) 1
    bit (s.rget (oRamp 0) 1) 0 = true ∧ s.rget (oRamp 0 + 0x10) 0 < 2 ^ 63 ∧ s.rget (oRamp 0 + 8) 12600 < 2 ^ 62 ∧ s.throttling = false ∧
    bit (s.rget oEAU 1) 0 = true ∧ bit ((s.rset oEAU 0).rget oEAU 1) 0 = false ∧
    10 * s.rget (oEAU + 0x6000) 550 < 5501 ∧ 5500 ≤ 10 * s.rget (oEAU + 0x6000) 550 ∧
    110 ≤ (s.rset (oEAU + 0x6010) 110).rget (oEAU + 0x6010) 0 ∧ ueIn s.ue 0 1 = false ∧ ({ s with throttling := true }).throttling = true := by
  decide +kernel
theorem witness_scrub :
    let s := (strWorld []).rset (oMMU + 0x1000) 0x500001
    let s := { s with ue := [0, 65536], mem := s.mem ++ lay [(0x500000, leBytes 8 1 ++ leBytes 8 0x51), (0x510000, leBytes 8 1 ++ leBytes 8 0x52),
      (0x520010, leBytes 8 0x6F3 ++ leBytes 8 1)] }
    ueIn s.ue 0 1 = true ∧ s.reuseTiles 0 = [] ∧ ueIn s.ue 65536 1 = true ∧ s.reuseTiles 65536 = [(0, 0, 0)] ∧
    okE ((s.operation (2 ^ 128 + 65536)).scrubTile 0 0 0) = true := by decide +kernel
theorem witness_units_leave :
    (List.range 4).all (State.reset.hoPaused 0) = false ∧ heardAll State.reset = true ∧ quietHo State.reset 0 = true ∧
    (∀ u ∈ [UnitKind.core, .channel, .decoder, .link, .fi], State.reset.unitUp u 2 = true) ∧ (State.reset.hart 4).cont = none ∧
    bit (State.reset.rget (oRAS + 0x40) 0xFFF) 1 = true := by
  decide +kernel

/-- A hand-over of kind `k` in a state. -/
def inHo (k st : Nat) (v : Bool) : State := (State.reset.rset (oHo k + 4) st).setHandOver k { HandOver.reset with verified := v }

/-- ResetsHeartbeatsAndKeysComplete: a probation, a reset of a function, the states of the heartbeats, and the conditions of a
key load. -/
theorem witness_resets :
    bit ((State.reset.rset (oHo 0 + 0x28) 2).rget (oHo 0 + 0x28) 0) 1 = true ∧ State.reset.ringOn 1 0 = false ∧
    (let s := ((strWorld []).rset (oRing 1 0 + 8) 0x101)
     s.ringOn 1 0 = true ∧ bit (s.ringCtl 1 0) 8 = true ∧ arrives s (feAgent (s.fnCtx 1)) .engWrite (s.rget (oRing 1 0 + 0x18) 0) 8 = true) ∧
    ((inHo 1 4 true).handOver 1).todo = [] ∧ ((inHo 1 4 true).setHandOver 1 { HandOver.reset with todo := [.start] }).handOver 1 ≠ HandOver.reset ∧
    (inHo 1 4 true).hoState 1 = 4 ∧ (inHo 1 5 true).hoState 1 = 5 ∧ State.reset.hoState 1 = 0 ∧ bit (State.reset.rget oHBW 1) 0 = true ∧
    heardAll (inHo 1 5 true) = true ∧ (State.reset.handOver 0).beats = 0 ∧ State.reset.rget (oHBW + 0x50) 0 < 2 ∧
    2 ≤ (State.reset.rset (oHBW + 0x50) 2).rget (oHBW + 0x50) 0 := by decide +kernel
theorem witness_keys :
    let s := ({ State.reset with attested := [0] }.rset (oMMU + 0x80) 1).rset 0x3008 1
    s.locked = true ∧ bits (s.rget 0x3008 0) 7 0 ≠ 0 ∧ s.attested.contains (bits (s.rget 0x3008 0) 11 8) = true ∧
    ueIn s.ue 0 32 = false ∧ s.chanOk (channelOf s 0) = true ∧ State.reset.locked = false ∧
    bits (State.reset.rget 0x3008 0) 7 0 = 0 := by decide +kernel

/-- HandOverEventsComplete: each state of the machine, verified and not, with units at the barrier and missing. -/
theorem witness_hand_over :
    State.reset.hoActive = false ∧ (inHo 1 1 false).hoActive = true ∧
    (∀ st ∈ [1, 2, 3, 4, 5, 6, 7], (inHo 1 st true).hoState 1 = st ∧ heardAll (inHo 1 st true) = true) ∧ State.reset.hoState 0 = 0 ∧
    (State.reset.handOver 0).todo = [] ∧ ((inHo 1 1 false).handOver 1).todo = [] ∧ okE (State.reset.hoStep 0 .erase []) = true ∧
    (∀ w ∈ [HoWork.commit, .back], ((State.reset.setHandOver 0 { HandOver.reset with todo := [w] }).handOver 0).todo = [w]) ∧
    ((inHo 1 1 false).handOver 1).verified = false ∧ ((inHo 1 1 true).handOver 1).verified = true ∧ 5 ∈ (inHo 1 2 true).hoUnits 1 ∧
    5 ∉ ((inHo 1 2 true).handOver 1).arrived ∧
    bit ((State.reset.rset (oHo 0 + 0x28) 2).rget (oHo 0 + 0x28) 0) 1 = true := by decide +kernel
/-- An image verifies or does not: which of the two, the uninterpreted digest and signature say (log 10, log 89). -/
theorem witness_verification : (inHo 1 1 false).slotVerifies 1 1 = true ∨ (inHo 1 1 false).slotVerifies 1 1 = false := by
  cases (inHo 1 1 false).slotVerifies 1 1 <;> decide
/-- Every unit at the barrier. -/
theorem witness_gathered :
    let s := inHo 1 1 true
    (s.hoUnits 1).all (fun u => ((s.setHandOver 1 { s.handOver 1 with arrived := s.hoUnits 1 }).handOver 1).arrived.contains u) = true := by
  decide +kernel

/-- HostAccessesComplete: the BARs open and not, a window that reads and writes, one without a context, and a trigger's. -/
theorem witness_windows :
    let s := (strWorld []).rset oHL 0x100
    let r (acc : Acc) (va : Nat) : Req := ⟨fnAgent s 0, acc, va, 8, false, true⟩
    ({ s with barsOpen := true } : State).barsOpen = true ∧ State.reset.barsOpen = false ∧
    (match plan s (r .load trigBase) anyFmt with | .ok ps => ps.map Piece.tgt == [.trig 0 0] | _ => false) = true ∧ s.isOpen 0 = true ∧
    bit (s.rget oHL 0) 8 = true ∧ bit ((strWorld []).rget oHL 0) 8 = false ∧ fltE (plan s (r .load (2 ^ 52)) anyFmt) = true ∧
    (match plan s (r .load 0) anyFmt with | .ok ps => okE (readPieces s (r .load 0) ps) && ps.map Piece.tgt == [.hbm 0] | _ => false) = true ∧
    (match plan s (r .atomic 0) anyFmt with
      | .ok ps => okE (readPieces s (r .atomic 0) ps) && okE (writePieces (r .atomic 0) s ps (List.replicate 8 1)) | _ => false) = true ∧
    (match plan s (r .store 0) anyFmt with | .ok ps => okE (writePieces (r .store 0) s ps (List.replicate 8 1)) | _ => false) = true := by
  decide +kernel
/-- A page of a peer's request: level 2, no attributes. -/
def peerPage : PeerPage := { (default : PeerPage) with level := 2 }
theorem witness_cxl_and_peer :
    let s := ((((strWorld []).rset (oHL + 0x200) 1).rset (oHL + 0x218) (2 ^ 30)).rset (oHL + 0x480) 16).rset (oHL + 0x408) 0x70001
    let ag (k : Nat) : Agent := ⟨.peer k, 12, k, .m, 0, 0, ⟨true, false, false, false, false⟩⟩
    bits (s.rget (oHL + 0x200) 0) 1 0 = 1 ∧ 64 + 8 ≤ min (bits (s.rget (oHL + 0x218) 0) 38 30 * 2 ^ 30) hbmEnd ∧ ueIn s.ue 64 8 = false ∧
    fencedAt s 2 64 72 = none ∧
    s.selfPeer = some 0 ∧ s.peerOf 7 = some 1 ∧ s.peerOf 9 = none ∧ s.peerValid 1 = true ∧ 64 % pageSize peerPage.level + 8 ≤ pageSize peerPage.level ∧
    hbmEnd < (hbmEnd - 4) + 8 ∧ (64 % 8 : Nat) = 0 ∧ okE (readPieces s ⟨ag 1, .atomic, 64, 8, false, true⟩ [peerPiece peerPage 64 8]) = true ∧
    okE (writePieces ⟨ag 1, .atomic, 64, 8, false, true⟩ s [peerPiece peerPage 64 8] (List.replicate 8 1)) = true ∧
    (∀ acc ∈ [Acc.load, .store, .atomic], tgtFault s ⟨ag 1, acc, 64, 8, false, true⟩ (peerPiece peerPage 64 8) = none) ∧ xfOf (peerPiece peerPage 64 8) = none ∧
    okE (readPieces s ⟨ag 1, .load, 64, 8, false, true⟩ [peerPiece peerPage 64 8]) = true ∧
    okE (writePieces ⟨ag 1, .store, 64, 8, false, true⟩ s [peerPiece peerPage 64 8] (List.replicate 8 1)) = true := by decide +kernel

/-- Ring 0 of the physical function on, its TAIL at 3, with records at its base. -/
def ringed (b : List Byte) : State :=
  { ((((strWorld []).rset (oRing 0 0 + 8) 1).rset (oRing 0 0 + 0xC) 3).rset oHL 0x100) with mem := lay0 0 b }
/-- A batch of one BITS record. -/
def batchOne : List Byte := qrec 3 1 0 ++ qrec 1 16 4096 ++ qrec 4 0 0

theorem witness_rings :
    (ringed []).ringOn 0 0 = true ∧ (ringed []).ringHead 0 0 ≠ (ringed []).ringTail 0 0 ∧ bit ((ringed []).ringCtl 0 0) 8 = false ∧
    (ringed []).isOpen ((ringed []).ringStream 0 0) = true ∧ ((ringed []).stream 0).spilled = 0 ∧ ((ringed []).stream 0).hw = [] ∧
    (∀ b ∈ [qrec 1 16 4096, qrec 2 0 4096, batchOne], okIs ((ringed b).ringRead 0 0 0) (b.take 64) = true) ∧
    okE (rdBytes (ringed []) (feAgent 0) .engRead 4096 256) = true ∧ recOk (qrec 9 0 0) = false ∧ isBegin (qrec 9 0 0) = false ∧
    (∀ b ∈ [qrec 1 16 4096, qrec 2 0 4096], recOk b = true ∧ isBegin b = false) ∧ isBits (qrec 1 16 4096) = true ∧
    isLaunchRec (qrec 2 0 4096) = true ∧ isBits (qrec 2 0 4096) = false ∧ (strWorld []).isOpen 1 = false ∧
    (let s := ringed []; s.spillSize 0 ≤ ((s.setStream 0 { s.stream 0 with spilled := 64 }).stream 0).spilled) ∧
    (∀ b ∈ [qrec 1 16 4096, qrec 2 0 4096], (match (ringed b).ringTake 0 0 with | .ok (some _) => true | _ => false) = true) := by
  decide +kernel
/-- A write of EN = 1 for a stream of another tenant: the ring off, on, and on with a head shadow. -/
theorem witness_refused :
    let v : BitVec 32 := 1
    let on (s : State) (c : Nat) : State := s.rset (oRing 2 0 + 8) c
    (∀ s ∈ [State.reset, on State.reset 1, on (strWorld []) 0x101],
      bit v.toNat 0 = true ∧ (2 : Nat) ≠ 0 ∧ s.streamTenant (bits v.toNat 7 1) + 1 ≠ 2) ∧
    State.reset.ringOn 2 0 = false ∧ (on State.reset 1).ringOn 2 0 = true ∧ bit ((on State.reset 1).ringCtl 2 0) 8 = false ∧
    (on (strWorld []) 0x101).ringOn 2 0 = true ∧
    (let u := ((on (strWorld []) 0x101).rset (oRing 2 0 + 8) (setBits ((on (strWorld []) 0x101).ringCtl 2 0) 0 0 0)).ringStat 2 0 0x20
     bit (u.ringCtl 2 0) 8 = true ∧ arrives u (feAgent (u.fnCtx 2)) .engWrite (u.rget (oRing 2 0 + 0x18) 0) 8 = true) := by
  decide +kernel
theorem witness_batch :
    let s := ringed batchOne
    isBegin (qrec 3 1 0) = true ∧ recLen (qrec 3 1 0) + 2 ≤ sub32 (s.ringTail 0 0) (s.ringHead 0 0) ∧ s.hasRoom 0 1 = true ∧
    (match batchScan s 0 0 0 1 2 0 with
      | .ok (some ms) => commitAux ms == 0 && (match batchCheck s 0 0 0 1 0 ms with | .ok (.ok l) => l.length == 1 | _ => false) | _ => false) = true ∧
    (let u := s.setStream 0 { s.stream 0 with hw := List.replicate 32 [], spilled := 64 }; u.hasRoom 0 1 = false) ∧
    (let u := ringed (qrec 3 1 0 ++ qrec 9 0 0 ++ qrec 4 0 0)
     match batchScan u 0 0 0 1 2 0 with
      | .ok (some ms) => (match batchCheck u 0 0 0 1 0 ms with | .ok (.error e) => e.status != 0 | _ => false) | _ => false) = true ∧
    (match s.batch 0 0 with | .ok (some _) => true | _ => false) = true := by decide +kernel
theorem witness_register_write :
    let s := strWorld []
    (∀ o ∈ [oEAU, oRAS + 0x78, oMMU + 0xA8, 0xFFFF0], okE (plan s (s.regReq .host .store o 4) anyFmt) = true ∧ o < 2 ^ 32 ∧ keyReg (canonOff o) = false) ∧
    s.regMay .host = true ∧ s.regMay (.hart 0) = false ∧ findReg regMap (canonOff 0xFFFF0) = none ∧
    ((findReg regMap oEAU).map fun x => x.1.acc) = some .rw ∧ ((findReg regMap oEAU).map fun x => x.1.base) = some oEAU ∧
    ((findReg regMap (oRAS + 0x78)).map fun x => x.1.acc) = some .w1c ∧ ((findReg regMap (oMMU + 0xA8)).map fun x => x.1.acc) = some .ro ∧
    (match regWrite s .host oEAU 4 0 with | .ok (some _) => true | _ => false) = true := by decide +kernel
/-! ## The checks of WellFormed -/

/-- A header whose WAIT names the reserved code 1. -/
def badWait : Hdr := ⟨1, 0⟩

theorem test_wf_wait : (Instr.wf (.vsync badWait), Instr.wf (.vsync ⟨8, 0⟩)) = (false, true) := by decide +kernel
theorem test_wf_sig : Instr.wf (.vsync ⟨0, 1⟩) = false := by decide +kernel
theorem test_wf_source : Instr.wf (.vand ⟨0, 0⟩ 1 0x27 3 ⟨0, false⟩) = false := by decide +kernel
theorem test_wf_destination : Instr.wf (.vand ⟨0, 0⟩ 0x21 2 3 ⟨0, false⟩) = false := by decide +kernel
theorem test_wf_predicate : Instr.wf (.vand ⟨0, 0⟩ 1 2 3 ⟨0, true⟩) = false := by decide +kernel
theorem test_wf_type : Instr.wf (.vadd ⟨0, 0⟩ .u8 1 2 3 ⟨0, false⟩) = false := by decide +kernel
theorem test_wf_scope : Instr.wf (.fenceC 0 6) = false := by decide +kernel
theorem test_wf_engine : Instr.wf (.tlRead 6 1) = false := by decide +kernel
theorem test_wf_mask : Instr.wf (.ldAcqB 17 0 1 2) = false := by decide +kernel
theorem test_wf_shift : Instr.wf (.rvIntegerOp false (.shImm .slliw 1 2 32)) = false := by decide +kernel
theorem test_wf_pause : Instr.wf (.rvFence 0 1 0 0 0) = false := by decide +kernel
theorem test_wf_die : Instr.wf (.pageWalkStart 3) = false := by decide +kernel
theorem test_wf_push : Instr.wf (.engineWordPush 0x3E) = false := by decide +kernel
theorem test_wf_convert : (Instr.wf (.vcvt ⟨0, 0⟩ .f32 .i8 1 2 ⟨0, false⟩), Instr.wf (.vcvt ⟨0, 0⟩ .f32 .f32 1 2 ⟨0, false⟩)) = (false, false) := by decide +kernel
theorem test_wf_int_to_float : (Instr.wf (.vf2i ⟨0, 0⟩ .f32 .f32 1 2 ⟨0, false⟩), Instr.wf (.vi2f ⟨0, 0⟩ .i8 .i8 1 2 ⟨0, false⟩)) = (false, false) := by decide +kernel
theorem test_wf_compare : Instr.wf (.vcmp ⟨0, 0⟩ .i32 .eq 1 0x3F 2 ⟨0, false⟩) = false := by decide +kernel
theorem test_wf_vector_memory : (Instr.wf (.vld ⟨0, 0⟩ .f32 ⟨1, 0, 1, 0, ⟨0, false⟩⟩), Instr.wf (.vst ⟨0, 0⟩ .f32 ⟨0x30, 0, 0, 0, ⟨0, false⟩⟩)) = (false, false) := by decide +kernel
theorem test_wf_planes : Instr.wf (.vldb ⟨0, 0⟩ 9 ⟨1, 0, 0, 0, ⟨0, false⟩⟩) = false := by decide +kernel
theorem test_wf_loop : Instr.wf (.vloop ⟨0, 0⟩ 4 3 0) = false := by decide +kernel
theorem test_wf_defer : (Instr.wf (.vdefer ⟨0, 0⟩ ⟨1, 2, 0, 0, ⟨0, false⟩⟩), Instr.wf (.vdtake ⟨0, 0⟩ ⟨1, 1, 0, 0, ⟨0, false⟩⟩)) = (false, false) := by decide +kernel
theorem test_wf_multiply : (Instr.wf (.tmma ⟨0, 0⟩ .i8 ⟨15, 0, false, 1, 0, false⟩), Instr.wf (.tmma ⟨0, 0⟩ .i8 ⟨0, 1, true, 0, 0, false⟩)) = (false, false) := by decide +kernel
theorem test_wf_grouped : Instr.wf (.tmmaGrp ⟨0, 0⟩ .i8 ⟨1, 0, false, 0, 0, false⟩) = false := by decide +kernel
theorem test_wf_tiles : Instr.wf (.taccClr ⟨0, 0⟩ 255 1) = false := by decide +kernel
theorem test_wf_read_only : Instr.wf (.tcpy ⟨0, 0⟩ ⟨1, 2, 0, true⟩) = false := by decide +kernel
theorem test_wf_signature : Instr.wf (.sigHash ⟨0, 0⟩ .i8 ⟨1, 0, 0⟩) = false := by decide +kernel
theorem test_wf_numbers :
    [Instr.wf (.vectorResultLand 192), Instr.wf (.weightBlockReload 0 16384), Instr.wf (.fetchQueueRead 0 4), Instr.wf (.commandComplete 0 6 0),
     Instr.wf (.sgTimeout 388), Instr.wf (.streamClose 128), Instr.wf (.triggerCountLoad 256 true 0), Instr.wf (.decodeTakeBits 8),
     Instr.wf (.csmPoolAdd 2 0), Instr.wf (.functionLevelReset 0), Instr.wf (.hbwBeat 3), Instr.wf (.mmuInvAll (.hart 388))] =
    List.replicate 12 false := by decide +kernel
theorem test_wf_host :
    (Instr.wf (.hostBar2Access 17 0 (.read 4)), Instr.wf (.cxlMemAccess 0 (.read 65)), Instr.wf (.hlRingEnable 0 8 0),
     Instr.wf (.peerRequest 0 ⟨peerPage, 0⟩ (.write []))) = (false, false, false, false) := by decide +kernel

/-! ## Decoding: words written out from the encoding tables -/

theorem test_decode_addi : okIs (decode32 0b000000000101_00000_000_00001_0010011) (.rvIntegerOp false (.opImm .addi 1 0 5)) = true := by decide +kernel
theorem test_decode_cap : okIs (decode32 0b0000000_00110_00101_000_00000_0001011) (.cap 5 6) = true := by decide +kernel
theorem test_decode_vadd : okIs (decodeEngine 0x00000000420C003F) (.vadd ⟨0, 0⟩ .i32 1 2 3 ⟨0, false⟩) = true := by decide +kernel
theorem test_decode_tmma : okIs (decodeEngine 0x000020000118403F) (.tmma ⟨0, 0⟩ .i8 ⟨0, 1, false, 3, 0, true⟩) = true := by decide +kernel
theorem test_decode_cpy : okIs (decodeEngine 0x00003000000FF23F) (.cpy ⟨0, 0⟩ 0xFF 2 false) = true := by decide +kernel
theorem test_decode_gath : okIs (decodeEngine 0x000040000500913F) (.gath ⟨0, 0⟩ ⟨5, 9, 1⟩) = true := by decide +kernel
theorem test_decode_sig_hash : okIs (decodeEngine 0x000051700F10003F) (.sigHash ⟨0, 0⟩ .i8 ⟨0, 15, 1⟩) = true := by decide +kernel
theorem test_decode_cm_eval : okIs (decodeEngine 0x00006000C480883F) (.cmEval ⟨0, 0⟩ 3 9 17) = true := by decide +kernel

/-! ## Single steps -/

/-- The state after the first step of a part that fetches a word. -/
def ran (s : State) (n w : Nat) : State := nextOf (step (s.withFetchWord n w)) s
/-- x`r` of hart 0. -/
def xOf (s : State) (r : Reg) : Nat := ((s.hart 0).rx r).toNat

theorem test_addi : (xOf (ran State.reset 32 0x00500093) 1, (ran State.reset 32 0x00500093).me.pc) = (5, 4) := by decide +kernel
/-- c.li x1, -1 is two bytes long. -/
theorem test_compressed : (xOf (ran State.reset 16 0x50FD) 1, (ran State.reset 16 0x50FD).me.pc) = (2 ^ 64 - 1, 2) := by decide +kernel
/-- lui sign-extends its upper immediate. -/
theorem test_lui : xOf (ran State.reset 32 0x800000B7) 1 = 0xFFFFFFFF80000000 := by decide +kernel
/-- A write of x0 is discarded. -/
theorem test_x0 : xOf (ran State.reset 32 0x00500013) 0 = 0 := by decide +kernel
/-- divu by zero gives all ones. -/
theorem test_divu_by_zero : xOf (ran (regs3 State.reset 7 0 0) 32 0x0220D1B3) 3 = 2 ^ 64 - 1 := by decide +kernel
/-- ld reads the word itself that stands at address 0. -/
theorem test_ld : xOf (ran State.reset 32 0x00003083) 1 = 0x3083 := by decide +kernel
/-- cap loads both capture slots. -/
theorem test_cap : ((ran (regs3 State.reset 7 9 0) 32 0x0020800B).me.sc0, (ran (regs3 State.reset 7 9 0) 32 0x0020800B).me.sc1) = (7, 9) := by
  decide +kernel
/-- An engine word goes to its queue as command 1. -/
theorem test_push :
    let t := ran State.reset 64 0x000020000118403F
    ((t.cont 0).pushed, (t.core 0).queues.map List.length, t.me.pc) = ([0, 1, 0, 0, 0, 0], [0, 1, 0, 0, 0, 0], 8) := by decide +kernel
/-- A U-mode ecall enters the S-mode handler with cause 8 and its pc saved. -/
theorem test_ecall :
    let t := nextOf (exec .rvEcall (framed .u)) (framed .u)
    (t.me.mode, t.me.csrGet 0x142, t.me.csrGet 0x141, t.me.serving) = (.s, 8, 0, true) := by decide +kernel
/-- The handler's return goes back to the instruction. -/
theorem test_tret :
    let t := nextOf (exec .tret handling) handling
    (t.me.mode, t.me.pc, t.me.serving) = (.u, 0, false) := by decide +kernel

/-- Vector registers 2 and 3 hold a word in lane 0. -/
def twoRegs (a b : Nat) : State := vecAt 0 0 fun v => { v with rs := lay [(1024, leBytes 4 a), (1536, leBytes 4 b)] }
/-- Lane 0 of what a word puts in flight. -/
def inFlight (i : Instr) (s : State) : Nat := (((nextOf (exec i s) s).vr.fly.map fun r => (r.data.headD 0).toNat).getLastD 0)

theorem test_vadd_wraps : inFlight (.vadd ⟨0, 0⟩ .i32 1 2 3 ⟨0, false⟩) (twoRegs 0xFFFFFFFF 2) = 1 := by decide +kernel
theorem test_vadds_saturates : inFlight (.vadds ⟨0, 0⟩ .i8 1 2 3 ⟨0, false⟩) (twoRegs 0x7F80 0x01FF) = 0x7F80 := by decide +kernel
theorem test_vmulh : inFlight (.vmulh ⟨0, 0⟩ .i32 1 2 3 ⟨0, false⟩) (twoRegs 0xFFFFFFFF 2) = 0xFFFFFFFF := by decide +kernel
theorem test_vsra : inFlight (.vsra ⟨0, 0⟩ .i16 1 2 3 ⟨0, false⟩) (twoRegs 0x80008000 0x00040001) = 0xF800C000 := by decide +kernel
/-- 1 + 1 = 2, and 1 + 2^-24 rounds to 1. -/
theorem test_vfadd :
    (inFlight (.vfadd ⟨0, 0⟩ .f32 1 2 3 ⟨0, false⟩) (twoRegs 0x3F800000 0x3F800000),
     inFlight (.vfadd ⟨0, 0⟩ .f32 1 2 3 ⟨0, false⟩) (twoRegs 0x3F800000 0x33800000)) = (0x40000000, 0x3F800000) := by decide +kernel
/-- 3 * 5 + ... the source of C is the destination field's own register: 2 * 3 + 2. -/
theorem test_vmac : inFlight (.vmac ⟨0, 0⟩ .i32 1 2 3 2 ⟨0, false⟩) (twoRegs 2 3) = 8 := by decide +kernel
/-- FP32 1.5 becomes BF16 3FC0h. -/
theorem test_vcvt : inFlight (.vcvt ⟨0, 0⟩ .bf16 .f32 1 2 ⟨0, false⟩) (twoRegs 0x3FC00000 0) = 0x3FC0 := by decide +kernel
theorem test_vrsum : inFlight (.vrsumI8 ⟨0, 0⟩ 1 2 ⟨0, false⟩) (twoRegs 0x01FF7F80 0) = 0xFFFFFFFF := by decide +kernel

/-- 5 * 3 / 2 = 7.5 rounds to 8; RELU makes -5 zero. -/
theorem test_epilogue :
    let set (act : Nat) : List Byte := leBytes 8 (0x50 + 4 * act) ++ List.replicate 56 0 ++ leBytes 4 3 ++ List.replicate 28 0 ++ [1] ++ List.replicate 31 0
    ((epiInt (set 0) [] 0 5).1, (epiInt (set 1) [] 0 (2 ^ 32 - 5)).1) = (8, 0) := by decide +kernel

/-- A fill repeats its 8 bytes; a copy takes the source's bytes. -/
theorem test_fill :
    let s := engBase 2 4096 0x0807060504030201
    mgets (nextOf (exec (.cpyFill ⟨0, 0⟩ 9 0) s) s).mem 4096 11 = [1, 2, 3, 4, 5, 6, 7, 8, 1, 2, 0] := by decide +kernel
theorem test_copy :
    let s := put (engBase 2 4096 5000) 4096 [7, 8, 9]
    mgets (nextOf (exec (.cpy ⟨0, 0⟩ 1 0 false) s) s).mem 5000 3 = [7, 8, 0] := by decide +kernel
/-- Row 1 of a 4 by 4 tensor gathered into the slice. -/
theorem test_gath :
    let s := put (put (engBase 3 0x5000 alBase) 0x5000 [1]) 65540 [1, 2, 3, 4]
    mgets (nextOf (exec (.gath ⟨0, 0⟩ ⟨0, 0, 0⟩) s) s).mem (sliceLoc 0 0) 4 = [1, 2, 3, 4] := by decide +kernel
theorem test_tacc_clr :
    let s := put (engBase 1 0 0) (accLoc 0 1 0) [5]
    mgets (nextOf (exec (.taccClr ⟨0, 0⟩ 1 0) s) s).mem (accLoc 0 1 0) 1 = [0] := by decide +kernel

/-- A barrier of two arrivals: the second completes the phase. -/
theorem test_barrier :
    let s := (regs3 (part .u) 3 0 0).setBar (0, 3) ⟨2, 1, 0, 0⟩
    let t := nextOf (exec (.hbArrive 1) s) s
    ((t.bar (0, 3)).ph, (t.bar (0, 3)).cnt) = (1, 0) := by decide +kernel
/-- The lowest masked tag, and -1 when there is none. -/
theorem test_tag_ffr :
    let s := withCont (regs3 (part .u) 0xC 1 0) fun c => { c with tags := 0x18 }
    (xOf (nextOf (exec (.tagFfr 3 1) s) s) 3, xOf (nextOf (exec (.tagFfr 3 2) s) s) 3) = (3, 2 ^ 64 - 1) := by decide +kernel
/-- The CRC-32 of the digits 1 to 9 is CBF43926h. -/
theorem test_crc : crc32 [0x31, 0x32, 0x33, 0x34, 0x35, 0x36, 0x37, 0x38, 0x39] = 0xCBF43926 := by decide +kernel
/-- The AES-256 example of FIPS 197, C.3. -/
theorem test_aes :
    aesBlock (List.range 32) ((List.range 16).map fun i => 17 * i) =
      [0x8E, 0xA2, 0xB7, 0xCA, 0x51, 0x67, 0x45, 0xBF, 0xEA, 0xFC, 0x49, 0x90, 0x4B, 0x49, 0x60, 0x89] := by decide +kernel

/-! ## Witness of StepRunsTheDecodedInstruction -/

/-- A hart that runs, a word at the head of M's queue, a word that the vector unit issues, and an event. -/
theorem witness_step :
    let s := ({ badBlock with agenda := [] }.setCore 0 { badBlock.core 0 with
      queues := [[.word { QEntry.zero with word := 0x00000000420C003F, num := 1 }], [.word { QEntry.zero with word := 0x000020000118403F, num := 1 }], [], [], [], []] })
    let f := { State.reset.withFetchWord 32 0x00500093 with agenda := [] }
    f.hartRuns 0 = true ∧ (f.asHart 0).interrupted = false ∧ s.hartRuns 0 = true ∧ s.coreOk 0 = true ∧
    okE (fetchAt (f.asHart 0) 0 2) = true ∧ okE (fetchAt (f.asHart 0) 0 4) = true ∧
    (s.cont 0).held 1 = false ∧ s.waitHolds 0 { QEntry.zero with word := 0x000020000118403F, num := 1 } = true ∧
    (s.core 0).preempt = .none ∧ s.engLive 0 1 < engHolds 1 ∧
    (match s.vAct 0 with | .issue _ false => true | _ => false) = true ∧
    Instr.wf .thermalTrip = true ∧ eventRow .thermalTrip = true := by decide +kernel

/-- StepRunsTheDecodedInstruction: a hart 0 in U mode whose supervisor software interrupt is pending and enabled. -/
theorem witness_step_interrupted :
    let s := (framed .u).setHart 0 (((framed .u).hart 0).csrSet 0x144 2 |>.csrSet 0x104 2)
    s.halted = false ∧ ({ s with agenda := [] } : State).hartRuns 0 = true ∧ (({ s with agenda := [] } : State).asHart 0).interrupted = true := by
  decide +kernel

/-- HartInstructionsDecodeAsEncoded, EngineWordsDecodeAsEncoded: instructions of each length, and an engine word. -/
theorem witness_encodings :
    Instr.wf (.cap 5 6) = true ∧ (encode (.cap 5 6)).isSome = true ∧ (encode (.rvIntegerOp false (.opImm .addi 1 0 5))).isSome = true ∧
    (encode (.engineWordPush 0x3F)).isSome = true ∧ (encodeEngine (.vsync ⟨0, 0⟩)).isSome = true ∧
    okE (decode32 0x00500093) = true ∧ okE (decodeEngine 0x00000000420C003F) = true := by decide +kernel

/-- StepKeepsMemoryCanonical: a state with something in memory, and a step of it. -/
theorem witness_canonical :
    (State.reset.withFetchWord 32 0x00500093).mem.wf = true ∧ runs (step (State.reset.withFetchWord 32 0x00500093)) = true := by decide +kernel

/-- R383: a free slab first, then a read-only one, then the storage of the continuation with the lower PRIO. -/
theorem test_victim_order :
    let hold (k p slot : Nat) (s : State) : State :=
      let s := s.setCont k { Cont.fresh with stat := .suspended, home := some 0, core := some 0, slot := slot, prio := k }
      (s.setCore 0 { s.core 0 with slots := tset (s.core 0).slots slot k }).givePiece 0 p k
    let s := hold 0 1 3 (hold 2 0 4 (hold 1 2 5 State.reset))
    let t := s.setSlcOwn 0 0 (s.slcOwn 0 0 ||| 0x200)
    s.candidates 0 false [0, 1, 2, 9] 3 = [9, 1, 2, 0] ∧ t.candidates 0 false [0, 1, 2, 9] 3 = [9, 0, 1, 2] ∧
      t.candidates 0 true [0, 1, 2, 9] 3 = [9] := by decide +kernel
end Sys2Proof.Tests
end

section
/-! SUPPORT. What the state holds after reset (R7, R122, R226): every table is empty, so that each component reads as its default and
each device register as the reset value of its row. -/

namespace Sys2Proof.Machine

/-! ## Harts, cores and streams -/

theorem hart_reset (h : Nat) : State.reset.hart h = hartReset h := rfl

theorem core_reset (n : Nat) : State.reset.core n = Core.reset := rfl

/-- Hart 0 of a core is an even hart below 384 (R226). -/
theorem mode_hartReset (h : Nat) : (hartReset h).mode = if h < 384 ∧ h % 2 = 0 then .u else .m := by
  simp [hartReset, Hart.reset]

theorem mode_reset_core_hart0 {n : Nat} (hn : n < 192) : (State.reset.hart (2 * n)).mode = .u := by
  rw [hart_reset, mode_hartReset, if_pos (by omega)]

theorem mode_reset_core_hart1 (n : Nat) : (State.reset.hart (2 * n + 1)).mode = .m := by
  rw [hart_reset, mode_hartReset, if_neg (by omega)]

theorem mode_reset_management {n : Nat} (hn : 384 ≤ n) : (State.reset.hart n).mode = .m := by
  rw [hart_reset, mode_hartReset, if_neg (by omega)]

/-- No register is stored at reset, so that each reads as the default that its reader names. -/
theorem rget_reset {d : Nat} (off : Nat) (hd : d < 2 ^ 64) : State.reset.rget off d = d := Nat.mod_eq_of_lt hd

theorem coreOk_reset (n : Nat) : State.reset.coreOk n = true := by
  have hbit : n % 64 < 64 := Nat.mod_lt n (by decide)
  rw [State.coreOk, rget_reset _ (by decide), bit, m64, Nat.testBit_two_pow_sub_one, decide_eq_true hbit]

theorem isOpen_reset (k : Nat) : State.reset.isOpen k = false := by
  rw [State.isOpen, State.feStr, rget_reset _ (by decide), bit, Nat.zero_testBit]

/-! ## Device registers -/

/-- The rows whose registers the model computes from the rest of the state, by the offset of the first. -/
def computedBases : List Nat :=
  [oFE + 0x20, oFE + 0x4020, oFE + 0x4024, oFE + 0x402C, oCMU + 0x1003C, oDEC + 8, 0x01300008, 0x01300018, oMMU + 0xC0, oMMU + 0xC8,
   oCore 0 + 0x108, oCore 0 + 0x2008, oCore 0 + 0x5008]

/-- A row whose registers read as what is stored. -/
def RegRow.stored (r : RegRow) : Bool := r.acc != .wo && !computedBases.contains r.base

theorem regVal_of_stored {r : RegRow} (h : r.stored = true) (s : State) (off i j : Nat) :
    regVal s r off i j = s.rget off (r.resetAt j) := by
  simp only [RegRow.stored, computedBases, Bool.and_eq_true, Bool.not_eq_true', List.contains_cons, Bool.or_eq_false_iff, bne,
    List.contains_nil, and_true] at h
  simp only [regVal, h, Bool.false_eq_true, if_false]

/-- The reset value that the register map gives the register whose first byte is at `off`, when its row is stored (R7). -/
def storedReset (off : Nat) : Option Nat :=
  match findReg regMap off with
  | some (r, b, _, j) => if b = off ∧ r.stored = true then some (r.resetAt j) else none
  | none => none

theorem findReg_of_storedReset {off v : Nat} (h : storedReset off = some v) :
    ∃ r i j, findReg regMap off = some (r, off, i, j) ∧ r.stored = true ∧ r.resetAt j = v := by
  unfold storedReset at h
  split at h
  case h_1 r b i j hfind =>
    split at h
    case isTrue hrow =>
      obtain ⟨rfl, hstored⟩ := hrow
      exact ⟨r, i, j, hfind, hstored, Option.some.inj h⟩
    case isFalse => cases h
  case h_2 => cases h

/-- Four bytes of a stored register after reset, from its first byte or from its fifth, are that half of its reset value. -/
theorem regRead4_reset {r : RegRow} {off b i j : Nat} (hkey : keyReg off = false) (hfind : findReg regMap off = some (r, b, i, j))
    (hstored : r.stored = true) (hv : r.resetAt j < 2 ^ 64) (mgmt : Bool) :
    regRead4 State.reset mgmt off = (if b == off then r.resetAt j else r.resetAt j / 2 ^ 32) % 2 ^ 32 := by
  simp only [regRead4, hkey, hfind, regVal_of_stored hstored, rget_reset b hv, Bool.false_and, Bool.false_eq_true, if_false]

/-- A stored 32-bit register reads its reset value after reset. -/
theorem regRead_reset32 {off v : Nat} (hcanon : canonOff off = off) (hkey : keyReg off = false) (hreset : storedReset off = some v)
    (hv : v < 2 ^ 32) (mgmt : Bool) : regRead State.reset mgmt off 4 = v := by
  obtain ⟨r, i, j, hfind, hstored, rfl⟩ := findReg_of_storedReset hreset
  have hlow := regRead4_reset hkey hfind hstored (by omega) mgmt
  calc regRead State.reset mgmt off 4 = regRead4 State.reset mgmt off := by simp [regRead, hcanon]
    _ = r.resetAt j := by rw [hlow, if_pos (beq_self_eq_true off), Nat.mod_eq_of_lt hv]

/-- A stored 64-bit register reads its reset value after reset: an 8-byte read joins its two halves. -/
theorem regRead_reset64 {off v : Nat} (hcanon : canonOff off = off) (hkey : keyReg off = false) (hkey4 : keyReg (off + 4) = false)
    (hwide : findReg regMap (off + 4) = findReg regMap off) (hreset : storedReset off = some v) (hv : v < 2 ^ 64) (mgmt : Bool) :
    regRead State.reset mgmt off 8 = v := by
  obtain ⟨r, i, j, hfind, hstored, rfl⟩ := findReg_of_storedReset hreset
  have hlow := regRead4_reset hkey hfind hstored hv mgmt
  have hhigh := regRead4_reset hkey4 (hwide.trans hfind) hstored hv mgmt
  calc regRead State.reset mgmt off 8
      = regRead4 State.reset mgmt off + 2 ^ 32 * regRead4 State.reset mgmt (off + 4) := by simp [regRead, hcanon]
    _ = r.resetAt j % 2 ^ 32 + 2 ^ 32 * (r.resetAt j / 2 ^ 32 % 2 ^ 32) := by simp [hlow, hhigh]
    _ = r.resetAt j := by omega

/-- Settles O56: after reset every table is empty, so that harts and cores read as their defaults, and the registers named are
stored registers, which read the reset values that the register map gives them. -/
theorem resetState : Obligations.ResetState := by
  have hHarts : ∀ n < 192, (State.reset.hart (2 * n)).mode = .u ∧ (State.reset.hart (2 * n + 1)).mode = .m ∧
      (State.reset.hart (2 * n)).cont = none :=
    fun n hn => ⟨mode_reset_core_hart0 hn, mode_reset_core_hart1 n, rfl⟩
  have hManagement : ∀ n, 384 ≤ n → n < 388 → (State.reset.hart n).mode = .m := fun n hn _ => mode_reset_management hn
  have hContext : ∀ n, (State.reset.hart n).dclass = 0x50 ∧ (State.reset.hart n).resv = none := fun n => ⟨rfl, rfl⟩
  have hQueues : ∀ n, (State.reset.core n).queues = [[], [], [], [], [], []] ∧ State.reset.coreOk 0 = true :=
    fun n => ⟨congrArg Core.queues (core_reset n), coreOk_reset 0⟩
  refine ⟨reset_mem_wf, hHarts, hManagement, hContext, hQueues, isOpen_reset, rfl, rfl, rfl, rfl, ?_, ?_, ?_, ?_, ?rasCoreOk, ?_, ?_, ?_⟩
  case rasCoreOk => exact regRead_reset64 rfl rfl rfl rfl rfl (by decide) false
  all_goals exact regRead_reset32 rfl rfl rfl (by decide) false

end Sys2Proof.Machine
end

section
/-! SUPPORT. The control instructions of hart 0 that touch registers alone (R258, R269, R270, R271, R276, R278): when they run, and how each
completes. -/

namespace Sys2Proof.Machine

/-! ## An instruction completes on hart 0 -/

/-- Completing an instruction is what the statements call `completed`. -/
theorem retire_eq_completed (s : State) (len : Nat) (h : Hart) : s.retire len h = completed s len h := retire_eq s len h

/-- An instruction of hart 0 that a loop body permits runs for the hart's continuation. -/
theorem onHart0Span_of_runsAs {s : State} {cid : Nat} (hr : runsAs s true cid) (i : Instr) (k : Nat → Out) :
    s.onHart0Span i k = k cid := by
  obtain ⟨h0, hmode, hcont⟩ := hr
  simp only [true_and] at hmode
  rcases hmode with hm | hm <;> simp [State.onHart0Span, h0, hm, hcont]

theorem inSpan_of_outsideBody {s : State} (ho : outsideBody s) : s.inSpan = false := by
  simpa [State.inSpan, outsideBody] using ho

/-- Outside a loop body every instruction of hart 0 runs for the hart's continuation. -/
theorem onHart0_of_runsAs {s : State} {cid : Nat} (hr : runsAs s true cid) (ho : outsideBody s) (i : Instr) (k : Nat → Out) :
    s.onHart0 i true k = k cid := by
  calc s.onHart0 i true k = s.onHart0Span i k := by simp [State.onHart0, State.onHart0Span, inSpan_of_outsideBody ho]
    _ = k cid := onHart0Span_of_runsAs hr i k

/-- A settle leaves every continuation. -/
@[simp] theorem cont_settle (s : State) (cid : Nat) : s.settle.cont cid = s.cont cid := by rw [settle_eq]; rfl

theorem lowestBit_zero : lowestBit 0 = none := by simp [lowestBit]

theorem lowestBit_of_lowest {w : Word} {t : Nat} (ht : t < 64) (hset : w.getLsbD t = true)
    (hlow : ∀ j < t, w.getLsbD j = false) : lowestBit w = some t := by
  simpa [lowestBit, List.find?_range_eq_some, ht, hset] using hlow

section
variable {s : State} {cid : Nat} (hr : runsAs s true cid) (rd rs1 rs2 : Reg)
include hr

theorem exec_cap :
    exec (.cap rs1 rs2) s = .next (completed s 4 { s.me with sc0 := s.me.rx rs1, sc1 := s.me.rx rs2 }) := by
  rw [← retire_eq_completed]
  exact onHart0Span_of_runsAs hr _ _

variable (ho : outsideBody s)
include ho

theorem exec_vwsetV (halign : (s.me.rx rs1).toNat % 512 = 0) (hmax : (s.me.rx rs1).toNat ≤ 49152) :
    exec (.vwsetV rs1) s = .next (completed s 4 { s.me with dviewV := (s.me.rx rs1).toNat }) := by
  rw [← retire_eq_completed]
  exact (onHart0_of_runsAs hr ho _ _).trans (if_pos (by simp [halign, hmax]))

theorem exec_vwsetM (halign : (s.me.rx rs1).toNat % 2048 = 0) (hmax : (s.me.rx rs1).toNat ≤ 32768) :
    exec (.vwsetM rs1) s = .next (completed s 4 { s.me with dviewM := (s.me.rx rs1).toNat }) := by
  rw [← retire_eq_completed]
  exact (onHart0_of_runsAs hr ho _ _).trans (if_pos (by simp [halign, hmax]))

theorem exec_vwsetC (halign : (s.me.rx rs1).toNat % 32 = 0) (hmax : (s.me.rx rs1).toNat ≤ 768) :
    exec (.vwsetC rs1) s = .next (completed s 4 { s.me with dviewC := (s.me.rx rs1).toNat }) := by
  rw [← retire_eq_completed]
  exact (onHart0_of_runsAs hr ho _ _).trans (if_pos (by simp [halign, hmax]))

theorem exec_tlRead (e : BitVec 3) :
    exec (.tlRead e rd) s =
      .next (completed s.settle 4 (s.settle.me.wx rd (BitVec.ofNat 64 ((s.cont cid).tl.getD e.toNat 0)))) := by
  rw [← retire_eq_completed, ← cont_settle]
  exact onHart0_of_runsAs hr ho _ _

/-- tag.ffr gives the lowest masked tag, or −1. -/
theorem exec_tagFfr :
    exec (.tagFfr rd rs1) s = .next (completed s.settle 4 (s.settle.me.wx rd
      ((lowestBit ((s.cont cid).tags &&& s.me.rx rs1)).elim (-1) (BitVec.ofNat 64)))) := by
  rw [← retire_eq_completed, ← cont_settle s, ← settle_me s]
  refine (onHart0_of_runsAs hr ho _ _).trans ?_
  dsimp only
  cases lowestBit ((s.settle.cont cid).tags &&& s.settle.me.rx rs1) <;> rfl

theorem exec_tagClr :
    exec (.tagClr rs1) s =
      .next (completed (s.setCont cid { s.cont cid with tags := (s.cont cid).tags &&& ~~~(s.me.rx rs1) }) 4 s.me) := by
  rw [← retire_eq_completed]
  exact onHart0_of_runsAs hr ho _ _

/-- eng.stat of a number that has been pushed: 1 for a command completed, 2 for one faulted, 0 for one that is still busy. -/
theorem exec_engStat (e : BitVec 3) (hpushed : (s.me.rx rs1).toNat ≤ (s.cont cid).pushed.getD e.toNat 0) :
    exec (.engStat e rd rs1) s = .next (completed s.settle 4 (s.settle.me.wx rd
      (if (s.me.rx rs1).toNat ≤ (s.cont cid).tl.getD e.toNat 0 then 1
       else if (s.cont cid).faulted.any (fun l => l.eng == e.toNat && l.ent.num ≤ (s.me.rx rs1).toNat) then 2 else 0))) := by
  rw [← retire_eq_completed]
  refine (onHart0_of_runsAs hr ho _ _).trans ?_
  simp only [cont_settle, settle_me, nth, if_neg (Nat.not_lt.mpr hpushed), State.wrote4]
  split
  · rfl
  · split <;> rfl

theorem exec_mfence (m : BitVec 6) :
    exec (.mfence m) s = .next (completed s 4 { s.me with
      markers := s.me.markers ++
        ((List.range 6).filter fun e => m.getLsbD e).map fun e => (e, (s.core (coreOf s.hn)).seq) }) := by
  rw [← retire_eq_completed]
  exact onHart0_of_runsAs hr ho _ _

/-- mjoin completes once every marker has been reached, and else waits. -/
theorem exec_mjoin :
    exec .mjoin s = if s.me.markers.all (s.reached (coreOf s.hn)) then .next (completed s 4 { s.me with markers := [] })
      else .next s.stall := by
  rw [← retire_eq_completed]
  exact onHart0_of_runsAs hr ho _ _

end

/-- Settles O10: each instruction runs for the hart's continuation, and completes as its own lemma says. -/
theorem registerOnlyControlComplete : Obligations.RegisterOnlyControlComplete := by
  unfold Obligations.RegisterOnlyControlComplete
  intro s cid rd rs1 rs2 hr
  refine ⟨exec_cap hr rs1 rs2, fun ho => ⟨exec_vwsetV hr rs1 ho, exec_vwsetM hr rs1 ho, exec_vwsetC hr rs1 ho, exec_tlRead hr rd ho,
    ?ffrLowest, ?ffrNone, exec_tagClr hr rs1 ho, exec_engStat hr rd rs1 ho, exec_mfence hr ho, ?joined, ?waiting⟩⟩
  case ffrLowest =>
    intro t ht hset hlow
    rw [exec_tagFfr hr rd rs1 ho, lowestBit_of_lowest ht hset hlow, Option.elim_some]
  case ffrNone =>
    intro hnone
    rw [exec_tagFfr hr rd rs1 ho, hnone, lowestBit_zero, Option.elim_none]
  case joined =>
    intro hall
    rw [exec_mjoin hr ho, if_pos (List.all_eq_true.mpr hall)]
  case waiting =>
    rintro ⟨m, hm, hnot⟩
    rw [exec_mjoin hr ho, if_neg]
    intro hall
    simp [List.all_eq_true.mp hall m hm] at hnot

end Sys2Proof.Machine
end

section
/-! SUPPORT. The moves of accumulator tiles (R329, R335): what a step does, and where a move of several tiles differs from its tiles moved
at once. -/

namespace Sys2Proof.Machine

/-! ## MX_PROG of a move (R329) -/

theorem bits_moveProg_tiles {k : Nat} (num : Nat) (hk : k < 256) : bits (moveProg num k) 7 0 = k := by
  simp only [bits, moveProg, Nat.shiftRight_zero]
  omega

/-- A command goes on from the MX_PROG that it wrote. -/
theorem mxResumes_of_moveProg {c : Cont} {num k : Nat} (hp : c.mxProg = moveProg num k) (hk : k < 256) : c.mxResumes num = true := by
  have hvalid : bit (moveProg num k) 20 = true := by
    rw [bit, moveProg, Nat.testBit_eq_decide_div_mod_eq, decide_eq_true_eq]
    omega
  have hnum : bits (moveProg num k) 47 32 = num % 65536 := by
    simp only [bits, moveProg, Nat.shiftRight_eq_div_pow]
    omega
  simp [Cont.mxResumes, hp, hvalid, hnum]

/-! ## Steps of a move (R329, R335) -/

/-- The state between two tiles of the acting command's move: MX_PROG is `p`, and what was kept for a retry is forgotten. -/
def State.midMove (s : State) (p : Nat) : State := (s.mxGoesOn p).st.tookWalk s.cur.who

/-- A command of the M engine completes. -/
def State.moveEnds (s : State) : State := s.mxEnds.engDone 1 0

/-- The acting command's move of `n` tiles from `ct` on does tile `k` next: MX_PROG says so, or it starts on tiles that its continuation
holds. -/
def State.moveAt (s : State) (ct n k : Nat) : Prop :=
  (s.ec.mxResumes s.cur.ent.num = true ∧ bits s.ec.mxProg 7 0 = k) ∨
    (s.ec.mxResumes s.cur.ent.num = false ∧ (∀ i < n, s.tileOwned s.cur.core s.cur.ent.cid (s.cur.ent.cb + ct + i) = true) ∧ k = 0)

/-- A step of a move does one tile; the last completes the word. -/
theorem accMove_of_moveAt {s : State} {ct n k : Nat} {f : State → Nat → State} (hcur : (f s k).cur = s.cur) (h : s.moveAt ct n k) :
    s.accMove ct n f = .next (if k + 1 < n then (f s k).midMove (moveProg s.cur.ent.num (k + 1)) else (f s k).moveEnds) := by
  have hok : (!s.ec.mxResumes s.cur.ent.num &&
      !(List.range n).all fun i => s.tileOwned s.cur.core s.cur.ent.cid (s.cur.ent.cb + ct + i)) = false := by
    rcases h with ⟨hgo, -⟩ | ⟨-, hheld, -⟩
    · simp [hgo]
    · simpa using fun _ => hheld
  have hnext : (if s.ec.mxResumes s.cur.ent.num = true then bits s.ec.mxProg 7 0 else 0) = k := by
    rcases h with ⟨hgo, hk⟩ | ⟨hgo, -, rfl⟩
    · rw [if_pos hgo, hk]
    · simp [hgo]
  rw [State.midMove, hcur, State.accMove]
  simp only [hok, hnext, Bool.false_eq_true, if_false]
  split <;> rfl

theorem moveAt_midMove (s : State) (ct n : Nat) {k : Nat} (hk : k < 256) :
    (s.midMove (moveProg s.cur.ent.num k)).moveAt ct n k := by
  have hprog : (s.midMove (moveProg s.cur.ent.num k)).ec.mxProg = moveProg s.cur.ent.num k :=
    congrArg Cont.mxProg (cont_setCont_same s s.cur.ent.cid { s.ec with mxProg := moveProg s.cur.ent.num k })
  exact .inl ⟨mxResumes_of_moveProg hprog hk, by rw [hprog, bits_moveProg_tiles _ hk]⟩

/-! ## A whole move in an engine's turn -/

/-- Doing a tile neither reads nor writes MX_PROG, nor who acts. -/
def keepsProgress (f : State → Nat → State) : Prop :=
  ∀ s i, (f s i).cur = s.cur ∧ ∀ p, f (s.midMove p) i = (f s i).midMove p

/-- The key of an engine's operation is its word's, whatever Owl keeps: what was forgotten once needs no forgetting again. -/
theorem tookWalk_tookWalk {s : State} {c e : Nat} (hwho : s.cur.who = .engine c e) (w : Who) :
    (s.tookWalk w).tookWalk w = s.tookWalk w := by
  have hkey : (s.tookWalk w).opKey = s.opKey := by simp [State.opKey, hwho]
  conv => lhs; rw [State.tookWalk, hkey]
  simp [State.tookWalk]

theorem ec_setEc (s : State) (c : Cont) : (s.setEc c).ec = c := cont_setCont_same s s.cur.ent.cid c

theorem setEc_setEc (s : State) (c d : Cont) : (s.setEc c).setEc d = s.setEc d := setCont_setCont s s.cur.ent.cid c d

theorem ec_midMove (s : State) (p : Nat) : (s.midMove p).ec = { s.ec with mxProg := p } := ec_setEc s _

/-- The end of an engine's command forgets what its last step forgot already. -/
theorem engDone_tookWalk {s : State} {c e : Nat} (hwho : s.cur.who = .engine c e) (k tx : Nat) :
    (s.tookWalk s.cur.who).engDone k tx = s.engDone k tx :=
  let t := (s.popWord k).setCont s.cur.ent.cid (((s.popWord k).cont s.cur.ent.cid).inFlight k s.cur.ent tx 0)
  tookWalk_tookWalk (s := t) hwho s.cur.who

theorem moveEnds_midMove {s : State} {c e : Nat} (hwho : s.cur.who = .engine c e) (p : Nat) :
    (s.midMove p).moveEnds = s.moveEnds :=
  calc (s.midMove p).moveEnds
      = (((s.setEc { s.ec with mxProg := p }).setEc { (s.midMove p).ec with mxProg := 0, mxTab := [], mxFlags := 0 }).tookWalk
          s.cur.who).engDone 1 0 := rfl
    _ = s.moveEnds := by
        rw [setEc_setEc, ec_midMove]
        exact engDone_tookWalk (s := s.mxEnds) hwho 1 0

section
variable {f : State → Nat → State} (hf : keepsProgress f)
include hf

theorem cur_foldl_tiles (s : State) (ks : List Nat) : (ks.foldl f s).cur = s.cur := by
  induction ks generalizing s with
  | nil => rfl
  | cons k ks ih => exact (ih (f s k)).trans (hf s k).1

/-- In an engine's turn, a move that goes on with tile `k` completes after the others, as if nothing had come between them. -/
theorem again_of_moveAt {i : Instr} {c e ct n : Nat} (hn : n ≤ 256) (hi : ∀ u, exec i u = u.accMove ct n f) (m : Nat) :
    ∀ (k : Nat) (s : State), s.cur.who = .engine c e → s.moveAt ct n k → k + m + 1 = n →
      again i (m + 1) s = .next ((List.range' k (m + 1)).foldl f s).moveEnds := by
  induction m with
  | zero =>
    intro k s hwho hat hk
    simp [again, hi, accMove_of_moveAt (hf s k).1 hat, hk]
  | succ m ih =>
    intro k s hwho hat hk
    have hcur := (hf s k).1
    have hwho' : (f s k).cur.who = .engine c e := by rw [hcur, hwho]
    let p := moveProg (f s k).cur.ent.num (k + 1)
    have hexec : exec i s = .next ((f s k).midMove p) := by
      rw [hi, accMove_of_moveAt hcur hat, if_pos (by omega)]
      simp only [p, hcur]
    calc again i (m + 1 + 1) s
        = again i (m + 1) ((f s k).midMove p) := by rw [again, hexec]
      _ = .next ((List.range' (k + 1) (m + 1)).foldl f ((f s k).midMove p)).moveEnds :=
          ih (k + 1) _ hwho' (moveAt_midMove _ _ _ (by omega)) (by omega)
      _ = .next (((List.range' (k + 1) (m + 1)).foldl f (f s k)).midMove p).moveEnds := by
          rw [List.foldl_hom (State.midMove · p) fun u j => (hf u j).2 p]
      _ = .next ((List.range' k (m + 1 + 1)).foldl f s).moveEnds := by
          rw [moveEnds_midMove (by rw [cur_foldl_tiles hf, hwho'])]
          rfl
end

theorem setTile_cur (s : State) (n t : Nat) (bs : List Byte) : (s.setTile n t bs).cur = s.cur := rfl

theorem setTile_midMove (s : State) (p n t : Nat) (bs : List Byte) :
    (s.midMove p).setTile n t bs = (s.setTile n t bs).midMove p := rfl

theorem rsPut_midMove (s : State) (p a : Nat) (bs : List Byte) : (s.midMove p).rsPut a bs = (s.rsPut a bs).midMove p := rfl

/-- An accumulator move, with its first tile, its tiles less one, and what it does to one of them (R335). -/
inductive IsMove : Instr → BitVec 8 → BitVec 8 → (State → Nat → State) → Prop
  | clr (h : Hdr) (ct n1 : BitVec 8) :
    IsMove (.taccClr h ct n1) ct n1 fun s i => s.setTile s.cur.core (s.mxaTile ct.toNat i) (List.replicate 512 0)
  | rd (h : Hdr) (m : Mxa) :
    IsMove (.taccRd h m) m.ct m.n1 fun s i => s.rsPut (s.mxaReg m i) (s.tile s.cur.core (s.mxaTile m.ct.toNat i))
  | wr (h : Hdr) (m : Mxa) :
    IsMove (.taccWr h m) m.ct m.n1 fun s i => s.setTile s.cur.core (s.mxaTile m.ct.toNat i) (s.rsGet (s.mxaReg m i) 512)
  | tr (h : Hdr) (m : Mxa) :
    IsMove (.ttr h m) m.ct m.n1 fun s i => s.rsPut (s.mxaReg m i) (transposed (s.tile s.cur.core (s.mxaTile m.ct.toNat i)))
  | mov (h : Hdr) (m : Mxa) :
    IsMove (.tmov h m) m.ct m.n1 fun s i =>
      s.setTile s.cur.core (s.mxaTile m.ct.toNat i) (untransposed (s.rsGet (s.mxaReg m i) 512))

section
variable {i : Instr} {ct n1 : BitVec 8} {f : State → Nat → State} (h : IsMove i ct n1 f)
include h

theorem exec_of_isMove (s : State) : exec i s = s.accMove ct.toNat (n1.toNat + 1) f := by
  cases h <;> rfl

theorem keepsProgress_of_isMove : keepsProgress f := by
  cases h with
  | clr | wr | mov => exact fun s i => ⟨setTile_cur s _ _ _, fun p => setTile_midMove s p _ _ _⟩
  | rd | tr => exact fun s i => ⟨rfl, fun p => rsPut_midMove s p _ _⟩

/-- Where an engine acts, a move on tiles that its continuation holds ends as if its tiles had been done at once. -/
theorem again_move_of_engine {s : State} {c e : Nat} (hwho : s.cur.who = .engine c e)
    (hstart : s.ec.mxResumes s.cur.ent.num = false)
    (hheld : ∀ j ≤ n1.toNat, s.tileOwned s.cur.core s.cur.ent.cid (s.cur.ent.cb + ct.toNat + j) = true) :
    again i (n1.toNat + 1) s = .next ((List.range (n1.toNat + 1)).foldl f s).moveEnds := by
  have hat : s.moveAt ct.toNat (n1.toNat + 1) 0 := .inr ⟨hstart, fun j hj => hheld j (Nat.le_of_lt_succ hj), rfl⟩
  rw [List.range_eq_range']
  exact again_of_moveAt (keepsProgress_of_isMove h) n1.isLt (exec_of_isMove h) n1.toNat 0 s hwho hat (by omega)
end

/-! ## A move in no engine's turn -/

/-- The part in the turn of an event, where the key of an operation is the one that Owl keeps (R183): here 1, beside an entry of
operation 0 that waits. A continuation holds accumulator tiles 0 to 31 of core 0. -/
def moveInEventTurn : State := { State.reset with
  cores := [(0, { Core.reset with accs := [(0, 0)] })]
  owlOp := { OwlOp.none with held := [((.part, 0), 0)], key := 1 }
  cur := { Cursor.zero with who := .part } }

/-- The operations that wait for Owl in the next state. -/
def heldAfter : Out → List ((Who × Nat) × Nat)
  | .next t => t.owlOp.held
  | _ => []

/-- Refutes O35: the statement takes every state, also one in which no engine acts. There each step of a tacc.clr of two tiles forgets
what Owl keeps under the key of the moment: the first step forgets operation 1 and sets the key to 0, so that the second forgets
operation 0 too, where the two tiles cleared at once forget operation 1 alone. In an engine's turn the key is the word's own and does not
change, and this clause holds (`again_move_of_engine`). -/
theorem not_accumulatorAndTableWordsComplete : ¬ Obligations.AccumulatorAndTableWordsComplete := by
  unfold Obligations.AccumulatorAndTableWordsComplete
  intro h
  obtain ⟨hclr, -⟩ := h moveInEventTurn ⟨0, 0⟩
  obtain ⟨hwhole, -⟩ := hclr 0 1
  have hstart : moveInEventTurn.ec.mxResumes moveInEventTurn.cur.ent.num = false := rfl
  have hsteps := hwhole hstart (by decide)
  have hforgotten : heldAfter (again (.taccClr ⟨0, 0⟩ 0 1) 2 moveInEventTurn) = [] := by decide +kernel
  have hkept : heldAfter (again (.taccClr ⟨0, 0⟩ 0 1) 2 moveInEventTurn) = [((.part, 0), 0)] := congrArg heldAfter hsteps
  exact List.cons_ne_nil _ _ (hkept.symm.trans hforgotten)

end Sys2Proof.Machine
end
